-- ==== Sys2Proof/Word.lean ====
section
/-! DEFINITION. The word types of TPB (10_state.md, 20_memory.md R70, R84). -/

namespace Sys2Proof

/-- A byte is 8 bits in every space (R70). -/
abbrev Byte := BitVec 8

/-- A 16-bit quantity: the countdown registers and the sequence number (R21, R35). -/
abbrev Half := BitVec 16

/-- The 32-bit address and length operands, "32-bit address" (R71, R100). -/
abbrev Addr := BitVec 32

/-- The index of a target system register, 4 bits by default (R70, `TSR`). -/
abbrev RegIx := BitVec 4

/-- The index of a target I/O register of the TPI instructions SIN and SOUT, 6 bits (R221). -/
abbrev IoIx := BitVec 6

end Sys2Proof
end

