-- ==== Sys2Proof/Config.lean ====
section
/-! DEFINITION. What an implementation of TPB fixes (00_scope.md R5): the types of its parameters, and the
parameters to which the spec gives no default, as constants without a body. The defaults the spec gives are
values of these types in Sys2Proof/Machine/Defaults.lean; the machine reads them from `State.cfg`, so that every
statement about every state is a statement about every implementation (log 6, log 7). -/

namespace Sys2Proof

/-- The three framing engines (R8, "Engine"). -/
inductive Engine where
  | updi | tpi | pdi
  deriving DecidableEq, Repr, Inhabited

/-- The memory types of the AVR-core scope (R106). -/
inductive MemKind where
  | sram | eeprom | flashPage | eepromPage | fuse | lock | signature | applFlash | bootFlash | userrow | prodsig | sib
  deriving DecidableEq, Repr, Inhabited

/-- The memory areas a device descriptor gives a base offset and a page size for (R29; log 34). -/
inductive Area where
  | sram | eeprom | flash | boot | fuse | lock | userrow | prodsig
  deriving DecidableEq, Repr, Inhabited

/-- The values of the command table binding `CT` (R30). -/
inductive Variant where
  | stub | v0 | v1 | v2 | v3 | v4 | v5
  deriving DecidableEq, Repr, Inhabited

/-- The TPI write granularity: 2, 4 or 8 bytes (R39). -/
inductive Chunk where
  | two | four | eight
  deriving DecidableEq, Repr, Inhabited

/-- The number of bytes of a chunk. -/
def Chunk.bytes : Chunk → Nat
  | .two => 2
  | .four => 4
  | .eight => 8

/-- How many address bytes a UPDI pointer-set carries: 2 or 3 (R119, `UPDI_ADDR_BYTES`). -/
inductive PtrWidth where
  | two | three
  deriving DecidableEq, Repr, Inhabited

/-- The number of address bytes. -/
def PtrWidth.bytes : PtrWidth → Nat
  | .two => 2
  | .three => 3

/-- Where the enable write of the collision-safe bracket stands (R193, `CSS_ENABLE_POS`). -/
inductive CssPos where
  | afterPtr | beforePtr
  deriving DecidableEq, Repr, Inhabited

/-- One step of a wire script (R116). -/
inductive ScriptStep where
  | tx (bs : List Byte)
  | rx (n : Nat)
  | expect (b : Byte)
  | ldcs (r : RegIx)
  | stcs (r : RegIx) (v : Byte)
  | poll (r : RegIx) (mask want : Byte)
  | attn
  | clocks (n : Nat)
  deriving DecidableEq, Repr, Inhabited

/-- A wire script: its steps, executed in order (R116). -/
abbrev Script := List ScriptStep

/-- Where a step of a variant's script acts: at an address the script fixes, at its address operand, or at the target's
NVM address or data register (R276, R284). -/
inductive NvmPlace where
  | fixed (a : Addr)
  | operand
  | addrReg
  | dataReg
  deriving DecidableEq, Repr, Inhabited

/-- What a step of a variant's script sends: bytes the script fixes, its byte operand, or the two low bytes of its
address operand, low byte first (R276, R284, R285). -/
inductive NvmBytes where
  | fixed (d : List Byte)
  | operand
  | address
  deriving DecidableEq, Repr, Inhabited

/-- One step of a variant's wire script: a helper of R270 or one of the four block primitives (R284, R285). The scripts
have two operands, an address and a byte. What a receiving step brings is discarded. -/
inductive NvmStep where
  | wait
  | cmd (c : Byte)
  | sendBytes (at' : NvmPlace) (d : NvmBytes)
  | sendWords (at' : NvmPlace) (d : NvmBytes)
  | recvBytes (at' : NvmPlace) (n : Nat)
  | recvWords (at' : NvmPlace) (n : Nat)
  deriving DecidableEq, Repr, Inhabited

/-- A variant's wire script. -/
abbrev NvmScript := List NvmStep

/-- One value for each memory type, the argument of a variant's scripts (R284: `pre_write(mt)`, `commit(mt)`,
`commit_erase_write(mt)`, `write_one(mt, a, b)`). -/
structure PerKind (α : Type) where
  sram : α
  eeprom : α
  flashPage : α
  eepromPage : α
  fuse : α
  lock : α
  signature : α
  applFlash : α
  bootFlash : α
  userrow : α
  prodsig : α
  sib : α
  deriving DecidableEq, Repr, Inhabited

/-- The entry of a memory type. -/
def PerKind.get {α : Type} (x : PerKind α) : MemKind → α
  | .sram => x.sram
  | .eeprom => x.eeprom
  | .flashPage => x.flashPage
  | .eepromPage => x.eepromPage
  | .fuse => x.fuse
  | .lock => x.lock
  | .signature => x.signature
  | .applFlash => x.applFlash
  | .bootFlash => x.bootFlash
  | .userrow => x.userrow
  | .prodsig => x.prodsig
  | .sib => x.sib

/-- The same value for every memory type. -/
def PerKind.all {α : Type} (a : α) : PerKind α := ⟨a, a, a, a, a, a, a, a, a, a, a, a⟩

/-- The variant record of R284. -/
structure VariantRec where
  nvmCtrlA : Addr
  nvmStatus : Addr
  nvmData : Addr
  nvmAddr : Addr
  busyMask : Byte
  errMask : Byte
  /-- the command bytes `C_NOP` to `C_WRITE_FUSE`; the scripts are built from them -/
  cNop : Byte
  cWritePage : Byte
  cErasePage : Byte
  cEraseWritePage : Byte
  cBufClear : Byte
  cWriteFuse : Byte
  pageErase : NvmScript
  preWrite : PerKind NvmScript
  commit : PerKind NvmScript
  commitEraseWrite : PerKind NvmScript
  writeOne : PerKind NvmScript
  initScript : NvmScript
  /-- `UPDI_ADDR_BYTES` of the variant -/
  addrBytes : PtrWidth
  deriving DecidableEq, Repr, Inhabited

/-- The UPDI engine's byte-level vocabulary and keys (R119, R120). -/
structure UpdiParams where
  synch : Byte
  ack : Byte
  opLdcs : Byte
  opStcs : Byte
  /-- `OP_KEY`; `keyHdr` is built from it -/
  opKey : Byte
  opSib : Byte
  opStPtr2 : Byte
  opStPtr3 : Byte
  opRepeat : Byte
  opLdInc1 : Byte
  opLdInc2 : Byte
  opStInc1 : Byte
  opStInc2 : Byte
  /-- `UPDI_ADDR_BYTES` of a variant without a record -/
  addrBytesOther : PtrWidth
  rStatusA : RegIx
  rCtrlA : RegIx
  rCtrlB : RegIx
  rKeySt : RegIx
  rReset : RegIx
  rSysSt : RegIx
  keystProg : Byte
  keystErase : Byte
  keystUrow : Byte
  sysstLock : Byte
  sysstProg : Byte
  sysstUrow : Byte
  cssOn : Byte
  cssOff : Byte
  initSeq : Script
  initAck : Byte
  applyKeySeq : Script
  leaveSeq : Script
  disableSeq : Script
  eraseProceedSeq : Script
  urowProceedSeq : Script
  urowFinalSeq : Script
  ptrAck : Bool
  cssPos : CssPos
  /-- `UPDI_KEY_HDR`, two bytes (R120) -/
  keyHdr : Vector Byte 2
  /-- `UPDI_KEY_PROG`, `UPDI_KEY_PROG_LEN` = 10 bytes (R5, R120) -/
  keyProg : Vector Byte 10
  /-- `UPDI_KEY_ERASE`, `UPDI_KEY_ERASE_LEN` = 8 bytes (R5, R120) -/
  keyErase : Vector Byte 8
  /-- `UPDI_KEY_UROW`, `UPDI_KEY_UROW_LEN` = 8 bytes (R5, R120) -/
  keyUrow : Vector Byte 8
  attnLowUs : Nat
  attnHighUs : Nat
  deriving DecidableEq, Repr, Inhabited

/-- The TPI engine's vocabulary, codes and gate (R121, R221, R224, R225, R228, R229). -/
structure TpiParams where
  opLdcs : Byte
  opStcs : Byte
  /-- `OP_KEY`, the first byte of the shared key -/
  opKey : Byte
  opPtrLo : Byte
  opPtrHi : Byte
  opLdInc : Byte
  opStInc : Byte
  opSout : Byte
  opSin : Byte
  rStatus : RegIx
  statusNvmen : Byte
  /-- `R_CTRL`, the guard-time register, and its value -/
  rCtrl : RegIx
  guardTime : Byte
  rIdent : RegIx
  activateSeq : Script
  ident : Byte
  /-- `TPI_ADDR_BYTES` -/
  addrBytes : Nat
  nvmCmd : IoIx
  nvmCsr : IoIx
  nvmBsy : Byte
  cmdNone : Byte
  cmdChipErase : Byte
  cmdSectionErase : Byte
  cmdWrite : Byte
  /-- `TPI_SIG_ADDR`, which R71's 16 bits do not bound here (log 61) -/
  sigAddr : Addr
  chunkTable : List (List Byte × Chunk)
  xmtAppl : Byte
  xetChip : Byte
  xetConfig : Byte
  vminMv : Nat
  deriving DecidableEq, Repr, Inhabited

/-- The PDI engine's vocabulary and NVM parameters (R121, R251, R253, R254, R258, R260). -/
structure PdiParams where
  opLdcs : Byte
  opStcs : Byte
  /-- `OP_KEY`, the first byte of the shared key -/
  opKey : Byte
  opSts8 : Byte
  opLds8 : Byte
  opPtr : Byte
  opRepeat : Byte
  opLdInc : Byte
  opStInc : Byte
  rStatus : RegIx
  statusNvmen : Byte
  /-- `R_CTRL`, the guard-time register, and its value -/
  rCtrl : RegIx
  guardTime : Byte
  /-- `R_RESET` and the value that requests the reset -/
  rReset : RegIx
  resetValue : Byte
  /-- `PDI_ADDR_BYTES` -/
  addrBytes : Nat
  activateSeq : Script
  preKeySeq : Script
  leaveSeq : Script
  spaceCode : Byte
  spaceData : Byte
  nvmCmd : Addr
  nvmCtrlA : Addr
  nvmStatus : Addr
  cmdex : Byte
  busy : Byte
  cRead : Byte
  cEraseBufFlash : Byte
  cEraseBufEeprom : Byte
  cEraseBufUserrow : Byte
  cLoadBufFlash : Byte
  cLoadBufEeprom : Byte
  cLoadBufUserrow : Byte
  cWriteAppl : Byte
  cWriteBoot : Byte
  cWriteFlash : Byte
  cWriteEeprom : Byte
  cWriteUserrow : Byte
  cEraseUserrow : Byte
  cWriteFuse : Byte
  cWriteLock : Byte
  cChipErase : Byte
  cErasePage : Byte
  deriving DecidableEq, Repr, Inhabited

/-- The numeric memory-type codes (R106). -/
structure MtCodes where
  sram : Byte
  eeprom : Byte
  flashPage : Byte
  eepromPage : Byte
  fuse : Byte
  lock : Byte
  signature : Byte
  applFlash : Byte
  bootFlash : Byte
  userrow : Byte
  prodsig : Byte
  sib : Byte
  deriving DecidableEq, Repr, Inhabited

/-- The command codes of the TPI scope: which code names which operation is the implementation's (R104). -/
structure TpiCodes where
  enterProgmode : Byte
  leaveProgmode : Byte
  erase : Byte
  writeMem : Byte
  readMem : Byte
  crc : Byte
  setParam : Byte
  deriving DecidableEq, Repr, Inhabited

/-- The assigned codes of the TPI scope (R104). -/
def TpiCodes.all (t : TpiCodes) : List Byte :=
  [t.enterProgmode, t.leaveProgmode, t.erase, t.writeMem, t.readMem, t.crc, t.setParam]

/-- The scope selectors of the four scopes (R101), and the command codes of the one scope whose mapping is a parameter
(R104); R5: the values are the implementation's. -/
structure Scopes where
  general : Byte
  avr : Byte
  tpi : Byte
  edbg : Byte
  tpiCodes : TpiCodes
  deriving DecidableEq, Repr, Inhabited

/-- Every implementation parameter the machine reads (R5). -/
structure Params where
  scopes : Scopes
  updi : UpdiParams
  tpi : TpiParams
  pdi : PdiParams
  /-- `TPIPDI_KEY`, shared by TPI and PDI, `TPIPDI_KEY_LEN` = 10 bytes (R5, R120). -/
  tpiPdiKey : Vector Byte 10
  mt : MtCodes
  /-- The kinds whose address is relative to `DD.base` (R72, `xlate`); none by default. -/
  xlateRelative : List MemKind
  etChip : Byte
  etPage : Byte
  /-- `ERASE_UNHONORED_RESULT` (R107). -/
  eraseUnhonored : Nat
  rspOk : Byte
  rspData : Byte
  rspFailed : Byte
  archUpdi : Byte
  archPdi : Byte
  clkCfgKhz : Nat
  /-- The rates `clk_lower` steps through (R34). -/
  clkTable : List Nat
  blockMaxUnits : Nat
  sibNvmverOffset : Nat
  sibIdOffset : Nat
  /-- Which variant each selecting character binds (R122, R183). -/
  sibMap : List (Byte × Variant)
  sigDummy : List Byte
  ddClearOnSignOn : Bool
  retryOnFailure : Bool
  linkLossOnGiveup : Bool
  eraseReentersProg : Bool
  v0 : VariantRec
  v3 : VariantRec
  v4 : VariantRec
  deriving DecidableEq, Repr, Inhabited

/-! Parameters without a default in the spec (92_eei_decisions.md, closing paragraph): constants without a body,
so that no proof can rest on their values (log 7). -/

/-- `UPDI_INIT_ACK`, the "fixed acknowledgement register value" (R119, N9). -/
opaque Config.updiInitAck : Byte
/-- `T_ATTN_LOW_US` (R117, N10). -/
opaque Config.attnLowUs : Nat
/-- `T_ATTN_HIGH_US` (R117, N10). -/
opaque Config.attnHighUs : Nat
/-- `TPI_VMIN_MV` (R229, N13). -/
opaque Config.tpiVminMv : Nat
/-- The tenth byte of `TPIPDI_KEY` (R120, N12). -/
opaque Config.tpiPdiKeyTenth : Byte
/-- The variant record of V3, every entry open (R284). -/
opaque Config.v3Record : VariantRec
/-- The variant record of V4, every entry open (R284). -/
opaque Config.v4Record : VariantRec

/-- What the dispatcher answers to a command: response code, count and data (R21, R108). -/
structure Response where
  code : Byte
  count : Nat
  data : List Byte
  deriving DecidableEq, Repr, Inhabited

/-- The dispatcher's own answer to `GET_PARAMETER` for a parameter number, as the operation of index `OPI`
(R109, "result is the dispatcher's"): a free value (log 24). -/
opaque Config.getParameterResponse : Byte → Nat → Response

/-! Architectural constants band0 fixes (R5) or a decision fixes. -/

/-- `SIB_LEN` (R31). -/
def Config.sibLen : Nat := 32
/-- `CONNECT_ATTEMPTS` (R181, D10). -/
def Config.connectAttempts : Nat := 4
/-- `CONNECT_ATTEMPT_MS` (R181, D10). -/
def Config.connectAttemptMs : Half := 16
/-- `WD_DEFAULT_MS` (R140). -/
def Config.wdDefaultMs : Half := 800
/-- `XFER_MAX_BYTES` (R76). -/
def Config.xferMaxBytes : Nat := 512
/-- `V4_FLASH_PAGE` (R279). -/
def Config.v4FlashPage : Addr := 512
/-- `IN_MAX_BYTES`: the inbound cap on an operation record (R110). -/
def Config.inMaxBytes : Nat := 540
/-- `UPDI_CLK_MIN_KHZ` (R33). -/
def Config.clkMinKhz : Nat := 40
/-- `UPDI_CLK_MAX_KHZ` (R33). -/
def Config.clkMaxKhz : Nat := 240
/-- `TPI_CLK_KHZ`, nominal (R220). -/
def Config.tpiClkKhz : Nat := 250
/-- `PDI_CLK_KHZ`, nominal (R250). -/
def Config.pdiClkKhz : Nat := 500
/-- `FILL_BYTE` (R5, R227). -/
def Config.fillByte : Byte := 0xFF
/-- The default command codes of the TPI scope (R104; PRESUMED G13, log 8). -/
def Config.defaultTpiCodes : TpiCodes := ⟨0x01, 0x02, 0x03, 0x04, 0x05, 0x06, 0x07⟩
/-- The default values of the scope selectors (R101; PRESUMED G12, log 8). -/
def Config.defaultScopes : Scopes := ⟨0x01, 0x12, 0x14, 0x20, Config.defaultTpiCodes⟩
/-- The model's number for the parameter `PARAM_ARCH` (R109; the source gives none, N17; log 8). -/
def Config.paramArch : Byte := 0x01
/-- The model's number for the parameter `PARAM_DEVICEDESC` (R109; log 8). -/
def Config.paramDeviceDesc : Byte := 0x02

end Sys2Proof
end

