-- ==== Sys2Proof/Syntax.lean ====
section
/-! DEFINITION. The instructions of TPB: one constructor of `Instr` for every row of spec/opcode_table.json, with
the row's operands (R100, R111, R115). Byte-valued codes (`mtype`, `etype`) stay bytes, because an unknown code is
an operand the operation itself rejects (R106, R107). -/

namespace Sys2Proof

/-- Which capability record a device descriptor is (R29). -/
inductive DdKind where
  | updi | xmega | mega
  deriving DecidableEq, Repr, Inhabited

/-- One 32-bit value for each memory area (R29). -/
structure AreaTable where
  sram : Addr
  eeprom : Addr
  flash : Addr
  boot : Addr
  fuse : Addr
  lock : Addr
  userrow : Addr
  prodsig : Addr
  deriving DecidableEq, Repr, Inhabited

/-- The contents of a device descriptor: base offsets, page sizes, signature location (R29). -/
structure DevDesc where
  kind : DdKind
  base : AreaTable
  page : AreaTable
  sigAddr : Addr
  deriving DecidableEq, Repr, Inhabited

/-- `parse(value)` of R109 for a descriptor value that is not in the model's layout: band0 gives the record's contents
but no layout and no result for such bytes, so the descriptor is a free value (DESIGN CHOICE, log 46). -/
opaque Config.parseDesc : List Byte → DevDesc

/-- The operand of SET_PARAMETER: which parameter and its value (R109). -/
inductive ParamSet where
  | arch (value : Byte)
  | deviceDesc (dd : DevDesc)
  | other (which : Byte) (value : List Byte)
  deriving DecidableEq, Repr, Inhabited

/-- The two scopes whose operations reach TPB (R101). -/
inductive HostScope where
  | avr | tpi
  deriving DecidableEq, Repr, Inhabited

/-- The values of the architecture selector `ARCH`: `NONE`, `UPDI`, `PDI` (R36). -/
inductive Arch where
  | unset | updi | pdi
  deriving DecidableEq, Repr, Inhabited

/-- The architectures a host can select for the AVR-core scope (R36, R115). -/
inductive AvrArch where
  | updi | pdi
  deriving DecidableEq, Repr, Inhabited

/-- The three UPDI keys (R120). -/
inductive UpdiKey where
  | prog | erase | urow
  deriving DecidableEq, Repr, Inhabited

/-- The unit of a streamed block: a byte or a 16-bit word (R75). -/
inductive UnitWidth where
  | byte | word
  deriving DecidableEq, Repr, Inhabited

/-- The parameterless operations `WD.RUN` is invoked on (R140, R153); their operands are in `CB`. -/
inductive RunOp where
  | connectAttempt
  | updiSignOffWire | updiEnterProgmode | updiLeaveProgmode | updiErase | updiRead | updiWrite
  | tpiEnterProgmode | tpiLeaveWire | tpiErase | tpiWrite | tpiRead
  | pdiSignOn | pdiSignOffWire | pdiEnterProgmode | pdiLeaveProgmode | pdiErase | pdiRead | pdiWrite
  deriving DecidableEq, Repr, Inhabited

/-- The optional fallback of `WD.RUN`: `None` or `updi_fallback` (R140, R153). -/
inductive FallbackSel where
  | absent | updi
  deriving DecidableEq, Repr, Inhabited

/-- A PDI block transfer: receive `cnt + 1` bytes, or send these (R255). -/
inductive BlockReq where
  | recv (cnt : Byte)
  | send (data : List Byte)
  deriving DecidableEq, Repr, Inhabited

/-- The two NVM controller helpers (R270). -/
inductive NvmCtl where
  | cmd (c : Byte)
  | wait
  deriving DecidableEq, Repr, Inhabited

/-- The two page-tracker helpers (R273). -/
inductive PageReq where
  | check (addr page : Addr)
  | note (p : Addr)
  deriving DecidableEq, Repr, Inhabited

/-- The five write methods (R285). -/
inductive WriteMethod where
  | plain
  | explicit (page : Addr)
  | atomic
  | bytewise
  | burst2
  deriving DecidableEq, Repr, Inhabited

/-- One of the four functions of a variant, with its operands (R270). -/
inductive VariantFn where
  | progInit
  | readMemory (mt : Byte) (addr len : Addr)
  | eraseMemory (et : Byte) (addr : Addr)
  | writeMemory (mt : Byte) (addr : Addr) (data : List Byte)
  deriving DecidableEq, Repr, Inhabited

/-- The two variants band0 names and does not detail (R280). -/
inductive OpaqueVariant where
  | v2 | v5
  deriving DecidableEq, Repr, Inhabited

/-- The instructions: host operations, wire instructions, internal primitives and events, in the table's order. -/
inductive Instr where
  -- host operations (R102, R104, R109, R113)
  | sysSetParameter (p : ParamSet)
  | sysGetParameter (which : Byte)
  | updiSignOn
  | updiSignOff
  | updiEnterProgmode
  | updiLeaveProgmode
  | updiEraseMemory (et : Byte) (addr : Addr)
  | updiReadMemory (mt : Byte) (addr len : Addr)
  | updiWriteMemory (mt : Byte) (addr len : Addr) (data : List Byte)
  | pdiSignOn
  | pdiSignOff
  | pdiEnterProgmode
  | pdiLeaveProgmode
  | pdiEraseMemory (et : Byte) (addr : Addr)
  | pdiReadMemory (mt : Byte) (addr len : Addr)
  | pdiWriteMemory (mt : Byte) (addr len : Addr) (data : List Byte)
  | tpiEnterProgmode
  | tpiLeaveProgmode
  | tpiErase (et : Byte) (addr : Addr)
  | tpiWriteMem (mt : Byte) (addr len : Addr) (data : List Byte)
  | tpiReadMem (mt : Byte) (addr len : Addr)
  | tpiCrc
  | tpiSetParam (value : List Byte)
  | unknown (scope : HostScope) (cmd : Byte)
  -- UPDI wire instructions (R174 to R178, R188 to R192)
  | updiSynch
  | updiLdcs (r : RegIx)
  | updiStcs (r : RegIx) (v : Byte)
  | updiKey (k : UpdiKey)
  | updiSib
  | updiStPtr (w : PtrWidth) (addr : Addr)
  | updiRepeat (cnt : Byte)
  | updiLdInc8 (cnt : Byte)
  | updiLdInc16 (cnt : Byte)
  | updiStInc8 (data : List Byte)
  | updiStInc16 (data : List Byte)
  -- TPI wire instructions (R221, R223)
  | tpiLdcs (r : RegIx)
  | tpiStcs (r : RegIx) (v : Byte)
  | tpiKey
  | tpiSetPtrLo (b : Byte)
  | tpiSetPtrHi (b : Byte)
  | tpiLdInc
  | tpiStInc (b : Byte)
  | tpiSout (io : IoIx) (v : Byte)
  | tpiSin (io : IoIx)
  -- PDI wire instructions (R251, R253, R255)
  | pdiLdcs (r : RegIx)
  | pdiStcs (r : RegIx) (v : Byte)
  | pdiKey
  | pdiSts8 (addr : Addr) (v : Byte)
  | pdiLds8 (addr : Addr)
  | pdiSetPtr (addr : Addr)
  | pdiRepeat (cnt : Byte)
  | pdiLdInc (cnt : Byte)
  | pdiStInc (data : List Byte)
  -- the supervisor (R140)
  | wdRun (op : RunOp) (fb : FallbackSel) (deadline : Half)
  -- UPDI primitives (R170 to R201) and link loss (R203)
  | updiLineConfig
  | updiAttention
  | updiTx (b : Byte)
  | updiRx
  | updiHandshake
  | updiConnectAttempt
  | updiBindVariant
  | updiCssBracket (w : UnitWidth) (addr : Addr) (data : List Byte)
  | updiChipErase
  | updiUserrowCeremony (addr : Addr) (data : List Byte)
  | updiSignatureDummy (len : Addr)
  | updiFallback
  | linkLoss
  -- TPI and PDI primitives (R222, R224, R255, R258)
  | tpiConnect
  | tpiChunkLookup (b0 b1 b2 : Byte)
  | pdiBlock (addr : Addr) (req : BlockReq)
  | pdiNvmSequence (mt : Byte) (addr : Addr) (data : List Byte)
  -- NVM controller variants (R270 to R285)
  | nvmCtl (req : NvmCtl)
  | nvmPage (req : PageReq)
  | nvmWriteMethod (m : WriteMethod) (mt : Byte) (addr : Addr) (data : List Byte)
  | nvmV0WriteMemory (mt : Byte) (addr : Addr) (data : List Byte)
  | nvmV0WriteFuse (addr : Addr) (b : Byte)
  | nvmV1WriteMemory (mt : Byte) (addr : Addr) (data : List Byte)
  | nvmV3WriteMemory (mt : Byte) (addr : Addr) (data : List Byte)
  | nvmV4WriteMemory (mt : Byte) (addr : Addr) (data : List Byte)
  | nvmOpaque (v : OpaqueVariant) (f : VariantFn)
  | nvmStub (f : VariantFn)
  | nvmReadMemory (mt : Byte) (addr len : Addr)
  | nvmEraseMemory (et : Byte) (addr : Addr)
  | nvmProgInit
  -- the arbiter (R301 to R310)
  | rsaSample (level : Bool)
  | rsaPress
  | rsaRelease
  | rsaAcquire (e : Engine)
  | rsaQuiesce
  | rsaReleaseUart
  -- environment events (R229, R301, R310, R330, R331, R361)
  | sysVcp (isOpen : Bool)
  | sysSw (level : Bool)
  | sysVtg (mv : Half)
  | sysUsbBusReset
  | sysUsbSuspendResume
  | sysRestart
  -- pseudo-operations (R115)
  | sessionOpen (a : AvrArch) (dd : DevDesc)
  | sessionClose (a : AvrArch)
  deriving DecidableEq, Repr

end Sys2Proof
end

