-- ==== Sys2Proof/WellFormed.lean ====
section
/-! DEFINITION. Which terms of `Instr` an operation record or a wire byte can carry: the checks the encoding needs. -/

namespace Sys2Proof

/-- The command codes assigned in the AVR-core scope (R102). -/
def avrCodes : List Byte := [0x01, 0x02, 0x10, 0x11, 0x15, 0x16, 0x20, 0x21, 0x23]

/-- The assigned codes of a scope: the AVR-core scope's are fixed (R102), the TPI scope's are parameters (R104). -/
def HostScope.codes (sc : Scopes) : HostScope → List Byte
  | .avr => avrCodes
  | .tpi => sc.tpiCodes.all

/-- Bytes of a WRITE record before its data: seq 2, scope 1, cmd 1, mtype 1, addr 4, len 4 (R100). -/
def writeHeadBytes : Nat := 13

/-- A WRITE record's data is at most `len` bytes (R100) and the record at most 540 (R110). -/
def wfWrite (len : Addr) (data : List Byte) : Bool :=
  decide (data.length ≤ len.toNat) && decide (writeHeadBytes + data.length ≤ Config.inMaxBytes)

/-- A parameter value: an unnamed parameter is not one of the two TPB knows (R109), and its record fits (R110). -/
def ParamSet.wf : ParamSet → Bool
  | .arch _ => true
  | .deviceDesc _ => true
  | .other which value =>
      which != Config.paramArch && which != Config.paramDeviceDesc && decide (5 + value.length ≤ Config.inMaxBytes)

/-- The well-formed instructions, under the parameters a record is written with. -/
def Instr.wf (sc : Scopes) : Instr → Bool
  | .sysSetParameter p => p.wf
  | .updiWriteMemory _ _ len data => wfWrite len data
  | .pdiWriteMemory _ _ len data => wfWrite len data
  | .tpiWriteMem _ _ len data => wfWrite len data
  | .tpiSetParam value => decide (4 + value.length ≤ Config.inMaxBytes)
  | .unknown scope cmd => !((scope.codes sc).contains cmd)
  | .updiStPtr w addr => decide (addr.toNat < 2 ^ (8 * w.bytes))
  | _ => true

end Sys2Proof
end

