-- ==== Sys2Proof/Decode.lean ====
section
/-! DEFINITION. The decoder of operation records and wire bytes, total on any bytes, and the encoder.

band0 gives no byte offsets inside a record (R100, N5), so the layout is the model's (log 1): byte 0 is the row's
byte in the opcode table (the command code, the wire opcode, or the model's number of an internal row), byte 1
selects the scope or space, bytes 2 and 3 are the sequence number, and the operands follow in the order of R100.
AVR-core scope fields, the sequence number among them, are little-endian, TPI scope fields big-endian (R73, R105).
The scope selectors and the TPI scope's command codes are parameters (R5, R101, R104). Bytes of a record past its shape's fields are ignored (DESIGN CHOICE,
log 47). -/

namespace Sys2Proof

/-- Why bytes are no instruction of TPB. -/
inductive DecodeError where
  /-- the record ends before its fixed fields do (R112) -/
  | truncated
  /-- the general or the EDBG-vendor scope: not TPB's (R101, R111) -/
  | foreignScope
  /-- a scope the dispatcher does not know (R113) -/
  | unknownScope
  /-- a byte of one of the model's own spaces that stands for nothing (R113: no reserved-but-defined encodings) -/
  | reserved
  deriving DecidableEq, Repr, Inhabited

/-! ## Bytes -/

/-- Byte `k` of a 32-bit word, byte 0 the low one. -/
def byteOf (a : Addr) (k : Nat) : Byte := a.extractLsb' (8 * k) 8

/-- The four bytes of a 32-bit word, low byte first. -/
def le32 (a : Addr) : List Byte := [byteOf a 0, byteOf a 1, byteOf a 2, byteOf a 3]

/-- The four bytes of a 32-bit word, high byte first. -/
def be32 (a : Addr) : List Byte := [byteOf a 3, byteOf a 2, byteOf a 1, byteOf a 0]

/-- The two bytes of a 16-bit word, low byte first. -/
def le16 (h : Half) : List Byte := [h.extractLsb' 0 8, h.extractLsb' 8 8]

/-- Four bytes, the lowest first, as a 32-bit word. -/
def ofBytes4 (b0 b1 b2 b3 : Byte) : Addr := b3 ++ b2 ++ b1 ++ b0

/-- What a reader of operands answers: a value and the bytes after it. -/
abbrev Reader (α : Type) := List Byte → Except DecodeError (α × List Byte)

/-- Read one byte. -/
def u8 : Reader Byte
  | b :: rest => .ok (b, rest)
  | [] => .error .truncated

/-- Read a 16-bit word, low byte first. -/
def u16le : Reader Half
  | b0 :: b1 :: rest => .ok (b1 ++ b0, rest)
  | _ => .error .truncated

/-- Read a 32-bit word, low byte first. -/
def u32le : Reader Addr
  | b0 :: b1 :: b2 :: b3 :: rest => .ok (ofBytes4 b0 b1 b2 b3, rest)
  | _ => .error .truncated

/-- Read a 32-bit word, high byte first (the TPI scope, R73 (1)). -/
def u32be : Reader Addr
  | b3 :: b2 :: b1 :: b0 :: rest => .ok (ofBytes4 b0 b1 b2 b3, rest)
  | _ => .error .truncated

/-- Read a truth value: 0 or 1. -/
def ubool : Reader Bool
  | b :: rest => if b = 0 then .ok (false, rest) else if b = 1 then .ok (true, rest) else .error .reserved
  | [] => .error .truncated

/-- A truth value as a byte. -/
def boolByte (b : Bool) : Byte := if b then 1 else 0

/-! ## Selectors (log 1) -/

/-- The opcode table's own view: the byte alone, with no scope and no engine. -/
def selBare : Byte := 0x00
/-- A UPDI wire instruction. -/
def selUpdiWire : Byte := 0xA0
/-- A TPI wire instruction. -/
def selTpiWire : Byte := 0xA1
/-- A PDI wire instruction. -/
def selPdiWire : Byte := 0xA2
/-- An internal primitive or an event. -/
def selInternal : Byte := 0xA3

/-- The scope byte of a host scope (R101). -/
def HostScope.byte (sc : Scopes) : HostScope → Byte
  | .avr => sc.avr
  | .tpi => sc.tpi

/-- Scope selectors that a record's second byte can tell apart: four values, none of them a selector of the model's
own spaces (R101; log 8); and command codes of the TPI scope that its first byte can tell apart (R104: "distinct"). -/
def Scopes.ok (sc : Scopes) : Bool :=
  decide ([sc.avr, sc.tpi, sc.general, sc.edbg, selBare, selUpdiWire, selTpiWire, selPdiWire, selInternal].Nodup) &&
    decide sc.tpiCodes.all.Nodup

/-! ## Operand enumerations -/

/-- The numbering of `WD.RUN`'s operations (log 1). -/
def runOps : List RunOp :=
  [.connectAttempt, .updiSignOffWire, .updiEnterProgmode, .updiLeaveProgmode, .updiErase, .updiRead, .updiWrite,
   .tpiEnterProgmode, .tpiLeaveWire, .tpiErase, .tpiWrite, .tpiRead,
   .pdiSignOn, .pdiSignOffWire, .pdiEnterProgmode, .pdiLeaveProgmode, .pdiErase, .pdiRead, .pdiWrite]

/-- The number of an operation in `runOps`. -/
def RunOp.code : RunOp → Byte
  | .connectAttempt => 0 | .updiSignOffWire => 1 | .updiEnterProgmode => 2 | .updiLeaveProgmode => 3
  | .updiErase => 4 | .updiRead => 5 | .updiWrite => 6
  | .tpiEnterProgmode => 7 | .tpiLeaveWire => 8 | .tpiErase => 9 | .tpiWrite => 10 | .tpiRead => 11
  | .pdiSignOn => 12 | .pdiSignOffWire => 13 | .pdiEnterProgmode => 14 | .pdiLeaveProgmode => 15
  | .pdiErase => 16 | .pdiRead => 17 | .pdiWrite => 18

/-- Read an operation of `WD.RUN`. -/
def readRunOp : Reader RunOp
  | b :: rest => match runOps[b.toNat]? with
    | some op => .ok (op, rest)
    | none => .error .reserved
  | [] => .error .truncated

/-- Read a fallback selector. -/
def readFallback : Reader FallbackSel
  | b :: rest => match b.toNat with
    | 0 => .ok (.absent, rest)
    | 1 => .ok (.updi, rest)
    | _ => .error .reserved
  | [] => .error .truncated

/-- The byte of a fallback selector. -/
def FallbackSel.code : FallbackSel → Byte
  | .absent => 0
  | .updi => 1

/-- Read a UPDI key name. -/
def readKey : Reader UpdiKey
  | b :: rest => match b.toNat with
    | 0 => .ok (.prog, rest)
    | 1 => .ok (.erase, rest)
    | 2 => .ok (.urow, rest)
    | _ => .error .reserved
  | [] => .error .truncated

/-- The byte of a UPDI key name. -/
def UpdiKey.code : UpdiKey → Byte
  | .prog => 0
  | .erase => 1
  | .urow => 2

/-- Read an engine. -/
def readEngine : Reader Engine
  | b :: rest => match b.toNat with
    | 0 => .ok (.updi, rest)
    | 1 => .ok (.tpi, rest)
    | 2 => .ok (.pdi, rest)
    | _ => .error .reserved
  | [] => .error .truncated

/-- The byte of an engine. -/
def Engine.code : Engine → Byte
  | .updi => 0
  | .tpi => 1
  | .pdi => 2

/-- Read an architecture of the pseudo-operations. -/
def readAvrArch : Reader AvrArch
  | b :: rest => match b.toNat with
    | 0 => .ok (.updi, rest)
    | 1 => .ok (.pdi, rest)
    | _ => .error .reserved
  | [] => .error .truncated

/-- The byte of an architecture. -/
def AvrArch.code : AvrArch → Byte
  | .updi => 0
  | .pdi => 1

/-- Read a unit width. -/
def readUnit : Reader UnitWidth
  | b :: rest => match b.toNat with
    | 0 => .ok (.byte, rest)
    | 1 => .ok (.word, rest)
    | _ => .error .reserved
  | [] => .error .truncated

/-- The byte of a unit width. -/
def UnitWidth.code : UnitWidth → Byte
  | .byte => 0
  | .word => 1

/-- Read a table of area values. -/
def readAreas (bs : List Byte) : Except DecodeError (AreaTable × List Byte) := do
  let (sram, bs) ← u32le bs
  let (eeprom, bs) ← u32le bs
  let (flash, bs) ← u32le bs
  let (boot, bs) ← u32le bs
  let (fuse, bs) ← u32le bs
  let (lock, bs) ← u32le bs
  let (userrow, bs) ← u32le bs
  let (prodsig, bs) ← u32le bs
  .ok (⟨sram, eeprom, flash, boot, fuse, lock, userrow, prodsig⟩, bs)

/-- The bytes of a table of area values. -/
def AreaTable.bytes (t : AreaTable) : List Byte :=
  le32 t.sram ++ (le32 t.eeprom ++ (le32 t.flash ++ (le32 t.boot ++ (le32 t.fuse ++ (le32 t.lock ++
    (le32 t.userrow ++ le32 t.prodsig))))))

/-- Read a descriptor kind. -/
def readDdKind : Reader DdKind
  | b :: rest => match b.toNat with
    | 0 => .ok (.updi, rest)
    | 1 => .ok (.xmega, rest)
    | 2 => .ok (.mega, rest)
    | _ => .error .reserved
  | [] => .error .truncated

/-- The byte of a descriptor kind. -/
def DdKind.code : DdKind → Byte
  | .updi => 0
  | .xmega => 1
  | .mega => 2

/-- Read a device descriptor in the model's layout (N6, log 34). -/
def readDevDesc (bs : List Byte) : Except DecodeError (DevDesc × List Byte) := do
  let (kind, bs) ← readDdKind bs
  let (base, bs) ← readAreas bs
  let (page, bs) ← readAreas bs
  let (sig, bs) ← u32le bs
  .ok (⟨kind, base, page, sig⟩, bs)

/-- `parse(value)` of R109: the model's layout where the bytes are in it, any descriptor where they are not (log 46). -/
def parseDevDesc (bs : List Byte) : DevDesc :=
  match readDevDesc bs with
  | .ok (d, _) => d
  | .error _ => Config.parseDesc bs

/-- The bytes of a device descriptor. -/
def DevDesc.bytes (d : DevDesc) : List Byte :=
  d.kind.code :: (d.base.bytes ++ (d.page.bytes ++ le32 d.sigAddr))

/-- Read the operand of SET_PARAMETER (R109). Bytes after an architecture's value are ignored (log 47). -/
def readParam (bs : List Byte) : Except DecodeError ParamSet := do
  let (which, bs) ← u8 bs
  if which = Config.paramArch then
    let (v, _) ← u8 bs
    .ok (.arch v)
  else if which = Config.paramDeviceDesc then .ok (.deviceDesc (parseDevDesc bs))
  else .ok (.other which bs)

/-- The bytes of the operand of SET_PARAMETER. -/
def ParamSet.bytes : ParamSet → List Byte
  | .arch v => [Config.paramArch, v]
  | .deviceDesc d => Config.paramDeviceDesc :: d.bytes
  | .other which value => which :: value

/-- Read one of a variant's four functions with its operands. -/
def readVariantFn (bs : List Byte) : Except DecodeError VariantFn := do
  let (tag, bs) ← u8 bs
  match tag.toNat with
  | 0 => .ok .progInit
  | 1 =>
    let (mt, bs) ← u8 bs
    let (a, bs) ← u32le bs
    let (n, _) ← u32le bs
    .ok (.readMemory mt a n)
  | 2 =>
    let (et, bs) ← u8 bs
    let (a, _) ← u32le bs
    .ok (.eraseMemory et a)
  | 3 =>
    let (mt, bs) ← u8 bs
    let (a, bs) ← u32le bs
    .ok (.writeMemory mt a bs)
  | _ => .error .reserved

/-- The bytes of one of a variant's four functions. -/
def VariantFn.bytes : VariantFn → List Byte
  | .progInit => [0]
  | .readMemory mt a n => 1 :: mt :: (le32 a ++ le32 n)
  | .eraseMemory et a => 2 :: et :: le32 a
  | .writeMemory mt a d => 3 :: mt :: (le32 a ++ d)

/-- Read a write method. -/
def readMethod (bs : List Byte) : Except DecodeError (WriteMethod × List Byte) := do
  let (tag, bs) ← u8 bs
  match tag.toNat with
  | 0 => .ok (.plain, bs)
  | 1 =>
    let (page, bs) ← u32le bs
    .ok (.explicit page, bs)
  | 2 => .ok (.atomic, bs)
  | 3 => .ok (.bytewise, bs)
  | 4 => .ok (.burst2, bs)
  | _ => .error .reserved

/-- The bytes of a write method. -/
def WriteMethod.bytes : WriteMethod → List Byte
  | .plain => [0]
  | .explicit page => 1 :: le32 page
  | .atomic => [2]
  | .bytewise => [3]
  | .burst2 => [4]

/-! ## Operation records (R100 to R113) -/

/-- Shape E operands: `etype`, `addr` (R100), with the scope's byte order. The spec does not say what bytes after them
do; they are ignored (DESIGN CHOICE, log 47). -/
def readErase (u32 : Reader Addr) (mk : Byte → Addr → Instr) (bs : List Byte) : Except DecodeError Instr := do
  let (et, bs) ← u8 bs
  let (a, _) ← u32 bs
  .ok (mk et a)

/-- Shape M operands of a read: `mtype`, `addr`, `len` (R100). Bytes after them are ignored (DESIGN CHOICE, log 47). -/
def readRead (u32 : Reader Addr) (mk : Byte → Addr → Addr → Instr) (bs : List Byte) : Except DecodeError Instr := do
  let (mt, bs) ← u8 bs
  let (a, bs) ← u32 bs
  let (n, _) ← u32 bs
  .ok (mk mt a n)

/-- Shape M operands of a write: `mtype`, `addr`, `len`, then the inline data, of which at most `len` bytes are
`data[0 .. len-1]` and fewer when the record is too short (R100, R112). -/
def readWrite (u32 : Reader Addr) (mk : Byte → Addr → Addr → List Byte → Instr) (bs : List Byte) :
    Except DecodeError Instr := do
  let (mt, bs) ← u8 bs
  let (a, bs) ← u32 bs
  let (n, bs) ← u32 bs
  .ok (mk mt a n (bs.take n.toNat))

/-- The AVR-core scope (R102): the parameter commands, then the seven engine codes, of which `ARCH` selects the
engine (R103). With `ARCH = NONE` the record is named as UPDI's, whose meaning fails it with `E_PRECOND` (log 13). -/
def decodeAvr (arch : Arch) (code : Byte) (bs : List Byte) : Except DecodeError Instr :=
  match code.toNat with
  | 0x01 => do
    let p ← readParam bs
    .ok (.sysSetParameter p)
  | 0x02 => do
    let (which, _) ← u8 bs
    .ok (.sysGetParameter which)
  | 0x10 => .ok (if arch = .pdi then .pdiSignOn else .updiSignOn)
  | 0x11 => .ok (if arch = .pdi then .pdiSignOff else .updiSignOff)
  | 0x15 => .ok (if arch = .pdi then .pdiEnterProgmode else .updiEnterProgmode)
  | 0x16 => .ok (if arch = .pdi then .pdiLeaveProgmode else .updiLeaveProgmode)
  | 0x20 => readErase u32le (if arch = .pdi then .pdiEraseMemory else .updiEraseMemory) bs
  | 0x21 => readRead u32le (if arch = .pdi then .pdiReadMemory else .updiReadMemory) bs
  | 0x23 => readWrite u32le (if arch = .pdi then .pdiWriteMemory else .updiWriteMemory) bs
  | _ => .ok (.unknown .avr code)

/-- The TPI scope, its seven codes parameters (R104), big-endian fields. Of operations whose open codes are equal the
first counts (DESIGN CHOICE, log 59). -/
def decodeTpi (t : TpiCodes) (code : Byte) (bs : List Byte) : Except DecodeError Instr :=
  if code = t.enterProgmode then .ok .tpiEnterProgmode
  else if code = t.leaveProgmode then .ok .tpiLeaveProgmode
  else if code = t.erase then readErase u32be .tpiErase bs
  else if code = t.writeMem then readWrite u32be .tpiWriteMem bs
  else if code = t.readMem then readRead u32be .tpiReadMem bs
  else if code = t.crc then .ok .tpiCrc
  else if code = t.setParam then .ok (.tpiSetParam bs)
  else .ok (.unknown .tpi code)

/-! ## Wire instructions (R119, R121) -/

/-- The register index in the low four bits of LDCS and STCS. -/
def regOf (code : Byte) : RegIx := code.extractLsb' 0 4

/-- The high four bits of an opcode byte. -/
def highNibble (code : Byte) : BitVec 4 := code.extractLsb' 4 4

/-- The I/O register of SOUT and SIN: `io[5:4]` at bits 6:5, `io[3:0]` at bits 3:0 (R221). -/
def ioOf (code : Byte) : IoIx := code.extractLsb' 5 2 ++ code.extractLsb' 0 4

/-- The address bytes of SOUT and SIN in place: `(io & 0x0F) | ((io & 0x30) << 1)` (R221). -/
def ioBits (io : IoIx) : Byte := ((io.setWidth 8) &&& 0x0F#8) ||| (((io.setWidth 8) &&& 0x30#8) <<< 1)

/-- LDCS of any engine: pattern `1000rrrr`. -/
def ldcsCode (r : RegIx) : Byte := 0x80#8 ||| r.setWidth 8

/-- STCS of any engine: pattern `1100rrrr`. -/
def stcsCode (r : RegIx) : Byte := 0xC0#8 ||| r.setWidth 8

/-- The UPDI wire instructions. -/
def decodeUpdiWire (code : Byte) (bs : List Byte) : Except DecodeError Instr :=
  match code.toNat with
  | 0x55 => .ok .updiSynch
  | 0xE0 => do
    let (k, _) ← readKey bs
    .ok (.updiKey k)
  | 0xE6 => .ok .updiSib
  | 0x69 => do
    let (a, _) ← u32le bs
    .ok (.updiStPtr .two a)
  | 0x6A => do
    let (a, _) ← u32le bs
    .ok (.updiStPtr .three a)
  | 0xA0 => do
    let (n, _) ← u8 bs
    .ok (.updiRepeat n)
  | 0x24 => do
    let (n, _) ← u8 bs
    .ok (.updiLdInc8 n)
  | 0x25 => do
    let (n, _) ← u8 bs
    .ok (.updiLdInc16 n)
  | 0x64 => .ok (.updiStInc8 bs)
  | 0x65 => .ok (.updiStInc16 bs)
  | _ =>
    if highNibble code = 0x8 then .ok (.updiLdcs (regOf code))
    else if highNibble code = 0xC then do
      let (v, _) ← u8 bs
      .ok (.updiStcs (regOf code) v)
    else .error .reserved

/-- The TPI wire instructions. -/
def decodeTpiWire (code : Byte) (bs : List Byte) : Except DecodeError Instr :=
  match code.toNat with
  | 0xE0 => .ok .tpiKey
  | 0x68 => do
    let (b, _) ← u8 bs
    .ok (.tpiSetPtrLo b)
  | 0x69 => do
    let (b, _) ← u8 bs
    .ok (.tpiSetPtrHi b)
  | 0x24 => .ok .tpiLdInc
  | 0x64 => do
    let (b, _) ← u8 bs
    .ok (.tpiStInc b)
  | _ =>
    if highNibble code = 0x8 then .ok (.tpiLdcs (regOf code))
    else if highNibble code = 0xC then do
      let (v, _) ← u8 bs
      .ok (.tpiStcs (regOf code) v)
    else if code.getLsbD 4 then
      if code.getLsbD 7 then do
        let (v, _) ← u8 bs
        .ok (.tpiSout (ioOf code) v)
      else .ok (.tpiSin (ioOf code))
    else .error .reserved

/-- The PDI wire instructions. -/
def decodePdiWire (code : Byte) (bs : List Byte) : Except DecodeError Instr :=
  match code.toNat with
  | 0xE0 => .ok .pdiKey
  | 0x4C => do
    let (a, bs) ← u32le bs
    let (v, _) ← u8 bs
    .ok (.pdiSts8 a v)
  | 0x0C => do
    let (a, _) ← u32le bs
    .ok (.pdiLds8 a)
  | 0x6B => do
    let (a, _) ← u32le bs
    .ok (.pdiSetPtr a)
  | 0xA0 => do
    let (n, _) ← u8 bs
    .ok (.pdiRepeat n)
  | 0x24 => do
    let (n, _) ← u8 bs
    .ok (.pdiLdInc n)
  | 0x64 => .ok (.pdiStInc bs)
  | _ =>
    if highNibble code = 0x8 then .ok (.pdiLdcs (regOf code))
    else if highNibble code = 0xC then do
      let (v, _) ← u8 bs
      .ok (.pdiStcs (regOf code) v)
    else .error .reserved

/-! ## Internal primitives and events, numbered by the model (log 1) -/

/-- Read an operand that is an address followed by data bytes to the end. -/
def readAddrData (mk : Addr → List Byte → Instr) (bs : List Byte) : Except DecodeError Instr := do
  let (a, bs) ← u32le bs
  .ok (mk a bs)

/-- Read an operand that is a memory type, an address and data bytes to the end. -/
def readMtAddrData (mk : Byte → Addr → List Byte → Instr) (bs : List Byte) : Except DecodeError Instr := do
  let (mt, bs) ← u8 bs
  let (a, bs) ← u32le bs
  .ok (mk mt a bs)

/-- The internal rows. -/
def decodeInternal (code : Byte) (bs : List Byte) : Except DecodeError Instr :=
  match code.toNat with
  | 0 => do
    let (op, bs) ← readRunOp bs
    let (fb, bs) ← readFallback bs
    let (dl, _) ← u16le bs
    .ok (.wdRun op fb dl)
  | 1 => .ok .updiLineConfig
  | 2 => .ok .updiAttention
  | 3 => do
    let (b, _) ← u8 bs
    .ok (.updiTx b)
  | 4 => .ok .updiRx
  | 5 => .ok .updiHandshake
  | 6 => .ok .updiConnectAttempt
  | 7 => .ok .updiBindVariant
  | 8 => do
    let (w, bs) ← readUnit bs
    readAddrData (.updiCssBracket w) bs
  | 9 => .ok .updiChipErase
  | 10 => readAddrData .updiUserrowCeremony bs
  | 11 => do
    let (n, _) ← u32le bs
    .ok (.updiSignatureDummy n)
  | 12 => .ok .updiFallback
  | 13 => .ok .linkLoss
  | 14 => .ok .tpiConnect
  | 15 => do
    let (b0, bs) ← u8 bs
    let (b1, bs) ← u8 bs
    let (b2, _) ← u8 bs
    .ok (.tpiChunkLookup b0 b1 b2)
  | 16 => do
    let (isSend, bs) ← ubool bs
    let (a, bs) ← u32le bs
    if isSend then .ok (.pdiBlock a (.send bs))
    else do
      let (n, _) ← u8 bs
      .ok (.pdiBlock a (.recv n))
  | 17 => readMtAddrData .pdiNvmSequence bs
  | 18 => do
    let (isCmd, bs) ← ubool bs
    if isCmd then do
      let (c, _) ← u8 bs
      .ok (.nvmCtl (.cmd c))
    else .ok (.nvmCtl .wait)
  | 19 => do
    let (isCheck, bs) ← ubool bs
    let (a, bs) ← u32le bs
    if isCheck then do
      let (page, _) ← u32le bs
      .ok (.nvmPage (.check a page))
    else .ok (.nvmPage (.note a))
  | 20 => do
    let (m, bs) ← readMethod bs
    readMtAddrData (.nvmWriteMethod m) bs
  | 21 => readMtAddrData .nvmV0WriteMemory bs
  | 22 => do
    let (b, bs) ← u8 bs
    let (a, _) ← u32le bs
    .ok (.nvmV0WriteFuse a b)
  | 23 => readMtAddrData .nvmV1WriteMemory bs
  | 24 => readMtAddrData .nvmV3WriteMemory bs
  | 25 => readMtAddrData .nvmV4WriteMemory bs
  | 26 => do
    let (isV5, bs) ← ubool bs
    let f ← readVariantFn bs
    .ok (.nvmOpaque (if isV5 then .v5 else .v2) f)
  | 27 => do
    let f ← readVariantFn bs
    .ok (.nvmStub f)
  | 28 => readRead u32le .nvmReadMemory bs
  | 29 => readErase u32le .nvmEraseMemory bs
  | 30 => .ok .nvmProgInit
  | 31 => do
    let (v, _) ← ubool bs
    .ok (.rsaSample v)
  | 32 => .ok .rsaPress
  | 33 => .ok .rsaRelease
  | 34 => do
    let (e, _) ← readEngine bs
    .ok (.rsaAcquire e)
  | 35 => .ok .rsaQuiesce
  | 36 => .ok .rsaReleaseUart
  | 37 => do
    let (v, _) ← ubool bs
    .ok (.sysVcp v)
  | 38 => do
    let (v, _) ← ubool bs
    .ok (.sysSw v)
  | 39 => do
    let (mv, _) ← u16le bs
    .ok (.sysVtg mv)
  | 40 => .ok .sysUsbBusReset
  | 41 => .ok .sysUsbSuspendResume
  | 42 => .ok .sysRestart
  | 43 => do
    let (a, bs) ← readAvrArch bs
    let (d, _) ← readDevDesc bs
    .ok (.sessionOpen a d)
  | 44 => do
    let (a, _) ← readAvrArch bs
    .ok (.sessionClose a)
  | _ => .error .reserved

/-- The opcode table read as a list of bytes, with no scope and no engine to tell rows of the same byte apart: the
host codes of the AVR-core scope (named for `ARCH`), then the TPI scope's, then the UPDI, TPI and PDI wire
instructions, each byte standing for its first row (log 1); any other byte is an unknown command (R113). -/
def decodeBare (t : TpiCodes) (arch : Arch) (code : Byte) (bs : List Byte) : Except DecodeError Instr :=
  if avrCodes.contains code then decodeAvr arch code bs
  else if t.all.contains code then decodeTpi t code bs
  else match decodeUpdiWire code bs with
    | .error .reserved => match decodeTpiWire code bs with
      | .error .reserved => match decodePdiWire code bs with
        | .error .reserved => .ok (.unknown .avr code)
        | r => r
      | r => r
    | r => r

/-- The decoder (R111): scope first, then `ARCH`, then the code. Of scopes whose open selectors are equal the first
below counts (DESIGN CHOICE, log 59). -/
def decode (sc : Scopes) (arch : Arch) : List Byte → Except DecodeError Instr
  | code :: sel :: _ :: _ :: bs =>
    if sel = sc.avr then decodeAvr arch code bs
    else if sel = sc.tpi then decodeTpi sc.tpiCodes code bs
    else if sel = selUpdiWire then decodeUpdiWire code bs
    else if sel = selTpiWire then decodeTpiWire code bs
    else if sel = selPdiWire then decodePdiWire code bs
    else if sel = selInternal then decodeInternal code bs
    else if sel = selBare then decodeBare sc.tpiCodes arch code bs
    else if sel = sc.general ∨ sel = sc.edbg then .error .foreignScope
    else .error .unknownScope
  | _ => .error .truncated

/-- The sequence number of a record, high byte first in the TPI scope, low byte first in every other; 0 where the
record is too short to hold one (R73 (1), R100, R105; the other scopes log 1). -/
def recordSeq (sc : Scopes) : List Byte → Half
  | _ :: sel :: b0 :: b1 :: _ => if sel ≠ sc.avr ∧ sel = sc.tpi then b0 ++ b1 else b1 ++ b0
  | _ => 0

/-! ## The encoder -/

/-- A record: its byte, its selector, a sequence number of 0, its operands. -/
def mkRecord (code sel : Byte) (operands : List Byte) : List Byte := code :: sel :: 0 :: 0 :: operands

/-- An operation record of a host scope. -/
def hostRec (sc : Scopes) (scope : HostScope) (code : Byte) (operands : List Byte) : List Byte :=
  mkRecord code (scope.byte sc) operands
/-- A UPDI wire instruction. -/
def updiRec (code : Byte) (operands : List Byte) : List Byte := mkRecord code selUpdiWire operands
/-- A TPI wire instruction. -/
def tpiWireRec (code : Byte) (operands : List Byte) : List Byte := mkRecord code selTpiWire operands
/-- A PDI wire instruction. -/
def pdiRec (code : Byte) (operands : List Byte) : List Byte := mkRecord code selPdiWire operands
/-- An internal row. -/
def intRec (code : Byte) (operands : List Byte) : List Byte := mkRecord code selInternal operands

/-- The bytes of a well-formed instruction. -/
def encode (sc : Scopes) : Instr → List Byte
  | .sysSetParameter p => hostRec sc .avr 0x01 p.bytes
  | .sysGetParameter which => hostRec sc .avr 0x02 [which]
  | .updiSignOn => hostRec sc .avr 0x10 []
  | .updiSignOff => hostRec sc .avr 0x11 []
  | .updiEnterProgmode => hostRec sc .avr 0x15 []
  | .updiLeaveProgmode => hostRec sc .avr 0x16 []
  | .updiEraseMemory et a => hostRec sc .avr 0x20 (et :: le32 a)
  | .updiReadMemory mt a n => hostRec sc .avr 0x21 (mt :: (le32 a ++ le32 n))
  | .updiWriteMemory mt a n d => hostRec sc .avr 0x23 (mt :: (le32 a ++ (le32 n ++ d)))
  | .pdiSignOn => hostRec sc .avr 0x10 []
  | .pdiSignOff => hostRec sc .avr 0x11 []
  | .pdiEnterProgmode => hostRec sc .avr 0x15 []
  | .pdiLeaveProgmode => hostRec sc .avr 0x16 []
  | .pdiEraseMemory et a => hostRec sc .avr 0x20 (et :: le32 a)
  | .pdiReadMemory mt a n => hostRec sc .avr 0x21 (mt :: (le32 a ++ le32 n))
  | .pdiWriteMemory mt a n d => hostRec sc .avr 0x23 (mt :: (le32 a ++ (le32 n ++ d)))
  | .tpiEnterProgmode => hostRec sc .tpi sc.tpiCodes.enterProgmode []
  | .tpiLeaveProgmode => hostRec sc .tpi sc.tpiCodes.leaveProgmode []
  | .tpiErase et a => hostRec sc .tpi sc.tpiCodes.erase (et :: be32 a)
  | .tpiWriteMem mt a n d => hostRec sc .tpi sc.tpiCodes.writeMem (mt :: (be32 a ++ (be32 n ++ d)))
  | .tpiReadMem mt a n => hostRec sc .tpi sc.tpiCodes.readMem (mt :: (be32 a ++ be32 n))
  | .tpiCrc => hostRec sc .tpi sc.tpiCodes.crc []
  | .tpiSetParam value => hostRec sc .tpi sc.tpiCodes.setParam value
  | .unknown scope cmd => hostRec sc scope cmd []
  | .updiSynch => updiRec 0x55 []
  | .updiLdcs r => updiRec (ldcsCode r) []
  | .updiStcs r v => updiRec (stcsCode r) [v]
  | .updiKey k => updiRec 0xE0 [k.code]
  | .updiSib => updiRec 0xE6 []
  | .updiStPtr .two a => updiRec 0x69 (le32 a)
  | .updiStPtr .three a => updiRec 0x6A (le32 a)
  | .updiRepeat n => updiRec 0xA0 [n]
  | .updiLdInc8 n => updiRec 0x24 [n]
  | .updiLdInc16 n => updiRec 0x25 [n]
  | .updiStInc8 d => updiRec 0x64 d
  | .updiStInc16 d => updiRec 0x65 d
  | .tpiLdcs r => tpiWireRec (ldcsCode r) []
  | .tpiStcs r v => tpiWireRec (stcsCode r) [v]
  | .tpiKey => tpiWireRec 0xE0 []
  | .tpiSetPtrLo b => tpiWireRec 0x68 [b]
  | .tpiSetPtrHi b => tpiWireRec 0x69 [b]
  | .tpiLdInc => tpiWireRec 0x24 []
  | .tpiStInc b => tpiWireRec 0x64 [b]
  | .tpiSout io v => tpiWireRec (0x90#8 ||| ioBits io) [v]
  | .tpiSin io => tpiWireRec (0x10#8 ||| ioBits io) []
  | .pdiLdcs r => pdiRec (ldcsCode r) []
  | .pdiStcs r v => pdiRec (stcsCode r) [v]
  | .pdiKey => pdiRec 0xE0 []
  | .pdiSts8 a v => pdiRec 0x4C (le32 a ++ [v])
  | .pdiLds8 a => pdiRec 0x0C (le32 a)
  | .pdiSetPtr a => pdiRec 0x6B (le32 a)
  | .pdiRepeat n => pdiRec 0xA0 [n]
  | .pdiLdInc n => pdiRec 0x24 [n]
  | .pdiStInc d => pdiRec 0x64 d
  | .wdRun op fb dl => intRec 0 (op.code :: fb.code :: le16 dl)
  | .updiLineConfig => intRec 1 []
  | .updiAttention => intRec 2 []
  | .updiTx b => intRec 3 [b]
  | .updiRx => intRec 4 []
  | .updiHandshake => intRec 5 []
  | .updiConnectAttempt => intRec 6 []
  | .updiBindVariant => intRec 7 []
  | .updiCssBracket w a d => intRec 8 (w.code :: (le32 a ++ d))
  | .updiChipErase => intRec 9 []
  | .updiUserrowCeremony a d => intRec 10 (le32 a ++ d)
  | .updiSignatureDummy n => intRec 11 (le32 n)
  | .updiFallback => intRec 12 []
  | .linkLoss => intRec 13 []
  | .tpiConnect => intRec 14 []
  | .tpiChunkLookup b0 b1 b2 => intRec 15 [b0, b1, b2]
  | .pdiBlock a (.recv n) => intRec 16 (0 :: (le32 a ++ [n]))
  | .pdiBlock a (.send d) => intRec 16 (1 :: (le32 a ++ d))
  | .pdiNvmSequence mt a d => intRec 17 (mt :: (le32 a ++ d))
  | .nvmCtl .wait => intRec 18 [0]
  | .nvmCtl (.cmd c) => intRec 18 [1, c]
  | .nvmPage (.note p) => intRec 19 (0 :: le32 p)
  | .nvmPage (.check a page) => intRec 19 (1 :: (le32 a ++ le32 page))
  | .nvmWriteMethod m mt a d => intRec 20 (m.bytes ++ (mt :: (le32 a ++ d)))
  | .nvmV0WriteMemory mt a d => intRec 21 (mt :: (le32 a ++ d))
  | .nvmV0WriteFuse a b => intRec 22 (b :: le32 a)
  | .nvmV1WriteMemory mt a d => intRec 23 (mt :: (le32 a ++ d))
  | .nvmV3WriteMemory mt a d => intRec 24 (mt :: (le32 a ++ d))
  | .nvmV4WriteMemory mt a d => intRec 25 (mt :: (le32 a ++ d))
  | .nvmOpaque .v2 f => intRec 26 (0 :: f.bytes)
  | .nvmOpaque .v5 f => intRec 26 (1 :: f.bytes)
  | .nvmStub f => intRec 27 f.bytes
  | .nvmReadMemory mt a n => intRec 28 (mt :: (le32 a ++ le32 n))
  | .nvmEraseMemory et a => intRec 29 (et :: le32 a)
  | .nvmProgInit => intRec 30 []
  | .rsaSample v => intRec 31 [boolByte v]
  | .rsaPress => intRec 32 []
  | .rsaRelease => intRec 33 []
  | .rsaAcquire e => intRec 34 [e.code]
  | .rsaQuiesce => intRec 35 []
  | .rsaReleaseUart => intRec 36 []
  | .sysVcp v => intRec 37 [boolByte v]
  | .sysSw v => intRec 38 [boolByte v]
  | .sysVtg mv => intRec 39 (le16 mv)
  | .sysUsbBusReset => intRec 40 []
  | .sysUsbSuspendResume => intRec 41 []
  | .sysRestart => intRec 42 []
  | .sessionOpen a d => intRec 43 (a.code :: d.bytes)
  | .sessionClose a => intRec 44 [a.code]

/-- The value of `ARCH` under which an instruction's record decodes to it: `PDI` for the PDI engine's seven
operations, `UPDI` for all others (R103). -/
def Instr.archOf : Instr → Arch
  | .pdiSignOn | .pdiSignOff | .pdiEnterProgmode | .pdiLeaveProgmode => .pdi
  | .pdiEraseMemory _ _ | .pdiReadMemory _ _ _ | .pdiWriteMemory _ _ _ _ => .pdi
  | _ => .updi

/-! ## The table's numbering -/

/-- The length the model pads a bare instruction word to with zero bytes: as long as the longest record with fixed
operands, `SESSION_OPEN` (4 + 1 + 69). -/
def bareLength : Nat := 74

/-- The first `n` bytes of a number, the lowest first. -/
def bytesOfNat : Nat → Nat → List Byte
  | 0, _ => []
  | n + 1, w => BitVec.ofNat 8 w :: bytesOfNat n (w / 256)

/-- A word of the opcode table, bit 0 the least significant bit of byte 0, laid out as a record: `nbits` bits of the
word, then zeros up to the longest instruction. -/
def tableRecord (nbits w : Nat) : List Byte :=
  bytesOfNat (max (nbits / 8) bareLength) (w % 2 ^ nbits)

/-- The instruction the decoder reads from a word of the opcode table, with `ARCH` as after reset and the default scope
selectors and codes. -/
def decodeTableWord (nbits w : Nat) : Option Instr :=
  match decode Config.defaultScopes .unset (tableRecord nbits w) with
  | .ok i => some i
  | .error _ => none

end Sys2Proof
end

