-- ==== Sys2Proof/Machine/Defaults.lean ====
section
/-! DEFINITION. The default values the spec gives to its parameters (00_scope.md R5, 93_implementation_defined.md
part 2). Every value here is a default from general knowledge (PRESUMED, log 6) unless its docstring says otherwise;
where the spec has no default the value is a constant without a body (log 7). -/

namespace Sys2Proof.Machine

/-- The UPDI vocabulary's scripts and key header at their defaults, which are written with the other parameters
(R119, R120). -/
def defaultUpdiScripts (p : UpdiParams) : UpdiParams :=
  let resetPulse : Script := [.stcs p.rReset 0x59, .stcs p.rReset 0x00]
  { p with
    initSeq := [.stcs p.rCtrlB 0x08, .stcs p.rCtrlA 0x06, .ldcs p.rStatusA]
    applyKeySeq := resetPulse
    leaveSeq := resetPulse
    disableSeq := [.stcs p.rCtrlB 0x0C]
    eraseProceedSeq := resetPulse ++ [.poll p.rSysSt p.sysstLock 0x00]
    urowProceedSeq := resetPulse ++ [.poll p.rSysSt p.sysstUrow p.sysstUrow]
    urowFinalSeq := [.stcs 0xA 0x03, .poll p.rSysSt p.sysstUrow 0x00, .stcs p.rKeySt 0x20] ++ resetPulse
    keyHdr := #v[p.synch, p.opKey] }

/-- The UPDI defaults (R119, R120). -/
def defaultUpdi : UpdiParams := defaultUpdiScripts
  { synch := 0x55
    ack := 0x40
    opLdcs := 0x80
    opStcs := 0xC0
    opKey := 0xE0
    opSib := 0xE6
    opStPtr2 := 0x69
    opStPtr3 := 0x6A
    opRepeat := 0xA0
    opLdInc1 := 0x24
    opLdInc2 := 0x25
    opStInc1 := 0x64
    opStInc2 := 0x65
    addrBytesOther := .three
    rStatusA := 0x0
    rCtrlA := 0x2
    rCtrlB := 0x3
    rKeySt := 0x7
    rReset := 0x8
    rSysSt := 0xB
    keystProg := 0x10
    keystErase := 0x08
    keystUrow := 0x20
    sysstLock := 0x01
    sysstProg := 0x08
    sysstUrow := 0x04
    cssOn := 0x0E
    cssOff := 0x06
    initSeq := []
    initAck := Config.updiInitAck
    applyKeySeq := []
    leaveSeq := []
    disableSeq := []
    eraseProceedSeq := []
    urowProceedSeq := []
    urowFinalSeq := []
    ptrAck := true
    cssPos := .afterPtr
    keyHdr := Vector.replicate 2 0
    keyProg := #v[0x55, 0xE0, 0x20, 0x67, 0x6F, 0x72, 0x50, 0x4D, 0x56, 0x4E]
    keyErase := #v[0x65, 0x73, 0x61, 0x72, 0x45, 0x4D, 0x56, 0x4E]
    keyUrow := #v[0x65, 0x74, 0x26, 0x73, 0x55, 0x4D, 0x56, 0x4E]
    attnLowUs := Config.attnLowUs
    attnHighUs := Config.attnHighUs }

/-- TPI's activation script at its default (R121). -/
def defaultTpiScripts (p : TpiParams) : TpiParams :=
  { p with activateSeq := [.attn, .clocks 16, .stcs p.rCtrl p.guardTime, .ldcs p.rIdent] }

/-- The TPI defaults (R121, R221, R224, R225, R228). -/
def defaultTpi : TpiParams := defaultTpiScripts
  { opLdcs := 0x80
    opStcs := 0xC0
    opKey := 0xE0
    opPtrLo := 0x68
    opPtrHi := 0x69
    opLdInc := 0x24
    opStInc := 0x64
    opSout := 0x90
    opSin := 0x10
    rStatus := 0x0
    statusNvmen := 0x02
    rCtrl := 0x2
    guardTime := 0x07
    rIdent := 0xF
    activateSeq := []
    ident := 0x80
    addrBytes := 2
    nvmCmd := 0x33
    nvmCsr := 0x32
    nvmBsy := 0x80
    cmdNone := 0x00
    cmdChipErase := 0x10
    cmdSectionErase := 0x14
    cmdWrite := 0x1D
    sigAddr := 0x3FC0
    chunkTable := [([0x1E, 0x91, 0x0F], .four), ([0x1E, 0x92, 0x0E], .eight)]
    xmtAppl := 1
    xetChip := 1
    xetConfig := 9
    vminMv := Config.tpiVminMv }

/-- PDI's scripts at their defaults (R121, R253, R260). -/
def defaultPdiScripts (p : PdiParams) : PdiParams :=
  { p with
    activateSeq := [.attn, .clocks 16, .stcs p.rCtrl p.guardTime]
    preKeySeq := [.stcs p.rReset p.resetValue]
    leaveSeq := [.stcs p.rReset 0x00] }

/-- The PDI defaults (R121, R251, R253, R254, R258, R260). The two buffer commands of USERROW are not in R258's
table and take flash's (log 26). -/
def defaultPdi : PdiParams := defaultPdiScripts
  { opLdcs := 0x80
    opStcs := 0xC0
    opKey := 0xE0
    opSts8 := 0x4C
    opLds8 := 0x0C
    opPtr := 0x6B
    opRepeat := 0xA0
    opLdInc := 0x24
    opStInc := 0x64
    rStatus := 0x0
    statusNvmen := 0x02
    rCtrl := 0x2
    guardTime := 0x07
    rReset := 0x1
    resetValue := 0x59
    addrBytes := 4
    activateSeq := []
    preKeySeq := []
    leaveSeq := []
    spaceCode := 0x00
    spaceData := 0x01
    nvmCmd := 0x010001CA
    nvmCtrlA := 0x010001CB
    nvmStatus := 0x010001CF
    cmdex := 0x01
    busy := 0x80
    cRead := 0x43
    cEraseBufFlash := 0x26
    cEraseBufEeprom := 0x36
    cEraseBufUserrow := 0x26
    cLoadBufFlash := 0x23
    cLoadBufEeprom := 0x33
    cLoadBufUserrow := 0x23
    cWriteAppl := 0x25
    cWriteBoot := 0x2D
    cWriteFlash := 0x2F
    cWriteEeprom := 0x35
    cWriteUserrow := 0x1A
    cEraseUserrow := 0x18
    cWriteFuse := 0x4C
    cWriteLock := 0x08
    cChipErase := 0x40
    cErasePage := 0x2B }

/-- The memory-type codes (R106). -/
def defaultMt : MtCodes where
  sram := 0x20
  eeprom := 0x22
  flashPage := 0xB0
  eepromPage := 0xB1
  fuse := 0xB2
  lock := 0xB3
  signature := 0xB4
  applFlash := 0xC0
  bootFlash := 0xC1
  userrow := 0xC5
  prodsig := 0xC6
  sib := 0xD3

/-- V0's scripts at their defaults, written with the record's command bytes (R276, R284). -/
def defaultV0Scripts (r : VariantRec) : VariantRec :=
  { r with
    pageErase := [.wait, .sendBytes .operand (.fixed [0xFF]), .cmd r.cErasePage, .wait]
    preWrite := PerKind.all [.wait, .cmd r.cBufClear, .wait]
    commit := PerKind.all [.cmd r.cWritePage, .wait]
    commitEraseWrite := PerKind.all [.cmd r.cEraseWritePage, .wait]
    writeOne := PerKind.all
      [.wait, .sendBytes .addrReg .address, .sendBytes .dataReg .operand, .cmd r.cWriteFuse, .wait]
    initScript := [.wait] }

/-- The V0 record (R284). -/
def defaultV0 : VariantRec := defaultV0Scripts
  { nvmCtrlA := 0x1000
    nvmStatus := 0x1002
    nvmData := 0x1006
    nvmAddr := 0x1008
    busyMask := 0x03
    errMask := 0x04
    cNop := 0x00
    cWritePage := 0x01
    cErasePage := 0x02
    cEraseWritePage := 0x03
    cBufClear := 0x04
    cWriteFuse := 0x07
    pageErase := []
    preWrite := PerKind.all []
    commit := PerKind.all []
    commitEraseWrite := PerKind.all []
    writeOne := PerKind.all []
    initScript := []
    addrBytes := .two }

/-- Every parameter at its default (R5). -/
def defaultParams : Params where
  scopes := Config.defaultScopes
  updi := defaultUpdi
  tpi := defaultTpi
  pdi := defaultPdi
  tpiPdiKey := #v[defaultTpi.opKey, 0xFF, 0x88, 0xD8, 0xCD, 0x45, 0xAB, 0x89, 0x12, Config.tpiPdiKeyTenth]
  mt := defaultMt
  xlateRelative := []
  etChip := 0x00
  etPage := 0x04
  eraseUnhonored := 0
  rspOk := 0x80
  rspData := 0x84
  rspFailed := 0xA0
  archUpdi := 5
  archPdi := 3
  clkCfgKhz := 240
  clkTable := [240, 200, 160, 120, 80, 40]
  blockMaxUnits := 256
  sibNvmverOffset := 10
  sibIdOffset := 0
  sibMap := [(0x30, .v0), (0x31, .v1), (0x32, .v2), (0x33, .v3), (0x34, .v4), (0x35, .v5)]
  sigDummy := [0x1E, 0x00, 0x00]
  ddClearOnSignOn := true
  retryOnFailure := false
  linkLossOnGiveup := true
  eraseReentersProg := true
  v0 := defaultV0
  v3 := { Config.v3Record with addrBytes := .three }
  v4 := { Config.v4Record with addrBytes := .three }

end Sys2Proof.Machine
end

