-- ==== Sys2Proof/Machine/State.lean ====
section
/-! DEFINITION. The state of TPB (10_state.md R20): every register the spec names, the spec's bookkeeping (R41, R86),
and, in `env` and `cfg`, what the model holds of the environment and of the implementation. Plain data. -/

namespace Sys2Proof.Machine

/-- Session state `SESS` (R22). -/
structure Sess where
  link : Bool
  prog : Bool
  eraseDone : Bool
  hv : Bool
  initFail : Bool
  deriving DecidableEq, Repr, Inhabited

/-- `SESS = 0`: all five fields 0 (R26). -/
def Sess.zero : Sess := ⟨false, false, false, false, false⟩

/-- Global/UI state `UI` (R27). -/
structure UiBits where
  usbEnum : Bool
  vcpOpen : Bool
  vcpBufsel : Bool
  breakActive : Bool
  swPress : Bool
  swRelease : Bool
  deriving DecidableEq, Repr, Inhabited

/-- The device descriptor `DD` with its valid bit (R29). -/
structure DevReg where
  valid : Bool
  desc : DevDesc
  deriving DecidableEq, Repr, Inhabited

/-- The `SIB` with its valid bit (R31). -/
structure SibReg where
  valid : Bool
  bytes : List Byte
  deriving DecidableEq, Repr, Inhabited

/-- Who holds the UART, `UMODE` (R37). -/
inductive Umode where
  | idle | vcp | updi | tpi | pdi
  deriving DecidableEq, Repr, Inhabited

/-- The receive flags `RXF` (R40, R117). -/
structure RxFlags where
  perr : Bool
  ferr : Bool
  ovf : Bool
  deriving DecidableEq, Repr, Inhabited

/-- No receive flag. -/
def RxFlags.clear : RxFlags := ⟨false, false, false⟩

/-- The payload shapes of a request (R100): N, P, M and E. -/
inductive Payload where
  | none
  | setParam (p : ParamSet)
  | getParam (which : Byte)
  | tpiParam (value : List Byte)
  | mem (mt : Byte) (addr len : Addr) (data : List Byte)
  | erase (et : Byte) (addr : Addr)
  deriving DecidableEq, Repr, Inhabited

/-- The storage of the command buffer, which request and response overlay (R21). -/
inductive CmdBody where
  | request (scope cmd : Byte) (payload : Payload)
  | response (r : Response)
  deriving DecidableEq, Repr, Inhabited

/-- The command buffer `CB` (R21). -/
structure CmdBuf where
  seq : Half
  body : CmdBody
  deriving DecidableEq, Repr, Inhabited

/-- The six failure causes, for the model's traces only (R320). -/
inductive Cause where
  | echo (sent got : Byte)
  | flags (f : RxFlags)
  | timeout
  | status
  | precond
  | unsupported
  deriving DecidableEq, Repr, Inhabited

/-- The result of an operation or primitive (R11): a byte count, 0 for failure, and the data of a read; with the
failure's cause, which no register holds (R327; log 15). -/
structure Res where
  count : Nat
  data : List Byte
  cause : Option Cause
  deriving DecidableEq, Repr, Inhabited

/-- Success with a count and no data. -/
def Res.ok (n : Nat) : Res := ⟨n, [], none⟩
/-- Success with data. -/
def Res.read (d : List Byte) : Res := ⟨d.length, d, none⟩
/-- Failure: count 0 and no data (R11, R108). -/
def Res.fail (c : Cause) : Res := ⟨0, [], some c⟩

/-- One event of the wire history (R86). -/
inductive WireEvent where
  | tx (b : Byte)
  | echo (b : Byte) (f : RxFlags)
  | rx (b : Byte) (f : RxFlags)
  | attnLow (us : Nat)
  | attnHigh (us : Nat)
  | clkStart
  | clocks (n : Nat)
  | clkStop
  | tdatRelease
  | rateSet (khz : Nat)
  | trst (level : Bool)
  deriving DecidableEq, Repr, Inhabited

/-- How `TDAT` is driven: open-drain for UPDI and TPI, push-pull for PDI (R9). -/
inductive Drive where
  | openDrain | pushPull
  deriving DecidableEq, Repr, Inhabited

/-- A frame as the receiver samples it: the eight data bits, the parity bit, the two stop bits, and whether it came
before the previous frame was taken (R117). -/
structure LineFrame where
  data : Byte
  parity : Bool
  stop1 : Bool
  stop2 : Bool
  overrun : Bool
  deriving DecidableEq, Repr, Inhabited

/-- What the line does at a reception: a frame arrives, or nothing ever does (R9, U16; log 4). -/
inductive LineEvent where
  | frame (f : LineFrame)
  | silence
  deriving DecidableEq, Repr, Inhabited

/-- The bits the USB glue and the surrounding processor drive (R28, R43; log 35). -/
structure Glue where
  usbEnum : Bool
  vcpBufsel : Bool
  breakActive : Bool
  ie : Bool
  deriving DecidableEq, Repr, Inhabited

/-- Events of the environment that wait for the operation's end (R328, R334). -/
structure Pending where
  glue : Option Glue
  suspendResume : Bool
  busReset : Bool
  vcp : Option Bool
  sw : Option Bool
  deriving DecidableEq, Repr, Inhabited

/-- Nothing pending. -/
def Pending.empty : Pending := ⟨none, false, false, none, none⟩

/-- The environment as the machine meets it: the host's operation stream, the line's coming behaviour, the
milliseconds the coming sequencer steps take, the inputs `IE` and `VTG`, the pending events. The MODEL's own. -/
structure Env where
  stream : List (List Byte)
  line : List LineEvent
  delays : List Nat
  ie : Bool
  vtg : Nat
  pend : Pending
  deriving DecidableEq, Repr, Inhabited

/-- The state of TPB. -/
structure State where
  /-- command buffer (R21) -/
  cb : CmdBuf
  /-- session state (R22) -/
  sess : Sess
  /-- global/UI state (R27) -/
  ui : UiBits
  /-- device descriptor (R29) -/
  dd : DevReg
  /-- command table binding (R30) -/
  ct : Variant
  /-- system information block (R31) -/
  sib : SibReg
  /-- page tracker, `none` is the sentinel `INVALID` (R32) -/
  beforePage : Option Addr
  /-- UPDI line rate in kHz (R33) -/
  clk : Nat
  /-- a countdown is running (R35) -/
  wdArmed : Bool
  /-- milliseconds left (R35) -/
  wdCnt : Half
  /-- the deadline of the current run (R35) -/
  wdDeadline : Half
  /-- architecture selector (R36) -/
  arch : Arch
  /-- UART owner (R37) -/
  umode : Umode
  /-- the button's reset request (R38) -/
  trstBtn : Bool
  /-- the engine's reset request (R38) -/
  trstEng : Bool
  /-- button level at the previous sample, `none` before the first sample (R38, R46; log 11) -/
  swPrev : Option Bool
  /-- TPI write granularity (R39) -/
  tpiChunk : Chunk
  /-- what TPI.SET_PARAM stored; no event but a restart changes it (R225; DESIGN CHOICE, log 25) -/
  tpiParams : List Byte
  /-- receive flags (R40) -/
  rxf : RxFlags
  /-- index of the next operation (R41) -/
  opi : Nat
  /-- phase inside the running operation, 0 between operations (R41) -/
  ph : Nat
  /-- TCLK runs: started by a synchronous engine's first bit, stopped by a quiesce (R220, R250, R309; log 41) -/
  tclk : Bool
  /-- how TPB drives TDAT, `none` while it does not (R9, R170, R220, R251, R309; log 51) -/
  tdat : Option Drive
  /-- wire history, newest first (R86) -/
  hist : List WireEvent
  /-- result of the last operation or primitive: the model's trace (log 15) -/
  res : Res
  /-- the environment: the model's own (log 2, 4, 5, 35) -/
  env : Env
  /-- the implementation parameters, never written (R5; log 6) -/
  cfg : Params
  deriving DecidableEq, Repr

/-- Why the machine stops with a fault. -/
inductive Fault where
  /-- Raised by a blocking wait (`rx()`, an echo, a poll) that nothing will end: the awaited frame never comes and no
  countdown is armed, or interrupts are disabled (R333, U6, "stuck"). Safe: the spec gives no further step. -/
  | blocked
  deriving DecidableEq, Repr

/-- Why the machine has no step. -/
inductive Refusal where
  /-- Raised by an arm of `exec` whose instruction has no meaning yet. Safe. -/
  | notModelled (mnemonic : String)
  /-- Raised by `WD.RUN` with `IE = 0` (R150, U3: "the model has no step"). Safe. -/
  | runInterruptsOff
  /-- Raised by `WD.RUN` while a countdown is armed (R151, U2). Safe. -/
  | runNested
  /-- Raised by `WD.RUN` with a deadline of 0 ms (R141, U4). Safe. -/
  | runZeroDeadline
  /-- Raised by `step` on a record of the general or the EDBG-vendor scope, which is not TPB's (R101, R111). Safe. -/
  | foreignScope
  deriving DecidableEq, Repr

/-- The command buffer after reset: unspecified by the spec (U11); zeros (DESIGN CHOICE, log 9). -/
def CmdBuf.reset : CmdBuf := ⟨0, .request 0 0 .none⟩

/-- A descriptor of zeros, the content at reset, meaningless while invalid (DESIGN CHOICE, log 10). -/
def DevDesc.zero : DevDesc := ⟨.updi, ⟨0, 0, 0, 0, 0, 0, 0, 0⟩, ⟨0, 0, 0, 0, 0, 0, 0, 0⟩, 0⟩

/-- The environment after reset: nothing delivered, a silent line, interrupts enabled (DESIGN CHOICE, log 10). -/
def Env.reset : Env := ⟨[], [], [], true, 0, Pending.empty⟩

/-- Restart (R361): every piece of state takes the restart column of R46; the environment and the implementation are
not the machine's to change. -/
def State.restarted (env : Env) (cfg : Params) : State where
  cb := CmdBuf.reset
  sess := Sess.zero
  ui := ⟨false, false, false, false, false, false⟩
  dd := ⟨false, DevDesc.zero⟩
  ct := .stub
  sib := ⟨false, List.replicate Config.sibLen 0⟩
  beforePage := none
  clk := cfg.clkCfgKhz
  wdArmed := false
  wdCnt := 0
  wdDeadline := 0
  arch := .unset
  umode := .idle
  trstBtn := false
  trstEng := false
  swPrev := none
  tpiChunk := .two
  tpiParams := []
  rxf := RxFlags.clear
  opi := 0
  ph := 0
  tclk := false
  tdat := none
  hist := []
  res := ⟨0, [], none⟩
  env := env
  cfg := cfg

/-- The machine right after reset (R361), with the default parameters. -/
def State.reset : State := State.restarted Env.reset defaultParams

end Sys2Proof.Machine
end

