-- ==== Sys2Proof/Machine/Flags.lean ====
section
/-! DEFINITION. The receive flags (R40, R117), the frame's line levels and the bit timing (R117, R118). They are the
only flag computations of TPB: it has no condition codes (R45). -/

namespace Sys2Proof.Machine

/-- The XOR of the eight data bits: the even-parity bit (R117). -/
def parityOf (b : Byte) : Bool :=
  Bool.xor (Bool.xor (Bool.xor (b.getLsbD 0) (b.getLsbD 1)) (Bool.xor (b.getLsbD 2) (b.getLsbD 3)))
    (Bool.xor (Bool.xor (b.getLsbD 4) (b.getLsbD 5)) (Bool.xor (b.getLsbD 6) (b.getLsbD 7)))

/-- The twelve line levels of a frame in time order: start bit 0, data bits least significant first, the parity bit,
two stop bits 1 (R117). -/
def frameLevels (b : Byte) : List Bool :=
  [false, b.getLsbD 0, b.getLsbD 1, b.getLsbD 2, b.getLsbD 3, b.getLsbD 4, b.getLsbD 5, b.getLsbD 6, b.getLsbD 7,
   parityOf b, true, true]

/-- A frame as a receiver samples the levels an undisturbed `frameLevels b` puts on the line (log 45). -/
def LineFrame.clean (b : Byte) : LineFrame := ⟨b, parityOf b, true, true, false⟩

/-- The receive flags of a sampled frame: `PERR` when the parity bit differs from the XOR of the data bits, `FERR`
when a stop bit is sampled 0, `OVF` when the frame came before the previous one was taken (R117). -/
def RxFlags.ofFrame (f : LineFrame) : RxFlags where
  perr := f.parity != parityOf f.data
  ferr := !(f.stop1 && f.stop2)
  ovf := f.overrun

/-- The bit period in nanoseconds at a rate in kHz, rounded down (R118). -/
def bitPeriodNs (khz : Nat) : Nat := 1000000 / khz

/-- The twelve bit periods of a frame in nanoseconds, rounded down once (R118). -/
def frameTimeNs (khz : Nat) : Nat := 12 * 1000000 / khz

/-- The line rate of an engine: `CLK` for UPDI, the fixed nominal rates for TPI and PDI (R33, R118). -/
def lineRateKhz (e : Engine) (s : State) : Nat :=
  match e with
  | .updi => s.clk
  | .tpi => Config.tpiClkKhz
  | .pdi => Config.pdiClkKhz

end Sys2Proof.Machine
end

