-- ==== Sys2Proof/Machine/Operands.lean ====
section
/-! DEFINITION. Every operand form of TPB's operations as a pure function: wire opcodes and addresses, memory and
erase types, page alignment, TPI padding, table lookups, and the presentation of the bit fields. -/

namespace Sys2Proof.Machine

/-! ## Bit fields as words (R22, R27): presentation only (D2, D3) -/

/-- A truth value at a bit position. -/
def bitAt (b : Bool) (k : Nat) : Byte := if b then (1#8) <<< k else 0

/-- `SESS` as an 8-bit word, bits 5 to 7 zero (R22). -/
def Sess.toByte (x : Sess) : Byte :=
  bitAt x.link 0 ||| bitAt x.prog 1 ||| bitAt x.eraseDone 2 ||| bitAt x.hv 3 ||| bitAt x.initFail 4

/-- `UI` as an 8-bit word (R27). -/
def UiBits.toByte (x : UiBits) : Byte :=
  bitAt x.usbEnum 0 ||| bitAt x.vcpOpen 1 ||| bitAt x.vcpBufsel 2 ||| bitAt x.breakActive 3 |||
    bitAt x.swPress 4 ||| bitAt x.swRelease 5

/-! ## Owners and engines -/

/-- The value of `UMODE` while an engine holds the UART (R37). -/
def engineMode : Engine → Umode
  | .updi => .updi
  | .tpi => .tpi
  | .pdi => .pdi

/-- Does an engine hold the UART? -/
def Umode.isEngine : Umode → Bool
  | .updi | .tpi | .pdi => true
  | .idle | .vcp => false

/-- How an engine drives `TDAT` (R9). -/
def engineDrive : Engine → Drive
  | .updi => .openDrain
  | .tpi => .openDrain
  | .pdi => .pushPull

/-- The value of `ARCH` that selects an architecture. -/
def archOf : AvrArch → Arch
  | .updi => .updi
  | .pdi => .pdi

/-- Does a synchronous engine hold the UART (R220, R250)? -/
def Umode.isSync : Umode → Bool
  | .tpi | .pdi => true
  | .idle | .vcp | .updi => false

/-- `TRST = TRST_ENG or (TRST_BTN and not SESS.LINK)` (R306). -/
def State.trst (s : State) : Bool := s.trstEng || (s.trstBtn && !s.sess.link)

/-! ## Wire opcodes (R119, R121, R221) -/

/-- `OP_LDCS(r)` of an engine (R119, R121). The rules leave the function of the index to the implementation and give
the default alone; here the parameter is one byte, to which the index is joined as in the default (DESIGN CHOICE, log
53). -/
def opLdcs (c : Params) (e : Engine) (r : RegIx) : Byte :=
  (match e with
   | .updi => c.updi.opLdcs
   | .tpi => c.tpi.opLdcs
   | .pdi => c.pdi.opLdcs) ||| r.setWidth 8

/-- `OP_STCS(r)` of an engine (R119, R121), one byte joined with the index as in the default (DESIGN CHOICE, log 53). -/
def opStcs (c : Params) (e : Engine) (r : RegIx) : Byte :=
  (match e with
   | .updi => c.updi.opStcs
   | .tpi => c.tpi.opStcs
   | .pdi => c.pdi.opStcs) ||| r.setWidth 8

/-- `OP_SOUT(io)` (R221), one byte joined with the index's bits as in the default (DESIGN CHOICE, log 53). -/
def opSout (c : Params) (io : IoIx) : Byte := c.tpi.opSout ||| ioBits io

/-- `OP_SIN(io)` (R221), one byte joined with the index's bits as in the default (DESIGN CHOICE, log 53). -/
def opSin (c : Params) (io : IoIx) : Byte := c.tpi.opSin ||| ioBits io

/-- The engine's instruction prefix: `UPDI_SYNCH` for UPDI, empty for TPI and PDI (R116, R174). -/
def wirePrefix (c : Params) : Engine → List Byte
  | .updi => [c.updi.synch]
  | .tpi => []
  | .pdi => []

/-- The bytes of a UPDI key on the wire: the 10-byte constant as it stands, an 8-byte one after `UPDI_KEY_HDR` (R120,
R177). -/
def keyBytes (c : Params) : UpdiKey → List Byte
  | .prog => c.updi.keyProg.toList
  | .erase => c.updi.keyHdr.toList ++ c.updi.keyErase.toList
  | .urow => c.updi.keyHdr.toList ++ c.updi.keyUrow.toList

/-- The bytes of the key TPI and PDI share, as they stand (R120, R223, R253). -/
def syncKeyBytes (c : Params) : List Byte := c.tpiPdiKey.toList

/-! ## Addresses (R71, R84) -/

/-- The address bytes of a UPDI pointer-set, low byte first (R73 (3), R188). -/
def ptrBytes (w : PtrWidth) (a : Addr) : List Byte :=
  match w with
  | .two => [byteOf a 0, byteOf a 1]
  | .three => [byteOf a 0, byteOf a 1, byteOf a 2]

/-- The pointer-set opcode for a number of address bytes (R119). -/
def opStPtr (c : Params) : PtrWidth → Byte
  | .two => c.updi.opStPtr2
  | .three => c.updi.opStPtr3


/-- The address bytes of a TPI pointer-set, each behind its own instruction, low byte first: the first
`TPI_ADDR_BYTES` of the two (R121, R221). The rules give the form for the default 2 alone; for another value this is the
model's, which neither sends more than two nor requires the bytes left out to be 0 (R71; DESIGN CHOICE, log 55). -/
def tpiPtrBytes (c : Params) (a : Addr) : List Byte :=
  [c.tpi.opPtrLo, byteOf a 0, c.tpi.opPtrHi, byteOf a 1].take (2 * c.tpi.addrBytes)

/-- The address bytes of a PDI instruction, low byte first: the first `PDI_ADDR_BYTES` of the address (R73 (3), R121,
R251). The rules give the form for the default 4 alone; for another value this is the model's, which neither sends more
than four nor requires the bytes left out to be 0 (R71; DESIGN CHOICE, log 55). -/
def pdiAddr (c : Params) (a : Addr) : List Byte := (le32 a).take c.pdi.addrBytes

/-- Bits above the wire's address width are 0 (R71). -/
def ptrFits (w : PtrWidth) (a : Addr) : Bool := decide (a.toNat < 2 ^ (8 * w.bytes))

/-- The address `i` bytes on, modulo 2^32. The operations have checked `addr + len <= 2^32` before (R84); a PDI row run
by itself has not, and its address wraps (DESIGN CHOICE, log 56). -/
def addrAt (a : Addr) (i : Nat) : Addr := a + BitVec.ofNat 32 i

/-- `1 <= len <= XFER_MAX_BYTES` (R76). -/
def lenOk (n : Nat) : Bool := decide (1 ≤ n) && decide (n ≤ Config.xferMaxBytes)

/-- `addr + len <= 2^32` (R84). -/
def inSpace32 (a : Addr) (n : Nat) : Bool := decide (a.toNat + n ≤ 2 ^ 32)

/-- `addr + len <= 2^16`: the TPI data space (R71, R230). -/
def inSpace16 (a : Addr) (n : Nat) : Bool := decide (a.toNat + n ≤ 2 ^ 16)

/-- `addr & ~(page - 1)` (R74 (4)). -/
def pageAlign (a page : Addr) : Addr := a &&& ~~~(page - 1)

/-- A write's first and last byte lie in one page (R273). -/
def onePage (a : Addr) (n : Nat) (page : Addr) : Bool := pageAlign a page == pageAlign (addrAt a (n - 1)) page

/-- A length a block primitive can move: bytes up to `BLOCK_MAX_UNITS`, words for even lengths up to twice that
(R281). -/
def blockable (c : Params) (n : Nat) : Bool :=
  decide (n ≤ c.blockMaxUnits) || (decide (n % 2 = 0) && decide (n / 2 ≤ c.blockMaxUnits))

/-- The address's high byte (R254). -/
def pdiSpace (a : Addr) : Byte := byteOf a 3

/-! ## Memory types (R106) -/

/-- The kind a memory-type code names; where two kinds' open codes are equal, the first in the order of R106's table
(DESIGN CHOICE, log 59). -/
def memKind (c : Params) (b : Byte) : Option MemKind :=
  if b = c.mt.sram then some .sram
  else if b = c.mt.eeprom then some .eeprom
  else if b = c.mt.flashPage then some .flashPage
  else if b = c.mt.eepromPage then some .eepromPage
  else if b = c.mt.fuse then some .fuse
  else if b = c.mt.lock then some .lock
  else if b = c.mt.signature then some .signature
  else if b = c.mt.applFlash then some .applFlash
  else if b = c.mt.bootFlash then some .bootFlash
  else if b = c.mt.userrow then some .userrow
  else if b = c.mt.prodsig then some .prodsig
  else if b = c.mt.sib then some .sib
  else none

/-- The classes of R106, with SRAM and USERROW each alone. -/
inductive MemClass where
  | flash | eeprom | fuseLike | userrow | sram | readOnly
  deriving DecidableEq, Repr

/-- The class of a memory type (R106). -/
def memClass : MemKind → MemClass
  | .flashPage | .applFlash | .bootFlash => .flash
  | .eeprom | .eepromPage => .eeprom
  | .fuse | .lock => .fuseLike
  | .userrow => .userrow
  | .sram => .sram
  | .signature | .prodsig | .sib => .readOnly

/-- The memory area whose base offset a kind is relative to, where it is (R29, R72; log 20). -/
def areaOf : MemKind → Option Area
  | .sram => some .sram
  | .eeprom | .eepromPage => some .eeprom
  | .flashPage | .applFlash => some .flash
  | .bootFlash => some .boot
  | .fuse => some .fuse
  | .lock => some .lock
  | .userrow => some .userrow
  | .prodsig => some .prodsig
  | .signature | .sib => none

/-- An entry of a descriptor table (R29). -/
def areaEntry (t : AreaTable) : Area → Addr
  | .sram => t.sram
  | .eeprom => t.eeprom
  | .flash => t.flash
  | .boot => t.boot
  | .fuse => t.fuse
  | .lock => t.lock
  | .userrow => t.userrow
  | .prodsig => t.prodsig

/-- The base offset of a kind: of its area, or the signature location (R29, R72; log 20). -/
def baseOf (d : DevDesc) (k : MemKind) : Addr :=
  match areaOf k with
  | some a => areaEntry d.base a
  | none => if k = .signature then d.sigAddr else 0

/-- `xlate(mtype, addr, DD)`: the identity unless the parameters make the kind relative to a base offset, which needs
a valid descriptor and must not pass 2^32 (R72, R84; log 20). -/
def xlate (c : Params) (dd : DevReg) (k : MemKind) (a : Addr) : Option Addr :=
  if c.xlateRelative.contains k then
    if dd.valid && decide ((baseOf dd.desc k).toNat + a.toNat < 2 ^ 32) then some (baseOf dd.desc k + a) else none
  else some a

/-! ## Lookups -/

/-- The larger of a rate found so far and a table entry, among the entries strictly below `c`. -/
def betterRate (c : Nat) (best : Option Nat) (t : Nat) : Option Nat :=
  if t < c then
    match best with
    | none => some t
    | some b => if b < t then some t else some b
  else best

/-- `clk_lower(c)`: the largest table entry strictly below `c` (R34). -/
def clkLower (c : Params) (clk : Nat) : Option Nat := c.clkTable.foldl (betterRate clk) none

/-- The parameters of the rate are those R33 and R34 allow: the configured rate and every table entry lie in 40 to
240 kHz, and 40 is in the table, so that only 40 has no lower rate. -/
def clkParamsOk (c : Params) : Bool :=
  decide (Config.clkMinKhz ≤ c.clkCfgKhz) && decide (c.clkCfgKhz ≤ Config.clkMaxKhz) &&
    c.clkTable.all (fun t => decide (Config.clkMinKhz ≤ t) && decide (t ≤ Config.clkMaxKhz)) &&
    c.clkTable.contains Config.clkMinKhz

/-- The keys are distinct where R120 says so: the two of 8 bytes from each other, the two of 10 bytes from each other; a
key of 10 bytes differs from one of 8 by its length. -/
def keyParamsOk (c : Params) : Bool :=
  decide (c.updi.keyErase ≠ c.updi.keyUrow) && decide (c.tpiPdiKey ≠ c.updi.keyProg)

/-- `ERASE_HONORED` has exactly two members (R5, R107). -/
def eraseParamsOk (c : Params) : Bool := decide (c.etChip ≠ c.etPage)

/-- `tpi_chunk_of(sig)`: the table's entry, else 2 (R224). -/
def chunkOf (c : Params) (sig : List Byte) : Chunk :=
  match c.tpi.chunkTable.find? (fun e => e.1 == sig) with
  | some e => e.2
  | none => .two

/-- The variant the SIB's identifying character selects, `STUB` for any other (R122, R183). An offset past the SIB's
end, above 31, names no character and binds the stub too (DESIGN CHOICE, log 58). -/
def sibVariant (c : Params) (sib : List Byte) : Variant :=
  match sib[c.sibNvmverOffset]? with
  | some ch =>
    match c.sibMap.find? (fun e => e.1 == ch) with
    | some e => e.2
    | none => .stub
  | none => .stub

/-- The record of a variant that has one: V0, V3 and V4 (R284). V2 and V5 are given none, so they are as `STUB`
(R280; log 22). -/
def variantRec (c : Params) : Variant → Option VariantRec
  | .v0 => some c.v0
  | .v3 => some c.v3
  | .v4 => some c.v4
  | .stub | .v1 | .v2 | .v5 => none

/-- The UPDI address width of a variant, from its record; a variant without one has the engine's (R119, R284,
`UPDI_ADDR_BYTES`). -/
def ptrWidth (c : Params) (v : Variant) : PtrWidth :=
  match variantRec c v with
  | some r => r.addrBytes
  | none => c.updi.addrBytesOther

/-- `decode_arch`: the host's value for UPDI or PDI, any other gives `NONE` (R109); one value for both is UPDI's
(DESIGN CHOICE, log 59). -/
def decodeArch (c : Params) (v : Byte) : Arch :=
  if v = c.archUpdi then .updi
  else if v = c.archPdi then .pdi
  else .unset

/-- The host's value for an architecture (R109, R115). -/
def archValue (c : Params) : AvrArch → Byte
  | .updi => c.archUpdi
  | .pdi => c.archPdi

/-- The answer of the dispatcher to a result (R108): `DATA` for a nonzero count with data, `OK` for a nonzero count
without, `FAILED` without data for count 0. -/
def respond (c : Params) (r : Res) : Response :=
  if r.count = 0 then ⟨c.rspFailed, 0, []⟩
  else if r.data.isEmpty then ⟨c.rspOk, r.count, []⟩
  else ⟨c.rspData, r.count, r.data⟩

/-! ## TPI padding (R227) -/

/-- The padded start address, `addr & ~(c - 1)`, in unbounded naturals. -/
def padStart (c addr : Nat) : Nat := addr - addr % c

/-- The padded end address, `(addr + len + c - 1) & ~(c - 1)`, in unbounded naturals. -/
def padEnd (c addr len : Nat) : Nat := (addr + len + c - 1) - (addr + len + c - 1) % c

/-- The padded buffer: the data in its place, `FILL_BYTE` before and after it. -/
def padBuf (fill : Byte) (c addr : Nat) (data : List Byte) : List Byte :=
  List.replicate (addr - padStart c addr) fill ++ data ++
    List.replicate (padEnd c addr data.length - (addr + data.length)) fill

end Sys2Proof.Machine
end

