-- ==== Sys2Proof/Machine/Ops.lean ====
section
/-! DEFINITION. The shared operations: the sequencer's steps and their boundaries (R9, R10, R329), frames and scripts
(R116, R172, R173), the supervisor with its expiry (R140 to R155, R335), the resetting events (R330, R360 to R363,
R203), the UART's owners (R308 to R310), and the delivery of a result (R21, R41, R108).

TAKING THE ONE EXCEPTION is `State.divert` (R335: nothing is saved, `WD_ARMED <- 0`, control at the recovery point),
used by `recovery`; there is no return from it (R335, R337). -/

namespace Sys2Proof.Machine

/-- Why a primitive stops before its end. -/
inductive Stop where
  /-- a synchronous failure (R320) -/
  | raise (c : Cause)
  /-- the countdown's expiry struck at a boundary (R145, R329) -/
  | expired
  /-- blocked with nothing to end the wait (R333) -/
  | stuck
  /-- refused by the supervisor (R141, R150, R151) -/
  | refused (r : Refusal)
  deriving DecidableEq, Repr

/-- A piece of the running operation: it changes the state and answers a value, or stops. A stop keeps the state as
it was at the stop: nothing is rolled back (R145, R200). -/
abbrev M (α : Type) := EStateM Stop State α

/-! ## Sequencer steps -/

/-- The countdown has fired and can be delivered: `WD_ARMED = 1`, `WD_CNT = 0`, `IE = 1` (R144, R150). -/
def State.expiryDue (s : State) : Bool := s.wdArmed && s.env.ie && s.wdCnt == 0

/-- The time of one sequencer step passes: while armed, `WD_CNT` falls by one each millisecond until it is 0 (R141;
log 5). -/
def State.elapse (s : State) : State :=
  match s.env.delays with
  | [] => s
  | d :: ds =>
    { s with
      wdCnt := if s.wdArmed then BitVec.ofNat 16 (s.wdCnt.toNat - d) else s.wdCnt
      env := { s.env with delays := ds } }

/-- The countdown runs out before what is awaited comes, the next frame or the operation's return: a blocked wait is a
boundary at every instant (R329), and an operation that returns in the same millisecond has returned (R334). -/
def State.expiresWaiting (s : State) : Bool :=
  s.wdArmed && s.env.ie &&
    (match s.env.delays with
     | d :: _ => decide (s.wdCnt.toNat < d)
     | [] => false)

/-- The boundary before a sequencer step: time passes, then the expiry is looked at, so that it can strike at every
boundary of an armed pass, the one before its first step included (R10, R144, R329; log 5). -/
def boundary : M Unit := fun s => if s.elapse.expiryDue then .error .expired s.elapse else .ok () s.elapse

/-- A change of the output `TRST` from `old` is recorded (R86, R306; log 27). -/
def State.noteTrst (old : Bool) (s : State) : State := if s.trst = old then s else { s with hist := .trst s.trst :: s.hist }

/-- A write of registers, with the change of the output `TRST` it makes recorded after it (R86, R306; log 27). -/
def State.write (f : State → State) (s : State) : State := (f s).noteTrst s.trst

/-- One step that changes the state. It records no change of `TRST`: what it does makes none, or a later step records
it. -/
def regs (f : State → State) : M Unit := do
  boundary
  modify f

/-- One step that writes registers. -/
def upd (f : State → State) : M Unit := do
  boundary
  modify (State.write f)

/-- An event is appended to the wire history (R86). -/
def State.record (e : WireEvent) (s : State) : State := { s with hist := e :: s.hist }

/-- One line-level action. -/
def act (e : WireEvent) : M Unit := regs (State.record e)

/-- TPB drives `TDAT` as an engine does: open-drain for UPDI and TPI, push-pull for PDI (R9, R251). -/
def State.driveTdat (e : Engine) (s : State) : State := { s with tdat := some (engineDrive e) }

/-- TPB lets `TDAT` go (R170, R171, R251). No step of its own: it ends the frame or the level it follows. -/
def State.freeTdat (s : State) : State := { s with tdat := none }

/-- `TCLK` runs where a synchronous engine holds the UART: it gives every bit that TPB sends, receives or waits for its
period. The start is recorded (R86, R220, R221, R250; log 41). No step of its own: it begins the step it is part of. -/
def State.runTclk (s : State) : State :=
  { s with
    tclk := s.tclk || s.umode.isSync
    hist := if s.umode.isSync && !s.tclk then .clkStart :: s.hist else s.hist }

/-- TPB listens: `TCLK` runs for the bits to come, and TPB does not drive `TDAT` (R170, R220, R251; log 41, log 51). -/
def State.listen (s : State) : State := s.runTclk.freeTdat

/-- One step in which TPB drives `TDAT`, to a level. -/
def drive (e : Engine) (ev : WireEvent) : M Unit := regs fun s => (s.driveTdat e).record ev

/-- `PH`: the number of the step the operation's rule gives the sequencer next (R41). Bookkeeping, no step. -/
def phase (n : Nat) : M Unit := modify fun s => { s with ph := n }

/-- End the primitive with a failure cause (R7, R320). -/
def raise {α : Type} (c : Cause) : M α := throw (.raise c)

/-- `require b else E_PRECOND` (R324). -/
def require (b : Bool) : M Unit := if b then pure () else raise .precond

/-- A wait that nothing on the line will end: the expiry ends it when the countdown is armed, otherwise it is stuck
(R145, R333). -/
def blockedWait {α : Type} : M α := fun s =>
  if s.wdArmed && s.env.ie then .error .expired { s with wdCnt := 0 } else .error .stuck s

/-- The state after a frame came in: time passed, the frame taken from the line, `RXF` written, the event recorded
(R40, R86). -/
def State.received (f : LineFrame) (rest : List LineEvent) (e : WireEvent) (s : State) : State :=
  { s.elapse with
    rxf := RxFlags.ofFrame f
    hist := e :: s.hist
    env := { s.elapse.env with line := rest } }

/-- The frame at the head of the line, waited for until it arrives (R173, U16; log 4). -/
def awaitFrame (mk : Byte → RxFlags → WireEvent) : M (Byte × RxFlags) := fun s =>
  match s.env.line with
  | .frame f :: rest =>
    if s.expiresWaiting then .error .expired s.elapse
    else .ok (f.data, RxFlags.ofFrame f) (s.received f rest (mk f.data (RxFlags.ofFrame f)))
  | .silence :: rest => blockedWait { s with env := { s.env with line := rest } }
  | [] => blockedWait s

/-- Receive one frame, a step of the sequencer: TPB listens while it waits for it and takes it in (R173, R329). -/
def recvFrame (mk : Byte → RxFlags → WireEvent) : M (Byte × RxFlags) := fun s =>
  if s.expiryDue then .error .expired s else awaitFrame mk s.listen

/-! ## Frames (R172, R173, R221, R251) -/

/-- No engine's frame or clock goes out while `UMODE` is not that engine's (R311). Such a send fails as the wire does,
with `E_STATUS`: the rule gives it no cause, and `E_PRECOND` is raised before any state is written (R187, R324; log
12). -/
def requireOwner (e : Engine) : M Unit := do
  let s ← get
  if s.umode ≠ engineMode e then raise .status

/-- Send one frame: `TCLK` runs for its bits, TPB drives `TDAT` for its length, and lets it go after its last stop bit
(R170, R220, R221, R251; log 41, log 51). -/
def sendFrame (e : Engine) (b : Byte) : M Unit := do
  requireOwner e
  regs fun s => (s.runTclk.driveTdat e).record (.tx b)
  modify State.freeTdat

/-- `rx()` (R173). -/
def rx : M Byte := do
  let (v, f) ← recvFrame .rx
  if f ≠ RxFlags.clear then raise (.flags f)
  pure v

/-- `tx(b)` of the UPDI engine: send, receive the echo, flags before mismatch (R172). -/
def tx (b : Byte) : M Unit := do
  sendFrame .updi b
  let (v, f) ← recvFrame .echo
  if f ≠ RxFlags.clear then raise (.flags f)
  if v ≠ b then raise (.echo b v)

/-- The byte send of an engine: with the echo check for UPDI (R172), without for TPI and PDI (R221, R251). -/
def sendByte (e : Engine) (b : Byte) : M Unit :=
  match e with
  | .updi => tx b
  | .tpi => sendFrame .tpi b
  | .pdi => sendFrame .pdi b

/-- `send(s)` (R7, R221). -/
def send (e : Engine) : List Byte → M Unit
  | [] => pure ()
  | b :: bs => do
    sendByte e b
    send e bs

/-- `n` frames in, in order. -/
def recvN : Nat → M (List Byte)
  | 0 => pure []
  | n + 1 => do
    let v ← rx
    let vs ← recvN n
    pure (v :: vs)

/-- Read a target system register (R116, R175, R221, R251). -/
def ldcs (e : Engine) (r : RegIx) : M Byte := do
  let s ← get
  send e (wirePrefix s.cfg e ++ [opLdcs s.cfg e r])
  rx

/-- Write a target system register (R116, R176, R221, R251). -/
def stcs (e : Engine) (r : RegIx) (v : Byte) : M Unit := do
  let s ← get
  send e (wirePrefix s.cfg e ++ [opStcs s.cfg e r, v])

/-! ## Polls (R7, R152) -/

/-- At most `n` reads until one is as awaited. -/
def pollLoop (read : M Byte) (done : Byte → Bool) : Nat → M Byte
  | 0 => blockedWait
  | n + 1 => do
    let v ← read
    if done v then pure v else pollLoop read done n

/-- `poll until`: no bound of its own (R152). Every read takes a frame from the line, so the line's coming behaviour
bounds the reads: past its end the target is silent (log 38). -/
def pollUntil (read : M Byte) (done : Byte → Bool) : M Byte := fun s =>
  pollLoop read done (s.env.line.length + 1) s

/-! ## Line actions -/

/-- The attention sequence of an engine: low then high for UPDI, which then lets `TDAT` go (R171); high only for TPI and
PDI, which hold it over the clock periods that follow (R222, R251, R252; log 27, log 51). -/
def attention (e : Engine) : M Unit := do
  let s ← get
  match e with
  | .updi => do
    drive .updi (.attnLow s.cfg.updi.attnLowUs)
    drive .updi (.attnHigh s.cfg.updi.attnHighUs)
    modify State.freeTdat
  | .tpi => drive .tpi (.attnHigh s.cfg.updi.attnLowUs)
  | .pdi => drive .pdi (.attnHigh s.cfg.updi.attnHighUs)

/-- `line_config()`: single-wire half-duplex frames at `CLK` (R170). -/
def lineConfig : M Unit := do
  let s ← get
  act (.rateSet s.clk)

/-- `CLOCKS(n)`: clock periods with the data line idle; `TCLK` then runs (R86, R116, R220, R250; log 41). R116 gives
the step to the synchronous engines only: in a UPDI script it does nothing and succeeds (DESIGN CHOICE, log 48). -/
def clocks (e : Engine) (n : Nat) : M Unit :=
  match e with
  | .updi => pure ()
  | .tpi | .pdi => do
    requireOwner e
    regs fun s => s.runTclk.record (.clocks n)

/-! ## Wire scripts (R116) -/

/-- One script step. The answer is what the step makes the script's result: the bytes of `RX`, and of `LDCS` and `POLL`,
which are made of `RX(1)`; the other steps, `EXPECT` among them, make none (R116; log 49). -/
def scriptStep (e : Engine) : ScriptStep → M (Option (List Byte))
  | .tx bs => do
    send e bs
    pure none
  | .rx n => do
    let d ← recvN n
    pure (some d)
  | .expect b => do
    let v ← rx
    if v ≠ b then raise .status
    pure none
  | .ldcs r => do
    let v ← ldcs e r
    pure (some [v])
  | .stcs r v => do
    stcs e r v
    pure none
  | .poll r mask want => do
    let v ← pollUntil (ldcs e r) (fun v => v &&& mask == want)
    pure (some [v])
  | .attn => do
    attention e
    pure none
  | .clocks n => do
    clocks e n
    pure none

/-- The steps of a script in order, `d` being the result so far. -/
def runSteps (e : Engine) (d : List Byte) : Script → M (List Byte)
  | [] => pure d
  | st :: rest => do
    let r ← scriptStep e st
    runSteps e (r.getD d) rest

/-- `run_script`, answering the bytes of its last step that has a result (R116, R179; log 49). -/
def runScript (e : Engine) (sc : Script) : M (List Byte) := runSteps e [] sc

/-! ## The UART's owners (R308 to R310) and the resetting events (R360) -/

/-- What a quiesce records: the clock's stop where `TCLK` ran, and the release of `TDAT` where `TCLK` ran or TPB drove
`TDAT` (R86; log 27). -/
def State.quiesceEvents (s : State) : List WireEvent :=
  (if s.tclk || s.tdat.isSome then [.tdatRelease] else []) ++ (if s.tclk then [.clkStop] else [])

/-- `quiesce()`: the transmitter's last bit is out (at most one frame is in flight and every step ends with its
frame, R79, R336), the receiver is emptied, `TDAT` and `TCLK` are no longer driven (R309; log 27, log 41, log 51). -/
def State.quiesce (s : State) : State :=
  { s with tclk := false, tdat := none, hist := s.quiesceEvents ++ s.hist }

/-- `acquire(E)` (R308). -/
def State.acquire (e : Engine) (s : State) : State :=
  let t := if s.umode = .vcp ∨ (s.umode.isEngine ∧ s.umode ≠ engineMode e) then s.quiesce else s
  { t with umode := engineMode e }

/-- `release()` (R310). -/
def State.releaseUart (s : State) : State :=
  { s.quiesce with umode := if s.ui.vcpOpen then .vcp else .idle }

/-- `CLK <- c`, recorded where it is a change (R86; log 27). -/
def State.setClk (c : Nat) (s : State) : State :=
  if s.clk = c then s else { s with clk := c, hist := .rateSet c :: s.hist }

/-- The newest rate the history records; before the first, the configured one, which `CLK` has after a restart. -/
def State.notedRate (s : State) : Nat :=
  (s.hist.findSome? fun e => match e with
    | .rateSet k => some k
    | _ => none).getD s.cfg.clkCfgKhz

/-- A change of `CLK` that no line configuration has recorded is recorded (R86; log 27). -/
def State.noteRate (s : State) : State :=
  if s.notedRate = s.clk then s else s.record (.rateSet s.clk)

/-- The registers link loss clears: the teardown column of R46 but for `DD.valid` and `CLK` (R203, R360). -/
def State.dropSession (s : State) : State :=
  { s with
    sess := Sess.zero
    ct := .stub
    sib := { s.sib with valid := false }
    beforePage := none
    trstEng := false
    tpiChunk := .two }

/-- The registers a teardown clears: the teardown column of R46 (R363; log 17). The bytes TPI.SET_PARAM stored have no
row in R46: a teardown, link loss, a bus reset and a connect keep them (DESIGN CHOICE, log 25). -/
def State.clearSession (s : State) : State :=
  State.setClk s.cfg.clkCfgKhz { s.dropSession with dd := { s.dd with valid := false } }

/-- Steps 2 and 3 of the three disconnects: the registers, then the UART (R185, R233, R260). -/
def State.teardown (s : State) : State := s.write fun s => s.clearSession.releaseUart

/-- Steps 2 and 3 of the three disconnects, a step of the sequencer each (R185, R233, R260). The change of `TRST` that
step 2 makes is recorded after the events of step 3 (log 27). -/
def teardown : M Unit := do
  phase 2
  let old ← get
  regs State.clearSession
  phase 3
  regs fun s => s.releaseUart.noteTrst old.trst

/-- Link loss (R203). -/
def State.linkLoss (s : State) : State := s.dropSession.releaseUart

/-- The end of a connect that failed (R181 step 5, R222, R252): `INIT_FAIL`, `TRST_ENG`, the UART. No session is left:
after a failure at its own steps there is none; after an expiry that struck before step 1 ended the old one, or after
the link was set, `LINK` is 0 because the UART goes (R311), and the rest of `SESS` and `CT` with it (R23, R30; DEDUCED,
log 18). -/
def State.connectFailed (s : State) : State :=
  { s with sess := { Sess.zero with initFail := true }, ct := .stub, trstEng := false : State }.releaseUart

/-- The registers a bus reset clears (R330). The bytes TPI.SET_PARAM stored are in no list of the spec and are kept
(R362 is silent on them; DESIGN CHOICE, log 25). -/
def State.clearForBusReset (s : State) : State :=
  { s.clearSession with
    arch := .unset
    rxf := RxFlags.clear
    wdArmed := false
    wdCnt := 0
    wdDeadline := 0
    ph := 0 }

/-- `usb_bus_reset` (R330, R362). -/
def State.busReset (s : State) : State :=
  if s.umode.isEngine then s.clearForBusReset.releaseUart else s.clearForBusReset

/-! ## The supervisor (R140 to R155) -/

/-- Arming, at the start of each pass (R141). -/
def State.arm (s : State) : State := { s with wdCnt := s.wdDeadline, wdArmed := true }

/-- The countdown is cancelled; `WD_CNT` stays as it is (R142). -/
def State.disarm (s : State) : State := { s with wdArmed := false }

/-- The entry at the recovery point: `WD_ARMED <- 0; pc <- RP`. Nothing is saved; every register stays as it was at
the expiry; the phase is abandoned (R145, R335). -/
def State.divert (s : State) : State := { s with wdArmed := false, ph := 0 }

/-- `updi_fallback()`: 1 when the rate was lowered, 0 at the floor (R201). -/
def updiFallback : M Nat := do
  let s ← get
  match clkLower s.cfg s.clk with
  | none => pure 0
  | some c => do
    upd fun s => { s with clk := c }
    attention .updi
    lineConfig
    pure 1

/-- The fallback of a run; `None` has nothing to adjust (R146, R148). -/
def fallbackRun : FallbackSel → M Nat
  | .absent => pure 0
  | .updi => updiFallback

/-- The recovery point: diverted, disarmed; the fallback is called; 0 gives up with `E_TIMEOUT`, anything else
retries (R146 to R148, R154). -/
def recovery (fb : FallbackSel) (again : M Res) : M Res := fun s =>
  match fallbackRun fb s.divert with
  | .ok n s' => if n = 0 then .ok (Res.fail .timeout) s' else again s'
  | .error e s' => .error e s'

/-- The loop of `WD.RUN`. The time of the operation's last step passes with its return: where the countdown runs out in
less, the expiry strikes (R10, R144); otherwise the pass ends the run with its result, unless `RETRY_ON_FAILURE` sends a
result of 0 to the recovery point (R142, R143, R334; log 5, log 32). Each adjustment lowers `CLK`
(R155), so `CLK + 1` passes are enough. -/
def runLoop (op : M Res) (fb : FallbackSel) : Nat → M Res
  | 0 => pure (Res.fail .timeout)
  | n + 1 => fun s =>
    match op s.arm with
    | .ok r s' =>
      if s'.expiresWaiting ∨ (r.count = 0 ∧ s'.cfg.retryOnFailure) then recovery fb (runLoop op fb n) s'.elapse
      else .ok r s'.elapse.disarm
    | .error (.raise c) s' =>
      if s'.expiresWaiting ∨ s'.cfg.retryOnFailure then recovery fb (runLoop op fb n) s'.elapse
      else .ok (Res.fail c) s'.elapse.disarm
    | .error .expired s' => recovery fb (runLoop op fb n) s'
    | .error .stuck s' => .error .stuck s'
    | .error (.refused r) s' => .error (.refused r) s'

/-- `WD.RUN(operation, fallback, deadline_ms)` (R140), refused with interrupts disabled, inside a run, and with a
deadline of 0 (R141, R150, R151; log 31). -/
def supervise (op : M Res) (fb : FallbackSel) (deadline : Half) : M Res := fun s =>
  if s.env.ie = false then .error (.refused .runInterruptsOff) s
  else if s.wdArmed then .error (.refused .runNested) s
  else if deadline = 0 then .error (.refused .runZeroDeadline) s
  else runLoop op fb (s.clk + 1) { s with wdDeadline := deadline }

/-! ## Operands in `CB` (R21, R147) -/

/-- The operands of a shape M request; a buffer that holds none is E_PRECOND (log 29). -/
def cbMem : M (Byte × Addr × Addr × List Byte) := do
  let s ← get
  match s.cb.body with
  | .request _ _ (.mem mt a n d) => pure (mt, a, n, d)
  | _ => raise .precond

/-- The operands of a shape E request (log 29). -/
def cbErase : M (Byte × Addr) := do
  let s ← get
  match s.cb.body with
  | .request _ _ (.erase et a) => pure (et, a)
  | _ => raise .precond

/-- The address of an access to a memory kind, translated, with its whole range inside the space (R72, R84). -/
def translate (k : MemKind) (a : Addr) (n : Nat) : M Addr := do
  let s ← get
  match xlate s.cfg s.dd k a with
  | some a' => do
    require (inSpace32 a' n)
    pure a'
  | none => raise .precond

/-! ## Delivery -/

/-- What one instruction answers. -/
abbrev Answer := Host.Outcome State Fault Refusal

/-- The end of a host operation: the response is written over the request, `OPI` advances by 1, `PH` is 0 (R21, R41,
R108, R376). -/
def State.deliver (r : Res) (s : State) : State :=
  { s with
    cb := { s.cb with body := .response (respond s.cfg r) }
    res := r
    opi := s.opi + 1
    ph := 0 }

/-- The end of a primitive that no host delivered: its result, in the trace only (log 14, log 15, log 42). -/
def State.conclude (r : Res) (s : State) : State := { s with res := r, ph := 0 }

/-- A run to its outcome. Every failure is a next state with result 0 (R11, R320); a wait that nothing ends is stuck
(R333; log 39). -/
def outcome (finish : Res → State → State) (m : M Res) (s : State) : Answer :=
  match m s with
  | .ok r s' => .next (finish r s')
  | .error (.raise c) s' => .next (finish (Res.fail c) s')
  | .error .expired s' => .next (finish (Res.fail .timeout) s'.divert)
  | .error .stuck _ => .fault .blocked
  | .error (.refused r) _ => .refused r

/-- A request in `CB`, in place of what it held, under a scope selector; the sequence number is the transport's (R21).
-/
def State.withBody (sel cmd : Byte) (p : Payload) (s : State) : State :=
  { s with cb := { s.cb with body := .request sel cmd p } }

/-- A request of one of the two scopes, under the selector the parameters give it (R101). -/
def State.withRequest (scope : HostScope) (cmd : Byte) (p : Payload) (s : State) : State :=
  s.withBody (scope.byte s.cfg.scopes) cmd p

/-- A host operation: its request is in `CB`, it runs, its result is delivered. -/
def hostOp (scope : HostScope) (cmd : Byte) (p : Payload) (m : M Res) (s : State) : Answer :=
  outcome State.deliver m (s.withRequest scope cmd p)

/-- An AVR-core-scope engine operation: `ARCH` must select its engine (R103, R324; log 13). -/
def avrOp (a : Arch) (cmd : Byte) (p : Payload) (m : M Res) (s : State) : Answer :=
  hostOp .avr cmd p (do
    let s ← get
    require (s.arch == a)
    m) s

/-- A primitive run by itself. -/
def primOp (m : M Res) (s : State) : Answer := outcome State.conclude m s

/-- A primitive whose success carries no value: count 1 (R11). -/
def done (m : M Unit) : M Res := do
  m
  pure (Res.ok 1)

/-- A primitive whose success is one byte. -/
def oneByte (m : M Byte) : M Res := do
  let v ← m
  pure (Res.read [v])

/-- Two instructions in sequence. -/
def andThen (x : Answer) (k : State → Answer) : Answer :=
  match x with
  | .next s => k s
  | .fault f => .fault f
  | .refused r => .refused r

end Sys2Proof.Machine
end

