-- ==== Sys2Proof/Machine/UpdiWire.lean ====
section
/-! DEFINITION. The UPDI engine's wire primitives (R170 to R180, R188 to R193) and the meanings of the UPDI wire
rows and line primitives. -/

namespace Sys2Proof.Machine

/-! ## Instructions on the wire -/

/-- `instr(op, args)` (R174). -/
def instr (op : Byte) (args : List Byte) : M Unit := do
  let s ← get
  send .updi (s.cfg.updi.synch :: op :: args)

/-- `send_key(k)` (R177). -/
def sendKey (k : UpdiKey) : M Unit := do
  let s ← get
  send .updi (keyBytes s.cfg k)

/-- `read_sib()`: the register is written only after the last byte (R178). -/
def readSib : M Unit := do
  let s ← get
  instr s.cfg.updi.opSib []
  let bytes ← recvN Config.sibLen
  upd fun s => { s with sib := ⟨true, bytes⟩ }

/-- `handshake()` (R179). -/
def handshake : M Unit := do
  let s ← get
  let v ← runScript .updi s.cfg.updi.initSeq
  if v ≠ [s.cfg.updi.initAck] then raise .status

/-- `connect_attempt()` (R180). -/
def connectAttempt : M Res := do
  attention .updi
  lineConfig
  handshake
  readSib
  pure (Res.ok 1)

/-- The pointer-set with its acknowledgement, awaited where `ack` says so (R188). -/
def setPtr (w : PtrWidth) (a : Addr) (ack : Bool) : M Unit := do
  let s ← get
  instr (opStPtr s.cfg w) (ptrBytes w a)
  if ack then
    let v ← rx
    if v ≠ s.cfg.updi.ack then raise .status

/-! ## Block primitives (R188 to R193) -/

/-- The enable and disable control writes of collision-safe streaming (R193). -/
def cssWrite (on : Bool) : M Unit := do
  let s ← get
  stcs .updi s.cfg.updi.rCtrlA (if on then s.cfg.updi.cssOn else s.cfg.updi.cssOff)

/-- `block_header(addr, N, op, css)` (R188, R193). The count byte is `N - 1` modulo 256, which is `N - 1` for the `N`
that one byte carries; for a larger one, which only a `BLOCK_MAX_UNITS` above 256 lets through, R119 and R188 say no
byte (DESIGN CHOICE, log 57). -/
def blockHeader (w : PtrWidth) (a : Addr) (n : Nat) (op : Byte) (css : Bool) : M Unit := do
  let s ← get
  require (decide (1 ≤ n) && decide (n ≤ s.cfg.blockMaxUnits))
  require (ptrFits w a)
  let before := css && s.cfg.updi.cssPos == .beforePtr
  if before then cssWrite true
  setPtr w a (s.cfg.updi.ptrAck && !before)
  if css && !before then cssWrite true
  instr s.cfg.updi.opRepeat [BitVec.ofNat 8 (n - 1)]
  instr op []

/-- `recv_bytes_block(addr, N)` (R189). -/
def recvBytesBlock (w : PtrWidth) (a : Addr) (n : Nat) : M (List Byte) := do
  let s ← get
  blockHeader w a n s.cfg.updi.opLdInc1 false
  recvN n

/-- `recv_words_block(addr, N)`: `2N` bytes (R191). -/
def recvWordsBlock (w : PtrWidth) (a : Addr) (n : Nat) : M (List Byte) := do
  let s ← get
  blockHeader w a n s.cfg.updi.opLdInc2 false
  recvN (2 * n)

/-- `send_bytes_block(addr, N, d)` (R190). -/
def sendBytesBlock (w : PtrWidth) (a : Addr) (d : List Byte) : M Unit := do
  let s ← get
  blockHeader w a d.length s.cfg.updi.opStInc1 true
  send .updi d
  cssWrite false

/-- `send_words_block(addr, N, d)`: the length is even (R74 (2), R192). -/
def sendWordsBlock (w : PtrWidth) (a : Addr) (d : List Byte) : M Unit := do
  let s ← get
  require (decide (d.length % 2 = 0))
  blockHeader w a (d.length / 2) s.cfg.updi.opStInc2 true
  send .updi d
  cssWrite false

/-- The address width of the bound variant (R119). -/
def boundWidth (s : State) : PtrWidth := ptrWidth s.cfg s.ct

/-! ## The wire rows -/

/-- UPDI.SYNCH: the prefix byte (R174). -/
def execUpdiSynch (s : State) : Answer :=
  primOp (done (tx s.cfg.updi.synch)) s

/-- UPDI.LDCS (R175). -/
def execUpdiLdcs (r : RegIx) (s : State) : Answer :=
  primOp (oneByte (ldcs .updi r)) s

/-- UPDI.STCS (R176). -/
def execUpdiStcs (r : RegIx) (v : Byte) (s : State) : Answer :=
  primOp (done (stcs .updi r v)) s

/-- UPDI.KEY (R177). -/
def execUpdiKey (k : UpdiKey) (s : State) : Answer :=
  primOp (done (sendKey k)) s

/-- UPDI.SIB (R178). -/
def execUpdiSib (s : State) : Answer :=
  primOp (done readSib) s

/-- UPDI.ST_PTR, with the acknowledgement where `UPDI_PTR_ACK` is true (R188). -/
def execUpdiStPtr (w : PtrWidth) (a : Addr) (s : State) : Answer :=
  primOp (done (do
    require (ptrFits w a)
    setPtr w a s.cfg.updi.ptrAck)) s

/-- UPDI.REPEAT: the count byte is `N - 1` (R188), as given; the range of `N` (R76) is a block's to check (DESIGN
CHOICE, log 54). -/
def execUpdiRepeat (cnt : Byte) (s : State) : Answer :=
  primOp (done (instr s.cfg.updi.opRepeat [cnt])) s

/-- UPDI.LD_INC8: the stream instruction and the `cnt + 1` bytes it brings (R189; log 28), also more than
`BLOCK_MAX_UNITS` of them: R76's range is a block's to check (DESIGN CHOICE, log 54). -/
def execUpdiLdInc8 (cnt : Byte) (s : State) : Answer :=
  primOp (do
    instr s.cfg.updi.opLdInc1 []
    let d ← recvN (cnt.toNat + 1)
    pure (Res.read d)) s

/-- UPDI.LD_INC16: the stream instruction and the `2 (cnt + 1)` bytes it brings (R191; log 28), also more than
`BLOCK_MAX_UNITS` units: R76's range is a block's to check (DESIGN CHOICE, log 54). -/
def execUpdiLdInc16 (cnt : Byte) (s : State) : Answer :=
  primOp (do
    instr s.cfg.updi.opLdInc2 []
    let d ← recvN (2 * (cnt.toNat + 1))
    pure (Res.read d)) s

/-- UPDI.ST_INC8: the stream instruction and the bytes it carries (R190; log 28). R76 bounds a block's units and gives
the row by itself no outcome outside the bounds: it sends what it is given, also more than `BLOCK_MAX_UNITS` bytes, and
with none the instruction alone, ending with count 0 and no cause (DESIGN CHOICE, log 54). -/
def execUpdiStInc8 (d : List Byte) (s : State) : Answer :=
  primOp (do
    instr s.cfg.updi.opStInc1 []
    send .updi d
    pure (Res.ok d.length)) s

/-- UPDI.ST_INC16: as ST_INC8 with whole 16-bit units (R192, R74 (2); log 28). As there, no data and more than
`BLOCK_MAX_UNITS` units are sent as given (R76; DESIGN CHOICE, log 54). -/
def execUpdiStInc16 (d : List Byte) (s : State) : Answer :=
  primOp (do
    require (decide (d.length % 2 = 0))
    instr s.cfg.updi.opStInc2 []
    send .updi d
    pure (Res.ok d.length)) s

/-! ## The line primitives -/

/-- UPDI.line_config (R170). -/
def execUpdiLineConfig (s : State) : Answer :=
  primOp (done lineConfig) s

/-- UPDI.attention (R171). -/
def execUpdiAttention (s : State) : Answer :=
  primOp (done (attention .updi)) s

/-- UPDI.tx (R172). -/
def execUpdiTx (b : Byte) (s : State) : Answer :=
  primOp (done (tx b)) s

/-- UPDI.rx (R173). -/
def execUpdiRx (s : State) : Answer :=
  primOp (oneByte rx) s

/-- UPDI.handshake (R179). -/
def execUpdiHandshake (s : State) : Answer :=
  primOp (done handshake) s

/-- UPDI.connect_attempt (R180). -/
def execUpdiConnectAttempt (s : State) : Answer :=
  primOp connectAttempt s

/-- UPDI.css_bracket: a block write with its enable and disable, in bytes or in words (R190, R192, R193; log 28). -/
def execUpdiCssBracket (u : UnitWidth) (a : Addr) (d : List Byte) (s : State) : Answer :=
  primOp (do
    match u with
    | .byte => sendBytesBlock (boundWidth s) a d
    | .word => sendWordsBlock (boundWidth s) a d
    pure (Res.ok d.length)) s

/-- UPDI.updi_fallback (R201). -/
def execUpdiFallback (s : State) : Answer :=
  primOp (do
    let n ← updiFallback
    pure (Res.ok n)) s

end Sys2Proof.Machine
end

