-- ==== Sys2Proof/Machine/Nvm.lean ====
section
/-! DEFINITION. The NVM controller variants (R270 to R285): scripts, the page tracker, the five write methods, the
variants' four functions, and the meanings of the NVM rows. Preconditions stand before the first frame of a write
(R324; log 19), but for what the blocks inside a script or a burst require (log 60). -/

namespace Sys2Proof.Machine

/-! ## Controller helpers and scripts (R270, R284) -/

/-- `nvm_cmd(c)` (R270). -/
def nvmCmd (r : VariantRec) (w : PtrWidth) (c : Byte) : M Unit := sendBytesBlock w r.nvmCtrlA [c]

/-- One read of the controller's status: `recv_bytes_block(NVM_STATUS, 1)[0]` (R270). -/
def nvmStatus (r : VariantRec) (w : PtrWidth) : M Byte := do
  let d ← recvBytesBlock w r.nvmStatus 1
  pure (d.headD 0)

/-- `nvm_wait()`: poll until not busy, then the error bits (R270). -/
def nvmWait (r : VariantRec) (w : PtrWidth) : M Unit := do
  let v ← pollUntil (nvmStatus r w) (fun v => v &&& r.busyMask == 0)
  if v &&& r.errMask ≠ 0 then raise .status

/-- The address of a place of a script, with the address operand `a` (R276, R284). -/
def nvmPlace (r : VariantRec) (a : Addr) : NvmPlace → Addr
  | .fixed x => x
  | .operand => a
  | .addrReg => r.nvmAddr
  | .dataReg => r.nvmData

/-- The bytes a step of a script sends, with the operands `a` and `b` (R276, R284). -/
def nvmBytes (a : Addr) (b : Byte) : NvmBytes → List Byte
  | .fixed d => d
  | .operand => [b]
  | .address => [byteOf a 0, byteOf a 1]

/-- One step of a variant's script, with its address operand `a` and byte operand `b` (R276, R284, R285; log 23). What
its block requires is checked at the step, also where frames of earlier steps are out (DESIGN CHOICE, log 60). -/
def nvmStep (r : VariantRec) (w : PtrWidth) (a : Addr) (b : Byte) : NvmStep → M Unit
  | .wait => nvmWait r w
  | .cmd c => nvmCmd r w c
  | .sendBytes p d => sendBytesBlock w (nvmPlace r a p) (nvmBytes a b d)
  | .sendWords p d => sendWordsBlock w (nvmPlace r a p) (nvmBytes a b d)
  | .recvBytes p n => do
    let _ ← recvBytesBlock w (nvmPlace r a p) n
  | .recvWords p n => do
    let _ ← recvWordsBlock w (nvmPlace r a p) n

/-- A variant's script, its steps in order (R284). -/
def runNvm (r : VariantRec) (w : PtrWidth) (a : Addr) (b : Byte) : NvmScript → M Unit
  | [] => pure ()
  | st :: rest => do
    nvmStep r w a b st
    runNvm r w a b rest

/-! ## Transfers (R281) -/

/-- `transfer(a, len, d)`: bytes whenever one block suffices, words for longer even lengths (R281). -/
def transfer (w : PtrWidth) (a : Addr) (d : List Byte) : M Unit := do
  let s ← get
  if d.length ≤ s.cfg.blockMaxUnits then sendBytesBlock w a d
  else if d.length % 2 = 0 ∧ d.length / 2 ≤ s.cfg.blockMaxUnits then sendWordsBlock w a d
  else raise .precond

/-- `CT.read_memory`: the same choice for receiving (R281). -/
def readTransfer (w : PtrWidth) (a : Addr) (n : Nat) : M (List Byte) := do
  let s ← get
  if n ≤ s.cfg.blockMaxUnits then recvBytesBlock w a n
  else if n % 2 = 0 ∧ n / 2 ≤ s.cfg.blockMaxUnits then recvWordsBlock w a (n / 2)
  else raise .precond

/-- What a transfer requires, checked before anything goes on the wire (R71, R76, R281, R324; log 19). -/
def requireTransfer (w : PtrWidth) (a : Addr) (n : Nat) : M Unit := do
  let s ← get
  require (decide (1 ≤ n) && blockable s.cfg n && ptrFits w a)

/-! ## The page tracker (R273) -/

/-- `page_check(addr, page)`: whether the page differs from the tracker's, and the page (R273). -/
def pageCheck (a page : Addr) (s : State) : Bool × Addr :=
  (s.beforePage != some (pageAlign a page), pageAlign a page)

/-- `page_note(p)` (R273). -/
def pageNote (p : Addr) : M Unit := upd fun s => { s with beforePage := some p }

/-! ## The five write methods (R285) -/

/-- `plain` (R285). -/
def writePlain (w : PtrWidth) (a : Addr) (d : List Byte) : M Res := do
  requireTransfer w a d.length
  transfer w a d
  pure (Res.ok d.length)

/-- `explicit`: one erase where the page changes, the tracker after the erase, then the write (R273, R285). -/
def writeExplicit (r : VariantRec) (w : PtrWidth) (k : MemKind) (a : Addr) (d : List Byte) (page : Addr) : M Res := do
  require (onePage a d.length page)
  requireTransfer w a d.length
  let s ← get
  let (crossed, p) := pageCheck a page s
  if crossed then runNvm r w p 0 r.pageErase
  pageNote p
  runNvm r w a 0 (r.preWrite.get k)
  transfer w a d
  runNvm r w a 0 (r.commit.get k)
  pure (Res.ok d.length)

/-- `atomic` (R285). -/
def writeAtomic (r : VariantRec) (w : PtrWidth) (k : MemKind) (a : Addr) (d : List Byte) : M Res := do
  requireTransfer w a d.length
  runNvm r w a 0 (r.preWrite.get k)
  transfer w a d
  runNvm r w a 0 (r.commitEraseWrite.get k)
  pure (Res.ok d.length)

/-- `write_one` for each byte, ascending (R276, R285). -/
def bytewiseLoop (r : VariantRec) (w : PtrWidth) (one : NvmScript) (a : Addr) : List Byte → M Unit
  | [] => pure ()
  | b :: rest => do
    runNvm r w a b one
    bytewiseLoop r w one (a + 1) rest

/-- `bytewise` (R276, R285). What the blocks of `write_one` themselves require, V0's of two bytes with the address for
one, is checked at their steps: with `BLOCK_MAX_UNITS` = 1 that is E_PRECOND after frames, where R324 has none before
an E_PRECOND (DESIGN CHOICE, log 60). A row that comes here by itself with no data is E_PRECOND, and more than
`XFER_MAX_BYTES` bytes are written (R76; DESIGN CHOICE, log 62). -/
def writeBytewise (r : VariantRec) (w : PtrWidth) (k : MemKind) (a : Addr) (d : List Byte) : M Res := do
  require (decide (1 ≤ d.length) && ptrFits w a && ptrFits w (addrAt a (d.length - 1)))
  bytewiseLoop r w (r.writeOne.get k) a d
  pure (Res.ok d.length)

/-- Bursts of 2 bytes, the last of 1 where the length is odd (R279, R285). -/
def burstLoop (r : VariantRec) (w : PtrWidth) (pre commit : NvmScript) (a : Addr) : List Byte → M Unit
  | [] => pure ()
  | [b] => do
    runNvm r w a 0 pre
    sendBytesBlock w a [b]
    runNvm r w a 0 commit
  | b0 :: b1 :: rest => do
    runNvm r w a 0 pre
    sendBytesBlock w a [b0, b1]
    runNvm r w a 0 commit
    burstLoop r w pre commit (a + 2) rest

/-- `burst2`: the wire carries the address of each burst, so it is the first and the last burst's that must fit (R71,
R188, R279, R285; log 19). A burst's own length is checked at its block: with `BLOCK_MAX_UNITS` = 1 a burst of two
bytes is E_PRECOND after the frames of `pre_write`, as R285 orders its steps, where R324 has none before an E_PRECOND
(DESIGN CHOICE, log 60). Of a row by itself with no data or more than `XFER_MAX_BYTES` bytes: as `writeBytewise`
(DESIGN CHOICE, log 62). -/
def writeBurst2 (r : VariantRec) (w : PtrWidth) (k : MemKind) (a : Addr) (d : List Byte) : M Res := do
  require (decide (1 ≤ d.length) && ptrFits w a && ptrFits w (addrAt a (2 * ((d.length - 1) / 2))))
  burstLoop r w (r.preWrite.get k) (r.commit.get k) a d
  pure (Res.ok d.length)

/-! ## The variants' write functions -/

/-- `V0.write_memory` (R275). -/
def v0Write (k : MemKind) (a : Addr) (d : List Byte) : M Res := do
  let s ← get
  let w := ptrWidth s.cfg .v0
  match memClass k with
  | .flash => do
    require s.dd.valid
    writeExplicit s.cfg.v0 w k a d s.dd.desc.page.flash
  | .fuseLike => writeBytewise s.cfg.v0 w k a d
  | .eeprom | .userrow => writeAtomic s.cfg.v0 w k a d
  | .sram => writePlain w a d
  | .readOnly => raise .unsupported

/-- `V3.write_memory` (R278). -/
def v3Write (k : MemKind) (a : Addr) (d : List Byte) : M Res := do
  let s ← get
  let w := ptrWidth s.cfg .v3
  match memClass k with
  | .sram => writePlain w a d
  | .flash | .fuseLike | .eeprom | .userrow => writeAtomic s.cfg.v3 w k a d
  | .readOnly => raise .unsupported

/-- `V4.write_memory` (R279). -/
def v4Write (k : MemKind) (a : Addr) (d : List Byte) : M Res := do
  let s ← get
  let w := ptrWidth s.cfg .v4
  match memClass k with
  | .flash | .userrow => writeExplicit s.cfg.v4 w k a d Config.v4FlashPage
  | .eeprom | .fuseLike => writeBurst2 s.cfg.v4 w k a d
  | .sram => writePlain w a d
  | .readOnly => raise .unsupported

/-- The result of the stub's functions: count 0, nothing done (R272). -/
def stubResult : Res := ⟨0, [], none⟩

/-! ## The Command Table's four functions (R270 to R272) -/

/-- `CT.write_memory`. -/
def ctWrite (v : Variant) (k : MemKind) (a : Addr) (d : List Byte) : M Res :=
  match v with
  | .v0 => v0Write k a d
  | .v3 => v3Write k a d
  | .v4 => v4Write k a d
  | .stub | .v1 | .v2 | .v5 => pure stubResult

/-- `CT.read_memory` (R281). -/
def ctRead (v : Variant) (a : Addr) (n : Nat) : M Res := do
  let s ← get
  match variantRec s.cfg v with
  | some _ => do
    let d ← readTransfer (ptrWidth s.cfg v) a n
    pure (Res.read d)
  | none => pure stubResult

/-- `CT.erase_memory`: the page erase (R282). -/
def ctErase (v : Variant) (a : Addr) : M Res := do
  let s ← get
  match v with
  | .v0 => do
    require s.dd.valid
    let p := pageAlign a s.dd.desc.page.flash
    require (ptrFits (ptrWidth s.cfg .v0) p)
    runNvm s.cfg.v0 (ptrWidth s.cfg .v0) p 0 s.cfg.v0.pageErase
    pure (Res.ok 1)
  | .v4 => do
    let p := pageAlign a Config.v4FlashPage
    require (ptrFits (ptrWidth s.cfg .v4) p)
    runNvm s.cfg.v4 (ptrWidth s.cfg .v4) p 0 s.cfg.v4.pageErase
    pure (Res.ok 1)
  | .v3 => pure (Res.ok 1)
  | .stub | .v1 | .v2 | .v5 => pure stubResult

/-- `CT.prog_init()`: 1, or 0 where a step of the script fails and for the stub (R283). -/
def progInit (v : Variant) : M Nat := fun s =>
  match variantRec s.cfg v with
  | some r =>
    match runNvm r (ptrWidth s.cfg v) 0 0 r.initScript s with
    | .ok _ s' => .ok 1 s'
    | .error (.raise _) s' => .ok 0 s'
    | .error e s' => .error e s'
  | none => .ok 0 s

/-- One of a variant's four functions, its memory type looked up (R106, R270). -/
def variantFn (v : Variant) : VariantFn → M Res
  | .progInit => do
    let n ← progInit v
    pure (Res.ok n)
  | .readMemory _ a n => ctRead v a n.toNat
  | .eraseMemory _ a => ctErase v a
  | .writeMemory mt a d => do
    let s ← get
    match variantRec s.cfg v with
    | none => pure stubResult
    | some _ =>
      match memKind s.cfg mt with
      | some k => ctWrite v k a d
      | none => raise .unsupported

/-! ## The NVM rows -/

/-- NVM.nvm_cmd / NVM.nvm_wait, of the bound variant; a variant without a record does nothing (R270, R272; log 28). -/
def execNvmCtl (req : NvmCtl) (s : State) : Answer :=
  primOp (match variantRec s.cfg s.ct with
    | none => pure stubResult
    | some r =>
      match req with
      | .cmd c => done (nvmCmd r (boundWidth s) c)
      | .wait => done (nvmWait r (boundWidth s))) s

/-- NVM.page_check / NVM.page_note; the pair `(crossed, p)` is the count 1 or 0 and the page's bytes (R273;
log 28). -/
def execNvmPage (req : PageReq) (s : State) : Answer :=
  primOp (match req with
    | .check a page => pure ⟨if (pageCheck a page s).1 then 1 else 0, le32 (pageCheck a page s).2, none⟩
    | .note p => done (pageNote p)) s

/-- NVM.write_method, with the scripts of the bound variant (R285; log 28). R76's range of an operation's length is not
looked at for the row by itself (DESIGN CHOICE, log 62). -/
def execNvmWriteMethod (m : WriteMethod) (mt : Byte) (a : Addr) (d : List Byte) (s : State) : Answer :=
  primOp (match variantRec s.cfg s.ct, memKind s.cfg mt with
    | none, _ => pure stubResult
    | some _, none => raise .unsupported
    | some r, some k =>
      match m with
      | .plain => writePlain (boundWidth s) a d
      | .explicit page => writeExplicit r (boundWidth s) k a d page
      | .atomic => writeAtomic r (boundWidth s) k a d
      | .bytewise => writeBytewise r (boundWidth s) k a d
      | .burst2 => writeBurst2 r (boundWidth s) k a d) s

/-- NVM.V0.write_memory (R275); a length outside R76's range: log 62 (DESIGN CHOICE). -/
def execNvmV0WriteMemory (mt : Byte) (a : Addr) (d : List Byte) (s : State) : Answer :=
  primOp (variantFn .v0 (.writeMemory mt a d)) s

/-- NVM.V0.write_fuse: one `write_one` of a fuse (R276). -/
def execNvmV0WriteFuse (a : Addr) (b : Byte) (s : State) : Answer :=
  primOp (writeBytewise s.cfg.v0 (ptrWidth s.cfg .v0) .fuse a [b]) s

/-- NVM.V1.write_memory: the stub (R277). -/
def execNvmV1WriteMemory (mt : Byte) (a : Addr) (d : List Byte) (s : State) : Answer :=
  primOp (variantFn .v1 (.writeMemory mt a d)) s

/-- NVM.V3.write_memory (R278); a length outside R76's range: log 62 (DESIGN CHOICE). -/
def execNvmV3WriteMemory (mt : Byte) (a : Addr) (d : List Byte) (s : State) : Answer :=
  primOp (variantFn .v3 (.writeMemory mt a d)) s

/-- NVM.V4.write_memory (R279); a length outside R76's range: log 62 (DESIGN CHOICE). -/
def execNvmV4WriteMemory (mt : Byte) (a : Addr) (d : List Byte) (s : State) : Answer :=
  primOp (variantFn .v4 (.writeMemory mt a d)) s

/-- NVM.V2 / NVM.V5: given no record, the stub (R280; log 22). -/
def execNvmOpaque (v : OpaqueVariant) (f : VariantFn) (s : State) : Answer :=
  primOp (variantFn (match v with | .v2 => .v2 | .v5 => .v5) f) s

/-- NVM.STUB: nothing on the wire, no state, result 0 (R272). -/
def execNvmStub (f : VariantFn) (s : State) : Answer :=
  primOp (variantFn .stub f) s

/-- NVM.read_memory of the bound variant (R281). -/
def execNvmReadMemory (mt : Byte) (a n : Addr) (s : State) : Answer :=
  primOp (variantFn s.ct (.readMemory mt a n)) s

/-- NVM.erase_memory of the bound variant (R282). -/
def execNvmEraseMemory (et : Byte) (a : Addr) (s : State) : Answer :=
  primOp (variantFn s.ct (.eraseMemory et a)) s

/-- NVM.prog_init of the bound variant (R283). -/
def execNvmProgInit (s : State) : Answer :=
  primOp (variantFn s.ct .progInit) s

end Sys2Proof.Machine
end

