-- ==== Sys2Proof/Machine/Updi.lean ====
section
/-! DEFINITION. The UPDI engine's operations and ceremonies (R181 to R187, R194 to R199), each as the operation the
supervisor or the dispatcher runs; their operands are in `CB` (R147). The meanings of the seven host operations are in
HostOps.lean, those of the ceremonies' own rows at the end of this file. -/

namespace Sys2Proof.Machine

/-! ## Connect and disconnect -/

/-- Bind the variant from the SIB's identifying character (R183). -/
def bindVariant : M Unit := upd fun s => { s with ct := sibVariant s.cfg s.sib.bytes }

/-- `CLK` takes its configured value at the start of every connect (R46; log 16). UPDI's attempts then configure the
line, which records it (R170, R180); for the other two the change is recorded here (R86; log 27). -/
def connectRate (e : Engine) (s : State) : State :=
  match e with
  | .updi => { s with clk := s.cfg.clkCfgKhz }
  | .tpi | .pdi => s.setClk s.cfg.clkCfgKhz

/-- `TRST_ENG` at the start of a connect, "per engine" (R46): step 1 of TPI's leaves it to step 3 (R222), so that a
connect in a TPI session keeps the reset line held; UPDI's and PDI's is 0 (R236, R262, R306; log 16). -/
def connectTrst (e : Engine) (held : Bool) : Bool :=
  match e with
  | .tpi => held
  | .updi | .pdi => false

/-- The connect column of R46 that every engine's step 1 clears (R365; log 16): `SESS` with `CT`, which is `STUB`
whenever `LINK = 0` (R30), `SIB.valid`, `BEFORE_PAGE`, and `DD.valid` where the parameter says so. The bytes
TPI.SET_PARAM stored are kept (DESIGN CHOICE, log 25). -/
def connectClear (e : Engine) : M Unit := do
  upd fun s => { s with sess := Sess.zero, ct := .stub }
  upd fun s => { s with sib := { s.sib with valid := false } }
  upd fun s => { s with beforePage := none }
  upd fun s => { s with dd := { s.dd with valid := s.dd.valid && !s.cfg.ddClearOnSignOn } }
  upd fun s => connectRate e { s with
    rxf := RxFlags.clear
    trstEng := connectTrst e s.trstEng
    tpiChunk := .two }

/-- Step 2 of every connect: the UART, then the reset line (R307, R308). -/
def connectAcquire (e : Engine) : M Unit := do
  upd (State.acquire e)
  upd fun s => { s with trstBtn := false }

/-- The identity bytes of SIGN_ON's response (R184): four, and fewer where `SIB_ID_OFFSET` is above 28 and they run
past the SIB's end (DESIGN CHOICE, log 58). -/
def identityBytes (s : State) : List Byte := (s.sib.bytes.drop s.cfg.sibIdOffset).take 4

/-- The end of a successful SIGN_ON: the variant is bound, `LINK` set (R181 step 6, R184). -/
def signOnLinked : M Res := do
  phase 6
  bindVariant
  upd fun s => { s with sess := { s.sess with link := true } }
  let s ← get
  pure ⟨4, identityBytes s, none⟩

/-- The end of a SIGN_ON that used up its attempts: the last attempt's cause (R181 step 5). -/
def signOnGiveUp (r : Res) : M Res := do
  phase 5
  upd State.connectFailed
  pure ⟨0, [], r.cause⟩

/-- The attempts of SIGN_ON, each a run of 16 ms, the rate lowered between two of them (R181 step 4). After an attempt
that failed the sequencer is at step 4 again (R41), and a rate that an attempt cut before its line configuration left
unrecorded is recorded (R86; log 27). -/
def signOnLoop : Nat → M Res
  | 0 => signOnGiveUp (Res.fail .timeout)
  | n + 1 => do
    phase 4
    let r ← supervise connectAttempt .absent Config.connectAttemptMs
    if r.count ≠ 0 then signOnLinked
    else
      phase 4
      modify State.noteRate
      if n = 0 then signOnGiveUp r
      else
        let s ← get
        match clkLower s.cfg s.clk with
        | none => signOnGiveUp r
        | some c => do
          upd fun s => { s with clk := c }
          signOnLoop n

/-- `UPDI.SIGN_ON` (R181); not inside an outer run (R151). -/
def updiSignOn : M Res := do
  phase 1
  connectClear .updi
  phase 2
  connectAcquire .updi
  phase 3
  upd fun s => { s with clk := s.cfg.clkCfgKhz }
  signOnLoop Config.connectAttempts

/-- `signoff_wire()` (R185). -/
def updiSignOffWire : M Res := do
  let s ← get
  if s.sess.prog then
    let _ ← runScript .updi s.cfg.updi.leaveSeq
  let _ ← runScript .updi s.cfg.updi.disableSeq
  pure (Res.ok 1)

/-! ## Programming mode -/

/-- `poll until (ldcs(R_KEYST) & mask) != 0` (R186, R196, R197). -/
def pollKey (mask : Byte) : M Unit := do
  let s ← get
  let _ ← pollUntil (ldcs .updi s.cfg.updi.rKeySt) (fun v => v &&& mask != 0)

/-- Steps 1 to 6 of `UPDI.ENTER_PROGMODE` (R186). -/
def updiUnlock : M Res := do
  let s ← get
  phase 1
  sendKey .prog
  phase 2
  pollKey s.cfg.updi.keystProg
  phase 3
  let _ ← runScript .updi s.cfg.updi.applyKeySeq
  phase 4
  let v ← ldcs .updi s.cfg.updi.rSysSt
  if v &&& s.cfg.updi.sysstLock ≠ 0 then raise .status
  phase 5
  let n ← progInit s.ct
  if n = 0 then
    upd fun s => { s with sess := { s.sess with initFail := true } }
    raise .status
  phase 6
  upd fun s => { s with sess := { s.sess with prog := true } }
  pure (Res.ok 1)

/-- `UPDI.ENTER_PROGMODE` (R186). -/
def updiEnter : M Res := do
  let s ← get
  require s.sess.link
  if s.sess.prog then pure (Res.ok 1) else updiUnlock

/-- `UPDI.LEAVE_PROGMODE`: `LINK` is all it requires (R187, R324), and `PROG` is cleared before the script, so that a
script that fails, as one with a frame does in a session of another engine (R311; log 12), leaves it 0. -/
def updiLeave : M Res := do
  let s ← get
  require s.sess.link
  if s.sess.prog then
    upd fun s => { s with sess := { s.sess with prog := false } }
    let _ ← runScript .updi s.cfg.updi.leaveSeq
    pure (Res.ok 1)
  else pure (Res.ok 1)

/-! ## Ceremonies -/

/-- `chip_erase()` (R196). -/
def chipErase : M Res := do
  let s ← get
  require s.sess.link
  phase 1
  sendKey .erase
  phase 2
  pollKey s.cfg.updi.keystErase
  phase 3
  let t ← get
  upd fun s => { s with sess := { s.sess with prog := false } }
  phase 4
  let _ ← runScript .updi s.cfg.updi.eraseProceedSeq
  phase 5
  upd fun s => { s with sess := { s.sess with eraseDone := true } }
  phase 6
  if t.sess.prog && s.cfg.eraseReentersProg then updiUnlock else pure (Res.ok 1)

/-- `userrow_ceremony(addr, len, data)`. Before the key only what R197 names is required; what step 4's block requires
besides, a byte at least and an address the wire can carry, is checked there (R188, R197; log 19). -/
def userrowCeremony (a : Addr) (d : List Byte) : M Res := do
  let s ← get
  require s.sess.link
  require (decide (d.length ≤ s.cfg.blockMaxUnits))
  phase 1
  sendKey .urow
  phase 2
  pollKey s.cfg.updi.keystUrow
  phase 3
  let _ ← runScript .updi s.cfg.updi.urowProceedSeq
  phase 4
  sendBytesBlock (boundWidth s) a d
  phase 5
  let _ ← runScript .updi s.cfg.updi.urowFinalSeq
  pure (Res.ok d.length)

/-- `signature_dummy(len)` (R198). -/
def signatureDummy (n : Nat) : M Res := do
  let s ← get
  require (decide (n ≤ s.cfg.sigDummy.length))
  pure ⟨n, s.cfg.sigDummy.take n, none⟩

/-! ## Memory operations, operands in `CB` -/

/-- `UPDI.READ_MEMORY` (R194). -/
def updiRead : M Res := do
  let (mt, a, len, _) ← cbMem
  let s ← get
  let n := len.toNat
  require (lenOk n && inSpace32 a n)
  require s.sess.link
  let k := memKind s.cfg mt
  if k = some .sib then
    require (s.sib.valid && decide (a.toNat + n ≤ Config.sibLen))
    pure ⟨n, (s.sib.bytes.drop a.toNat).take n, none⟩
  else if k = some .signature ∧ s.sess.prog = false then signatureDummy n
  else
    require s.sess.prog
    match k with
    | none => raise .unsupported
    | some k => do
      let a' ← translate k a n
      ctRead s.ct a' n

/-- `UPDI.WRITE_MEMORY` (R195). -/
def updiWrite : M Res := do
  let (mt, a, len, d) ← cbMem
  let s ← get
  let n := len.toNat
  require (lenOk n && inSpace32 a n && d.length == n)
  require s.sess.link
  let k := memKind s.cfg mt
  if k = some .userrow ∧ s.sess.prog = false then userrowCeremony a d
  else
    require s.sess.prog
    match k with
    | none => raise .unsupported
    | some k =>
      if memClass k = .readOnly then raise .unsupported
      else
        let a' ← translate k a n
        ctWrite s.ct k a' d

/-- `UPDI.ERASE_MEMORY` (R199). -/
def updiErase : M Res := do
  let (et, a) ← cbErase
  let s ← get
  require s.sess.link
  if et = s.cfg.etChip then chipErase
  else if et = s.cfg.etPage then
    require s.sess.prog
    let a' ← translate .flashPage a 0
    ctErase s.ct a'
  else pure ⟨s.cfg.eraseUnhonored, [], none⟩

/-! ## The rows of the ceremonies -/

/-- UPDI.bind_variant, from a SIB that has been read (R31, R183). -/
def execUpdiBindVariant (s : State) : Answer :=
  primOp (do
    require s.sib.valid
    done bindVariant) s

/-- UPDI.chip_erase (R196). -/
def execUpdiChipErase (s : State) : Answer :=
  primOp chipErase s

/-- UPDI.userrow_ceremony (R197). -/
def execUpdiUserrowCeremony (a : Addr) (d : List Byte) (s : State) : Answer :=
  primOp (userrowCeremony a d) s

/-- UPDI.signature_dummy (R198). -/
def execUpdiSignatureDummy (n : Addr) (s : State) : Answer :=
  primOp (signatureDummy n.toNat) s

end Sys2Proof.Machine
end

