-- ==== Sys2Proof/Machine/Tpi.lean ====
section
/-! DEFINITION. The TPI engine (R220 to R236): wire primitives, connect, the operations as the supervisor runs them,
and the meanings of the TPI wire rows and primitives. -/

namespace Sys2Proof.Machine

/-! ## Wire primitives (R221) -/

/-- `tpi_set_ptr(a)`: low byte, then high byte (R221). -/
def tpiSetPtr (a : Addr) : M Unit := do
  let s ← get
  send .tpi (tpiPtrBytes s.cfg a)

/-- `tpi_ld_inc()` (R221). -/
def tpiLdInc : M Byte := do
  let s ← get
  send .tpi [s.cfg.tpi.opLdInc]
  rx

/-- `tpi_st_inc(b)` (R221). -/
def tpiStInc (b : Byte) : M Unit := do
  let s ← get
  send .tpi [s.cfg.tpi.opStInc, b]

/-- `tpi_out(io, v)` (R221). -/
def tpiOut (io : IoIx) (v : Byte) : M Unit := do
  let s ← get
  send .tpi [opSout s.cfg io, v]

/-- `tpi_in(io)` (R221). -/
def tpiIn (io : IoIx) : M Byte := do
  let s ← get
  send .tpi [opSin s.cfg io]
  rx

/-- One load instruction per byte (R230). -/
def tpiLoads : Nat → M (List Byte)
  | 0 => pure []
  | n + 1 => do
    let v ← tpiLdInc
    let vs ← tpiLoads n
    pure (v :: vs)

/-- Pointer-set, then `n` loads (R230). -/
def tpiReadAt (a : Addr) (n : Nat) : M (List Byte) := do
  tpiSetPtr a
  tpiLoads n

/-- `poll until (tpi_in(TPI_NVMCSR) & TPI_NVMBSY) = 0` (R228, R231). -/
def tpiNvmWait : M Unit := do
  let s ← get
  let _ ← pollUntil (tpiIn s.cfg.tpi.nvmCsr) (fun v => v &&& s.cfg.tpi.nvmBsy == 0)

/-- Send a 10-byte key of the synchronous engines as it stands (R120, R223, R253). -/
def sendSyncKey (e : Engine) : M Unit := do
  let s ← get
  send e (syncKeyBytes s.cfg)

/-! ## Connect (R222) -/

/-- Steps 1 to 3 of `TPI.connect()`. -/
def tpiConnectOpen : M Unit := do
  phase 1
  connectClear .tpi
  phase 2
  connectAcquire .tpi
  phase 3
  upd fun s => { s with trstEng := true }

/-- The steps of `TPI.connect()`. -/
def tpiConnectSteps : M Unit := do
  tpiConnectOpen
  let s ← get
  phase 4
  let v ← runScript .tpi s.cfg.tpi.activateSeq
  phase 5
  if v ≠ [s.cfg.tpi.ident] then raise .status
  phase 6
  upd fun s => { s with sess := { s.sess with link := true } }

/-- A connect whose synchronous failure ends in `INIT_FAIL` and a released UART (R222, R252). -/
def failingConnect (m : M Unit) : M Unit := fun s =>
  match m s with
  | .error (.raise c) s' =>
    match upd State.connectFailed s' with
    | .ok _ t => .error (.raise c) t
    | .error e t => .error e t
  | r => r

/-- `TPI.connect()` (R222). -/
def tpiConnect : M Unit := failingConnect tpiConnectSteps

/-! ## Operations, operands in `CB` -/

/-- The chunk lookup from three signature bytes (R224). -/
def tpiChunkSet (sig : List Byte) : M Unit := upd fun s => { s with tpiChunk := chunkOf s.cfg sig }

/-- `TPI.ENTER_PROGMODE` (R223). Step 1 connects where `LINK` is 0 and not otherwise: with a link that another engine
holds, the key's first frame then fails, since TPI does not hold the UART (R311; log 12, log 50). Step 5 does not check
`TPI_SIG_ADDR`: R71 gives no outcome for a parameter that does not fit the wire's 16 bits, and `tpiSetPtr` sends its two
low bytes (DESIGN CHOICE, log 61). -/
def tpiEnter : M Res := do
  let s ← get
  if s.sess.prog then pure (Res.ok 1)
  else
    phase 1
    if s.sess.link then pure () else tpiConnect
    phase 2
    sendSyncKey .tpi
    phase 3
    let _ ← pollUntil (ldcs .tpi s.cfg.tpi.rStatus) (fun v => v &&& s.cfg.tpi.statusNvmen != 0)
    phase 4
    upd fun s => { s with sess := { s.sess with prog := true } }
    phase 5
    let sig ← tpiReadAt s.cfg.tpi.sigAddr 3
    tpiChunkSet sig
    phase 6
    pure (Res.ok 1)

/-- `leave_wire()` (R233). -/
def tpiLeaveWire : M Res := do
  let s ← get
  stcs .tpi s.cfg.tpi.rStatus 0x00
  pure (Res.ok 1)

/-- `tpi_erase_at(a, c)`: the high byte of a word triggers the erase (R231). -/
def tpiEraseAt (a : Addr) (c : Byte) : M Unit := do
  let s ← get
  tpiOut s.cfg.tpi.nvmCmd c
  tpiSetPtr (a ||| 1)
  tpiStInc 0xFF
  tpiNvmWait
  tpiOut s.cfg.tpi.nvmCmd s.cfg.tpi.cmdNone

/-- The bytes of one chunk. -/
def tpiStores : List Byte → M Unit
  | [] => pure ()
  | b :: rest => do
    tpiStInc b
    tpiStores rest

/-- The chunks of a padded buffer, each followed by the busy poll (R228). -/
def tpiChunks (c : Nat) : Nat → List Byte → M Unit
  | 0, _ => pure ()
  | n + 1, d => do
    tpiStores (d.take c)
    tpiNvmWait
    tpiChunks c n (d.drop c)

/-- The supply-voltage gate: `VTG >= TPI_VMIN_MV` (R229). -/
def vtgOk (s : State) : Bool := decide (s.cfg.tpi.vminMv ≤ s.env.vtg)

/-- `TPI.WRITE_MEM` (R228). -/
def tpiWrite : M Res := do
  let (mt, a, len, d) ← cbMem
  let s ← get
  let n := len.toNat
  let c := s.tpiChunk.bytes
  require (lenOk n && d.length == n)
  require s.sess.prog
  require (vtgOk s)
  require (decide (padEnd c a.toNat n ≤ 2 ^ 16))
  let start := BitVec.ofNat 32 (padStart c a.toNat)
  let buf := padBuf Config.fillByte c a.toNat d
  if mt = s.cfg.tpi.xmtAppl ∧ s.sess.eraseDone = false then tpiEraseAt start s.cfg.tpi.cmdSectionErase
  tpiOut s.cfg.tpi.nvmCmd s.cfg.tpi.cmdWrite
  tpiSetPtr start
  tpiChunks c (buf.length / c) buf
  tpiOut s.cfg.tpi.nvmCmd s.cfg.tpi.cmdNone
  pure (Res.ok n)

/-- `TPI.READ_MEM` (R230). -/
def tpiRead : M Res := do
  let (_, a, len, _) ← cbMem
  let s ← get
  let n := len.toNat
  require (lenOk n && inSpace16 a n)
  require s.sess.prog
  let d ← tpiReadAt a n
  pure (Res.read d)

/-- `TPI.ERASE`; the address must fit the wire's 16 bits (R71, R231; log 19). -/
def tpiErase : M Res := do
  let (et, a) ← cbErase
  let s ← get
  require s.sess.prog
  require (vtgOk s)
  if et = s.cfg.tpi.xetChip then
    require (inSpace16 a 1)
    tpiEraseAt a s.cfg.tpi.cmdChipErase
    upd fun s => { s with sess := { s.sess with eraseDone := true } }
    pure (Res.ok 1)
  else if et = s.cfg.tpi.xetConfig then
    require (inSpace16 a 1)
    tpiEraseAt a s.cfg.tpi.cmdSectionErase
    pure (Res.ok 1)
  else pure ⟨s.cfg.eraseUnhonored, [], none⟩

/-! ## The wire rows -/

/-- TPI.LDCS (R221). -/
def execTpiLdcs (r : RegIx) (s : State) : Answer :=
  primOp (oneByte (ldcs .tpi r)) s

/-- TPI.STCS (R221). -/
def execTpiStcs (r : RegIx) (v : Byte) (s : State) : Answer :=
  primOp (done (stcs .tpi r v)) s

/-- TPI.KEY: the ten bytes of the key (R120, R223). -/
def execTpiKey (s : State) : Answer :=
  primOp (done (sendSyncKey .tpi)) s

/-- TPI.SET_PTR_LO (R221). -/
def execTpiSetPtrLo (b : Byte) (s : State) : Answer :=
  primOp (done (send .tpi [s.cfg.tpi.opPtrLo, b])) s

/-- TPI.SET_PTR_HI (R221). -/
def execTpiSetPtrHi (b : Byte) (s : State) : Answer :=
  primOp (done (send .tpi [s.cfg.tpi.opPtrHi, b])) s

/-- TPI.LD_INC (R221). -/
def execTpiLdInc (s : State) : Answer :=
  primOp (oneByte tpiLdInc) s

/-- TPI.ST_INC (R221). -/
def execTpiStInc (b : Byte) (s : State) : Answer :=
  primOp (done (tpiStInc b)) s

/-- TPI.SOUT (R221). -/
def execTpiSout (io : IoIx) (v : Byte) (s : State) : Answer :=
  primOp (done (tpiOut io v)) s

/-- TPI.SIN (R221). -/
def execTpiSin (io : IoIx) (s : State) : Answer :=
  primOp (oneByte (tpiIn io)) s

/-- TPI.connect (R222). -/
def execTpiConnect (s : State) : Answer :=
  primOp (done tpiConnect) s

/-- TPI.chunk_lookup (R224). -/
def execTpiChunkLookup (b0 b1 b2 : Byte) (s : State) : Answer :=
  primOp (done (tpiChunkSet [b0, b1, b2])) s

end Sys2Proof.Machine
end

