-- ==== Sys2Proof/Machine/Pdi.lean ====
section
/-! DEFINITION. The PDI engine (R250 to R262): wire primitives, blocks, the fixed NVM sequencing, the operations as
the supervisor runs them, and the meanings of the PDI wire rows and primitives. -/

namespace Sys2Proof.Machine

/-! ## Wire primitives (R251) -/

/-- `pdi_sts8(a, v)` (R251). -/
def pdiSts8 (a : Addr) (v : Byte) : M Unit := do
  let s ← get
  send .pdi (s.cfg.pdi.opSts8 :: (pdiAddr s.cfg a ++ [v]))

/-- `pdi_lds8(a)` (R251). -/
def pdiLds8 (a : Addr) : M Byte := do
  let s ← get
  send .pdi (s.cfg.pdi.opLds8 :: pdiAddr s.cfg a)
  rx

/-- `pdi_set_ptr(a)`: the address bytes as they stand (R251, R254). -/
def pdiSetPtr (a : Addr) : M Unit := do
  let s ← get
  send .pdi (s.cfg.pdi.opPtr :: pdiAddr s.cfg a)

/-- The repeat count byte, `N - 1` (R251). -/
def pdiRepeat (cnt : Byte) : M Unit := do
  let s ← get
  send .pdi [s.cfg.pdi.opRepeat, cnt]

/-! ## Blocks (R255) -/

/-- `1 <= N <= BLOCK_MAX_UNITS` (R76, R255). -/
def requireUnits (n : Nat) : M Unit := do
  let s ← get
  require (decide (1 ≤ n) && decide (n ≤ s.cfg.blockMaxUnits))

/-- `pdi_recv_block(a, N)` (R255). The count byte is `N - 1` modulo 256: for an `N` above 256, which only a
`BLOCK_MAX_UNITS` above 256 lets through, R251 says no byte (DESIGN CHOICE, log 57). -/
def pdiRecvBlock (a : Addr) (n : Nat) : M (List Byte) := do
  let s ← get
  requireUnits n
  pdiSetPtr a
  pdiRepeat (BitVec.ofNat 8 (n - 1))
  send .pdi [s.cfg.pdi.opLdInc]
  recvN n

/-- `pdi_send_block(a, N, d)` (R255). The count byte is `N - 1` modulo 256, as in `pdiRecvBlock` (DESIGN CHOICE for an
`N` above 256, log 57). -/
def pdiSendBlock (a : Addr) (d : List Byte) : M Unit := do
  let s ← get
  requireUnits d.length
  pdiSetPtr a
  pdiRepeat (BitVec.ofNat 8 (d.length - 1))
  send .pdi (s.cfg.pdi.opStInc :: d)

/-- `pdi_recv(a, len)`: pieces of at most `BLOCK_MAX_UNITS` bytes, ascending; `fuel` counts pieces, and `len` of them
are always enough (R255). -/
def pdiRecv : Nat → Addr → Nat → M (List Byte)
  | 0, _, _ => pure []
  | fuel + 1, a, n => do
    if n = 0 then pure []
    else
      let s ← get
      let k := min n s.cfg.blockMaxUnits
      let d ← pdiRecvBlock a k
      let rest ← pdiRecv fuel (addrAt a k) (n - k)
      pure (d ++ rest)

/-- `pdi_send(a, len, d)`: likewise (R255). -/
def pdiSend : Nat → Addr → List Byte → M Unit
  | 0, _, _ => pure ()
  | fuel + 1, a, d => do
    if d.isEmpty then pure ()
    else
      let s ← get
      let k := min d.length s.cfg.blockMaxUnits
      pdiSendBlock a (d.take k)
      pdiSend fuel (addrAt a k) (d.drop k)

/-! ## The fixed NVM sequencing (R258) -/

/-- `poll until (pdi_ldcs(R_STATUS) & STATUS_NVMEN) != 0` (R253, R258). -/
def pdiPollEnabled : M Unit := do
  let s ← get
  let _ ← pollUntil (ldcs .pdi s.cfg.pdi.rStatus) (fun v => v &&& s.cfg.pdi.statusNvmen != 0)

/-- `pdi_nvm_wait()` (R258). -/
def pdiNvmWait : M Unit := do
  pdiPollEnabled
  let s ← get
  let _ ← pollUntil (pdiLds8 s.cfg.pdi.nvmStatus) (fun v => v &&& s.cfg.pdi.busy == 0)

/-- A command byte into the controller's command register. -/
def pdiCmd (c : Byte) : M Unit := do
  let s ← get
  pdiSts8 s.cfg.pdi.nvmCmd c

/-- The controller's execute bit. -/
def pdiExecute : M Unit := do
  let s ← get
  pdiSts8 s.cfg.pdi.nvmCtrlA s.cfg.pdi.cmdex

/-- The three commands of a paged write: erase the buffer, load it, write the page (R258). -/
structure PdiPageCmds where
  eraseBuf : Byte
  loadBuf : Byte
  writePage : Byte
  deriving DecidableEq, Repr

/-- The commands of a memory kind that is written by pages (R258; log 26). -/
def pdiPageCmds (p : PdiParams) : MemKind → Option PdiPageCmds
  | .flashPage => some ⟨p.cEraseBufFlash, p.cLoadBufFlash, p.cWriteFlash⟩
  | .applFlash => some ⟨p.cEraseBufFlash, p.cLoadBufFlash, p.cWriteAppl⟩
  | .bootFlash => some ⟨p.cEraseBufFlash, p.cLoadBufFlash, p.cWriteBoot⟩
  | .eeprom => some ⟨p.cEraseBufEeprom, p.cLoadBufEeprom, p.cWriteEeprom⟩
  | .eepromPage => some ⟨p.cEraseBufEeprom, p.cLoadBufEeprom, p.cWriteEeprom⟩
  | .userrow => some ⟨p.cEraseBufUserrow, p.cLoadBufUserrow, p.cWriteUserrow⟩
  | _ => none

/-- The command of a memory kind that is written by bytes (R258). -/
def pdiByteCmd (p : PdiParams) : MemKind → Option Byte
  | .fuse => some p.cWriteFuse
  | .lock => some p.cWriteLock
  | _ => none

/-- The paged path of `pdi_nvm_write`, its four numbered steps (R41); USERROW's page write comes after its erase command
(R258; log 26). -/
def pdiPaged (k : MemKind) (cs : PdiPageCmds) (a : Addr) (d : List Byte) : M Res := do
  phase 1
  pdiNvmWait
  pdiCmd cs.eraseBuf
  pdiExecute
  phase 2
  pdiNvmWait
  pdiCmd cs.loadBuf
  pdiSend d.length a d
  phase 3
  if k = .userrow then
    let s ← get
    pdiCmd s.cfg.pdi.cEraseUserrow
    pdiSts8 a 0x00
    pdiNvmWait
  pdiCmd cs.writePage
  pdiSts8 a 0x00
  phase 4
  pdiNvmWait
  pure (Res.ok d.length)

/-- The bytewise path of `pdi_nvm_write` (R258). Past the end of the address space, where only the row by itself comes,
the address wraps to 0 (DESIGN CHOICE, log 56). -/
def pdiBytes (c : Byte) (a : Addr) : List Byte → M Unit
  | [] => pure ()
  | b :: rest => do
    pdiNvmWait
    pdiCmd c
    pdiSts8 a b
    pdiBytes c (a + 1) rest

/-- `pdi_nvm_write(mt, a, len, d)` (R258). -/
def pdiNvmWrite (k : MemKind) (a : Addr) (d : List Byte) : M Res := do
  let s ← get
  match pdiPageCmds s.cfg.pdi k with
  | some cs => pdiPaged k cs a d
  | none =>
    match pdiByteCmd s.cfg.pdi k with
    | some c => do
      pdiBytes c a d
      pdiNvmWait
      pure (Res.ok d.length)
    | none => raise .unsupported

/-! ## Operations, operands in `CB` -/

/-- Steps 1 to 5 of `PDI.SIGN_ON` (R252). -/
def pdiSignOnSteps : M Unit := do
  phase 1
  connectClear .pdi
  phase 2
  connectAcquire .pdi
  phase 3
  let s ← get
  let _ ← runScript .pdi s.cfg.pdi.activateSeq
  phase 4
  let _ ← ldcs .pdi s.cfg.pdi.rStatus
  phase 5
  upd fun s => { s with sess := { s.sess with link := true } }

/-- `PDI.SIGN_ON` (R252). -/
def pdiSignOn : M Res := done (failingConnect pdiSignOnSteps)

/-- The wire part of `PDI.SIGN_OFF` (R260). -/
def pdiSignOffWire : M Res := do
  let s ← get
  if s.sess.prog then
    let _ ← runScript .pdi s.cfg.pdi.leaveSeq
  pure (Res.ok 1)

/-- `PDI.ENTER_PROGMODE` (R253). -/
def pdiEnter : M Res := do
  let s ← get
  require s.sess.link
  if s.sess.prog then pure (Res.ok 1)
  else
    phase 1
    let _ ← runScript .pdi s.cfg.pdi.preKeySeq
    phase 2
    sendSyncKey .pdi
    phase 3
    pdiPollEnabled
    phase 4
    upd fun s => { s with sess := { s.sess with prog := true } }
    pure (Res.ok 1)

/-- `PDI.LEAVE_PROGMODE` (R260): as UPDI's, `LINK` is all it requires, and `PROG` is cleared before the script (R187,
R324; log 12). -/
def pdiLeave : M Res := do
  let s ← get
  require s.sess.link
  if s.sess.prog then
    upd fun s => { s with sess := { s.sess with prog := false } }
    let _ ← runScript .pdi s.cfg.pdi.leaveSeq
    pure (Res.ok 1)
  else pure (Res.ok 1)

/-- `PDI.READ_MEMORY` (R254, R256, R261). No pseudocode says where R254's check of the address's space stands among the
others: here after the memory type's, which is E_UNSUPPORTED first, and after the translation, on the operand's own high
byte, which R256 selects by (DESIGN CHOICE, log 52). -/
def pdiRead : M Res := do
  let (mt, a, len, _) ← cbMem
  let s ← get
  let n := len.toNat
  require (lenOk n && inSpace32 a n)
  require s.sess.prog
  match memKind s.cfg mt with
  | none => raise .unsupported
  | some k =>
    if k = .sib then raise .unsupported
    else
      let a' ← translate k a n
      require (pdiSpace a == s.cfg.pdi.spaceCode || pdiSpace a == s.cfg.pdi.spaceData)
      if pdiSpace a = s.cfg.pdi.spaceCode then pdiCmd s.cfg.pdi.cRead
      let d ← pdiRecv n a' n
      pure (Res.read d)

/-- `PDI.WRITE_MEMORY` (R254, R257). R254's check of the space stands after the memory type's and after the
translation, on the translated address's high byte, which R257 selects by (DESIGN CHOICE, log 52). -/
def pdiWrite : M Res := do
  let (mt, a, len, d) ← cbMem
  let s ← get
  let n := len.toNat
  require (lenOk n && inSpace32 a n && d.length == n)
  require s.sess.prog
  match memKind s.cfg mt with
  | none => raise .unsupported
  | some k =>
    if memClass k = .readOnly then raise .unsupported
    else
      let a' ← translate k a n
      require (pdiSpace a' == s.cfg.pdi.spaceCode || pdiSpace a' == s.cfg.pdi.spaceData)
      if pdiSpace a' = s.cfg.pdi.spaceData then
        pdiSend n a' d
        pure (Res.ok n)
      else pdiNvmWrite k a' d

/-- `PDI.ERASE_MEMORY` (R259). A page is erased at an address of any space: R259's pseudocode has no check of the high
byte, where R254 makes one that is neither code nor data E_PRECOND (DESIGN CHOICE, log 52). -/
def pdiErase : M Res := do
  let (et, a) ← cbErase
  let s ← get
  require s.sess.prog
  if et = s.cfg.etChip then
    pdiNvmWait
    pdiCmd s.cfg.pdi.cChipErase
    pdiExecute
    pdiNvmWait
    upd fun s => { s with sess := { s.sess with eraseDone := true } }
    pure (Res.ok 1)
  else if et = s.cfg.etPage then
    pdiNvmWait
    pdiCmd s.cfg.pdi.cErasePage
    pdiSts8 a 0x00
    pdiNvmWait
    pure (Res.ok 1)
  else pure ⟨s.cfg.eraseUnhonored, [], none⟩

/-! ## The wire rows -/

/-- PDI.LDCS (R251). -/
def execPdiLdcs (r : RegIx) (s : State) : Answer :=
  primOp (oneByte (ldcs .pdi r)) s

/-- PDI.STCS (R251). -/
def execPdiStcs (r : RegIx) (v : Byte) (s : State) : Answer :=
  primOp (done (stcs .pdi r v)) s

/-- PDI.KEY: the ten bytes of the key (R120, R253). -/
def execPdiKey (s : State) : Answer :=
  primOp (done (sendSyncKey .pdi)) s

/-- PDI.STS8 (R251). -/
def execPdiSts8 (a : Addr) (v : Byte) (s : State) : Answer :=
  primOp (done (pdiSts8 a v)) s

/-- PDI.LDS8 (R251). -/
def execPdiLds8 (a : Addr) (s : State) : Answer :=
  primOp (oneByte (pdiLds8 a)) s

/-- PDI.SET_PTR (R251). -/
def execPdiSetPtr (a : Addr) (s : State) : Answer :=
  primOp (done (pdiSetPtr a)) s

/-- PDI.REPEAT: the count byte is `N - 1` (R251). R251 gives the range of `N` and no outcome outside it: run by itself
the row sends the byte as given, whatever `BLOCK_MAX_UNITS` is (DESIGN CHOICE, log 54). -/
def execPdiRepeat (cnt : Byte) (s : State) : Answer :=
  primOp (done (pdiRepeat cnt)) s

/-- PDI.LD_INC: the stream instruction and the `cnt + 1` bytes it brings (R255; log 28), also more than
`BLOCK_MAX_UNITS` of them: R76's range is a block's to check (DESIGN CHOICE, log 54). -/
def execPdiLdInc (cnt : Byte) (s : State) : Answer :=
  primOp (do
    send .pdi [s.cfg.pdi.opLdInc]
    let d ← recvN (cnt.toNat + 1)
    pure (Res.read d)) s

/-- PDI.ST_INC: the stream instruction and the bytes it carries (R255; log 28). R76 bounds a block's units and gives the
row by itself no outcome outside the bounds: it sends what it is given, also more than `BLOCK_MAX_UNITS` bytes, and with
none the instruction alone, ending with count 0 and no cause (DESIGN CHOICE, log 54). -/
def execPdiStInc (d : List Byte) (s : State) : Answer :=
  primOp (do
    send .pdi (s.cfg.pdi.opStInc :: d)
    pure (Res.ok d.length)) s

/-- PDI.recv_block / PDI.send_block (R255). R84 makes `addr + len > 2^32` E_PRECOND for an operation; the row by itself
does not look at it (DESIGN CHOICE, log 56). -/
def execPdiBlock (a : Addr) (req : BlockReq) (s : State) : Answer :=
  primOp (match req with
    | .recv cnt => do
      let d ← pdiRecvBlock a (cnt.toNat + 1)
      pure (Res.read d)
    | .send d => do
      pdiSendBlock a d
      pure (Res.ok d.length)) s

/-- PDI.nvm_sequence: `pdi_nvm_write` (R258). R84 makes `addr + len > 2^32` E_PRECOND for an operation; the row by itself
does not look at it (DESIGN CHOICE, log 56), nor at R76's `1 <= len <= XFER_MAX_BYTES` of an operation: without data it
sends its commands and no block (DESIGN CHOICE, log 62). -/
def execPdiNvmSequence (mt : Byte) (a : Addr) (d : List Byte) (s : State) : Answer :=
  primOp (match memKind s.cfg mt with
    | none => raise .unsupported
    | some k => pdiNvmWrite k a d) s

end Sys2Proof.Machine
end

