-- ==== Sys2Proof/Machine/Supervisor.lean ====
section
/-! DEFINITION. Which operation runs with which fallback (R153), what a give-up does to the session (R203, R235, R262),
the three disconnects, whose wire part is a run, and the meaning of WD.RUN. -/

namespace Sys2Proof.Machine

/-- The operation a run is invoked on; its operands are in `CB` (R140, R147). -/
def runBody : RunOp → M Res
  | .connectAttempt => connectAttempt
  | .updiSignOffWire => updiSignOffWire
  | .updiEnterProgmode => updiEnter
  | .updiLeaveProgmode => updiLeave
  | .updiErase => updiErase
  | .updiRead => updiRead
  | .updiWrite => updiWrite
  | .tpiEnterProgmode => tpiEnter
  | .tpiLeaveWire => tpiLeaveWire
  | .tpiErase => tpiErase
  | .tpiWrite => tpiWrite
  | .tpiRead => tpiRead
  | .pdiSignOn => pdiSignOn
  | .pdiSignOffWire => pdiSignOffWire
  | .pdiEnterProgmode => pdiEnter
  | .pdiLeaveProgmode => pdiLeave
  | .pdiErase => pdiErase
  | .pdiRead => pdiRead
  | .pdiWrite => pdiWrite

/-- The fallback of an operation: UPDI's for the UPDI operations, none for all others (R153). -/
def runFallback : RunOp → FallbackSel
  | .updiEnterProgmode | .updiLeaveProgmode | .updiErase | .updiRead | .updiWrite => .updi
  | .connectAttempt | .updiSignOffWire | .tpiEnterProgmode | .tpiLeaveWire | .tpiErase | .tpiWrite | .tpiRead => .absent
  | .pdiSignOn | .pdiSignOffWire | .pdiEnterProgmode | .pdiLeaveProgmode | .pdiErase | .pdiRead | .pdiWrite => .absent

/-- Is a give-up of this operation a link loss? Only a connect attempt's is not (R148, R203). -/
def losesLink : RunOp → Bool
  | .connectAttempt => false
  | .updiSignOffWire | .tpiLeaveWire | .pdiSignOffWire => true
  | .updiEnterProgmode | .updiLeaveProgmode | .updiErase | .updiRead | .updiWrite => true
  | .tpiEnterProgmode | .tpiErase | .tpiWrite | .tpiRead => true
  | .pdiSignOn | .pdiEnterProgmode | .pdiLeaveProgmode | .pdiErase | .pdiRead | .pdiWrite => true

/-- Does the operation contain a connect, whose failure has an end of its own (R222, R252)? -/
def connects : RunOp → Bool
  | .tpiEnterProgmode | .pdiSignOn => true
  | .connectAttempt | .updiSignOffWire | .updiEnterProgmode | .updiLeaveProgmode | .updiErase | .updiRead => false
  | .updiWrite | .tpiLeaveWire | .tpiErase | .tpiWrite | .tpiRead => false
  | .pdiSignOffWire | .pdiEnterProgmode | .pdiLeaveProgmode | .pdiErase | .pdiRead | .pdiWrite => false

/-- Is a give-up of this operation, with the state the expiry left, a connect that failed? `PDI.SIGN_ON` is a connect
from its first step to its return, whatever `LINK` was or has become: R24 and R252 have `INIT_FAIL` set on any
failure, and R203 speaks of link loss alone, so the model sets it after the link loss (DEDUCED, log 18).
`TPI.ENTER_PROGMODE` contains one until the link is made, and none where `PROG` stands already (R222, R223).
-/
def failsConnect (op : RunOp) (s : State) : Bool :=
  match op with
  | .pdiSignOn => true
  | .tpiEnterProgmode => !s.sess.prog && !s.sess.link
  | .connectAttempt | .updiSignOffWire | .updiEnterProgmode | .updiLeaveProgmode | .updiErase | .updiRead => false
  | .updiWrite | .tpiLeaveWire | .tpiErase | .tpiWrite | .tpiRead => false
  | .pdiSignOffWire | .pdiEnterProgmode | .pdiLeaveProgmode | .pdiErase | .pdiRead | .pdiWrite => false

/-- What a give-up does before the failure is delivered: link loss (R203), and the end of a failed connect (R222,
R252; log 18). -/
def State.gaveUp (op : RunOp) (s : State) : State :=
  let t := if losesLink op && s.cfg.linkLossOnGiveup then s.linkLoss else s
  if failsConnect op s then t.connectFailed else t

/-- A run of an operation, with what follows its give-up (R148, R203). -/
def runWith (op : RunOp) (fb : FallbackSel) (deadline : Half) : M Res := do
  let r ← supervise (runBody op) fb deadline
  if r.cause = some .timeout then upd (State.gaveUp op)
  pure r

/-- A run as the dispatcher invokes it: the operation's fallback, 800 ms (R140, R153). -/
def runOp (op : RunOp) : M Res := runWith op (runFallback op) Config.wdDefaultMs

/-- A disconnect: with a link, the engine's wire part under a run of 800 ms, whose result is ignored; then the teardown,
whatever the wire part did (R185, R233, R260). -/
def disconnect (wire : RunOp) : M Res := do
  phase 1
  let s ← get
  if s.sess.link then
    let _ ← runOp wire
  teardown
  pure (Res.ok 1)

/-- `UPDI.SIGN_OFF` (R185). -/
def updiSignOff : M Res := disconnect .updiSignOffWire

/-- `TPI.LEAVE_PROGMODE` (R233). -/
def tpiLeave : M Res := disconnect .tpiLeaveWire

/-- `PDI.SIGN_OFF` (R260). -/
def pdiSignOff : M Res := disconnect .pdiSignOffWire

/-- WD.RUN (R140). -/
def execWdRun (op : RunOp) (fb : FallbackSel) (deadline : Half) (s : State) : Answer :=
  primOp (runWith op fb deadline) s

end Sys2Proof.Machine
end

