-- ==== Sys2Proof/Machine/Arbiter.lean ====
section
/-! DEFINITION. The reset arbiter, the UART's rows, link loss as an event, and the environment's events (R203, R229,
R301 to R310, R330, R331, R361). They act between operations, with no countdown armed, so each is one change of the
state (R328). -/

namespace Sys2Proof.Machine

/-! ## The button (R301 to R305) -/

/-- The edges of a sample, and the new level (R301). The first sample after a restart makes no edge (R361; log 11). -/
def State.latchEdges (v : Bool) (s : State) : State :=
  { s with
    ui := { s.ui with
      swPress := s.ui.swPress || (v && s.swPrev == some false)
      swRelease := s.ui.swRelease || (!v && s.swPrev == some true) }
    swPrev := some v }

/-- The press edge consumed; into reset unless a session holds the link (R303, R305). -/
def State.takePress (s : State) : State :=
  if s.ui.swPress then
    { s with ui := { s.ui with swPress := false }, trstBtn := s.trstBtn || !s.sess.link }
  else s

/-- The release edge consumed; out of reset unless a session holds the link (R304, R305). -/
def State.takeRelease (s : State) : State :=
  if s.ui.swRelease then
    { s with ui := { s.ui with swRelease := false }, trstBtn := s.trstBtn && s.sess.link }
  else s

/-- `sample(v)` (R301, R302). -/
def State.sample (v : Bool) (s : State) : State :=
  (s.latchEdges v).takePress.takeRelease

/-- RSA.sample (R301). -/
def execRsaSample (v : Bool) (s : State) : Answer := .next (s.write (State.sample v))

/-- RSA.press (R303). -/
def execRsaPress (s : State) : Answer := .next (s.write State.takePress)

/-- RSA.release (R304). -/
def execRsaRelease (s : State) : Answer := .next (s.write State.takeRelease)

/-! ## The UART (R308 to R310) -/

/-- RSA.acquire (R308). -/
def execRsaAcquire (e : Engine) (s : State) : Answer := .next (s.acquire e)

/-- RSA.quiesce (R309). -/
def execRsaQuiesce (s : State) : Answer := .next s.quiesce

/-- RSA.release_uart (R310). -/
def execRsaReleaseUart (s : State) : Answer := .next s.releaseUart

/-- The VCP port opens or closes (R310). -/
def State.vcp (isOpen : Bool) (s : State) : State :=
  let t := { s with ui := { s.ui with vcpOpen := isOpen } }
  match s.umode, isOpen with
  | .idle, true => { t with umode := .vcp }
  | .vcp, false => { t.quiesce with umode := .idle }
  | _, _ => t

/-! ## Events -/

/-- link_loss (R203). -/
def execLinkLoss (s : State) : Answer := .next (s.write State.linkLoss)

/-- SYS.VCP (R310). -/
def execSysVcp (isOpen : Bool) (s : State) : Answer := .next (s.vcp isOpen)

/-- SYS.SW: one sample step at the level the sample sees (R301). -/
def execSysSw (level : Bool) (s : State) : Answer := .next (s.write (State.sample level))

/-- SYS.VTG: a new value of the input `VTG` (R43, R229). -/
def execSysVtg (mv : Half) (s : State) : Answer := .next { s with env := { s.env with vtg := mv.toNat } }

/-- SYS.USB_BUS_RESET (R330). -/
def execSysUsbBusReset (s : State) : Answer := .next (s.write State.busReset)

/-- A restart: every piece of state takes its restart value; the environment and the implementation stay (R361). -/
def State.restart (s : State) : State := State.restarted s.env s.cfg

/-- SYS.USB_SUSPEND_RESUME: a restart while enumerated, otherwise nothing (R331). -/
def execSysUsbSuspendResume (s : State) : Answer := .next (if s.ui.usbEnum then s.restart else s)

/-- SYS.RESTART (R361). -/
def execSysRestart (s : State) : Answer := .next s.restart

end Sys2Proof.Machine
end

