-- ==== Sys2Proof/Machine/HostOps.lean ====
section
/-! DEFINITION. The meanings of the host operations (R102 to R104, R109, R113) and of the two pseudo-operations (R115).
A host operation's request is in `CB`; its response is written over it as the last step (R376). -/

namespace Sys2Proof.Machine

/-! ## Parameter commands and unknown commands -/

/-- `SET_PARAMETER` (R109). -/
def setParameter (p : ParamSet) : M Res := do
  let s ← get
  match p with
  | .arch v => do
    require (!s.sess.link)
    upd fun s => { s with arch := decodeArch s.cfg v }
  | .deviceDesc d => upd fun s => { s with dd := ⟨true, d⟩ }
  | .other _ _ => pure ()
  pure (Res.ok 1)

/-- SYS.SET_PARAMETER (R109). -/
def execSysSetParameter (p : ParamSet) (s : State) : Answer :=
  hostOp .avr 0x01 (.setParam p) (setParameter p) s

/-- SYS.GET_PARAMETER: no effect on TPB; the answer is the dispatcher's, a free value (R109; log 24). -/
def execSysGetParameter (which : Byte) (s : State) : Answer :=
  let t := s.withRequest .avr 0x02 (.getParam which)
  let r := Config.getParameterResponse which s.opi
  .next { t with
    cb := { t.cb with body := .response r }
    res := ⟨r.count, r.data, none⟩
    opi := t.opi + 1
    ph := 0 }

/-- UNKNOWN: a command no scope of TPB assigns (R113, R325). -/
def execUnknown (scope : HostScope) (cmd : Byte) (s : State) : Answer :=
  hostOp scope cmd .none (raise .unsupported) s

/-! ## UPDI -/

/-- UPDI.SIGN_ON (R181). -/
def execUpdiSignOn (s : State) : Answer := avrOp .updi 0x10 .none updiSignOn s

/-- UPDI.SIGN_OFF (R185). -/
def execUpdiSignOff (s : State) : Answer := avrOp .updi 0x11 .none updiSignOff s

/-- UPDI.ENTER_PROGMODE (R186). -/
def execUpdiEnterProgmode (s : State) : Answer := avrOp .updi 0x15 .none (runOp .updiEnterProgmode) s

/-- UPDI.LEAVE_PROGMODE (R187). -/
def execUpdiLeaveProgmode (s : State) : Answer := avrOp .updi 0x16 .none (runOp .updiLeaveProgmode) s

/-- UPDI.ERASE_MEMORY (R199). -/
def execUpdiEraseMemory (et : Byte) (a : Addr) (s : State) : Answer :=
  avrOp .updi 0x20 (.erase et a) (runOp .updiErase) s

/-- UPDI.READ_MEMORY (R194). -/
def execUpdiReadMemory (mt : Byte) (a n : Addr) (s : State) : Answer :=
  avrOp .updi 0x21 (.mem mt a n []) (runOp .updiRead) s

/-- UPDI.WRITE_MEMORY (R195). -/
def execUpdiWriteMemory (mt : Byte) (a n : Addr) (d : List Byte) (s : State) : Answer :=
  avrOp .updi 0x23 (.mem mt a n d) (runOp .updiWrite) s

/-! ## PDI -/

/-- PDI.SIGN_ON (R252). -/
def execPdiSignOn (s : State) : Answer := avrOp .pdi 0x10 .none (runOp .pdiSignOn) s

/-- PDI.SIGN_OFF (R260). -/
def execPdiSignOff (s : State) : Answer := avrOp .pdi 0x11 .none pdiSignOff s

/-- PDI.ENTER_PROGMODE (R253). -/
def execPdiEnterProgmode (s : State) : Answer := avrOp .pdi 0x15 .none (runOp .pdiEnterProgmode) s

/-- PDI.LEAVE_PROGMODE (R260). -/
def execPdiLeaveProgmode (s : State) : Answer := avrOp .pdi 0x16 .none (runOp .pdiLeaveProgmode) s

/-- PDI.ERASE_MEMORY (R259). -/
def execPdiEraseMemory (et : Byte) (a : Addr) (s : State) : Answer :=
  avrOp .pdi 0x20 (.erase et a) (runOp .pdiErase) s

/-- PDI.READ_MEMORY (R256). -/
def execPdiReadMemory (mt : Byte) (a n : Addr) (s : State) : Answer :=
  avrOp .pdi 0x21 (.mem mt a n []) (runOp .pdiRead) s

/-- PDI.WRITE_MEMORY (R257). -/
def execPdiWriteMemory (mt : Byte) (a n : Addr) (d : List Byte) (s : State) : Answer :=
  avrOp .pdi 0x23 (.mem mt a n d) (runOp .pdiWrite) s

/-! ## TPI -/

/-- TPI.ENTER_PROGMODE (R223). -/
def execTpiEnterProgmode (s : State) : Answer :=
  hostOp .tpi s.cfg.scopes.tpiCodes.enterProgmode .none (runOp .tpiEnterProgmode) s

/-- TPI.LEAVE_PROGMODE (R233). -/
def execTpiLeaveProgmode (s : State) : Answer := hostOp .tpi s.cfg.scopes.tpiCodes.leaveProgmode .none tpiLeave s

/-- TPI.ERASE (R231). -/
def execTpiErase (et : Byte) (a : Addr) (s : State) : Answer :=
  hostOp .tpi s.cfg.scopes.tpiCodes.erase (.erase et a) (runOp .tpiErase) s

/-- TPI.WRITE_MEM (R228). -/
def execTpiWriteMem (mt : Byte) (a n : Addr) (d : List Byte) (s : State) : Answer :=
  hostOp .tpi s.cfg.scopes.tpiCodes.writeMem (.mem mt a n d) (runOp .tpiWrite) s

/-- TPI.READ_MEM (R230). -/
def execTpiReadMem (mt : Byte) (a n : Addr) (s : State) : Answer :=
  hostOp .tpi s.cfg.scopes.tpiCodes.readMem (.mem mt a n []) (runOp .tpiRead) s

/-- TPI.CRC: not supported (R104, R225). -/
def execTpiCrc (s : State) : Answer := hostOp .tpi s.cfg.scopes.tpiCodes.crc .none (raise .unsupported) s

/-- TPI.SET_PARAM: the parameters are stored, nothing reads them, and they stay until a restart (R225; log 25). -/
def execTpiSetParam (value : List Byte) (s : State) : Answer :=
  hostOp .tpi s.cfg.scopes.tpiCodes.setParam (.tpiParam value) (done (upd fun s => { s with tpiParams := value })) s

/-! ## The pseudo-operations (R115; log 30) -/

/-- SIGN_ON of an architecture's engine. -/
def signOnOf (a : AvrArch) (s : State) : Answer :=
  match a with
  | .updi => execUpdiSignOn s
  | .pdi => execPdiSignOn s

/-- SIGN_OFF of an architecture's engine. -/
def signOffOf (a : AvrArch) (s : State) : Answer :=
  match a with
  | .updi => execUpdiSignOff s
  | .pdi => execPdiSignOff s

/-- ENTER_PROGMODE of an architecture's engine. -/
def enterOf (a : AvrArch) (s : State) : Answer :=
  match a with
  | .updi => execUpdiEnterProgmode s
  | .pdi => execPdiEnterProgmode s

/-- LEAVE_PROGMODE of an architecture's engine. -/
def leaveOf (a : AvrArch) (s : State) : Answer :=
  match a with
  | .updi => execUpdiLeaveProgmode s
  | .pdi => execPdiLeaveProgmode s

/-- SESSION_OPEN: SET_PARAMETER of the architecture, SIGN_ON, the descriptor's upload, ENTER_PROGMODE (R115). -/
def execSessionOpen (a : AvrArch) (d : DevDesc) (s : State) : Answer :=
  andThen (execSysSetParameter (.arch (archValue s.cfg a)) s) fun s =>
    andThen (signOnOf a s) fun s =>
      andThen (execSysSetParameter (.deviceDesc d) s) (enterOf a)

/-- SESSION_CLOSE: LEAVE_PROGMODE, SIGN_OFF (R115). -/
def execSessionClose (a : AvrArch) (s : State) : Answer := andThen (leaveOf a s) (signOffOf a)

/-! ## Records that are no instruction (R111 to R113) -/

/-- A record that is no request of TPB's scopes: what its bytes select stands in `CB`, and it fails (R112, R113; log
40). -/
def answerFailing (sel cmd : Byte) (c : Cause) (s : State) : Answer :=
  outcome State.deliver (raise c) (s.withBody sel cmd .none)

/-- A record that ends before its fields do fails as a malformed request (R112; log 40). -/
def answerTruncated (s : State) : Answer := answerFailing 0 0 .precond s

/-- A scope the dispatcher does not know gets a generic failure response, and so does a byte of the model's wire and
internal spaces that stands for no row: to the dispatcher their selectors are unknown scopes (R113; log 40). -/
def answerUnknownScope (sel cmd : Byte) (s : State) : Answer := answerFailing sel cmd .unsupported s

/-- The byte of a record at an index, 0 past its end. -/
def recordByte (r : List Byte) (k : Nat) : Byte := (r[k]?).getD 0

/-- What a record answers that the decoder names no instruction for (log 40). -/
def answerUndecoded (e : DecodeError) (r : List Byte) (s : State) : Answer :=
  match e with
  | .truncated => answerTruncated s
  | .unknownScope | .reserved => answerUnknownScope (recordByte r 1) (recordByte r 0) s
  | .foreignScope => .refused .foreignScope

/-! ## What the main loop does between operations (R328, R334; log 35) -/

/-- The USB glue's bits and `IE` take the values the environment drives (R28, R43). -/
def State.applyGlue (s : State) : State :=
  match s.env.pend.glue with
  | none => s
  | some g =>
    { s with
      ui := { s.ui with usbEnum := g.usbEnum, vcpBufsel := g.vcpBufsel, breakActive := g.breakActive }
      env := { s.env with ie := g.ie, pend := { s.env.pend with glue := none } } }

/-- The pending events the step takes from the environment. -/
def State.setPend (p : Pending) (s : State) : State := { s with env := { s.env with pend := p } }

/-- The operation record is taken from the host's stream, its sequence number into `CB` (R21, R100). -/
def State.takeRecord (r : List Byte) (rest : List (List Byte)) (s : State) : State :=
  { s with
    cb := { s.cb with seq := recordSeq s.cfg.scopes r }
    env := { s.env with stream := rest } }

/-- What the main loop does next. -/
inductive Turn where
  /-- run an instruction: an event or a delivered operation -/
  | run (i : Instr) (s : State)
  /-- answer a record the decoder names no instruction for -/
  | undecoded (e : DecodeError) (r : List Byte) (s : State)
  /-- nothing to do -/
  | idle (s : State)
  deriving DecidableEq, Repr

/-- The host's next record, decoded under `ARCH` (R111), or nothing. -/
def fetchRecord (s : State) : Turn :=
  match s.env.stream with
  | [] => .idle s
  | r :: rest =>
    match decode s.cfg.scopes s.arch r with
    | .ok i => .run i (s.takeRecord r rest)
    | .error e => .undecoded e r (s.takeRecord r rest)

/-- The pending events in their order, restart, bus reset, VCP, button, then the next record (R334). -/
def nextTurn (s : State) : Turn :=
  let t := s.applyGlue
  let p := t.env.pend
  if p.suspendResume then .run .sysUsbSuspendResume (t.setPend { p with suspendResume := false })
  else if p.busReset then .run .sysUsbBusReset (t.setPend { p with busReset := false })
  else
    match p.vcp with
    | some v => .run (.sysVcp v) (t.setPend { p with vcp := none })
    | none =>
      match p.sw with
      | some v => .run (.sysSw v) (t.setPend { p with sw := none })
      | none => fetchRecord t

/-- The state whose next record is a word of the opcode table (log 2). -/
def State.withRecord (r : List Byte) (s : State) : State :=
  { s with env := { s.env with stream := r :: s.env.stream, pend := Pending.empty } }

end Sys2Proof.Machine
end

