-- ==== Sys2Proof/Machine/Dispatch.lean ====
section
/-! DEFINITION. The dispatch: one arm per row of the opcode table, one meaning per arm. -/

namespace Sys2Proof.Machine

def exec (i : Instr) (s : State) : Host.Outcome State Fault Refusal :=
  match i with
  | .sysSetParameter p => Sys2Proof.Machine.execSysSetParameter p s
  | .sysGetParameter which => Sys2Proof.Machine.execSysGetParameter which s
  | .updiSignOn => Sys2Proof.Machine.execUpdiSignOn s
  | .updiSignOff => Sys2Proof.Machine.execUpdiSignOff s
  | .updiEnterProgmode => Sys2Proof.Machine.execUpdiEnterProgmode s
  | .updiLeaveProgmode => Sys2Proof.Machine.execUpdiLeaveProgmode s
  | .updiEraseMemory et addr => Sys2Proof.Machine.execUpdiEraseMemory et addr s
  | .updiReadMemory mt addr len => Sys2Proof.Machine.execUpdiReadMemory mt addr len s
  | .updiWriteMemory mt addr len data => Sys2Proof.Machine.execUpdiWriteMemory mt addr len data s
  | .pdiSignOn => Sys2Proof.Machine.execPdiSignOn s
  | .pdiSignOff => Sys2Proof.Machine.execPdiSignOff s
  | .pdiEnterProgmode => Sys2Proof.Machine.execPdiEnterProgmode s
  | .pdiLeaveProgmode => Sys2Proof.Machine.execPdiLeaveProgmode s
  | .pdiEraseMemory et addr => Sys2Proof.Machine.execPdiEraseMemory et addr s
  | .pdiReadMemory mt addr len => Sys2Proof.Machine.execPdiReadMemory mt addr len s
  | .pdiWriteMemory mt addr len data => Sys2Proof.Machine.execPdiWriteMemory mt addr len data s
  | .tpiEnterProgmode => Sys2Proof.Machine.execTpiEnterProgmode s
  | .tpiLeaveProgmode => Sys2Proof.Machine.execTpiLeaveProgmode s
  | .tpiErase et addr => Sys2Proof.Machine.execTpiErase et addr s
  | .tpiWriteMem mt addr len data => Sys2Proof.Machine.execTpiWriteMem mt addr len data s
  | .tpiReadMem mt addr len => Sys2Proof.Machine.execTpiReadMem mt addr len s
  | .tpiCrc => Sys2Proof.Machine.execTpiCrc s
  | .tpiSetParam value => Sys2Proof.Machine.execTpiSetParam value s
  | .unknown scope cmd => Sys2Proof.Machine.execUnknown scope cmd s
  | .updiSynch => Sys2Proof.Machine.execUpdiSynch s
  | .updiLdcs r => Sys2Proof.Machine.execUpdiLdcs r s
  | .updiStcs r v => Sys2Proof.Machine.execUpdiStcs r v s
  | .updiKey k => Sys2Proof.Machine.execUpdiKey k s
  | .updiSib => Sys2Proof.Machine.execUpdiSib s
  | .updiStPtr w addr => Sys2Proof.Machine.execUpdiStPtr w addr s
  | .updiRepeat cnt => Sys2Proof.Machine.execUpdiRepeat cnt s
  | .updiLdInc8 cnt => Sys2Proof.Machine.execUpdiLdInc8 cnt s
  | .updiLdInc16 cnt => Sys2Proof.Machine.execUpdiLdInc16 cnt s
  | .updiStInc8 data => Sys2Proof.Machine.execUpdiStInc8 data s
  | .updiStInc16 data => Sys2Proof.Machine.execUpdiStInc16 data s
  | .tpiLdcs r => Sys2Proof.Machine.execTpiLdcs r s
  | .tpiStcs r v => Sys2Proof.Machine.execTpiStcs r v s
  | .tpiKey => Sys2Proof.Machine.execTpiKey s
  | .tpiSetPtrLo b => Sys2Proof.Machine.execTpiSetPtrLo b s
  | .tpiSetPtrHi b => Sys2Proof.Machine.execTpiSetPtrHi b s
  | .tpiLdInc => Sys2Proof.Machine.execTpiLdInc s
  | .tpiStInc b => Sys2Proof.Machine.execTpiStInc b s
  | .tpiSout io v => Sys2Proof.Machine.execTpiSout io v s
  | .tpiSin io => Sys2Proof.Machine.execTpiSin io s
  | .pdiLdcs r => Sys2Proof.Machine.execPdiLdcs r s
  | .pdiStcs r v => Sys2Proof.Machine.execPdiStcs r v s
  | .pdiKey => Sys2Proof.Machine.execPdiKey s
  | .pdiSts8 addr v => Sys2Proof.Machine.execPdiSts8 addr v s
  | .pdiLds8 addr => Sys2Proof.Machine.execPdiLds8 addr s
  | .pdiSetPtr addr => Sys2Proof.Machine.execPdiSetPtr addr s
  | .pdiRepeat cnt => Sys2Proof.Machine.execPdiRepeat cnt s
  | .pdiLdInc cnt => Sys2Proof.Machine.execPdiLdInc cnt s
  | .pdiStInc data => Sys2Proof.Machine.execPdiStInc data s
  | .wdRun op fb deadline => Sys2Proof.Machine.execWdRun op fb deadline s
  | .updiLineConfig => Sys2Proof.Machine.execUpdiLineConfig s
  | .updiAttention => Sys2Proof.Machine.execUpdiAttention s
  | .updiTx b => Sys2Proof.Machine.execUpdiTx b s
  | .updiRx => Sys2Proof.Machine.execUpdiRx s
  | .updiHandshake => Sys2Proof.Machine.execUpdiHandshake s
  | .updiConnectAttempt => Sys2Proof.Machine.execUpdiConnectAttempt s
  | .updiBindVariant => Sys2Proof.Machine.execUpdiBindVariant s
  | .updiCssBracket w addr data => Sys2Proof.Machine.execUpdiCssBracket w addr data s
  | .updiChipErase => Sys2Proof.Machine.execUpdiChipErase s
  | .updiUserrowCeremony addr data => Sys2Proof.Machine.execUpdiUserrowCeremony addr data s
  | .updiSignatureDummy len => Sys2Proof.Machine.execUpdiSignatureDummy len s
  | .updiFallback => Sys2Proof.Machine.execUpdiFallback s
  | .linkLoss => Sys2Proof.Machine.execLinkLoss s
  | .tpiConnect => Sys2Proof.Machine.execTpiConnect s
  | .tpiChunkLookup b0 b1 b2 => Sys2Proof.Machine.execTpiChunkLookup b0 b1 b2 s
  | .pdiBlock addr req => Sys2Proof.Machine.execPdiBlock addr req s
  | .pdiNvmSequence mt addr data => Sys2Proof.Machine.execPdiNvmSequence mt addr data s
  | .nvmCtl req => Sys2Proof.Machine.execNvmCtl req s
  | .nvmPage req => Sys2Proof.Machine.execNvmPage req s
  | .nvmWriteMethod m mt addr data => Sys2Proof.Machine.execNvmWriteMethod m mt addr data s
  | .nvmV0WriteMemory mt addr data => Sys2Proof.Machine.execNvmV0WriteMemory mt addr data s
  | .nvmV0WriteFuse addr b => Sys2Proof.Machine.execNvmV0WriteFuse addr b s
  | .nvmV1WriteMemory mt addr data => Sys2Proof.Machine.execNvmV1WriteMemory mt addr data s
  | .nvmV3WriteMemory mt addr data => Sys2Proof.Machine.execNvmV3WriteMemory mt addr data s
  | .nvmV4WriteMemory mt addr data => Sys2Proof.Machine.execNvmV4WriteMemory mt addr data s
  | .nvmOpaque v f => Sys2Proof.Machine.execNvmOpaque v f s
  | .nvmStub f => Sys2Proof.Machine.execNvmStub f s
  | .nvmReadMemory mt addr len => Sys2Proof.Machine.execNvmReadMemory mt addr len s
  | .nvmEraseMemory et addr => Sys2Proof.Machine.execNvmEraseMemory et addr s
  | .nvmProgInit => Sys2Proof.Machine.execNvmProgInit s
  | .rsaSample level => Sys2Proof.Machine.execRsaSample level s
  | .rsaPress => Sys2Proof.Machine.execRsaPress s
  | .rsaRelease => Sys2Proof.Machine.execRsaRelease s
  | .rsaAcquire e => Sys2Proof.Machine.execRsaAcquire e s
  | .rsaQuiesce => Sys2Proof.Machine.execRsaQuiesce s
  | .rsaReleaseUart => Sys2Proof.Machine.execRsaReleaseUart s
  | .sysVcp isOpen => Sys2Proof.Machine.execSysVcp isOpen s
  | .sysSw level => Sys2Proof.Machine.execSysSw level s
  | .sysVtg mv => Sys2Proof.Machine.execSysVtg mv s
  | .sysUsbBusReset => Sys2Proof.Machine.execSysUsbBusReset s
  | .sysUsbSuspendResume => Sys2Proof.Machine.execSysUsbSuspendResume s
  | .sysRestart => Sys2Proof.Machine.execSysRestart s
  | .sessionOpen a dd => Sys2Proof.Machine.execSessionOpen a dd s
  | .sessionClose a => Sys2Proof.Machine.execSessionClose a s

end Sys2Proof.Machine
end

