-- ==== Sys2Proof/Machine/Step.lean ====
section
/-! DEFINITION. One step of the main loop (R9, R328, R334). -/

namespace Sys2Proof.Machine

/-- One step: the main loop's next turn, run to its end (R12). -/
def step (s : State) : Host.Outcome State Fault Refusal :=
  match nextTurn s with
  | .run i t => exec i t
  | .undecoded e r t => answerUndecoded e r t
  | .idle t => .next t

/-- A word of the opcode table delivered as the host's next operation record, with nothing pending before it (log 2). -/
def State.withFetchWord (s : State) (nbits w : Nat) : State := s.withRecord (tableRecord nbits w)

end Sys2Proof.Machine
end

