-- ==== Sys2Proof/Safety.lean ====
section
/-! DEFINITION. The terms statements about TPB use: what an undisturbed exchange on the line is and what it leaves, when
an operation is not cut by the countdown, and the invariants of 10_state.md and 45_reset_arbiter.md. Nothing here is
used by the machine. -/

namespace Sys2Proof.Machine

/-! ## Time stamps

What an operation does is fixed by the rules; how long its steps took, and which step it was at, is not. A statement
gives the next state up to these three bookkeeping values. -/

/-- The countdown's value, the phase and the unused part of the time tape. -/
structure Time where
  cnt : Half
  ph : Nat
  delays : List Nat
  deriving DecidableEq, Repr

/-- A state with other values of time. -/
def State.stamp (t : Time) (s : State) : State :=
  { s with
    wdCnt := t.cnt
    ph := t.ph
    env := { s.env with delays := t.delays } }

/-- No run is active, interrupts are enabled, and all the time the tape still holds is below a deadline: an operation
started now completes before the expiry. -/
def State.ready (deadline : Nat) (s : State) : Prop :=
  s.wdArmed = false ∧ s.env.ie = true ∧ s.env.delays.sum < deadline

/-- A state between steps, with other values of the countdown and of the time left. -/
def State.late (cnt : Half) (ds : List Nat) (s : State) : State := s.stamp ⟨cnt, 0, ds⟩

/-- The end of a primitive run by itself: its result in the trace, `PH` 0, time passed (log 15). -/
def State.ended (r : Res) (ds : List Nat) (s : State) : State := (s.conclude r).late s.wdCnt ds

/-- The end of a host operation: the response over the request, `OPI` advanced, time passed (R21, R41). -/
def State.answered (r : Res) (cnt : Half) (ds : List Nat) (s : State) : State := (s.deliver r).late cnt ds

/-- A state in which a pass of `WD.RUN` starts (R141). -/
def State.started (deadline : Half) (s : State) : State := State.arm { s with wdDeadline := deadline }

/-- What a completed run leaves in the supervisor's registers: the deadline, and the countdown cancelled (R140,
R142). -/
def State.ran (deadline : Half) (s : State) : State := { s with wdDeadline := deadline, wdArmed := false }

/-! ## Undisturbed exchanges -/

/-- One move of an exchange in which every frame arrives without a flag and, for UPDI, every echo is right. -/
inductive Move where
  /-- TPB sends a byte -/
  | out (b : Byte)
  /-- the target sends a byte -/
  | into (b : Byte)
  /-- a line-level action -/
  | act (e : WireEvent)
  /-- clock periods of a synchronous engine -/
  | clocks (n : Nat)
  deriving DecidableEq, Repr

/-- An undisturbed frame of a byte on the line. -/
def cleanFrame (b : Byte) : LineEvent := .frame (LineFrame.clean b)

/-- What the line must do for a move: echo a UPDI byte, bring the target's byte. -/
def moveLine (e : Engine) : Move → List LineEvent
  | .out b => match e with
    | .updi => [cleanFrame b]
    | .tpi => []
    | .pdi => []
  | .into b => [cleanFrame b]
  | .act _ => []
  | .clocks _ => []

/-- What a move leaves in the wire history, in time order; `running` says whether `TCLK` runs already (R86, R172, R173,
R221, R251). -/
def moveEvents (e : Engine) (running : Bool) : Move → List WireEvent
  | .out b => match e with
    | .updi => [.tx b, .echo b RxFlags.clear]
    | .tpi => clockStart running ++ [.tx b]
    | .pdi => clockStart running ++ [.tx b]
  | .into b => match e with
    | .updi => [.rx b RxFlags.clear]
    | .tpi => clockStart running ++ [.rx b RxFlags.clear]
    | .pdi => clockStart running ++ [.rx b RxFlags.clear]
  | .act ev => [ev]
  | .clocks n => clockStart running ++ [.clocks n]
where
  /-- The start of `TCLK`, where it does not run yet. -/
  clockStart (running : Bool) : List WireEvent := if running then [] else [.clkStart]

/-- The bits that start `TCLK`: clock periods, and a synchronous engine's frames, either way (R220, R221, R250). -/
def moveStartsClock (e : Engine) : Move → Bool
  | .clocks _ => true
  | .out _ => e != .updi
  | .into _ => e != .updi
  | .act _ => false

/-- How TPB drives `TDAT` after a move: not at all after a frame of either side (R170, R220, R251); after an
attention, which TPI's and PDI's hold and UPDI's lets go at its end (R171, R222, R252); the clock periods and the rate
leave it. -/
def tdatAfter (e : Engine) (d : Option Drive) : Move → Option Drive
  | .out _ => none
  | .into _ => none
  | .act (.attnLow _) => some (engineDrive e)
  | .act (.attnHigh _) => match e with
    | .updi => none
    | .tpi => some (engineDrive .tpi)
    | .pdi => some (engineDrive .pdi)
  | .act _ => d
  | .clocks _ => d

/-- The line's behaviour over an exchange. -/
def lineOf (e : Engine) (ms : List Move) : List LineEvent := ms.flatMap (moveLine e)

/-- The history of an exchange in time order. -/
def eventsOf (e : Engine) : Bool → List Move → List WireEvent
  | _, [] => []
  | running, m :: ms => moveEvents e running m ++ eventsOf e (running || moveStartsClock e m) ms

/-- The state after an exchange that leaves `rest` on the line: the history extended, `RXF` clear once a frame came
in, `TCLK` running once clocked, `TDAT` driven or free as its last move leaves it; nothing else. -/
def State.moved (e : Engine) (ms : List Move) (rest : List LineEvent) (s : State) : State :=
  { s with
    hist := (eventsOf e s.tclk ms).reverse ++ s.hist
    rxf := if (lineOf e ms).isEmpty then s.rxf else RxFlags.clear
    tclk := s.tclk || ms.any (moveStartsClock e)
    tdat := ms.foldl (tdatAfter e) s.tdat
    env := { s.env with line := rest } }

/-- The engine whose bits a frame that comes in has: the UART's owner; without an engine's hold, the asynchronous one
(R173, R221, R251). -/
def State.lineEngine (s : State) : Engine :=
  if s.umode = .tpi then .tpi else if s.umode = .pdi then .pdi else .updi

/-- A history with the start of `TCLK` that a synchronous engine's next bit makes (R86, R220, R250). -/
def clocked (s : State) (h : List WireEvent) : List WireEvent :=
  if s.lineEngine ≠ .updi ∧ s.tclk = false then .clkStart :: h else h

/-- A history with what a quiesce of this state adds: the clock's stop where `TCLK` ran, and the release of `TDAT` where
`TCLK` ran or TPB drove it (R86, R309; log 27). -/
def quiesced (s : State) (h : List WireEvent) : List WireEvent :=
  let stopped := if s.tclk = true then .clkStop :: h else h
  if s.tclk = true ∨ s.tdat ≠ none then .tdatRelease :: stopped else stopped

/-- The line coming up is an exchange, then `rest`. -/
def State.hears (e : Engine) (ms : List Move) (rest : List LineEvent) (s : State) : Prop :=
  s.env.line = lineOf e ms ++ rest

/-! ## The exchanges of the rules -/

/-- Bytes out. -/
def outs (bs : List Byte) : List Move := bs.map Move.out

/-- Bytes in. -/
def ins (bs : List Byte) : List Move := bs.map Move.into

/-- A UPDI instruction: synchronisation, opcode, operands (R174). -/
def instrMoves (c : Params) (op : Byte) (args : List Byte) : List Move := outs (c.updi.synch :: op :: args)

/-- A system-register read that answers `v` (R175, R221, R251). -/
def ldcsMoves (c : Params) (e : Engine) (r : RegIx) (v : Byte) : List Move :=
  outs (wirePrefix c e ++ [opLdcs c e r]) ++ [.into v]

/-- A system-register write (R176, R221, R251). -/
def stcsMoves (c : Params) (e : Engine) (r : RegIx) (v : Byte) : List Move :=
  outs (wirePrefix c e ++ [opStcs c e r, v])

/-- The attention sequence (R171, R222, R252). -/
def attnMoves (c : Params) : Engine → List Move
  | .updi => [.act (.attnLow c.updi.attnLowUs), .act (.attnHigh c.updi.attnHighUs)]
  | .tpi => [.act (.attnHigh c.updi.attnLowUs)]
  | .pdi => [.act (.attnHigh c.updi.attnHighUs)]

/-- A poll: reads with unwanted answers, then one with a wanted answer (R7, R152). -/
def pollMoves (read : Byte → List Move) (unwanted : List Byte) (v : Byte) : List Move :=
  unwanted.flatMap read ++ read v

/-- The pointer-set, with the right acknowledgement where one is awaited (R188). -/
def setPtrMoves (c : Params) (w : PtrWidth) (a : Addr) (ack : Bool) : List Move :=
  instrMoves c (opStPtr c w) (ptrBytes w a) ++ (if ack then [.into c.updi.ack] else [])

/-- The control writes of collision-safe streaming (R193). -/
def cssMoves (c : Params) (on : Bool) : List Move :=
  stcsMoves c .updi c.updi.rCtrlA (if on then c.updi.cssOn else c.updi.cssOff)

/-- The block header (R188): pointer-set with its acknowledgement, the enable write after it or before it, the repeat
count `N - 1`, the streamed instruction. -/
def headerMoves (c : Params) (w : PtrWidth) (a : Addr) (n : Nat) (op : Byte) (css : Bool) : List Move :=
  let before := css && c.updi.cssPos == .beforePtr
  (if before then cssMoves c true else []) ++
  (setPtrMoves c w a (c.updi.ptrAck && !before) ++
  ((if css && !before then cssMoves c true else []) ++
  (instrMoves c c.updi.opRepeat [BitVec.ofNat 8 (n - 1)] ++ instrMoves c op [])))

/-- The bounds of a block primitive (R76, R188). -/
def blockOk (c : Params) (w : PtrWidth) (a : Addr) (n : Nat) : Prop :=
  1 ≤ n ∧ n ≤ c.blockMaxUnits ∧ ptrFits w a = true

/-- A length a transfer can move, at an address the wire can carry (R71, R76, R281). -/
def transferOk (c : Params) (w : PtrWidth) (a : Addr) (n : Nat) : Prop :=
  1 ≤ n ∧ blockable c n = true ∧ ptrFits w a = true

/-- `recv_bytes_block` bringing `d` (R189). -/
def recvBytesMoves (c : Params) (w : PtrWidth) (a : Addr) (d : List Byte) : List Move :=
  headerMoves c w a d.length c.updi.opLdInc1 false ++ ins d

/-- `recv_words_block` bringing `d` (R191). -/
def recvWordsMoves (c : Params) (w : PtrWidth) (a : Addr) (d : List Byte) : List Move :=
  headerMoves c w a (d.length / 2) c.updi.opLdInc2 false ++ ins d

/-- `send_bytes_block` (R190): the header with the enable write, the data, the disable write. -/
def sendBytesMoves (c : Params) (w : PtrWidth) (a : Addr) (d : List Byte) : List Move :=
  headerMoves c w a d.length c.updi.opStInc1 true ++ (outs d ++ cssMoves c false)

/-- `send_words_block` (R192). -/
def sendWordsMoves (c : Params) (w : PtrWidth) (a : Addr) (d : List Byte) : List Move :=
  headerMoves c w a (d.length / 2) c.updi.opStInc2 true ++ (outs d ++ cssMoves c false)

/-- `transfer` (R281). -/
def transferMoves (c : Params) (w : PtrWidth) (a : Addr) (d : List Byte) : List Move :=
  if d.length ≤ c.blockMaxUnits then sendBytesMoves c w a d else sendWordsMoves c w a d

/-- `read_memory` bringing `d` (R281). -/
def readMoves (c : Params) (w : PtrWidth) (a : Addr) (d : List Byte) : List Move :=
  if d.length ≤ c.blockMaxUnits then recvBytesMoves c w a d else recvWordsMoves c w a d

/-- The exchanges of one script step without a failure, with what the step makes the script's result (R116; log 49). -/
def stepRuns (c : Params) (e : Engine) (st : ScriptStep) (ms : List Move) (r : Option (List Byte)) : Prop :=
  match st with
  | .tx bs => ms = outs bs ∧ r = none
  | .rx n => ∃ d, d.length = n ∧ ms = ins d ∧ r = some d
  | .expect b => ms = [.into b] ∧ r = none
  | .ldcs g => ∃ v, ms = ldcsMoves c e g v ∧ r = some [v]
  | .stcs g v => ms = stcsMoves c e g v ∧ r = none
  | .poll g mask want => ∃ unwanted v, (∀ x ∈ unwanted, x &&& mask ≠ want) ∧ v &&& mask = want ∧
      ms = pollMoves (ldcsMoves c e g) unwanted v ∧ r = some [v]
  | .attn => ms = attnMoves c e ∧ r = none
  | .clocks n => ms = (if e = .updi then [] else [.clocks n]) ∧ r = none

/-- The exchanges of the steps of a script, `d` being its result before them. -/
def stepsRun (c : Params) (e : Engine) (d : List Byte) : Script → List Move → List Byte → Prop
  | [], ms, r => ms = [] ∧ r = d
  | st :: rest, ms, r => ∃ m1 m2 r1, stepRuns c e st m1 r1 ∧ stepsRun c e (r1.getD d) rest m2 r ∧ ms = m1 ++ m2

/-- The exchanges of a wire script without a failure, with its result (R116). -/
def scriptRuns (c : Params) (e : Engine) (sc : Script) (ms : List Move) (r : List Byte) : Prop :=
  stepsRun c e [] sc ms r

/-- `nvm_wait()` that finds no error (R270). -/
def waitRuns (c : Params) (r : VariantRec) (w : PtrWidth) (ms : List Move) : Prop :=
  blockOk c w r.nvmStatus 1 ∧ ∃ busy v, (∀ x ∈ busy, x &&& r.busyMask ≠ 0) ∧ v &&& r.busyMask = 0 ∧
    v &&& r.errMask = 0 ∧ ms = pollMoves (fun x => recvBytesMoves c w r.nvmStatus [x]) busy v

/-- A block write of a variant's script (R270, R276, R284). -/
def storeRuns (c : Params) (w : PtrWidth) (a : Addr) (d : List Byte) (ms : List Move) : Prop :=
  blockOk c w a d.length ∧ ms = sendBytesMoves c w a d

/-- The exchanges of one step of a variant's script without a failure (R270, R276, R284). -/
def nvmStepRuns (c : Params) (r : VariantRec) (w : PtrWidth) (a : Addr) (b : Byte) (st : NvmStep)
    (ms : List Move) : Prop :=
  match st with
  | .wait => waitRuns c r w ms
  | .cmd x => storeRuns c w r.nvmCtrlA [x] ms
  | .sendBytes p d => storeRuns c w (nvmPlace r a p) (nvmBytes a b d) ms
  | .sendWords p d => (nvmBytes a b d).length % 2 = 0 ∧ blockOk c w (nvmPlace r a p) ((nvmBytes a b d).length / 2) ∧
      ms = sendWordsMoves c w (nvmPlace r a p) (nvmBytes a b d)
  | .recvBytes p n => blockOk c w (nvmPlace r a p) n ∧ ∃ d, d.length = n ∧ ms = recvBytesMoves c w (nvmPlace r a p) d
  | .recvWords p n => blockOk c w (nvmPlace r a p) n ∧ ∃ d, d.length = 2 * n ∧
      ms = recvWordsMoves c w (nvmPlace r a p) d

/-- The exchanges of a variant's script without a failure (R284). -/
def nvmRuns (c : Params) (r : VariantRec) (w : PtrWidth) (a : Addr) (b : Byte) : NvmScript → List Move → Prop
  | [], ms => ms = []
  | st :: rest, ms => ∃ m1 m2, nvmStepRuns c r w a b st m1 ∧ nvmRuns c r w a b rest m2 ∧ ms = m1 ++ m2

/-- The exchanges of `bytewise` without a failure: one script a byte, ascending (R276, R285). -/
def bytewiseRuns (c : Params) (r : VariantRec) (w : PtrWidth) (one : NvmScript) (a : Addr) :
    List Byte → List Move → Prop
  | [], ms => ms = []
  | b :: rest, ms => ∃ m1 m2, nvmRuns c r w a b one m1 ∧ bytewiseRuns c r w one (a + 1) rest m2 ∧ ms = m1 ++ m2

/-- The exchanges of `burst2` without a failure: `pre_write`, at most two bytes, `commit`, ascending (R285). -/
def burstRuns (c : Params) (r : VariantRec) (w : PtrWidth) (pre commit : NvmScript) (a : Addr) :
    List Byte → List Move → Prop
  | [], ms => ms = []
  | [b], ms => ∃ m1 m2 m3, nvmRuns c r w a 0 pre m1 ∧ storeRuns c w a [b] m2 ∧ nvmRuns c r w a 0 commit m3 ∧
      ms = m1 ++ (m2 ++ m3)
  | b0 :: b1 :: rest, ms => ∃ m1 m2 m3 m4, nvmRuns c r w a 0 pre m1 ∧ storeRuns c w a [b0, b1] m2 ∧
      nvmRuns c r w a 0 commit m3 ∧ burstRuns c r w pre commit (a + 2) rest m4 ∧ ms = m1 ++ (m2 ++ (m3 ++ m4))

/-- The exchanges of `pre_write`, the transfer, and a closing script (R285). -/
def pagedRuns (c : Params) (r : VariantRec) (w : PtrWidth) (pre post : NvmScript) (a : Addr) (d : List Byte)
    (ms : List Move) : Prop :=
  ∃ m1 m2, nvmRuns c r w a 0 pre m1 ∧ nvmRuns c r w a 0 post m2 ∧ ms = m1 ++ (transferMoves c w a d ++ m2)

/-! ## The UPDI operations' exchanges -/

/-- The poll of the key status register for a bit (R186, R196, R197). -/
def keyPollRuns (c : Params) (mask : Byte) (ms : List Move) : Prop :=
  ∃ unwanted v, (∀ x ∈ unwanted, x &&& mask = 0) ∧ v &&& mask ≠ 0 ∧
    ms = pollMoves (ldcsMoves c .updi c.updi.rKeySt) unwanted v

/-- The frames of `connect_attempt`: attention, the handshake with the right acknowledgement, the SIB (R180). The rate
is configured between the attention and the handshake. -/
def attemptRuns (c : Params) (khz : Nat) (sib : List Byte) (ms : List Move) : Prop :=
  sib.length = Config.sibLen ∧ ∃ m, scriptRuns c .updi c.updi.initSeq m [c.updi.initAck] ∧
    ms = attnMoves c .updi ++ (.act (.rateSet khz) :: (m ++ (instrMoves c c.updi.opSib [] ++ ins sib)))

/-- The exchanges of steps 1 to 6 of `UPDI.ENTER_PROGMODE` for a variant with a record, on an unlocked target (R186). -/
def unlockRuns (c : Params) (v : Variant) (r : VariantRec) (ms : List Move) : Prop :=
  ∃ m2 m3 m5 m3r x, keyPollRuns c c.updi.keystProg m2 ∧ scriptRuns c .updi c.updi.applyKeySeq m3 m3r ∧
    x &&& c.updi.sysstLock = 0 ∧ nvmRuns c r (ptrWidth c v) 0 0 r.initScript m5 ∧
    ms = outs (keyBytes c .prog) ++ (m2 ++ (m3 ++ (ldcsMoves c .updi c.updi.rSysSt x ++ m5)))

/-- The exchanges of `chip_erase()` up to step 5 (R196). -/
def chipEraseRuns (c : Params) (ms : List Move) : Prop :=
  ∃ m2 m4 r, keyPollRuns c c.updi.keystErase m2 ∧ scriptRuns c .updi c.updi.eraseProceedSeq m4 r ∧
    ms = outs (keyBytes c .erase) ++ (m2 ++ m4)

/-- The exchanges of `userrow_ceremony` (R197). -/
def userrowRuns (c : Params) (w : PtrWidth) (a : Addr) (d : List Byte) (ms : List Move) : Prop :=
  ∃ m2 m3 m5 r3 r5, keyPollRuns c c.updi.keystUrow m2 ∧ scriptRuns c .updi c.updi.urowProceedSeq m3 r3 ∧
    scriptRuns c .updi c.updi.urowFinalSeq m5 r5 ∧
    ms = outs (keyBytes c .urow) ++ (m2 ++ (m3 ++ (sendBytesMoves c w a d ++ m5)))

/-- The wire part of `UPDI.SIGN_OFF` (R185). -/
def updiSignOffRuns (c : Params) (prog : Bool) (ms : List Move) : Prop :=
  ∃ m1 m2 r1 r2, (if prog then scriptRuns c .updi c.updi.leaveSeq m1 r1 else m1 = []) ∧
    scriptRuns c .updi c.updi.disableSeq m2 r2 ∧ ms = m1 ++ m2

/-- The wire can carry the addresses of the pieces, `unit` bytes apart, of a write of `n` bytes: the first's and the
last's (R71, R188, R285). -/
def reaches (w : PtrWidth) (a : Addr) (n unit : Nat) : Prop :=
  1 ≤ n ∧ ptrFits w a = true ∧ ptrFits w (addrAt a (unit * ((n - 1) / unit))) = true

/-- The write method a variant uses for a memory class, with its exchanges and the page tracker it leaves (R275, R278,
R279, R285). -/
def writeRuns (s : State) (v : Variant) (r : VariantRec) (k : MemKind) (a : Addr) (d : List Byte)
    (ms : List Move) (tracker : Option Addr) : Prop :=
  let c := s.cfg
  let w := ptrWidth c v
  let explicit := fun (page : Addr) =>
    transferOk c w a d.length ∧ onePage a d.length page = true ∧ tracker = some (pageAlign a page) ∧
      ∃ m1 m2, (if s.beforePage = some (pageAlign a page) then m1 = []
        else nvmRuns c r w (pageAlign a page) 0 r.pageErase m1) ∧
        pagedRuns c r w (r.preWrite.get k) (r.commit.get k) a d m2 ∧ ms = m1 ++ m2
  let atomic :=
    transferOk c w a d.length ∧ tracker = s.beforePage ∧
      pagedRuns c r w (r.preWrite.get k) (r.commitEraseWrite.get k) a d ms
  let bytewise := reaches w a d.length 1 ∧ tracker = s.beforePage ∧ bytewiseRuns c r w (r.writeOne.get k) a d ms
  let burst := reaches w a d.length 2 ∧ tracker = s.beforePage ∧
    burstRuns c r w (r.preWrite.get k) (r.commit.get k) a d ms
  match memClass k, v with
  | .sram, _ => transferOk c w a d.length ∧ tracker = s.beforePage ∧ ms = transferMoves c w a d
  | .flash, .v0 => s.dd.valid = true ∧ explicit s.dd.desc.page.flash
  | .fuseLike, .v0 => bytewise
  | .eeprom, .v0 => atomic
  | .userrow, .v0 => atomic
  | .flash, .v3 => atomic
  | .fuseLike, .v3 => atomic
  | .eeprom, .v3 => atomic
  | .userrow, .v3 => atomic
  | .flash, .v4 => explicit Config.v4FlashPage
  | .userrow, .v4 => explicit Config.v4FlashPage
  | .eeprom, .v4 => burst
  | .fuseLike, .v4 => burst
  | _, _ => False

/-- The exchanges of a variant's page erase (R282). -/
def eraseRuns (s : State) (v : Variant) (r : VariantRec) (a : Addr) (ms : List Move) : Prop :=
  match v with
  | .v0 => s.dd.valid = true ∧ ptrFits (ptrWidth s.cfg v) (pageAlign a s.dd.desc.page.flash) = true ∧
      nvmRuns s.cfg r (ptrWidth s.cfg v) (pageAlign a s.dd.desc.page.flash) 0 r.pageErase ms
  | .v4 => ptrFits (ptrWidth s.cfg v) (pageAlign a Config.v4FlashPage) = true ∧
      nvmRuns s.cfg r (ptrWidth s.cfg v) (pageAlign a Config.v4FlashPage) 0 r.pageErase ms
  | .v3 => ms = []
  | _ => False

/-! ## The synchronous engines' exchanges -/

/-- `tpi_set_ptr(a)` (R221). -/
def tpiPtrMoves (c : Params) (a : Addr) : List Move :=
  outs (tpiPtrBytes c a)

/-- Pointer-set and one load a byte, bringing `d` (R230). -/
def tpiReadMoves (c : Params) (a : Addr) (d : List Byte) : List Move :=
  tpiPtrMoves c a ++ d.flatMap fun v => [.out c.tpi.opLdInc, .into v]

/-- The busy poll of the TPI controller (R228). -/
def tpiWaitRuns (c : Params) (ms : List Move) : Prop :=
  ∃ busy v, (∀ x ∈ busy, x &&& c.tpi.nvmBsy ≠ 0) ∧ v &&& c.tpi.nvmBsy = 0 ∧
    ms = pollMoves (fun x => [.out (opSin c c.tpi.nvmCsr), .into x]) busy v

/-- `tpi_out(TPI_NVMCMD, x)` (R228). -/
def tpiCmdMoves (c : Params) (x : Byte) : List Move := outs [opSout c c.tpi.nvmCmd, x]

/-- One store instruction a byte (R228). -/
def tpiStoreMoves (c : Params) (d : List Byte) : List Move := d.flatMap fun v => outs [c.tpi.opStInc, v]

/-- The exchanges of `tpi_erase_at(a, x)` (R231). -/
def tpiEraseRuns (c : Params) (a : Addr) (x : Byte) (ms : List Move) : Prop :=
  ∃ m, tpiWaitRuns c m ∧
    ms = tpiCmdMoves c x ++ (tpiPtrMoves c (a ||| 1) ++ (tpiStoreMoves c [0xFF] ++ (m ++ tpiCmdMoves c c.tpi.cmdNone)))

/-- The exchanges of the chunks of a write: the chunk's bytes, then the busy poll (R228). -/
def tpiChunkRuns (c : Params) (k : Nat) : Nat → List Byte → List Move → Prop
  | 0, _, ms => ms = []
  | n + 1, d, ms => ∃ m1 m2, tpiWaitRuns c m1 ∧ tpiChunkRuns c k n (d.drop k) m2 ∧
      ms = tpiStoreMoves c (d.take k) ++ (m1 ++ m2)

/-- `pdi_sts8(a, v)` (R251). -/
def pdiStoreMoves (c : Params) (a : Addr) (v : Byte) : List Move := outs (c.pdi.opSts8 :: (pdiAddr c a ++ [v]))

/-- A PDI command byte (R258). -/
def pdiCmdMoves (c : Params) (x : Byte) : List Move := pdiStoreMoves c c.pdi.nvmCmd x

/-- Pointer-set and repeat count of a PDI block (R255). -/
def pdiHeadMoves (c : Params) (a : Addr) (n : Nat) : List Move :=
  outs (c.pdi.opPtr :: pdiAddr c a) ++ outs [c.pdi.opRepeat, BitVec.ofNat 8 (n - 1)]

/-- `pdi_recv_block` bringing `d` (R255). -/
def pdiRecvMoves (c : Params) (a : Addr) (d : List Byte) : List Move :=
  pdiHeadMoves c a d.length ++ (outs [c.pdi.opLdInc] ++ ins d)

/-- `pdi_send_block` (R255). -/
def pdiSendMoves (c : Params) (a : Addr) (d : List Byte) : List Move :=
  pdiHeadMoves c a d.length ++ outs (c.pdi.opStInc :: d)

/-- The poll of the PDI status register for the NVM-enabled bit (R253, R258). -/
def pdiEnabledRuns (c : Params) (ms : List Move) : Prop :=
  ∃ unwanted v, (∀ x ∈ unwanted, x &&& c.pdi.statusNvmen = 0) ∧ v &&& c.pdi.statusNvmen ≠ 0 ∧
    ms = pollMoves (ldcsMoves c .pdi c.pdi.rStatus) unwanted v

/-- `pdi_nvm_wait()` (R258). -/
def pdiWaitRuns (c : Params) (ms : List Move) : Prop :=
  ∃ m busy v, pdiEnabledRuns c m ∧ (∀ x ∈ busy, x &&& c.pdi.busy ≠ 0) ∧ v &&& c.pdi.busy = 0 ∧
    ms = m ++ pollMoves (fun x => outs (c.pdi.opLds8 :: pdiAddr c c.pdi.nvmStatus) ++ [.into x]) busy v

/-- The exchanges of the bytewise path of `pdi_nvm_write` (R258). -/
def pdiByteRuns (c : Params) (x : Byte) (a : Addr) : List Byte → List Move → Prop
  | [], ms => pdiWaitRuns c ms
  | b :: rest, ms => ∃ m1 m2, pdiWaitRuns c m1 ∧ pdiByteRuns c x (a + 1) rest m2 ∧
      ms = m1 ++ (pdiCmdMoves c x ++ (pdiStoreMoves c a b ++ m2))

/-- The chunks of a padded write (R228). -/
def tpiBodyRuns (c : Params) (k : Nat) (a : Addr) (d : List Byte) (ms : List Move) : Prop :=
  let buf := padBuf Config.fillByte k a.toNat d
  ∃ m, tpiChunkRuns c k (buf.length / k) buf m ∧
    ms = tpiCmdMoves c c.tpi.cmdWrite ++ (tpiPtrMoves c (BitVec.ofNat 32 (padStart k a.toNat)) ++
      (m ++ tpiCmdMoves c c.tpi.cmdNone))

/-- The exchanges of `TPI.WRITE_MEM`: a section erase first, for application flash that no chip erase has cleared
(R228, R232). -/
def tpiWriteRuns (s : State) (mt : Byte) (a : Addr) (d : List Byte) (ms : List Move) : Prop :=
  ∃ m1 m2, (if mt = s.cfg.tpi.xmtAppl ∧ s.sess.eraseDone = false
      then tpiEraseRuns s.cfg (BitVec.ofNat 32 (padStart s.tpiChunk.bytes a.toNat)) s.cfg.tpi.cmdSectionErase m1
      else m1 = []) ∧
    tpiBodyRuns s.cfg s.tpiChunk.bytes a d m2 ∧ ms = m1 ++ m2

/-- The poll of the TPI status register for the NVM-enabled bit (R223). -/
def tpiEnabledRuns (c : Params) (ms : List Move) : Prop :=
  ∃ unwanted v, (∀ x ∈ unwanted, x &&& c.tpi.statusNvmen = 0) ∧ v &&& c.tpi.statusNvmen ≠ 0 ∧
    ms = pollMoves (ldcsMoves c .tpi c.tpi.rStatus) unwanted v

/-- The exchanges of `TPI.ENTER_PROGMODE` after the connect, reading the signature `sig` (R223). -/
def tpiUnlockRuns (c : Params) (sig : List Byte) (ms : List Move) : Prop :=
  sig.length = 3 ∧ ∃ m, tpiEnabledRuns c m ∧ ms = outs (syncKeyBytes c) ++ (m ++ tpiReadMoves c c.tpi.sigAddr sig)

/-- The blocks of `pdi_send(a, len, d)` (R255); the count is of pieces. -/
def pdiSendPieces (c : Params) : Nat → Addr → List Byte → List Move
  | 0, _, _ => []
  | n + 1, a, d =>
    if d.isEmpty then []
    else
      let k := min d.length c.blockMaxUnits
      pdiSendMoves c a (d.take k) ++ pdiSendPieces c n (addrAt a k) (d.drop k)

/-- The blocks of `pdi_recv(a, len)` bringing `d` (R255). -/
def pdiRecvPieces (c : Params) : Nat → Addr → List Byte → List Move
  | 0, _, _ => []
  | n + 1, a, d =>
    if d.isEmpty then []
    else
      let k := min d.length c.blockMaxUnits
      pdiRecvMoves c a (d.take k) ++ pdiRecvPieces c n (addrAt a k) (d.drop k)

/-- The exchanges of the paged path of `pdi_nvm_write` (R258). -/
def pdiPagedRuns (c : Params) (k : MemKind) (cs : PdiPageCmds) (a : Addr) (d : List Byte) (ms : List Move) : Prop :=
  ∃ m1 m2 m3 m4, pdiWaitRuns c m1 ∧ pdiWaitRuns c m2 ∧ pdiWaitRuns c m3 ∧
    (if k = .userrow then ∃ m, pdiWaitRuns c m ∧ m4 = pdiCmdMoves c c.pdi.cEraseUserrow ++ (pdiStoreMoves c a 0 ++ m)
      else m4 = []) ∧
    ms = m1 ++ (pdiCmdMoves c cs.eraseBuf ++ (pdiStoreMoves c c.pdi.nvmCtrlA c.pdi.cmdex ++ (m2 ++
      (pdiCmdMoves c cs.loadBuf ++ (pdiSendPieces c d.length a d ++ (m4 ++
      (pdiCmdMoves c cs.writePage ++ (pdiStoreMoves c a 0 ++ m3))))))))

/-- The exchanges of `pdi_nvm_write` (R258). -/
def pdiNvmRuns (c : Params) (k : MemKind) (a : Addr) (d : List Byte) (ms : List Move) : Prop :=
  match pdiPageCmds c.pdi k with
  | some cs => pdiPagedRuns c k cs a d ms
  | none => match pdiByteCmd c.pdi k with
    | some x => pdiByteRuns c x a d ms
    | none => False

/-! ## Connects -/

/-- Steps 1 and 2 of every connect, with every change of `TRST`, and of `CLK` where no line configuration follows,
recorded (R86, R181, R222, R252, R307, R308; what of it stands only in R46 log 16). -/
def State.connectStart (e : Engine) (s : State) : State :=
  let t := s.write fun s => { s with sess := Sess.zero, ct := .stub }
  let u := t.write fun s => connectRate e { s with
    sib := { s.sib with valid := false }
    beforePage := none
    dd := { s.dd with valid := s.dd.valid && !s.cfg.ddClearOnSignOn }
    rxf := RxFlags.clear
    trstEng := connectTrst e s.trstEng
    tpiChunk := .two }
  (u.write (State.acquire e)).write fun s => { s with trstBtn := false }

/-! ## Invariants -/

/-- "PROG-mode bit must never be set without LINK bit also set" (R23). -/
def State.levelOk (s : State) : Prop := s.sess.prog = true → s.sess.link = true

/-- `CLK` is a legal rate (R33). -/
def State.rateOk (s : State) : Prop := Config.clkMinKhz ≤ s.clk ∧ s.clk ≤ Config.clkMaxKhz

/-- `TCLK` runs only while a synchronous engine holds the UART (R220, R250). -/
def State.clockOk (s : State) : Prop := s.tclk = true → s.umode = .tpi ∨ s.umode = .pdi

/-- Between operations: no run is active and no phase is entered (R41, R46), the edge flags read 0 (R302), `HV` is 0
(R44), `PROG` implies `LINK` (R23), the SIB is 32 bytes (R31), `CLK` is legal (R33), `TCLK` has an owner (R220). -/
def State.wellBehaved (s : State) : Prop :=
  s.wdArmed = false ∧ s.ph = 0 ∧ s.ui.swPress = false ∧ s.ui.swRelease = false ∧ s.sess.hv = false ∧
    s.levelOk ∧ s.sib.bytes.length = Config.sibLen ∧ clkParamsOk s.cfg = true ∧ s.rateOk ∧ s.clockOk

/-- `CT = STUB` whenever `LINK = 0` (R30), and between operations an engine holds the UART exactly while a session
holds the link (R311). -/
def State.sessionOk (s : State) : Prop :=
  (s.sess.link = false → s.ct = .stub) ∧ (s.sess.link = true ↔ s.umode.isEngine = true)

/-- Operations and events the host and the environment deliver; the others are steps of an operation (R100, R115). -/
def delivered : Instr → Bool
  | .sysSetParameter _ | .sysGetParameter _ | .unknown _ _ => true
  | .updiSignOn | .updiSignOff | .updiEnterProgmode | .updiLeaveProgmode => true
  | .updiEraseMemory _ _ | .updiReadMemory _ _ _ | .updiWriteMemory _ _ _ _ => true
  | .pdiSignOn | .pdiSignOff | .pdiEnterProgmode | .pdiLeaveProgmode => true
  | .pdiEraseMemory _ _ | .pdiReadMemory _ _ _ | .pdiWriteMemory _ _ _ _ => true
  | .tpiEnterProgmode | .tpiLeaveProgmode | .tpiErase _ _ | .tpiWriteMem _ _ _ _ | .tpiReadMem _ _ _ => true
  | .tpiCrc | .tpiSetParam _ => true
  | .sysVcp _ | .sysSw _ | .sysVtg _ | .sysUsbBusReset | .sysUsbSuspendResume | .sysRestart => true
  | .sessionOpen _ _ | .sessionClose _ => true
  | _ => false

/-- The host operations that are one run of `WD.RUN`: the operation run, the scope, the code and the payload of the
request (R102 to R104, R153). -/
def hostRun (t : TpiCodes) : Instr → Option (RunOp × HostScope × Byte × Payload)
  | .updiEnterProgmode => some (.updiEnterProgmode, .avr, 0x15, .none)
  | .updiLeaveProgmode => some (.updiLeaveProgmode, .avr, 0x16, .none)
  | .updiEraseMemory et a => some (.updiErase, .avr, 0x20, .erase et a)
  | .updiReadMemory mt a n => some (.updiRead, .avr, 0x21, .mem mt a n [])
  | .updiWriteMemory mt a n d => some (.updiWrite, .avr, 0x23, .mem mt a n d)
  | .pdiSignOn => some (.pdiSignOn, .avr, 0x10, .none)
  | .pdiEnterProgmode => some (.pdiEnterProgmode, .avr, 0x15, .none)
  | .pdiLeaveProgmode => some (.pdiLeaveProgmode, .avr, 0x16, .none)
  | .pdiEraseMemory et a => some (.pdiErase, .avr, 0x20, .erase et a)
  | .pdiReadMemory mt a n => some (.pdiRead, .avr, 0x21, .mem mt a n [])
  | .pdiWriteMemory mt a n d => some (.pdiWrite, .avr, 0x23, .mem mt a n d)
  | .tpiEnterProgmode => some (.tpiEnterProgmode, .tpi, t.enterProgmode, .none)
  | .tpiErase et a => some (.tpiErase, .tpi, t.erase, .erase et a)
  | .tpiWriteMem mt a n d => some (.tpiWrite, .tpi, t.writeMem, .mem mt a n d)
  | .tpiReadMem mt a n => some (.tpiRead, .tpi, t.readMem, .mem mt a n [])
  | _ => none

/-- Operations that R324's table requires `LINK` for, in every form. -/
def needsLink : Instr → Bool
  | .updiEnterProgmode | .updiLeaveProgmode | .pdiEnterProgmode | .pdiLeaveProgmode => true
  | .updiEraseMemory _ _ | .updiReadMemory _ _ _ | .updiWriteMemory _ _ _ _ => true
  | _ => false

/-- Operations that R324's table requires `PROG` for, in the forms that have no exception. -/
def needsProg (s : State) : Instr → Bool
  | .updiEraseMemory et _ => et != s.cfg.etChip && et == s.cfg.etPage
  | .updiReadMemory mt _ _ => memKind s.cfg mt != some .sib && memKind s.cfg mt != some .signature
  | .updiWriteMemory mt _ _ _ => memKind s.cfg mt != some .userrow
  | .pdiEraseMemory _ _ | .pdiReadMemory _ _ _ | .pdiWriteMemory _ _ _ _ => true
  | .tpiErase _ _ | .tpiReadMem _ _ _ | .tpiWriteMem _ _ _ _ => true
  | _ => false

/-- Reads and writes of no byte or of more than 512, and writes whose record does not hold `len` bytes (R324). -/
def badLength : Instr → Bool
  | .updiReadMemory _ _ n | .pdiReadMemory _ _ n | .tpiReadMem _ _ n => !lenOk n.toNat
  | .updiWriteMemory _ _ n d | .pdiWriteMemory _ _ n d | .tpiWriteMem _ _ n d => !lenOk n.toNat || d.length != n.toNat
  | _ => false

/-- The other requirements of R324's table that a state does not meet: the end of the address space (R84, R230), the
SIB read and long enough (R194), the lengths of the synthesized signature and of the USERROW ceremony (R197, R198),
the supply of a TPI write or erase (R229), one page and a valid descriptor for a variant's write or erase (R273, R275,
R282). -/
def lacks (s : State) : Instr → Bool
  | .updiReadMemory mt a n =>
      !inSpace32 a n.toNat ||
      (memKind s.cfg mt == some .sib && !(s.sib.valid && decide (a.toNat + n.toNat ≤ Config.sibLen))) ||
      (memKind s.cfg mt == some .signature && !s.sess.prog && decide (s.cfg.sigDummy.length < n.toNat))
  | .updiWriteMemory mt a n _ =>
      !inSpace32 a n.toNat ||
      (memKind s.cfg mt == some .userrow && !s.sess.prog && decide (s.cfg.blockMaxUnits < n.toNat)) ||
      (match memKind s.cfg mt with
       | none => false
       | some k =>
         (k != .userrow || s.sess.prog) &&
         (((memClass k == .flash && s.ct == .v0) && (!s.dd.valid || crosses k a n s.dd.desc.page.flash)) ||
          ((memClass k == .flash || memClass k == .userrow) && s.ct == .v4 && crosses k a n Config.v4FlashPage)))
  | .updiEraseMemory et _ => et != s.cfg.etChip && et == s.cfg.etPage && s.ct == .v0 && !s.dd.valid
  | .pdiReadMemory _ a n => !inSpace32 a n.toNat
  | .pdiWriteMemory _ a n _ => !inSpace32 a n.toNat
  | .tpiErase _ _ => !vtgOk s
  | .tpiReadMem _ a n => !inSpace16 a n.toNat
  | .tpiWriteMem _ a n _ => !vtgOk s || decide (2 ^ 16 < padEnd s.tpiChunk.bytes a.toNat n.toNat)
  | _ => false
where
  /-- The address has no translation, or the translated range spans two pages. -/
  crosses (k : MemKind) (a n page : Addr) : Bool :=
    match xlate s.cfg s.dd k a with
    | some a' => !onePage a' n.toNat page
    | none => true

end Sys2Proof.Machine
end

