-- ==== Sys2Proof/Certificates/Slice0/Obligations.lean ====
section
/-! DEFINITION. The statements for the provers. A statement about an exchange gives the line's coming behaviour as a
hypothesis on the state (`hears`) and the whole next state as its conclusion, so it is also the frame: what the next
state's expression does not change is unchanged. TPB has no byte memory: what a store does is what it puts on the wire,
in the history. `ds` is the unused part of the model's own time tape; under a run `WD_CNT` is left as the countdown
left it, which R142 calls meaningless. -/

section ObligationTexts

open Sys2Proof Sys2Proof.Machine

/-! ## The step, decoding, reset -/

/-- With nothing pending, a step takes the host's next record, and when it decodes to an instruction under `ARCH`, runs
exactly that instruction; a word of the opcode table is delivered as such a record (R111, R334; log 2). -/
def Obligations.StepRunsDecoded : Prop :=
  ∀ (s : State) (i : Instr),
    (∀ (r : List Byte) (rest : List (List Byte)), s.env.pend = Pending.empty → s.env.stream = r :: rest →
      decode s.cfg.scopes s.arch r = .ok i → step s = exec i (s.takeRecord r rest)) ∧
    (∀ nbits w : Nat, decode s.cfg.scopes s.arch (tableRecord nbits w) = .ok i →
      step (s.withFetchWord nbits w) =
        exec i ((s.withFetchWord nbits w).takeRecord (tableRecord nbits w) s.env.stream))

/-- A step first lets the glue's bits and `IE` take the values the environment drives, those that R27 and R43 give it;
then it takes one pending event, restart before bus reset before the VCP before the button, in R334's order; with none
and no record it does nothing more (R27, R43, R328, R334; that the glue's bits come first is the model's, log 35). -/
def Obligations.StepTakesEvents : Prop :=
  ∀ s : State,
    let t := match s.env.pend.glue with
      | none => s
      | some g => { s with
          ui := { s.ui with usbEnum := g.usbEnum, vcpBufsel := g.vcpBufsel, breakActive := g.breakActive }
          env := { s.env with ie := g.ie, pend := { s.env.pend with glue := none } } }
    let p := t.env.pend
    (p.suspendResume = true → step s = exec .sysUsbSuspendResume (t.setPend { p with suspendResume := false })) ∧
    (p.suspendResume = false → p.busReset = true →
      step s = exec .sysUsbBusReset (t.setPend { p with busReset := false })) ∧
    (∀ v, p.suspendResume = false → p.busReset = false → p.vcp = some v →
      step s = exec (.sysVcp v) (t.setPend { p with vcp := none })) ∧
    (∀ v, p.suspendResume = false → p.busReset = false → p.vcp = none → p.sw = some v →
      step s = exec (.sysSw v) (t.setPend { p with sw := none })) ∧
    (p = Pending.empty → s.env.stream = [] → step s = .next t)

/-- A record decodes back to the instruction it encodes, for every instruction and every operand the encoding admits,
under the `ARCH` that selects its engine, under any scope selectors and any TPI host codes that tell the scopes and the
commands apart (R100 to R105, R111, R119, R121, R221; the layout is the model's, log 1). -/
def Obligations.DecodeEncodeRoundTrip : Prop :=
  ∀ (sc : Scopes) (i : Instr), sc.ok = true → i.wf sc = true → decode sc i.archOf (encode sc i) = .ok i

/-- Words that carry the codes and opcodes of 30_encoding.md's tables decode to their rows: host codes of both scopes
with their byte orders, wire opcodes of the three engines, the pointer-set's low byte first, SIN's split register
number. The codes and byte orders are the tables'; the offsets of a record's bytes and the selectors 0xA0 to 0xA2 of
the wire rows are the model's layout (log 1). -/
def Obligations.WordsDecode : Prop :=
  decode Config.defaultScopes .updi [0x21, 0x12, 7, 0, 0xB0, 0x00, 0x80, 0x00, 0x00, 0x02, 0, 0, 0] =
    .ok (.updiReadMemory 0xB0 0x8000 2) ∧
  decode Config.defaultScopes .pdi [0x20, 0x12, 0, 0, 0x00, 4, 3, 2, 1] = .ok (.pdiEraseMemory 0x00 0x01020304) ∧
  decode Config.defaultScopes .unset [0x05, 0x14, 0, 0, 0x03, 0, 0, 0x3F, 0xC0, 0, 0, 0, 3] =
    .ok (.tpiReadMem 0x03 0x3FC0 3) ∧
  decode Config.defaultScopes .updi [0x8B, 0xA0, 0, 0] = .ok (.updiLdcs 0xB) ∧
  decode Config.defaultScopes .updi [0x6A, 0xA0, 0, 0, 0x56, 0x34, 0x12, 0] = .ok (.updiStPtr .three 0x123456) ∧
  decode Config.defaultScopes .unset [0x72, 0xA1, 0, 0] = .ok (.tpiSin 0x32) ∧
  decode Config.defaultScopes .pdi [0x4C, 0xA2, 0, 0, 0xCA, 0x01, 0x00, 0x01, 0x43] = .ok (.pdiSts8 0x010001CA 0x43)

/-- After a restart every register has the restart value of R46, the target is not held in reset, and TPB drives
neither `TDAT` nor `TCLK`; the environment and the parameters are not reset (R46, R361). For the button's last level
R46 has "the level of `SW` at the first sample": no level until then, which is the model's reading (log 11). -/
def Obligations.RestartValues : Prop :=
  ∀ s : State, ∃ t, exec .sysRestart s = .next t ∧
    t.sess = ⟨false, false, false, false, false⟩ ∧ t.ui = ⟨false, false, false, false, false, false⟩ ∧
    t.dd.valid = false ∧ t.ct = .stub ∧ t.sib.valid = false ∧ t.beforePage = none ∧ t.clk = s.cfg.clkCfgKhz ∧
    t.wdArmed = false ∧ t.wdCnt = 0 ∧ t.wdDeadline = 0 ∧ t.arch = .unset ∧ t.umode = .idle ∧
    t.trstBtn = false ∧ t.trstEng = false ∧ t.trst = false ∧ t.swPrev = none ∧ t.tpiChunk = .two ∧
    t.rxf = ⟨false, false, false⟩ ∧ t.opi = 0 ∧ t.ph = 0 ∧ t.tclk = false ∧ t.tdat = none ∧ t.hist = [] ∧ t.env = s.env ∧ t.cfg = s.cfg

/-! ## Invariants -/

/-- The invariants hold after reset (R46, R361); the default keys and erase types, which are general knowledge and the
model's at reset (log 6), are distinct where R107 and R120 say so. -/
def Obligations.ResetWellBehaved : Prop :=
  State.reset.wellBehaved ∧ State.reset.sessionOk ∧ keyParamsOk State.reset.cfg = true ∧
    eraseParamsOk State.reset.cfg = true

/-- Every step keeps the invariants between operations: no run active, no phase entered, no edge flag set, `HV` 0,
`PROG` only with `LINK`, a SIB of 32 bytes, a legal rate, `TCLK` running only under its owner (R23, R31, R33, R41,
R44, R46, R220, R302). -/
def Obligations.StepKeepsWellBehaved : Prop :=
  ∀ s t : State, s.wellBehaved → step s = .next t → t.wellBehaved

/-- Every operation and event that the host or the environment delivers keeps `CT = STUB` without a link and an
engine's hold of the UART exactly with a link (R30, R311). -/
def Obligations.DeliveredKeepSession : Prop :=
  ∀ (i : Instr) (s t : State), delivered i = true → s.wellBehaved → s.sessionOk → exec i s = .next t → t.sessionOk

/-- No instruction changes the implementation parameters, the button's last level (but for the samples, and a restart),
or, but for SET_PARAMETER, a bus reset, a restart and SESSION_OPEN, the architecture selector (R5, R36, R38). -/
def Obligations.OnlyTheirWriters : Prop :=
  ∀ (i : Instr) (s t : State), exec i s = .next t →
    t.cfg = s.cfg ∧
    ((∀ v, i ≠ .sysSw v) → (∀ v, i ≠ .rsaSample v) → i ≠ .sysRestart → i ≠ .sysUsbSuspendResume →
      t.swPrev = s.swPrev) ∧
    ((∀ p, i ≠ .sysSetParameter p) → i ≠ .sysUsbBusReset → i ≠ .sysRestart → i ≠ .sysUsbSuspendResume →
      (∀ a d, i ≠ .sessionOpen a d) → t.arch = s.arch)

/-! ## Parameter commands and commands without an engine -/

/-- SET_PARAMETER of the architecture selects the engine, and fails while a session holds the link; the descriptor's
upload stores it and makes it valid; any other parameter changes nothing in TPB. GET_PARAMETER leaves TPB as it is but
for the response, the dispatcher's own value, free in the model, and `OPI` (R41, R109; log 24; one architecture value
for both engines is UPDI's by log 59). TPI.SET_PARAM stores its bytes and succeeds (R225; log 25). -/
def Obligations.ParameterCommands : Prop :=
  ∀ s : State, s.wdArmed = false →
    (∀ v, s.sess.link = false → ∃ ds, exec (.sysSetParameter (.arch v)) s =
      .next (State.answered (Res.ok 1) s.wdCnt ds
        { s.withRequest .avr 0x01 (.setParam (.arch v)) with arch := decodeArch s.cfg v })) ∧
    (∀ v, s.sess.link = true → ∃ ds, exec (.sysSetParameter (.arch v)) s =
      .next ((s.withRequest .avr 0x01 (.setParam (.arch v))).answered (Res.fail .precond) s.wdCnt ds)) ∧
    (∀ d, ∃ ds, exec (.sysSetParameter (.deviceDesc d)) s =
      .next (State.answered (Res.ok 1) s.wdCnt ds
        { s.withRequest .avr 0x01 (.setParam (.deviceDesc d)) with dd := ⟨true, d⟩ })) ∧
    (∀ which value, ∃ ds, exec (.sysSetParameter (.other which value)) s =
      .next ((s.withRequest .avr 0x01 (.setParam (.other which value))).answered (Res.ok 1) s.wdCnt ds)) ∧
    (∀ which, ∃ t, exec (.sysGetParameter which) s = .next t ∧
      t.cb = ⟨s.cb.seq, .response (Config.getParameterResponse which s.opi)⟩ ∧ t.opi = s.opi + 1 ∧ t.ph = 0 ∧
      t = { s with cb := t.cb, res := t.res, opi := t.opi, ph := t.ph }) ∧
    (∀ value, ∃ ds, exec (.tpiSetParam value) s =
      .next (State.answered (Res.ok 1) s.wdCnt ds
        { s.withRequest .tpi s.cfg.scopes.tpiCodes.setParam (.tpiParam value) with tpiParams := value }))

/-- An unassigned command and TPI.CRC fail with E_UNSUPPORTED: nothing on the wire, no other register changed (R104,
R113, R225, R325). The response to every kind of result: FAILED without data for a failure, whatever its cause, and for
a result of count 0 without a cause (a stub's, an unhonored erase's by default), OK for a nonzero count without data,
DATA with the data read otherwise (R108, R320). -/
def Obligations.UnsupportedCommandsFail : Prop :=
  ∀ s : State,
    (∀ scope cmd, exec (.unknown scope cmd) s =
      .next ((s.withRequest scope cmd .none).answered (Res.fail .unsupported) s.wdCnt s.env.delays)) ∧
    exec .tpiCrc s =
      .next ((s.withRequest .tpi s.cfg.scopes.tpiCodes.crc .none).answered (Res.fail .unsupported) s.wdCnt s.env.delays) ∧
    (∀ c, respond s.cfg (Res.fail c) = ⟨s.cfg.rspFailed, 0, []⟩) ∧
    respond s.cfg (Res.ok 0) = ⟨s.cfg.rspFailed, 0, []⟩ ∧
    (∀ n, n ≠ 0 → respond s.cfg (Res.ok n) = ⟨s.cfg.rspOk, n, []⟩) ∧
    (∀ d, d ≠ [] → respond s.cfg (Res.read d) = ⟨s.cfg.rspData, d.length, d⟩)

/-! ## UPDI wire instructions and line primitives -/

/-- The sending UPDI rows put their bytes on the line, each echoed, and nothing else changes; a word stream of odd
length is refused as E_PRECOND before its first frame (R172, R174, R176, R177, R188, R190, R192, R74). The repeat's
count byte goes out as given: outside `1 <= N <= BLOCK_MAX_UNITS`, for which R76 and R188 give the row by itself no
outcome, that is the model's choice (log 54). That a stream row carries its data is the model's (log 28), as is that it
sends no data and more than `BLOCK_MAX_UNITS` units as given, which R76 bounds for a block (log 54). Every key is ten
frames (R120, R177). -/
def Obligations.UpdiSends : Prop :=
  ∀ (s : State) (rest : List LineEvent), s.wdArmed = false → s.umode = .updi →
    (s.hears .updi (outs [s.cfg.updi.synch]) rest → ∃ ds, exec .updiSynch s =
      .next ((s.moved .updi (outs [s.cfg.updi.synch]) rest).ended (Res.ok 1) ds)) ∧
    (∀ r v, s.hears .updi (stcsMoves s.cfg .updi r v) rest → ∃ ds, exec (.updiStcs r v) s =
      .next ((s.moved .updi (stcsMoves s.cfg .updi r v) rest).ended (Res.ok 1) ds)) ∧
    (∀ k, (keyBytes s.cfg k).length = 10) ∧
    (∀ k, s.hears .updi (outs (keyBytes s.cfg k)) rest → ∃ ds, exec (.updiKey k) s =
      .next ((s.moved .updi (outs (keyBytes s.cfg k)) rest).ended (Res.ok 1) ds)) ∧
    (∀ n, s.hears .updi (instrMoves s.cfg s.cfg.updi.opRepeat [n]) rest → ∃ ds, exec (.updiRepeat n) s =
      .next ((s.moved .updi (instrMoves s.cfg s.cfg.updi.opRepeat [n]) rest).ended (Res.ok 1) ds)) ∧
    (∀ d, s.hears .updi (instrMoves s.cfg s.cfg.updi.opStInc1 d) rest → ∃ ds, exec (.updiStInc8 d) s =
      .next ((s.moved .updi (instrMoves s.cfg s.cfg.updi.opStInc1 d) rest).ended (Res.ok d.length) ds)) ∧
    (∀ d, d.length % 2 = 0 → s.hears .updi (instrMoves s.cfg s.cfg.updi.opStInc2 d) rest →
      ∃ ds, exec (.updiStInc16 d) s =
        .next ((s.moved .updi (instrMoves s.cfg s.cfg.updi.opStInc2 d) rest).ended (Res.ok d.length) ds)) ∧
    (∀ d, d.length % 2 = 1 → exec (.updiStInc16 d) s = .next (s.ended (Res.fail .precond) s.env.delays))

/-- The receiving UPDI rows: LDCS and `rx` bring one byte, a byte stream `cnt + 1` bytes, a word stream `2 (cnt + 1)`;
`rx` needs no owner of the UART (R173, R175, R189, R191; log 12), and in a synchronous engine's hold it runs `TCLK`
(R221, R251). That a stream row brings its data is the model's (log 28), as is that it awaits more than
`BLOCK_MAX_UNITS` units where its byte says so (log 54). -/
def Obligations.UpdiReceives : Prop :=
  ∀ (s : State) (rest : List LineEvent), s.wdArmed = false →
    (∀ v, s.hears s.lineEngine [.into v] rest → ∃ ds, exec .updiRx s =
      .next ((s.moved s.lineEngine [.into v] rest).ended (Res.read [v]) ds)) ∧
    (s.umode = .updi →
      (∀ r v, s.hears .updi (ldcsMoves s.cfg .updi r v) rest → ∃ ds, exec (.updiLdcs r) s =
        .next ((s.moved .updi (ldcsMoves s.cfg .updi r v) rest).ended (Res.read [v]) ds)) ∧
      (∀ (n : Byte) (d : List Byte), d.length = n.toNat + 1 →
        s.hears .updi (instrMoves s.cfg s.cfg.updi.opLdInc1 [] ++ ins d) rest → ∃ ds, exec (.updiLdInc8 n) s =
          .next ((s.moved .updi (instrMoves s.cfg s.cfg.updi.opLdInc1 [] ++ ins d) rest).ended (Res.read d) ds)) ∧
      (∀ (n : Byte) (d : List Byte), d.length = 2 * (n.toNat + 1) →
        s.hears .updi (instrMoves s.cfg s.cfg.updi.opLdInc2 [] ++ ins d) rest → ∃ ds, exec (.updiLdInc16 n) s =
          .next ((s.moved .updi (instrMoves s.cfg s.cfg.updi.opLdInc2 [] ++ ins d) rest).ended (Res.read d) ds)))

/-- UPDI.SIB reads 32 bytes into the SIB and makes it valid (R178); `bind_variant` binds `CT` from a valid SIB, and is
E_PRECOND on one that was not read (R31, R183). A `SIB_NVMVER_OFFSET` past the SIB's end binds the stub, the model's
choice (log 58). -/
def Obligations.UpdiSibAndBinding : Prop :=
  ∀ s : State, s.wdArmed = false →
    (∀ d rest, s.umode = .updi → d.length = Config.sibLen →
      s.hears .updi (instrMoves s.cfg s.cfg.updi.opSib [] ++ ins d) rest → ∃ ds, exec .updiSib s =
        .next (State.ended (Res.ok 1) ds
          { s.moved .updi (instrMoves s.cfg s.cfg.updi.opSib [] ++ ins d) rest with sib := ⟨true, d⟩ })) ∧
    (s.sib.valid = true → ∃ ds, exec .updiBindVariant s =
      .next (State.ended (Res.ok 1) ds { s with ct := sibVariant s.cfg s.sib.bytes })) ∧
    (s.sib.valid = false → exec .updiBindVariant s = .next (s.ended (Res.fail .precond) s.env.delays))

/-- The pointer-set sends its address bytes low byte first and, where the parameter says so, awaits the acknowledgement;
another answer is E_STATUS; an address with bits above the wire's width is E_PRECOND with nothing sent (R71, R188). -/
def Obligations.UpdiPointerSet : Prop :=
  ∀ (s : State) (w : PtrWidth) (a : Addr) (rest : List LineEvent), s.wdArmed = false → s.umode = .updi →
    (ptrFits w a = true → s.hears .updi (setPtrMoves s.cfg w a s.cfg.updi.ptrAck) rest →
      ∃ ds, exec (.updiStPtr w a) s =
        .next ((s.moved .updi (setPtrMoves s.cfg w a s.cfg.updi.ptrAck) rest).ended (Res.ok 1) ds)) ∧
    (∀ v, ptrFits w a = true → s.cfg.updi.ptrAck = true → v ≠ s.cfg.updi.ack →
      s.hears .updi (setPtrMoves s.cfg w a false ++ [.into v]) rest → ∃ ds, exec (.updiStPtr w a) s =
        .next ((s.moved .updi (setPtrMoves s.cfg w a false ++ [.into v]) rest).ended (Res.fail .status) ds)) ∧
    (ptrFits w a = false → exec (.updiStPtr w a) s = .next (s.ended (Res.fail .precond) s.env.delays))

/-- `tx` of a byte: a right echo succeeds; an echo with a flag is E_FLAGS, whatever its value; an unflagged wrong echo
is E_ECHO; the byte and its echo are in the history either way. `rx` of a flagged frame is E_FLAGS. `RXF` gets the
frame's flags: parity bit against data bits, a stop bit 0, overrun; `TDAT` is let go, and `rx` in a synchronous
engine's hold runs `TCLK` (R40, R117, R170, R172, R173, R221). On a line that stays silent, with no countdown that
could expire, both are stuck (R333; the fault is the model's form of it, log 39). -/
def Obligations.FramesAreChecked : Prop :=
  ∀ (s : State) (rest : List LineEvent),
    (∀ f, s.wdArmed = false → s.env.line = .frame f :: rest →
      let flags : RxFlags := ⟨f.parity != parityOf f.data, !(f.stop1 && f.stop2), f.overrun⟩
      (∀ b, s.umode = .updi → ∃ ds, exec (.updiTx b) s = .next (State.ended
        (if flags ≠ RxFlags.clear then Res.fail (.flags flags)
          else if f.data ≠ b then Res.fail (.echo b f.data) else Res.ok 1) ds
        { s with
          hist := .echo f.data flags :: .tx b :: s.hist
          rxf := flags
          tdat := none
          env := { s.env with line := rest } })) ∧
      (∃ ds, exec .updiRx s = .next (State.ended
        (if flags = RxFlags.clear then Res.read [f.data] else Res.fail (.flags flags)) ds
        { s with
          hist := .rx f.data flags :: clocked s s.hist
          rxf := flags
          tclk := s.tclk || s.lineEngine != .updi
          tdat := none
          env := { s.env with line := rest } }))) ∧
    (s.wdArmed = false ∨ s.env.ie = false → s.env.line = [] ∨ s.env.line = .silence :: rest →
      (∀ b, s.umode = .updi → exec (.updiTx b) s = .fault .blocked) ∧ exec .updiRx s = .fault .blocked)

/-- `line_config` records the configured rate, the attention drives the line low, then high, and then lets it go;
neither looks at the target (R170, R171). -/
def Obligations.UpdiLineActions : Prop :=
  ∀ s : State, s.wdArmed = false →
    (∃ ds, exec .updiLineConfig s = .next ((s.record (.rateSet s.clk)).ended (Res.ok 1) ds)) ∧
    (∃ ds, exec .updiAttention s =
      .next (State.ended (Res.ok 1) ds { s with
        hist := .attnHigh s.cfg.updi.attnHighUs :: .attnLow s.cfg.updi.attnLowUs :: s.hist
        tdat := none }))

/-- The handshake runs its script and compares its result with the acknowledgement: equal succeeds, anything else is
E_STATUS. R179 compares the byte that the script's last step received; that the result is what the script last received
where its last step receives nothing, and none where no step receives, is the model's choice (log 49). One connect
attempt is attention, rate, handshake, SIB, in this order (R180). -/
def Obligations.UpdiHandshakeAndAttempt : Prop :=
  ∀ (s : State) (ms : List Move) (rest : List LineEvent), s.wdArmed = false → s.umode = .updi →
    s.hears .updi ms rest →
    (∀ r, scriptRuns s.cfg .updi s.cfg.updi.initSeq ms r →
      ∃ ds, exec .updiHandshake s = .next ((s.moved .updi ms rest).ended
        (if r = [s.cfg.updi.initAck] then Res.ok 1 else Res.fail .status) ds)) ∧
    (∀ sib, attemptRuns s.cfg s.clk sib ms →
      ∃ ds, exec .updiConnectAttempt s =
        .next (State.ended (Res.ok 1) ds { s.moved .updi ms rest with sib := ⟨true, sib⟩ }))

/-- A bracketed block write: header with the enable write, the data, the disable write, in bytes or in whole words
(R188, R190, R192, R193). A block out of bounds, of no unit, of more than `BLOCK_MAX_UNITS`, or at an address wider
than the wire's, is E_PRECOND with nothing sent (R76, R188, R71), and so is a word block of odd length (R74). That the
row `css_bracket` is the whole bracketed write of a block is the model's choice (log 28), as is the count byte of more
than 256 units, where `BLOCK_MAX_UNITS` allows them (log 57). -/
def Obligations.UpdiBracketedBlocks : Prop :=
  ∀ (s : State) (a : Addr) (d : List Byte) (rest : List LineEvent), s.wdArmed = false → s.umode = .updi →
    (blockOk s.cfg (boundWidth s) a d.length → s.hears .updi (sendBytesMoves s.cfg (boundWidth s) a d) rest →
      ∃ ds, exec (.updiCssBracket .byte a d) s =
        .next ((s.moved .updi (sendBytesMoves s.cfg (boundWidth s) a d) rest).ended (Res.ok d.length) ds)) ∧
    (d.length % 2 = 0 → blockOk s.cfg (boundWidth s) a (d.length / 2) →
      s.hears .updi (sendWordsMoves s.cfg (boundWidth s) a d) rest →
      ∃ ds, exec (.updiCssBracket .word a d) s =
        .next ((s.moved .updi (sendWordsMoves s.cfg (boundWidth s) a d) rest).ended (Res.ok d.length) ds)) ∧
    (¬ blockOk s.cfg (boundWidth s) a d.length → exec (.updiCssBracket .byte a d) s =
      .next (s.ended (Res.fail .precond) s.env.delays)) ∧
    (d.length % 2 = 1 ∨ ¬ blockOk s.cfg (boundWidth s) a (d.length / 2) → exec (.updiCssBracket .word a d) s =
      .next (s.ended (Res.fail .precond) s.env.delays))

/-- The fallback lowers the rate one entry, then resynchronises with the attention and the new rate, and answers 1; at
the floor it answers 0 and does nothing (R34, R201). -/
def Obligations.UpdiFallbackLowersRate : Prop :=
  ∀ s : State, s.wdArmed = false →
    (∀ c, clkLower s.cfg s.clk = some c → ∃ ds, exec .updiFallback s = .next (State.ended (Res.ok 1) ds
      { s with
        clk := c
        hist := .rateSet c :: .attnHigh s.cfg.updi.attnHighUs :: .attnLow s.cfg.updi.attnLowUs :: s.hist
        tdat := none })) ∧
    (clkLower s.cfg s.clk = none → exec .updiFallback s = .next (s.ended (Res.ok 0) s.env.delays))

/-- `clk_lower` answers the largest entry strictly below its argument, so a rate of at least 40 and below the
argument, and none if and only if the argument is 40; by default the table is 240, 200, 160, 120, 80, 40 (R34). -/
def Obligations.ClkLowerLaws : Prop :=
  (∀ (c : Params) (clk : Nat), clkParamsOk c = true → Config.clkMinKhz ≤ clk →
    (∀ k, clkLower c clk = some k → k ∈ c.clkTable ∧ 40 ≤ k ∧ k < clk ∧ ∀ t ∈ c.clkTable, t < clk → t ≤ k) ∧
    (clkLower c clk = none ↔ clk = 40)) ∧
  defaultParams.clkTable = [240, 200, 160, 120, 80, 40] ∧ clkParamsOk defaultParams = true

/-! ## UPDI ceremonies and operations -/

/-- The chip-erase ceremony: key, poll, `PROG` cleared, the proceed script, `ERASE_DONE` set; with programming mode
granted before and the parameter set, the unlock again, after which `PROG` is set (R196, R186). -/
def Obligations.UpdiChipErase : Prop :=
  ∀ (s : State) (ms : List Move) (rest : List LineEvent), s.wdArmed = false → s.umode = .updi → s.sess.link = true →
    chipEraseRuns s.cfg ms →
    ((s.sess.prog && s.cfg.eraseReentersProg) = false → s.hears .updi ms rest →
      ∃ ds, exec .updiChipErase s = .next (State.ended (Res.ok 1) ds
        { s.moved .updi ms rest with sess := { s.sess with prog := false, eraseDone := true } })) ∧
    (∀ r m2, (s.sess.prog && s.cfg.eraseReentersProg) = true → variantRec s.cfg s.ct = some r →
      unlockRuns s.cfg s.ct r m2 → s.hears .updi (ms ++ m2) rest →
      ∃ ds, exec .updiChipErase s = .next (State.ended (Res.ok 1) ds
        { s.moved .updi (ms ++ m2) rest with sess := { s.sess with prog := true, eraseDone := true } }))

/-- The USERROW ceremony on a linked target: key, poll, proceed script, one block, final script; the count is the
number of bytes. Without a link, or with more bytes than a block carries, it is E_PRECOND with nothing sent; a block
that the wire cannot carry for another reason, no byte or too wide an address, is E_PRECOND at its own step, after the
key, the poll and the proceed script (R188, R197; log 19). The synthesized signature: the first bytes of the parameter,
nothing on the wire; more bytes than there are is E_PRECOND (R198). The count byte of more than 256 units, where
`BLOCK_MAX_UNITS` allows them, is the model's choice (log 57). -/
def Obligations.UpdiUserrowAndSignature : Prop :=
  ∀ s : State,
    (∀ a d ms rest, s.wdArmed = false → s.umode = .updi → s.sess.link = true →
      blockOk s.cfg (boundWidth s) a d.length → userrowRuns s.cfg (boundWidth s) a d ms → s.hears .updi ms rest →
      ∃ ds, exec (.updiUserrowCeremony a d) s = .next ((s.moved .updi ms rest).ended (Res.ok d.length) ds)) ∧
    (∀ a d, s.sess.link = false ∨ s.cfg.blockMaxUnits < d.length →
      exec (.updiUserrowCeremony a d) s = .next (s.ended (Res.fail .precond) s.env.delays)) ∧
    (∀ a d m2 m3 r3 rest, s.wdArmed = false → s.umode = .updi → s.sess.link = true → d.length ≤ s.cfg.blockMaxUnits →
      d = [] ∨ ptrFits (boundWidth s) a = false → keyPollRuns s.cfg s.cfg.updi.keystUrow m2 →
      scriptRuns s.cfg .updi s.cfg.updi.urowProceedSeq m3 r3 →
      let ms := outs (keyBytes s.cfg .urow) ++ (m2 ++ m3)
      s.hears .updi ms rest → ∃ ds, exec (.updiUserrowCeremony a d) s =
        .next ((s.moved .updi ms rest).ended (Res.fail .precond) ds)) ∧
    (∀ n : Addr, n.toNat ≤ s.cfg.sigDummy.length → exec (.updiSignatureDummy n) s =
      .next (s.ended ⟨n.toNat, s.cfg.sigDummy.take n.toNat, none⟩ s.env.delays)) ∧
    (∀ n : Addr, s.cfg.sigDummy.length < n.toNat → exec (.updiSignatureDummy n) s =
      .next (s.ended (Res.fail .precond) s.env.delays))

/-- SIGN_ON whose first attempt succeeds within 16 ms: the connect column cleared, the UART and the reset line taken,
the SIB read, its variant bound, `LINK` set; the answer is the four identity bytes (R181, R183, R184, R307, R308). Which
registers the start clears beyond those rules, `RXF`, `TRST_ENG` and `TPI_CHUNK`, is the model's reading of R46's
connect column (log 16); what a `SIB_NVMVER_OFFSET` or `SIB_ID_OFFSET` past the SIB's end binds and answers is its
choice (log 58). That the connect keeps the bytes TPI.SET_PARAM stored, which no rule gives, is the model's choice (log
25). -/
def Obligations.UpdiSignOnConnects : Prop :=
  ∀ (s : State) (sib : List Byte) (ms : List Move) (rest : List LineEvent),
    s.ready Config.connectAttemptMs.toNat → s.arch = .updi → attemptRuns s.cfg s.cfg.clkCfgKhz sib ms →
    s.hears .updi ms rest →
    ∃ t cnt ds, t = (((s.withRequest .avr 0x10 .none).connectStart .updi).ran
        Config.connectAttemptMs).moved .updi ms rest ∧
      exec .updiSignOn s = .next (State.answered ⟨4, (sib.drop s.cfg.sibIdOffset).take 4, none⟩ cnt ds
        { t with sib := ⟨true, sib⟩, ct := sibVariant s.cfg sib, sess := { t.sess with link := true } })

/-- SIGN_ON on a silent target ends, whatever the time the steps take: count 0, `INIT_FAIL`, no link, `CT` the stub, no
valid SIB, the UART released and `TDAT` let go, the response FAILED (R181, R309, R310). -/
def Obligations.UpdiSignOnSilentTarget : Prop :=
  ∀ s : State, s.wdArmed = false → s.env.ie = true → s.arch = .updi → s.env.line = [] →
    ∃ t, exec .updiSignOn s = .next t ∧ t.sess = ⟨false, false, false, false, true⟩ ∧ t.ct = .stub ∧
      t.sib.valid = false ∧ t.beforePage = none ∧ t.trstBtn = false ∧ t.wdArmed = false ∧ t.res.count = 0 ∧
      t.umode = (if s.ui.vcpOpen then .vcp else .idle) ∧ t.tdat = none ∧ t.cb.body = .response ⟨s.cfg.rspFailed, 0, []⟩

/-- The three disconnects, SIGN_OFF of UPDI and of PDI and LEAVE_PROGMODE of TPI: without a link only the teardown; with
one, first the wire part under a run of 800 ms. The teardown releases the UART and the reset line either way (R185,
R233, R236, R260, R310), and clears the whole teardown column of R46 for all three engines, the model's reading of R46
and R363 where an engine's own rule lists less (log 17). That the teardown keeps the bytes TPI.SET_PARAM stored, which
no rule gives, is the model's choice (log 25). -/
def Obligations.Disconnects : Prop :=
  ∀ s : State, s.wdArmed = false →
    let u := s.withRequest .avr 0x11 .none
    let v := s.withRequest .tpi s.cfg.scopes.tpiCodes.leaveProgmode .none
    (s.sess.link = false →
      (s.arch = .updi → ∃ ds, exec .updiSignOff s =
        .next (u.teardown.answered (Res.ok 1) s.wdCnt ds)) ∧
      (s.arch = .pdi → ∃ ds, exec .pdiSignOff s =
        .next (u.teardown.answered (Res.ok 1) s.wdCnt ds)) ∧
      (∃ ds, exec .tpiLeaveProgmode s = .next (v.teardown.answered (Res.ok 1) s.wdCnt ds))) ∧
    (s.sess.link = true → s.ready Config.wdDefaultMs.toNat →
      (∀ ms rest, s.arch = .updi → s.umode = .updi → updiSignOffRuns s.cfg s.sess.prog ms → s.hears .updi ms rest →
        ∃ cnt ds, exec .updiSignOff s = .next (((u.ran Config.wdDefaultMs).moved .updi ms
          rest).teardown.answered (Res.ok 1) cnt ds)) ∧
      (s.arch = .pdi → s.sess.prog = false → ∃ cnt ds, exec .pdiSignOff s =
        .next ((u.ran Config.wdDefaultMs).teardown.answered (Res.ok 1) cnt ds)) ∧
      (∀ ms r rest, s.arch = .pdi → s.sess.prog = true → s.umode = .pdi →
        scriptRuns s.cfg .pdi s.cfg.pdi.leaveSeq ms r → s.hears .pdi ms rest → ∃ cnt ds, exec .pdiSignOff s =
          .next (((u.ran Config.wdDefaultMs).moved .pdi ms rest).teardown.answered (Res.ok 1) cnt ds)) ∧
      (s.umode = .tpi → ∃ cnt ds, exec .tpiLeaveProgmode s = .next (((v.ran Config.wdDefaultMs).moved .tpi
        (stcsMoves s.cfg .tpi s.cfg.tpi.rStatus 0) s.env.line).teardown.answered (Res.ok 1) cnt ds)))

/-- ENTER_PROGMODE of UPDI: already granted it does nothing and succeeds; on an unlocked target with a bound variant
it runs its six steps and sets `PROG`. A target whose lock fuse is set is E_STATUS after step 4; a variant without a
record, or one whose initialisation waits for the controller and finds its error bit, is E_STATUS after step 5, with
`INIT_FAIL` set; neither sets `PROG` (R186, R272, R283). -/
def Obligations.UpdiEnterProgmode : Prop :=
  ∀ s : State, s.ready Config.wdDefaultMs.toNat → s.arch = .updi → s.sess.link = true →
    (s.sess.prog = true → ∃ cnt ds, exec .updiEnterProgmode s =
      .next (((s.withRequest .avr 0x15 .none).ran Config.wdDefaultMs).answered (Res.ok 1) cnt ds)) ∧
    (∀ r ms rest, s.sess.prog = false → s.umode = .updi → variantRec s.cfg s.ct = some r →
      unlockRuns s.cfg s.ct r ms → s.hears .updi ms rest → ∃ cnt ds, exec .updiEnterProgmode s =
        .next (State.answered (Res.ok 1) cnt ds
          { ((s.withRequest .avr 0x15 .none).ran Config.wdDefaultMs).moved .updi ms rest with
            sess := { s.sess with prog := true } })) ∧
    (∀ m2 m3 r3 x rest, s.sess.prog = false → s.umode = .updi → s.cfg.retryOnFailure = false →
      keyPollRuns s.cfg s.cfg.updi.keystProg m2 → scriptRuns s.cfg .updi s.cfg.updi.applyKeySeq m3 r3 →
      let m4 := outs (keyBytes s.cfg .prog) ++ (m2 ++ (m3 ++ ldcsMoves s.cfg .updi s.cfg.updi.rSysSt x))
      let u := (s.withRequest .avr 0x15 .none).ran Config.wdDefaultMs
      (x &&& s.cfg.updi.sysstLock ≠ 0 → s.hears .updi m4 rest → ∃ cnt ds, exec .updiEnterProgmode s =
        .next ((u.moved .updi m4 rest).answered (Res.fail .status) cnt ds)) ∧
      (x &&& s.cfg.updi.sysstLock = 0 → variantRec s.cfg s.ct = none → s.hears .updi m4 rest →
        ∃ cnt ds, exec .updiEnterProgmode s = .next (State.answered (Res.fail .status) cnt ds
          { u.moved .updi m4 rest with sess := { s.sess with initFail := true } })) ∧
      (∀ r more busy v, x &&& s.cfg.updi.sysstLock = 0 → variantRec s.cfg s.ct = some r → r.initScript = .wait :: more →
        blockOk s.cfg (boundWidth s) r.nvmStatus 1 → (∀ y ∈ busy, y &&& r.busyMask ≠ 0) → v &&& r.busyMask = 0 →
        v &&& r.errMask ≠ 0 →
        let m5 := m4 ++ pollMoves (fun y => recvBytesMoves s.cfg (boundWidth s) r.nvmStatus [y]) busy v
        s.hears .updi m5 rest → ∃ cnt ds, exec .updiEnterProgmode s = .next (State.answered (Res.fail .status) cnt ds
          { u.moved .updi m5 rest with sess := { s.sess with initFail := true } })))

/-- LEAVE_PROGMODE of UPDI and of PDI: `PROG` is cleared and the engine's leave script sent; without programming mode
nothing is done and the operation succeeds. `PROG` is cleared also in a session of another engine, whose UART the script
cannot use (R187, R260; that such a script fails is the model's, log 12). -/
def Obligations.LeaveProgmode : Prop :=
  ∀ s : State, s.ready Config.wdDefaultMs.toNat → s.sess.link = true →
    (s.arch = .updi → s.sess.prog = false → ∃ cnt ds, exec .updiLeaveProgmode s =
      .next (((s.withRequest .avr 0x16 .none).ran Config.wdDefaultMs).answered (Res.ok 1) cnt ds)) ∧
    (∀ ms r rest, s.arch = .updi → s.sess.prog = true → s.umode = .updi →
      scriptRuns s.cfg .updi s.cfg.updi.leaveSeq ms r → s.hears .updi ms rest → ∃ cnt ds, exec .updiLeaveProgmode s =
        .next (State.answered (Res.ok 1) cnt ds
          { ((s.withRequest .avr 0x16 .none).ran Config.wdDefaultMs).moved .updi ms rest with
            sess := { s.sess with prog := false } })) ∧
    (s.arch = .pdi → s.sess.prog = false → ∃ cnt ds, exec .pdiLeaveProgmode s =
      .next (((s.withRequest .avr 0x16 .none).ran Config.wdDefaultMs).answered (Res.ok 1) cnt ds)) ∧
    (∀ ms r rest, s.arch = .pdi → s.sess.prog = true → s.umode = .pdi →
      scriptRuns s.cfg .pdi s.cfg.pdi.leaveSeq ms r → s.hears .pdi ms rest → ∃ cnt ds, exec .pdiLeaveProgmode s =
        .next (State.answered (Res.ok 1) cnt ds
          { ((s.withRequest .avr 0x16 .none).ran Config.wdDefaultMs).moved .pdi ms rest with
            sess := { s.sess with prog := false } })) ∧
    (s.sess.prog = true → s.cfg.retryOnFailure = false →
      (∀ r v more, s.arch = .updi → s.umode ≠ .updi → s.cfg.updi.leaveSeq = .stcs r v :: more →
        ∃ t, exec .updiLeaveProgmode s = .next t ∧ t.sess = { s.sess with prog := false } ∧ t.res.count = 0) ∧
      (∀ r v more, s.arch = .pdi → s.umode ≠ .pdi → s.cfg.pdi.leaveSeq = .stcs r v :: more →
        ∃ t, exec .pdiLeaveProgmode s = .next t ∧ t.sess = { s.sess with prog := false } ∧ t.res.count = 0))

/-- READ_MEMORY of UPDI: the stored SIB without a frame; the synthesized signature while not in programming mode; in
programming mode, through a variant with a record, the block read at the translated address (R194, R198, R281). The
count byte of more than 256 units, where `BLOCK_MAX_UNITS` allows them, is the model's choice (log 57). -/
def Obligations.UpdiReadMemory : Prop :=
  ∀ (s : State) (mt : Byte) (a n : Addr), s.ready Config.wdDefaultMs.toNat → s.arch = .updi → s.sess.link = true →
    lenOk n.toNat = true → inSpace32 a n.toNat = true →
    let t := (s.withRequest .avr 0x21 (.mem mt a n [])).ran Config.wdDefaultMs
    (memKind s.cfg mt = some .sib → s.sib.valid = true → a.toNat + n.toNat ≤ Config.sibLen →
      ∃ cnt ds, exec (.updiReadMemory mt a n) s =
        .next (t.answered ⟨n.toNat, (s.sib.bytes.drop a.toNat).take n.toNat, none⟩ cnt ds)) ∧
    (memKind s.cfg mt = some .signature → s.sess.prog = false → n.toNat ≤ s.cfg.sigDummy.length →
      ∃ cnt ds, exec (.updiReadMemory mt a n) s =
        .next (t.answered ⟨n.toNat, s.cfg.sigDummy.take n.toNat, none⟩ cnt ds)) ∧
    (∀ k a' r d rest, memKind s.cfg mt = some k → k ≠ .sib → s.sess.prog = true → s.umode = .updi →
      xlate s.cfg s.dd k a = some a' → inSpace32 a' n.toNat = true → variantRec s.cfg s.ct = some r →
      d.length = n.toNat → transferOk s.cfg (boundWidth s) a' n.toNat →
      s.hears .updi (readMoves s.cfg (boundWidth s) a' d) rest →
      ∃ cnt ds, exec (.updiReadMemory mt a n) s =
        .next ((t.moved .updi (readMoves s.cfg (boundWidth s) a' d) rest).answered (Res.read d) cnt ds))

/-- WRITE_MEMORY of UPDI: the USERROW ceremony while not in programming mode; in programming mode, the bound variant's
write of the type's class at the translated address, with the page tracker it leaves (R195, R197, R275, R278, R279).
The count byte of more than 256 units, where `BLOCK_MAX_UNITS` allows them, is the model's choice (log 57). -/
def Obligations.UpdiWriteMemory : Prop :=
  ∀ (s : State) (mt : Byte) (a n : Addr) (d : List Byte) (ms : List Move) (rest : List LineEvent),
    s.ready Config.wdDefaultMs.toNat → s.arch = .updi → s.sess.link = true → s.umode = .updi →
    lenOk n.toNat = true → inSpace32 a n.toNat = true → d.length = n.toNat → s.hears .updi ms rest →
    let t := (s.withRequest .avr 0x23 (.mem mt a n d)).ran Config.wdDefaultMs
    (memKind s.cfg mt = some .userrow → s.sess.prog = false → blockOk s.cfg (boundWidth s) a d.length →
      userrowRuns s.cfg (boundWidth s) a d ms → ∃ cnt ds, exec (.updiWriteMemory mt a n d) s =
        .next ((t.moved .updi ms rest).answered (Res.ok n.toNat) cnt ds)) ∧
    (∀ k a' r tracker, memKind s.cfg mt = some k → s.sess.prog = true → xlate s.cfg s.dd k a = some a' →
      inSpace32 a' n.toNat = true → variantRec s.cfg s.ct = some r → writeRuns s s.ct r k a' d ms tracker →
      ∃ cnt ds, exec (.updiWriteMemory mt a n d) s = .next (State.answered (Res.ok n.toNat) cnt ds
        { t.moved .updi ms rest with beforePage := tracker }))

/-- ERASE_MEMORY of UPDI: the chip erase of a linked target, which enters programming mode again where the target was
in it and the parameter says so; the page erase of the bound variant in programming mode; any other erase type answers
the parameter's count and does nothing (R186, R196, R199, R282; the count is the model's, log 43). -/
def Obligations.UpdiEraseMemory : Prop :=
  ∀ (s : State) (et : Byte) (a : Addr) (ms : List Move) (rest : List LineEvent), s.ready Config.wdDefaultMs.toNat →
    s.arch = .updi → s.sess.link = true → s.hears .updi ms rest →
    let t := (s.withRequest .avr 0x20 (.erase et a)).ran Config.wdDefaultMs
    (et = s.cfg.etChip → s.umode = .updi → (s.sess.prog && s.cfg.eraseReentersProg) = false →
      chipEraseRuns s.cfg ms → ∃ cnt ds, exec (.updiEraseMemory et a) s = .next (State.answered (Res.ok 1) cnt ds
        { t.moved .updi ms rest with sess := { s.sess with prog := false, eraseDone := true } })) ∧
    (∀ r m1 m2, et = s.cfg.etChip → s.umode = .updi → (s.sess.prog && s.cfg.eraseReentersProg) = true →
      variantRec s.cfg s.ct = some r → chipEraseRuns s.cfg m1 → unlockRuns s.cfg s.ct r m2 → ms = m1 ++ m2 →
      ∃ cnt ds, exec (.updiEraseMemory et a) s = .next (State.answered (Res.ok 1) cnt ds
        { t.moved .updi ms rest with sess := { s.sess with prog := true, eraseDone := true } })) ∧
    (∀ r a', et ≠ s.cfg.etChip → et = s.cfg.etPage → s.umode = .updi → s.sess.prog = true →
      xlate s.cfg s.dd .flashPage a = some a' → variantRec s.cfg s.ct = some r → eraseRuns s s.ct r a' ms →
      ∃ cnt ds, exec (.updiEraseMemory et a) s = .next ((t.moved .updi ms rest).answered (Res.ok 1) cnt ds)) ∧
    (et ≠ s.cfg.etChip → et ≠ s.cfg.etPage → s.cfg.retryOnFailure = false → ∃ cnt ds,
      exec (.updiEraseMemory et a) s = .next (t.answered ⟨s.cfg.eraseUnhonored, [], none⟩ cnt ds))

/-! ## NVM controller variants -/

/-- `nvm_cmd` stores the command byte; `nvm_wait` polls until not busy and then fails with E_STATUS on an error bit;
without a record both do nothing and answer 0. `page_check` answers whether the address's page differs from the
tracker's, and the page; `page_note` sets the tracker (R270, R272, R273; that the rows take the bound variant's record,
and the form of the answer, are the model's, log 28). -/
def Obligations.NvmHelpers : Prop :=
  ∀ s : State,
    (∀ r x ms rest, s.wdArmed = false → s.umode = .updi → variantRec s.cfg s.ct = some r →
      storeRuns s.cfg (boundWidth s) r.nvmCtrlA [x] ms → s.hears .updi ms rest → ∃ ds, exec (.nvmCtl (.cmd x)) s =
        .next ((s.moved .updi ms rest).ended (Res.ok 1) ds)) ∧
    (∀ r busy v rest, s.wdArmed = false → s.umode = .updi → variantRec s.cfg s.ct = some r →
      blockOk s.cfg (boundWidth s) r.nvmStatus 1 → (∀ x ∈ busy, x &&& r.busyMask ≠ 0) → v &&& r.busyMask = 0 →
      let ms := pollMoves (fun x => recvBytesMoves s.cfg (boundWidth s) r.nvmStatus [x]) busy v
      s.hears .updi ms rest → ∃ ds, exec (.nvmCtl .wait) s = .next ((s.moved .updi ms rest).ended
        (if v &&& r.errMask = 0 then Res.ok 1 else Res.fail .status) ds)) ∧
    (∀ q, variantRec s.cfg s.ct = none → exec (.nvmCtl q) s = .next (s.ended stubResult s.env.delays)) ∧
    (∀ a page, exec (.nvmPage (.check a page)) s = .next (s.ended
      ⟨if s.beforePage = some (a &&& ~~~(page - 1)) then 0 else 1, le32 (a &&& ~~~(page - 1)), none⟩ s.env.delays)) ∧
    (∀ a, s.wdArmed = false → ∃ ds, exec (.nvmPage (.note a)) s =
      .next (State.ended (Res.ok 1) ds { s with beforePage := some a }))

/-- The methods without the page tracker: plain, atomic, bytewise and two-byte bursts, each with the bound variant's
scripts of the memory type; the wire must carry the addresses of the pieces, the last burst's being that of its first
byte; the count is the number of bytes, and only the history, the line, `RXF` and `TDAT` change (R71, R188, R285). That
these rows, run by themselves, take the bound variant's record and address width is the model's (log 28), as is the
count byte of more than 256 units, where `BLOCK_MAX_UNITS` allows them (log 57), and that more than `XFER_MAX_BYTES`
bytes are written where the method can (log 62). -/
def Obligations.WriteMethods : Prop :=
  ∀ (s : State) (r : VariantRec) (mt : Byte) (k : MemKind) (a : Addr) (d : List Byte) (ms : List Move)
    (rest : List LineEvent), s.wdArmed = false → s.umode = .updi → variantRec s.cfg s.ct = some r →
    memKind s.cfg mt = some k → s.hears .updi ms rest →
    let w := boundWidth s
    let t := (s.moved .updi ms rest).ended (Res.ok d.length)
    (transferOk s.cfg w a d.length → ms = transferMoves s.cfg w a d →
      ∃ ds, exec (.nvmWriteMethod .plain mt a d) s = .next (t ds)) ∧
    (transferOk s.cfg w a d.length → pagedRuns s.cfg r w (r.preWrite.get k) (r.commitEraseWrite.get k) a d ms →
      ∃ ds, exec (.nvmWriteMethod .atomic mt a d) s = .next (t ds)) ∧
    (reaches w a d.length 1 → bytewiseRuns s.cfg r w (r.writeOne.get k) a d ms →
      ∃ ds, exec (.nvmWriteMethod .bytewise mt a d) s = .next (t ds)) ∧
    (reaches w a d.length 2 → burstRuns s.cfg r w (r.preWrite.get k) (r.commit.get k) a d ms →
      ∃ ds, exec (.nvmWriteMethod .burst2 mt a d) s = .next (t ds))

/-- The explicit method erases the page exactly when it differs from the tracker's, sets the tracker after the erase,
and then writes; a write that spans two pages is E_PRECOND with nothing sent (R273, R285, R74). That these rows, run by
themselves, take the bound variant's record and address width is the model's (log 28), as is the count byte of more
than 256 units, where `BLOCK_MAX_UNITS` allows them (log 57). -/
def Obligations.ExplicitMethod : Prop :=
  ∀ (s : State) (r : VariantRec) (mt : Byte) (k : MemKind) (a : Addr) (d : List Byte) (page : Addr),
    s.wdArmed = false → s.umode = .updi → variantRec s.cfg s.ct = some r →
    memKind s.cfg mt = some k →
    let w := boundWidth s
    let p := pageAlign a page
    (∀ m2 rest, onePage a d.length page = true → transferOk s.cfg w a d.length → s.beforePage = some p →
      pagedRuns s.cfg r w (r.preWrite.get k) (r.commit.get k) a d m2 → s.hears .updi m2 rest →
      ∃ ds, exec (.nvmWriteMethod (.explicit page) mt a d) s =
        .next ((s.moved .updi m2 rest).ended (Res.ok d.length) ds)) ∧
    (∀ m1 m2 rest, onePage a d.length page = true → transferOk s.cfg w a d.length → s.beforePage ≠ some p →
      nvmRuns s.cfg r w p 0 r.pageErase m1 → pagedRuns s.cfg r w (r.preWrite.get k) (r.commit.get k) a d m2 →
      s.hears .updi (m1 ++ m2) rest →
      ∃ ds, exec (.nvmWriteMethod (.explicit page) mt a d) s = .next (State.ended (Res.ok d.length) ds
        { s.moved .updi (m1 ++ m2) rest with beforePage := some p })) ∧
    (onePage a d.length page = false → exec (.nvmWriteMethod (.explicit page) mt a d) s =
      .next (s.ended (Res.fail .precond) s.env.delays))

/-- The write functions of V0, V3 and V4 use, for each class of memory type, the method their rules name, and leave the
tracker as that method does; a read-only or unknown type is E_UNSUPPORTED; V0's fuse write is one bytewise write (R275,
R276, R278, R279, R325). The count byte of more than 256 units, where `BLOCK_MAX_UNITS` allows them, is the model's
choice (log 57), as is that these rows, run by themselves, write more than `XFER_MAX_BYTES` bytes where their method can
(log 62). -/
def Obligations.VariantWrites : Prop :=
  ∀ (s : State) (mt : Byte) (k : MemKind) (a : Addr) (d : List Byte) (ms : List Move) (tracker : Option Addr)
    (rest : List LineEvent), s.wdArmed = false →
    (s.umode = .updi → memKind s.cfg mt = some k → s.hears .updi ms rest →
      let t := fun ds => State.ended (Res.ok d.length) ds { s.moved .updi ms rest with beforePage := tracker }
      (writeRuns s .v0 s.cfg.v0 k a d ms tracker → ∃ ds, exec (.nvmV0WriteMemory mt a d) s = .next (t ds)) ∧
      (writeRuns s .v3 s.cfg.v3 k a d ms tracker → ∃ ds, exec (.nvmV3WriteMemory mt a d) s = .next (t ds)) ∧
      (writeRuns s .v4 s.cfg.v4 k a d ms tracker → ∃ ds, exec (.nvmV4WriteMemory mt a d) s = .next (t ds))) ∧
    ((memKind s.cfg mt = none ∨ memKind s.cfg mt = some .signature ∨ memKind s.cfg mt = some .prodsig ∨
        memKind s.cfg mt = some .sib) →
      let t := s.ended (Res.fail .unsupported) s.env.delays
      exec (.nvmV0WriteMemory mt a d) s = .next t ∧ exec (.nvmV3WriteMemory mt a d) s = .next t ∧
        exec (.nvmV4WriteMemory mt a d) s = .next t) ∧
    (∀ b m r2, s.umode = .updi → ptrFits (ptrWidth s.cfg .v0) a = true →
      bytewiseRuns s.cfg s.cfg.v0 (ptrWidth s.cfg .v0) s.cfg.v0.writeOne.fuse a [b] m → s.hears .updi m r2 →
      ∃ ds, exec (.nvmV0WriteFuse a b) s = .next ((s.moved .updi m r2).ended (Res.ok 1) ds))

/-- The stub and V1 put nothing on the wire, write no state and answer 0 in all their functions (R272, R277). V2 and V5,
whose records R280 leaves open, are given none by the model and do the same (log 22); so do the functions of a bound
variant without a record. -/
def Obligations.StubsDoNothing : Prop :=
  ∀ s : State,
    (∀ f, exec (.nvmStub f) s = .next (s.ended stubResult s.env.delays)) ∧
    (∀ v f, exec (.nvmOpaque v f) s = .next (s.ended stubResult s.env.delays)) ∧
    (∀ mt a d, exec (.nvmV1WriteMemory mt a d) s = .next (s.ended stubResult s.env.delays)) ∧
    (variantRec s.cfg s.ct = none →
      (∀ mt a n, exec (.nvmReadMemory mt a n) s = .next (s.ended stubResult s.env.delays)) ∧
      (∀ et a, exec (.nvmEraseMemory et a) s = .next (s.ended stubResult s.env.delays)) ∧
      exec .nvmProgInit s = .next (s.ended stubResult s.env.delays))

/-- Reading, erasing and initialising through the bound variant: a block read, the page erase of the address's page (V3
has none and answers 1), the initialisation script (R281, R282, R283). The count byte of more than 256 units, where
`BLOCK_MAX_UNITS` allows them, is the model's choice (log 57). -/
def Obligations.VariantReadEraseInit : Prop :=
  ∀ (s : State) (r : VariantRec) (rest : List LineEvent), s.wdArmed = false → s.umode = .updi →
    variantRec s.cfg s.ct = some r →
    (∀ mt a (n : Addr) d, d.length = n.toNat → transferOk s.cfg (boundWidth s) a n.toNat →
      s.hears .updi (readMoves s.cfg (boundWidth s) a d) rest → ∃ ds, exec (.nvmReadMemory mt a n) s =
        .next ((s.moved .updi (readMoves s.cfg (boundWidth s) a d) rest).ended (Res.read d) ds)) ∧
    (∀ et a ms, eraseRuns s s.ct r a ms → s.hears .updi ms rest → ∃ ds, exec (.nvmEraseMemory et a) s =
      .next ((s.moved .updi ms rest).ended (Res.ok 1) ds)) ∧
    (∀ ms, nvmRuns s.cfg r (boundWidth s) 0 0 r.initScript ms → s.hears .updi ms rest → ∃ ds, exec .nvmProgInit s =
      .next ((s.moved .updi ms rest).ended (Res.ok 1) ds))

/-! ## TPI -/

/-- The TPI wire rows: no prefix, no echo; the sends change the history alone, the reads bring one byte; `TCLK` runs
from the first frame, where it did not run already, and `TDAT` is let go after each (R170, R220, R221, R223). The key is
ten frames (R120). -/
def Obligations.TpiWire : Prop :=
  ∀ (s : State) (rest : List LineEvent), s.wdArmed = false → s.umode = .tpi →
    let sent := fun bs ds => State.ended (Res.ok 1) ds (if bs = [] then s else { s with
      hist := (bs.map WireEvent.tx).reverse ++ clocked s s.hist
      tclk := true
      tdat := none })
    let got := fun b v ds => State.ended (Res.read [v]) ds
      { s with
        hist := .rx v RxFlags.clear :: .tx b :: clocked s s.hist
        rxf := RxFlags.clear
        tclk := true
        tdat := none
        env := { s.env with line := rest } }
    (∀ r v, ∃ ds, exec (.tpiStcs r v) s = .next (sent [opStcs s.cfg .tpi r, v] ds)) ∧
    (syncKeyBytes s.cfg).length = 10 ∧
    (∃ ds, exec .tpiKey s = .next (sent (syncKeyBytes s.cfg) ds)) ∧
    (∀ b, ∃ ds, exec (.tpiSetPtrLo b) s = .next (sent [s.cfg.tpi.opPtrLo, b] ds)) ∧
    (∀ b, ∃ ds, exec (.tpiSetPtrHi b) s = .next (sent [s.cfg.tpi.opPtrHi, b] ds)) ∧
    (∀ b, ∃ ds, exec (.tpiStInc b) s = .next (sent [s.cfg.tpi.opStInc, b] ds)) ∧
    (∀ io v, ∃ ds, exec (.tpiSout io v) s = .next (sent [opSout s.cfg io, v] ds)) ∧
    (∀ v, s.env.line = cleanFrame v :: rest →
      (∀ r, ∃ ds, exec (.tpiLdcs r) s = .next (got (opLdcs s.cfg .tpi r) v ds)) ∧
      (∃ ds, exec .tpiLdInc s = .next (got s.cfg.tpi.opLdInc v ds)) ∧
      (∀ io, ∃ ds, exec (.tpiSin io) s = .next (got (opSin s.cfg io) v ds)))

/-- The TPI connect: the connect column and the UART, the reset line held, the activation script, and the right
identification makes the link; a wrong one is E_STATUS, with `INIT_FAIL` set, the reset line let go and the UART
released. Where TPI holds the reset line already, steps 1 to 3 keep it held and `TRST` does not change (R46 `per
engine`). The chunk lookup takes the table's entry for the three signature bytes, 2 where there is none (R222, R224,
R236, R308, R310). That the start also clears `CT`, `SIB.valid`, `DD.valid`, `CLK` and `RXF`, which R222 does not list,
is the model's reading of R46's connect column (log 16); what a script's result is, that of R116 and log 49. That the
connect keeps the bytes TPI.SET_PARAM stored, which no rule gives, is the model's choice (log 25). -/
def Obligations.TpiConnectAndChunk : Prop :=
  ∀ s : State, s.wdArmed = false →
    (∀ ms r rest, scriptRuns s.cfg .tpi s.cfg.tpi.activateSeq ms r → s.hears .tpi ms rest →
      ∃ t ds, t = ((s.connectStart .tpi).write fun s => { s with trstEng := true }).moved .tpi ms rest ∧
        exec .tpiConnect s = .next (
          if r = [s.cfg.tpi.ident] then State.ended (Res.ok 1) ds { t with sess := { t.sess with link := true } }
          else (t.write State.connectFailed).ended (Res.fail .status) ds)) ∧
    (s.trstEng = true → ∃ evs,
      ((s.connectStart .tpi).write fun s => { s with trstEng := true }).hist = evs ++ s.hist ∧ ∀ v, .trst v ∉ evs) ∧
    (∀ b0 b1 b2, ∃ ds, exec (.tpiChunkLookup b0 b1 b2) s = .next (State.ended (Res.ok 1) ds
      { s with tpiChunk := match s.cfg.tpi.chunkTable.find? (fun e => e.1 == [b0, b1, b2]) with
        | some e => e.2
        | none => .two }))

/-- ENTER_PROGMODE of TPI: already granted it does nothing; linked, it sends the key, polls, sets `PROG` and looks the
chunk up from the signature; without a link it connects first (R222, R223, R224). With a link that another engine holds
it does not connect (R223), and its key fails before a frame is sent (R311), nothing changed; the cause of that failure
is the model's (log 12, log 50). What the connect clears beyond R222's list is the model's reading of R46's connect
column (log 16). What another `TPI_ADDR_BYTES` than two sends is the model's choice (log 55), as is that a
`TPI_SIG_ADDR` above 16 bits is sent as its two low bytes (log 61). That the connect keeps the bytes TPI.SET_PARAM
stored, which no rule gives, is the model's choice (log 25). -/
def Obligations.TpiEnterProgmode : Prop :=
  ∀ s : State, s.ready Config.wdDefaultMs.toNat →
    let u := (s.withRequest .tpi s.cfg.scopes.tpiCodes.enterProgmode .none).ran Config.wdDefaultMs
    (s.sess.prog = true → ∃ cnt ds, exec .tpiEnterProgmode s = .next (u.answered (Res.ok 1) cnt ds)) ∧
    (∀ sig ms rest, s.sess.prog = false → s.sess.link = true → s.umode = .tpi → tpiUnlockRuns s.cfg sig ms →
      s.hears .tpi ms rest → ∃ cnt ds, exec .tpiEnterProgmode s = .next (State.answered (Res.ok 1) cnt ds
        { u.moved .tpi ms rest with sess := { s.sess with prog := true }, tpiChunk := chunkOf s.cfg sig })) ∧
    (∀ m1 sig m2 rest, s.sess.prog = false → s.sess.link = false →
      scriptRuns s.cfg .tpi s.cfg.tpi.activateSeq m1 [s.cfg.tpi.ident] → tpiUnlockRuns s.cfg sig m2 →
      s.hears .tpi (m1 ++ m2) rest → ∃ cnt ds, exec .tpiEnterProgmode s = .next (State.answered (Res.ok 1) cnt ds
        { ((u.connectStart .tpi).write fun s => { s with trstEng := true }).moved .tpi (m1 ++ m2) rest with
          sess := ⟨true, true, false, false, false⟩, tpiChunk := chunkOf s.cfg sig })) ∧
    (s.sess.prog = false → s.sess.link = true → s.umode ≠ .tpi → s.cfg.retryOnFailure = false →
      ∃ cnt ds, exec .tpiEnterProgmode s = .next (u.answered (Res.fail .status) cnt ds))

/-- TPI.ERASE in programming mode with the supply high enough: the chip erase, which sets `ERASE_DONE`, and the
configuration erase, each triggered at the high byte of a word; another type answers the parameter's count (R229,
R231). Too low a supply is E_PRECOND (R229). What another `TPI_ADDR_BYTES` than two sends is the model's choice (log
55). -/
def Obligations.TpiErase : Prop :=
  ∀ (s : State) (et : Byte) (a : Addr) (ms : List Move) (rest : List LineEvent), s.ready Config.wdDefaultMs.toNat →
    s.sess.prog = true → s.umode = .tpi → s.hears .tpi ms rest →
    let u := (s.withRequest .tpi s.cfg.scopes.tpiCodes.erase (.erase et a)).ran Config.wdDefaultMs
    (s.cfg.tpi.vminMv ≤ s.env.vtg → a.toNat < 2 ^ 16 →
      (et = s.cfg.tpi.xetChip → tpiEraseRuns s.cfg a s.cfg.tpi.cmdChipErase ms →
        ∃ cnt ds, exec (.tpiErase et a) s = .next (State.answered (Res.ok 1) cnt ds
          { u.moved .tpi ms rest with sess := { s.sess with eraseDone := true } })) ∧
      (et ≠ s.cfg.tpi.xetChip → et = s.cfg.tpi.xetConfig → tpiEraseRuns s.cfg a s.cfg.tpi.cmdSectionErase ms →
        ∃ cnt ds, exec (.tpiErase et a) s = .next ((u.moved .tpi ms rest).answered (Res.ok 1) cnt ds))) ∧
    (s.cfg.tpi.vminMv ≤ s.env.vtg → et ≠ s.cfg.tpi.xetChip → et ≠ s.cfg.tpi.xetConfig →
      s.cfg.retryOnFailure = false → ∃ cnt ds, exec (.tpiErase et a) s =
        .next (u.answered ⟨s.cfg.eraseUnhonored, [], none⟩ cnt ds)) ∧
    (s.env.vtg < s.cfg.tpi.vminMv → s.cfg.retryOnFailure = false → ∃ cnt ds, exec (.tpiErase et a) s =
      .next (u.answered (Res.fail .precond) cnt ds))

/-- TPI.WRITE_MEM pads the address down and the buffer out to whole chunks with the fill byte, erases first for
application flash that no chip erase cleared, stores each chunk and polls; TPI.READ_MEM sets the pointer and loads byte
by byte. The counts are those asked for, not the padded ones (R227, R228, R230, R232). What another `TPI_ADDR_BYTES`
than two sends is the model's choice (log 55). -/
def Obligations.TpiMemory : Prop :=
  ∀ (s : State) (mt : Byte) (a n : Addr) (d : List Byte) (rest : List LineEvent), s.ready Config.wdDefaultMs.toNat →
    s.sess.prog = true → s.umode = .tpi → lenOk n.toNat = true → d.length = n.toNat →
    let u := fun cmd data => (s.withRequest .tpi cmd (.mem mt a n data)).ran Config.wdDefaultMs
    (∀ ms, s.cfg.tpi.vminMv ≤ s.env.vtg → padEnd s.tpiChunk.bytes a.toNat n.toNat ≤ 2 ^ 16 →
      tpiWriteRuns s mt a d ms → s.hears .tpi ms rest → ∃ cnt ds, exec (.tpiWriteMem mt a n d) s =
        .next (((u s.cfg.scopes.tpiCodes.writeMem d).moved .tpi ms rest).answered (Res.ok n.toNat) cnt ds)) ∧
    (inSpace16 a n.toNat = true → s.hears .tpi (tpiReadMoves s.cfg a d) rest →
      ∃ cnt ds, exec (.tpiReadMem mt a n) s =
        .next (((u s.cfg.scopes.tpiCodes.readMem []).moved .tpi (tpiReadMoves s.cfg a d) rest).answered (Res.read d) cnt ds))

/-- The padding arithmetic: the padded range starts at the chunk boundary at or below the address, ends at the one at or
above the end, is a whole number of chunks, and holds the data in its place with the fill byte around it (R227). -/
def Obligations.TpiPadding : Prop :=
  ∀ (fill : Byte) (k : Chunk) (a : Nat) (d : List Byte), 1 ≤ d.length →
    let c := k.bytes
    padStart c a % c = 0 ∧ padStart c a ≤ a ∧ a < padStart c a + c ∧
    padEnd c a d.length % c = 0 ∧ a + d.length ≤ padEnd c a d.length ∧ padEnd c a d.length < a + d.length + c ∧
    padStart c a + (padBuf fill c a d).length = padEnd c a d.length ∧
    ((padBuf fill c a d).drop (a - padStart c a)).take d.length = d ∧
    ∀ i, i < (padBuf fill c a d).length → (i < a - padStart c a ∨ a - padStart c a + d.length ≤ i) →
      (padBuf fill c a d)[i]? = some fill

/-! ## PDI -/

/-- The PDI wire rows: no prefix, no echo; addresses low byte first, `PDI_ADDR_BYTES` of them, four by default, data
after them; a count byte as given (the model's choice outside the range of R251, log 54, as is what another
`PDI_ADDR_BYTES` than four sends, log 55); the reads bring one byte, the stream read `cnt + 1`; that the stream rows
bring and carry their data, `cnt` a byte the row is given, is the model's (log 28), as is that R76's bounds of a block
do not bind them and that one without data sends its instruction alone (log 54); `TCLK` runs from the first frame, where
it did not run already, and `TDAT` is let go after each (R250, R251, R253, R255). -/
def Obligations.PdiWire : Prop :=
  ∀ (s : State) (rest : List LineEvent), s.wdArmed = false → s.umode = .pdi →
    let sent := fun bs r ds => State.ended r ds (if bs = [] then s else { s with
      hist := (bs.map WireEvent.tx).reverse ++ clocked s s.hist
      tclk := true
      tdat := none })
    (∀ r v, ∃ ds, exec (.pdiStcs r v) s = .next (sent [opStcs s.cfg .pdi r, v] (Res.ok 1) ds)) ∧
    (∃ ds, exec .pdiKey s = .next (sent (syncKeyBytes s.cfg) (Res.ok 1) ds)) ∧
    (∀ a v, ∃ ds, exec (.pdiSts8 a v) s = .next (sent (s.cfg.pdi.opSts8 :: (pdiAddr s.cfg a ++ [v])) (Res.ok 1) ds)) ∧
    (∀ a, ∃ ds, exec (.pdiSetPtr a) s = .next (sent (s.cfg.pdi.opPtr :: pdiAddr s.cfg a) (Res.ok 1) ds)) ∧
    (∀ n, ∃ ds, exec (.pdiRepeat n) s = .next (sent [s.cfg.pdi.opRepeat, n] (Res.ok 1) ds)) ∧
    (∀ d, ∃ ds, exec (.pdiStInc d) s = .next (sent (s.cfg.pdi.opStInc :: d) (Res.ok d.length) ds)) ∧
    (∀ r v, s.hears .pdi (ldcsMoves s.cfg .pdi r v) rest → ∃ ds, exec (.pdiLdcs r) s =
      .next ((s.moved .pdi (ldcsMoves s.cfg .pdi r v) rest).ended (Res.read [v]) ds)) ∧
    (∀ a v, s.hears .pdi (outs (s.cfg.pdi.opLds8 :: pdiAddr s.cfg a) ++ [.into v]) rest → ∃ ds, exec (.pdiLds8 a) s =
      .next ((s.moved .pdi (outs (s.cfg.pdi.opLds8 :: pdiAddr s.cfg a) ++ [.into v]) rest).ended (Res.read [v]) ds)) ∧
    (∀ (n : Byte) (d : List Byte), d.length = n.toNat + 1 →
      s.hears .pdi (outs [s.cfg.pdi.opLdInc] ++ ins d) rest → ∃ ds, exec (.pdiLdInc n) s =
        .next ((s.moved .pdi (outs [s.cfg.pdi.opLdInc] ++ ins d) rest).ended (Res.read d) ds))

/-- The PDI blocks: pointer, repeat count `N - 1`, stream; a count outside 1 to `BLOCK_MAX_UNITS` is E_PRECOND with
nothing sent (R255, R76). An address and a length past 2^32 are not looked at, which is the model's choice for the row
by itself (log 56), as is what another `PDI_ADDR_BYTES` than four sends (log 55) and the count byte of more than 256
units, where `BLOCK_MAX_UNITS` allows them (log 57). -/
def Obligations.PdiBlocks : Prop :=
  ∀ (s : State) (a : Addr) (rest : List LineEvent), s.wdArmed = false → s.umode = .pdi →
    (∀ (n : Byte) (d : List Byte), d.length = n.toNat + 1 → d.length ≤ s.cfg.blockMaxUnits →
      s.hears .pdi (pdiRecvMoves s.cfg a d) rest → ∃ ds, exec (.pdiBlock a (.recv n)) s =
        .next ((s.moved .pdi (pdiRecvMoves s.cfg a d) rest).ended (Res.read d) ds)) ∧
    (∀ d, 1 ≤ d.length → d.length ≤ s.cfg.blockMaxUnits → s.env.line = rest →
      ∃ ds, exec (.pdiBlock a (.send d)) s =
        .next ((s.moved .pdi (pdiSendMoves s.cfg a d) rest).ended (Res.ok d.length) ds)) ∧
    (∀ d, d = [] ∨ s.cfg.blockMaxUnits < d.length → exec (.pdiBlock a (.send d)) s =
      .next (s.ended (Res.fail .precond) s.env.delays)) ∧
    (∀ n : Byte, s.cfg.blockMaxUnits < n.toNat + 1 → exec (.pdiBlock a (.recv n)) s =
      .next (s.ended (Res.fail .precond) s.env.delays))

/-- The fixed NVM sequencing of PDI: paged for the flash and EEPROM classes and USERROW, byte by byte for fuses and
locks; the read-only types and an unknown one are E_UNSUPPORTED with nothing sent (R258, R325). That SRAM, which R258
gives no sequence, is E_UNSUPPORTED too, and USERROW's commands, are the model's (log 26), and so is that the row by
itself goes on at address 0 past 2^32 (log 56) and what another `PDI_ADDR_BYTES` than four sends (log 55). That the row
by itself does not look at R76's range of a length is the model's choice (log 62). The count byte of more than 256
units, where `BLOCK_MAX_UNITS` allows them, is the model's choice (log 57). -/
def Obligations.PdiNvmSequence : Prop :=
  ∀ (s : State) (mt : Byte) (a : Addr) (d : List Byte) (rest : List LineEvent), s.wdArmed = false →
    (∀ k ms, s.umode = .pdi → 1 ≤ s.cfg.blockMaxUnits → memKind s.cfg mt = some k → pdiNvmRuns s.cfg k a d ms →
      s.hears .pdi ms rest → ∃ ds, exec (.pdiNvmSequence mt a d) s =
        .next ((s.moved .pdi ms rest).ended (Res.ok d.length) ds)) ∧
    ((memKind s.cfg mt = none ∨ memKind s.cfg mt = some .sram ∨ memKind s.cfg mt = some .signature ∨
        memKind s.cfg mt = some .prodsig ∨ memKind s.cfg mt = some .sib) →
      exec (.pdiNvmSequence mt a d) s = .next (s.ended (Res.fail .unsupported) s.env.delays))

/-- SIGN_ON of PDI: the connect column and the UART, the activation script, one unflagged answer of the status register
makes the link; no data is answered (R252, R261, R307). That the start also sets `CLK` and `TPI_CHUNK` and clears `RXF`
and `TRST_ENG`, which R252 does not list, is the model's reading of R46's connect column (log 16). That the connect
keeps the bytes TPI.SET_PARAM stored, which no rule gives, is the model's choice (log 25). -/
def Obligations.PdiSignOn : Prop :=
  ∀ (s : State) (m1 : List Move) (r : List Byte) (v : Byte) (rest : List LineEvent),
    s.ready Config.wdDefaultMs.toNat → s.arch = .pdi → scriptRuns s.cfg .pdi s.cfg.pdi.activateSeq m1 r →
    s.hears .pdi (m1 ++ ldcsMoves s.cfg .pdi s.cfg.pdi.rStatus v) rest →
    ∃ t cnt ds, t = (((s.withRequest .avr 0x10 .none).ran Config.wdDefaultMs).connectStart .pdi).moved .pdi
        (m1 ++ ldcsMoves s.cfg .pdi s.cfg.pdi.rStatus v) rest ∧
      exec .pdiSignOn s = .next (State.answered (Res.ok 1) cnt ds { t with sess := { t.sess with link := true } })

/-- ENTER_PROGMODE of PDI: already granted it does nothing; otherwise the script before the key, the key, the poll for
the NVM-enabled bit, and `PROG` is set (R253). -/
def Obligations.PdiEnterProgmode : Prop :=
  ∀ s : State, s.ready Config.wdDefaultMs.toNat → s.arch = .pdi → s.sess.link = true →
    let u := (s.withRequest .avr 0x15 .none).ran Config.wdDefaultMs
    (s.sess.prog = true → ∃ cnt ds, exec .pdiEnterProgmode s = .next (u.answered (Res.ok 1) cnt ds)) ∧
    (∀ m1 r m3 rest, s.sess.prog = false → s.umode = .pdi → scriptRuns s.cfg .pdi s.cfg.pdi.preKeySeq m1 r →
      pdiEnabledRuns s.cfg m3 → s.hears .pdi (m1 ++ (outs (syncKeyBytes s.cfg) ++ m3)) rest →
      ∃ cnt ds, exec .pdiEnterProgmode s = .next (State.answered (Res.ok 1) cnt ds
        { u.moved .pdi (m1 ++ (outs (syncKeyBytes s.cfg) ++ m3)) rest with sess := { s.sess with prog := true } }))

/-- READ_MEMORY of PDI: the read command first in code space, then blocks of at most `BLOCK_MAX_UNITS`; WRITE_MEMORY:
plain blocks in data space, the fixed sequencing in code space (R254, R255, R256, R257, R258); a USERROW write's erase
frames and buffer commands are the model's choice (log 26), as is what another `PDI_ADDR_BYTES` than four sends (log
55). The count byte of more than 256 units, where `BLOCK_MAX_UNITS` allows them, is the model's choice (log 57). -/
def Obligations.PdiMemory : Prop :=
  ∀ (s : State) (mt : Byte) (k : MemKind) (a a' n : Addr) (d : List Byte) (rest : List LineEvent),
    s.ready Config.wdDefaultMs.toNat → s.arch = .pdi → s.sess.prog = true → s.umode = .pdi →
    1 ≤ s.cfg.blockMaxUnits → lenOk n.toNat = true → inSpace32 a n.toNat = true → d.length = n.toNat →
    memKind s.cfg mt = some k → xlate s.cfg s.dd k a = some a' → inSpace32 a' n.toNat = true →
    (∀ ms, k ≠ .sib →
      (pdiSpace a = s.cfg.pdi.spaceCode ∧
          ms = pdiCmdMoves s.cfg s.cfg.pdi.cRead ++ pdiRecvPieces s.cfg n.toNat a' d ∨
        pdiSpace a ≠ s.cfg.pdi.spaceCode ∧ pdiSpace a = s.cfg.pdi.spaceData ∧
          ms = pdiRecvPieces s.cfg n.toNat a' d) →
      s.hears .pdi ms rest → ∃ cnt ds, exec (.pdiReadMemory mt a n) s =
        .next ((((s.withRequest .avr 0x21 (.mem mt a n [])).ran Config.wdDefaultMs).moved .pdi ms
          rest).answered (Res.read d) cnt ds)) ∧
    (∀ ms, memClass k ≠ .readOnly →
      (pdiSpace a' = s.cfg.pdi.spaceData ∧ ms = pdiSendPieces s.cfg n.toNat a' d ∨
        pdiSpace a' ≠ s.cfg.pdi.spaceData ∧ pdiSpace a' = s.cfg.pdi.spaceCode ∧ pdiNvmRuns s.cfg k a' d ms) →
      s.hears .pdi ms rest → ∃ cnt ds, exec (.pdiWriteMemory mt a n d) s =
        .next ((((s.withRequest .avr 0x23 (.mem mt a n d)).ran Config.wdDefaultMs).moved .pdi ms
          rest).answered (Res.ok n.toNat) cnt ds))

/-- ERASE_MEMORY of PDI in programming mode: the chip erase, which sets `ERASE_DONE`; the page erase at the address;
any other type answers the parameter's count and does nothing (R259; log 43). That a page in any space is erased is the
model's choice (log 52), as is what another `PDI_ADDR_BYTES` than four sends (log 55). -/
def Obligations.PdiEraseMemory : Prop :=
  ∀ (s : State) (et : Byte) (a : Addr) (m1 m2 : List Move) (rest : List LineEvent),
    s.ready Config.wdDefaultMs.toNat → s.arch = .pdi → s.sess.prog = true →
    let u := (s.withRequest .avr 0x20 (.erase et a)).ran Config.wdDefaultMs
    (s.umode = .pdi → pdiWaitRuns s.cfg m1 → pdiWaitRuns s.cfg m2 →
      (∀ ms, et = s.cfg.etChip →
        ms = m1 ++ (pdiCmdMoves s.cfg s.cfg.pdi.cChipErase ++
          (pdiStoreMoves s.cfg s.cfg.pdi.nvmCtrlA s.cfg.pdi.cmdex ++ m2)) →
        s.hears .pdi ms rest → ∃ cnt ds, exec (.pdiEraseMemory et a) s = .next (State.answered (Res.ok 1) cnt ds
          { u.moved .pdi ms rest with sess := { s.sess with eraseDone := true } })) ∧
      (∀ ms, et ≠ s.cfg.etChip → et = s.cfg.etPage →
        ms = m1 ++ (pdiCmdMoves s.cfg s.cfg.pdi.cErasePage ++ (pdiStoreMoves s.cfg a 0 ++ m2)) →
        s.hears .pdi ms rest → ∃ cnt ds, exec (.pdiEraseMemory et a) s =
          .next ((u.moved .pdi ms rest).answered (Res.ok 1) cnt ds))) ∧
    (et ≠ s.cfg.etChip → et ≠ s.cfg.etPage → s.cfg.retryOnFailure = false → ∃ cnt ds,
      exec (.pdiEraseMemory et a) s = .next (u.answered ⟨s.cfg.eraseUnhonored, [], none⟩ cnt ds))

/-! ## The arbiter, the UART, events -/

/-- The button. A press edge is consumed and, unless a session holds the link, holds the target in reset; a release
edge is consumed and, unless a session holds the link, lets it go; a sample latches an edge against the level before,
none for the first sample, and consumes it in the same step (R301 to R305; the first sample log 11). A change of the
output `TRST` is recorded, and nothing else changes. -/
def Obligations.Button : Prop :=
  ∀ s : State,
    let withTrst := fun t : State => { t with hist := if t.trst = s.trst then s.hist else .trst t.trst :: s.hist }
    exec .rsaPress s = .next (withTrst { s with
      ui := { s.ui with swPress := false }
      trstBtn := if s.ui.swPress = true ∧ s.sess.link = false then true else s.trstBtn }) ∧
    exec .rsaRelease s = .next (withTrst { s with
      ui := { s.ui with swRelease := false }
      trstBtn := if s.ui.swRelease = true ∧ s.sess.link = false then false else s.trstBtn }) ∧
    (∀ v, s.ui.swPress = false → s.ui.swRelease = false →
      let t := withTrst { s with
        swPrev := some v
        trstBtn := if s.sess.link = true then s.trstBtn
          else if v = true ∧ s.swPrev = some false then true
          else if v = false ∧ s.swPrev = some true then false
          else s.trstBtn }
      exec (.rsaSample v) s = .next t ∧ exec (.sysSw v) s = .next t)

/-- The UART's owners: acquiring takes it for the engine, after a quiesce where the virtual port or another engine held
it; releasing quiesces and gives it to the virtual port if that is open; the port's opening and closing move it only
between idle and the port. After a quiesce TPB drives neither `TCLK` nor `TDAT`; the quiesce records the clock's stop
where `TCLK` ran, and the release where `TCLK` ran or TPB drove `TDAT` (R86, R308, R309, R310; which it records is
log 27's). -/
def Obligations.UartOwners : Prop :=
  ∀ s : State,
    let q := fun t : State => { t with
      tclk := false
      tdat := none
      hist := quiesced s s.hist }
    exec .rsaQuiesce s = .next (q s) ∧
    (∀ e, exec (.rsaAcquire e) s = .next (
      if s.umode = .idle ∨ s.umode = engineMode e then { s with umode := engineMode e }
      else q { s with umode := engineMode e })) ∧
    exec .rsaReleaseUart s = .next (q { s with umode := if s.ui.vcpOpen = true then .vcp else .idle }) ∧
    (∀ v, exec (.sysVcp v) s = .next (
      let t := { s with ui := { s.ui with vcpOpen := v } }
      if s.umode = .idle ∧ v = true then { t with umode := .vcp }
      else if s.umode = .vcp ∧ v = false then q { t with umode := .idle }
      else t))

/-- Events. A resume from suspend while enumerated is a restart, otherwise nothing; a bus reset clears what R330 lists
and, where an engine holds the UART, releases it; the supply voltage is an input; link loss clears the session, keeps
the descriptor and the rate, sets `TPI_CHUNK` to 2, and releases the UART (R43, R46, R203, R229, R310, R330, R331;
`TPI_CHUNK` at link loss follows from R360 with R46's teardown column, since R203 does not list it). Nothing is sent to
the target: a bus reset and link loss add to the history only what they change, the rate, `TCLK` and `TDAT` let go, the
level of `TRST`, in an order that is the model's (log 27); what a release lets go is no longer driven (R309). That a bus
reset and link loss keep the bytes TPI.SET_PARAM stored (`tpiParams`), which no rule gives, is the model's choice (log
25), as are the values the restart leaves where R46 gives none: of `CB` (log 9), the descriptor's content and the SIB's
bytes (log 10), `SW_PREV` (log 11), the trace `res` (log 15) and `tpiParams` (log 25). -/
def Obligations.EnvironmentEvents : Prop :=
  ∀ s : State,
    (s.ui.usbEnum = true → exec .sysUsbSuspendResume s = .next (State.restarted s.env s.cfg)) ∧
    (s.ui.usbEnum = false → exec .sysUsbSuspendResume s = .next s) ∧
    (∀ mv : Half, exec (.sysVtg mv) s = .next { s with env := { s.env with vtg := mv.toNat } }) ∧
    (let held := s.umode = .updi ∨ s.umode = .tpi ∨ s.umode = .pdi
     let h1 := if s.clk = s.cfg.clkCfgKhz then s.hist else .rateSet s.cfg.clkCfgKhz :: s.hist
     let h2 := if held then quiesced s h1 else h1
     exec .sysUsbBusReset s = .next { s with
        sess := Sess.zero, ct := .stub, sib := { s.sib with valid := false }, dd := { s.dd with valid := false }
        beforePage := none, clk := s.cfg.clkCfgKhz, arch := .unset, trstEng := false, tpiChunk := .two
        rxf := RxFlags.clear, wdArmed := false, wdCnt := 0, wdDeadline := 0, ph := 0
        umode := if held then (if s.ui.vcpOpen then .vcp else .idle) else s.umode
        tclk := if held then false else s.tclk
        tdat := if held then none else s.tdat
        hist := if s.trstBtn = s.trst then h2 else .trst s.trstBtn :: h2 }) ∧
    (let h1 := quiesced s s.hist
     exec .linkLoss s = .next { s with
        sess := Sess.zero, ct := .stub, sib := { s.sib with valid := false }, beforePage := none, trstEng := false
        tpiChunk := .two, umode := if s.ui.vcpOpen then .vcp else .idle, tclk := false, tdat := none
        hist := if s.trstBtn = s.trst then h1 else .trst s.trstBtn :: h1 })

/-! ## The supervisor -/

/-- `WD.RUN` of an operation that returns before the expiry, the time of its last step included, cancels the
countdown, leaves `WD_CNT`, and returns the operation's result, a success or, where failures are not retried, a
failure, unchanged (R142, R334; that time passes with the last step log 5). The model refuses a run with interrupts
disabled, inside a run, and with a deadline of 0, where R141, R150 and R151 say that there is no step (log 31). -/
def Obligations.RunReturnsResult : Prop :=
  ∀ (s : State) (op : RunOp) (fb : FallbackSel) (deadline : Half),
    (s.wdArmed = false → s.env.ie = true → deadline ≠ 0 →
      (∀ r t, runBody op (s.started deadline) = .ok r t → t.expiresWaiting = false →
        (r.count ≠ 0 ∨ t.cfg.retryOnFailure = false) → r.cause = none →
        exec (.wdRun op fb deadline) s = .next ({ t.elapse with wdArmed := false }.conclude r)) ∧
      (∀ c t, runBody op (s.started deadline) = .error (.raise c) t → t.expiresWaiting = false →
        t.cfg.retryOnFailure = false → c ≠ .timeout →
        exec (.wdRun op fb deadline) s = .next ({ t.elapse with wdArmed := false }.conclude (Res.fail c)))) ∧
    (s.env.ie = false → exec (.wdRun op fb deadline) s = .refused .runInterruptsOff) ∧
    (s.env.ie = true → s.wdArmed = true → exec (.wdRun op fb deadline) s = .refused .runNested) ∧
    (s.env.ie = true → s.wdArmed = false → deadline = 0 →
      exec (.wdRun op fb deadline) s = .refused .runZeroDeadline)

/-- `WD.RUN` of each wire part and of a connect attempt completes with the operation's effect, under any fallback and
any deadline there is time within; and each host operation that is run is the run of its body on the request, with its
fallback and 800 ms, its result delivered (R140, R147, R153). -/
def Obligations.RunCompletes : Prop :=
  ∀ (s : State) (fb : FallbackSel) (deadline : Half) (ms : List Move) (rest : List LineEvent),
    let u := (s.ran deadline).moved .updi ms rest
    let p := (s.ran deadline).moved .pdi ms rest
    (s.ready deadline.toNat →
      (∀ sib, s.umode = .updi → attemptRuns s.cfg s.clk sib ms → s.hears .updi ms rest → ∃ cnt ds,
        exec (.wdRun .connectAttempt fb deadline) s =
          .next ((State.conclude (Res.ok 1) { u with sib := ⟨true, sib⟩ }).late cnt ds)) ∧
      (s.umode = .updi → updiSignOffRuns s.cfg s.sess.prog ms → s.hears .updi ms rest → ∃ cnt ds,
        exec (.wdRun .updiSignOffWire fb deadline) s = .next ((u.conclude (Res.ok 1)).late cnt ds)) ∧
      (∀ r, s.umode = .pdi → s.sess.prog = true → scriptRuns s.cfg .pdi s.cfg.pdi.leaveSeq ms r →
        s.hears .pdi ms rest → ∃ cnt ds,
          exec (.wdRun .pdiSignOffWire fb deadline) s = .next ((p.conclude (Res.ok 1)).late cnt ds)) ∧
      (s.umode = .tpi → ∃ cnt ds, exec (.wdRun .tpiLeaveWire fb deadline) s =
        .next ((((s.ran deadline).moved .tpi (stcsMoves s.cfg .tpi s.cfg.tpi.rStatus 0) s.env.line).conclude
          (Res.ok 1)).late cnt ds))) ∧
    (∀ (i : Instr) (op : RunOp) (scope : HostScope) (cmd : Byte) (q : Payload) (v : State),
      hostRun s.cfg.scopes.tpiCodes i = some (op, scope, cmd, q) →
      (scope = .avr → s.arch = i.archOf) →
      exec (.wdRun op (runFallback op) Config.wdDefaultMs) (s.withRequest scope cmd q) = .next v →
      exec i s = .next (v.deliver v.res))

/-- An expiry, at a boundary of the operation or because its last step outran the countdown: with no fallback, or at the
rate's floor, the run gives up: count 0, E_TIMEOUT, the countdown off, every register as the expiry left it but for what
a give-up does to the session (R144, R145, R146, R148, R203, R335): link loss for all but a connect attempt (`TPI_CHUNK`
too, by R360 with R46's teardown column), and the end of a failed connect, which an expired PDI.SIGN_ON is always, and
an expired ENTER_PROGMODE of TPI until it holds the link and where `PROG` is 0 (R24, R222, R252; that an expired connect
ends so log 18). With the UPDI fallback above the floor the rate is lowered, the line resynchronised, and the run is as
one begun at that moment with the same request (R147, R201). That link loss and a failed connect keep the bytes
TPI.SET_PARAM stored, which no rule gives, is the model's choice (log 25). -/
def Obligations.RunExpires : Prop :=
  ∀ (s t : State) (op : RunOp) (fb : FallbackSel) (deadline : Half), s.wdArmed = false → s.env.ie = true →
    deadline ≠ 0 →
    (runBody op (s.started deadline) = .error .expired t ∨
      ∃ u, ((∃ r, runBody op (s.started deadline) = .ok r u) ∨
        ∃ c, runBody op (s.started deadline) = .error (.raise c) u) ∧ u.expiresWaiting = true ∧ t = u.elapse) →
    (fb = .absent ∨ clkLower t.cfg t.clk = none → ∃ ds, exec (.wdRun op fb deadline) s =
      .next (State.ended (Res.fail .timeout) ds ({ t with wdArmed := false }.write (State.gaveUp op)))) ∧
    (∀ c, fb = .updi → clkLower t.cfg t.clk = some c → connects op = false → ∃ ds,
      exec (.wdRun op fb deadline) s = exec (.wdRun op fb deadline) (State.late t.wdCnt ds
        { t with
          wdArmed := false
          clk := c
          tdat := none
          hist := .rateSet c :: .attnHigh t.cfg.updi.attnHighUs :: .attnLow t.cfg.updi.attnLowUs :: t.hist }))

/-- No delivered operation or event hangs or is refused: with interrupts enabled and no run active it ends in a next
state with no run active, whatever the target does and however long the steps take (R11, R149, R155). -/
def Obligations.DeliveredOperationsEnd : Prop :=
  ∀ (i : Instr) (s : State), delivered i = true → s.wdArmed = false → s.env.ie = true →
    ∃ t, exec i s = .next t ∧ t.wdArmed = false ∧ (i ≠ .sysRestart → i ≠ .sysUsbSuspendResume → s.opi ≤ t.opi)

/-- What R324's table requires is checked before anything is sent: an engine operation under `ARCH` NONE (under the
other engine's value too, which is the model's choice, log 13), one without the link or the programming mode it needs,
of an illegal length, past the end of the address space, beyond the SIB or before it is read, below the supply a TPI
write or erase needs, across a page, or without the descriptor it needs, fails with E_PRECOND and changes no register
but the supervisor's own (R74, R76, R84, R194, R197, R198, R229, R230, R273, R275, R282, R324). -/
def Obligations.RequirementsAreChecked : Prop :=
  ∀ s : State,
    (∀ (i : Instr) (op : RunOp) (scope : HostScope) (cmd : Byte) (q : Payload),
      hostRun s.cfg.scopes.tpiCodes i = some (op, scope, cmd, q) →
      (scope = .avr → s.arch ≠ i.archOf →
        exec i s = .next ((s.withRequest scope cmd q).answered (Res.fail .precond) s.wdCnt s.env.delays)) ∧
      ((scope = .avr → s.arch = i.archOf) → s.ready Config.wdDefaultMs.toNat → s.cfg.retryOnFailure = false →
        (needsLink i = true ∧ s.sess.link = false ∨ needsProg s i = true ∧ s.sess.prog = false ∨ badLength i = true ∨
          lacks s i = true) →
        ∃ cnt ds, exec i s =
          .next (((s.withRequest scope cmd q).ran Config.wdDefaultMs).answered (Res.fail .precond) cnt ds))) ∧
    (s.arch ≠ .updi →
      exec .updiSignOn s = .next ((s.withRequest .avr 0x10 .none).answered (Res.fail .precond) s.wdCnt s.env.delays) ∧
      exec .updiSignOff s = .next ((s.withRequest .avr 0x11 .none).answered (Res.fail .precond) s.wdCnt s.env.delays)) ∧
    (s.arch ≠ .pdi →
      exec .pdiSignOff s = .next ((s.withRequest .avr 0x11 .none).answered (Res.fail .precond) s.wdCnt s.env.delays))

/-! ## The pseudo-operations -/

/-- SESSION_OPEN is SET_PARAMETER of the architecture, SIGN_ON, the descriptor's upload and ENTER_PROGMODE, in this
order, each with its effect (R109, R115, R181, R186, R252, R253). What the two connects clear beyond R181 and R252,
`CLK`, `TPI_CHUNK`, `RXF` and `TRST_ENG`, is the model's reading of R46's connect column (log 16). That the connects
keep the bytes TPI.SET_PARAM stored, which no rule gives, is the model's choice (log 25). -/
def Obligations.SessionOpens : Prop :=
  ∀ (s : State) (dd : DevDesc) (rest : List LineEvent), s.sess.link = false →
    let opened := fun (a : Arch) v ds => State.answered (Res.ok 1) s.wdCnt ds
      { s.withRequest .avr 0x01 (.setParam (.arch v)) with arch := a }
    let loaded := fun (t : State) ds => State.answered (Res.ok 1) t.wdCnt ds
      { t.withRequest .avr 0x01 (.setParam (.deviceDesc dd)) with dd := ⟨true, dd⟩ }
    (∀ sib m1 r m2, s.ready Config.connectAttemptMs.toNat → attemptRuns s.cfg s.cfg.clkCfgKhz sib m1 →
      variantRec s.cfg (sibVariant s.cfg sib) = some r → unlockRuns s.cfg (sibVariant s.cfg sib) r m2 →
      s.hears .updi (m1 ++ m2) rest → ∃ d1 c2 d2 d3 c4 d4,
        let t1 := opened .updi s.cfg.archUpdi d1
        let u := (((t1.withRequest .avr 0x10 .none).connectStart .updi).ran
          Config.connectAttemptMs).moved .updi m1 (lineOf .updi m2 ++ rest)
        let t2 := State.answered ⟨4, (sib.drop s.cfg.sibIdOffset).take 4, none⟩ c2 d2
          { u with sib := ⟨true, sib⟩, ct := sibVariant s.cfg sib, sess := { u.sess with link := true } }
        let t3 := loaded t2 d3
        exec (.sessionOpen .updi dd) s = .next (State.answered (Res.ok 1) c4 d4
          { ((t3.withRequest .avr 0x15 .none).ran Config.wdDefaultMs).moved .updi m2 rest with
            sess := { t3.sess with prog := true } })) ∧
    (∀ m1 r v m2 r2 m4, s.ready Config.wdDefaultMs.toNat → s.cfg.archPdi ≠ s.cfg.archUpdi →
      scriptRuns s.cfg .pdi s.cfg.pdi.activateSeq m1 r → scriptRuns s.cfg .pdi s.cfg.pdi.preKeySeq m2 r2 →
      pdiEnabledRuns s.cfg m4 →
      let f1 := m1 ++ ldcsMoves s.cfg .pdi s.cfg.pdi.rStatus v
      let f2 := m2 ++ (outs (syncKeyBytes s.cfg) ++ m4)
      s.hears .pdi (f1 ++ f2) rest → ∃ d1 c2 d2 d3 c4 d4,
        let t1 := opened .pdi s.cfg.archPdi d1
        let u := (((t1.withRequest .avr 0x10 .none).ran Config.wdDefaultMs).connectStart .pdi).moved .pdi
          f1 (lineOf .pdi f2 ++ rest)
        let t2 := State.answered (Res.ok 1) c2 d2 { u with sess := { u.sess with link := true } }
        let t3 := loaded t2 d3
        exec (.sessionOpen .pdi dd) s = .next (State.answered (Res.ok 1) c4 d4
          { ((t3.withRequest .avr 0x15 .none).ran Config.wdDefaultMs).moved .pdi f2 rest with
            sess := { t3.sess with prog := true } }))

/-- SESSION_CLOSE is LEAVE_PROGMODE, then SIGN_OFF, each with its effect; without programming mode LEAVE_PROGMODE does
nothing (R115, R185, R187, R260). The teardown that ends it clears the whole teardown column of R46, which for PDI is
the model's reading of R46 and R363 where R260 lists less (log 17). That the teardown keeps the bytes TPI.SET_PARAM
stored, which no rule gives, is the model's choice (log 25). -/
def Obligations.SessionCloses : Prop :=
  ∀ (s : State) (rest : List LineEvent), s.sess.link = true → s.ready Config.wdDefaultMs.toNat →
    let left := (s.withRequest .avr 0x16 .none).ran Config.wdDefaultMs
    let off := fun t : State => (t.withRequest .avr 0x11 .none).ran Config.wdDefaultMs
    (∀ m1 r m2, s.arch = .updi → s.umode = .updi → s.sess.prog = true →
      scriptRuns s.cfg .updi s.cfg.updi.leaveSeq m1 r → updiSignOffRuns s.cfg false m2 →
      s.hears .updi (m1 ++ m2) rest → ∃ c1 d1 c2 d2,
        let t1 := State.answered (Res.ok 1) c1 d1
          { left.moved .updi m1 (lineOf .updi m2 ++ rest) with sess := { s.sess with prog := false } }
        exec (.sessionClose .updi) s =
          .next (((off t1).moved .updi m2 rest).teardown.answered (Res.ok 1) c2 d2)) ∧
    (∀ m2, s.arch = .updi → s.umode = .updi → s.sess.prog = false → updiSignOffRuns s.cfg false m2 →
      s.hears .updi m2 rest → ∃ c1 d1 c2 d2,
        exec (.sessionClose .updi) s =
          .next (((off (left.answered (Res.ok 1) c1 d1)).moved .updi m2 rest).teardown.answered (Res.ok 1) c2 d2)) ∧
    (∀ m1 r, s.arch = .pdi → s.umode = .pdi → s.sess.prog = true → scriptRuns s.cfg .pdi s.cfg.pdi.leaveSeq m1 r →
      s.hears .pdi m1 rest → ∃ c1 d1 c2 d2,
        let t1 := State.answered (Res.ok 1) c1 d1
          { left.moved .pdi m1 rest with sess := { s.sess with prog := false } }
        exec (.sessionClose .pdi) s = .next ((off t1).teardown.answered (Res.ok 1) c2 d2)) ∧
    (s.arch = .pdi → s.sess.prog = false → ∃ c1 d1 c2 d2,
      exec (.sessionClose .pdi) s = .next ((off (left.answered (Res.ok 1) c1 d1)).teardown.answered (Res.ok 1) c2 d2))

end ObligationTexts
end

