-- ==== Sys2Proof/Laws/State.lean ====
section
/-! SUPPORT. Every field of the state after every shared update: one lemma per field per update, true by definition. -/

namespace Sys2Proof.Machine

variable (s : State)

/-! ## State.record -/

@[simp] theorem State.record_cb (e : WireEvent) : (s.record e).cb = s.cb := rfl
@[simp] theorem State.record_sess (e : WireEvent) : (s.record e).sess = s.sess := rfl
@[simp] theorem State.record_ui (e : WireEvent) : (s.record e).ui = s.ui := rfl
@[simp] theorem State.record_dd (e : WireEvent) : (s.record e).dd = s.dd := rfl
@[simp] theorem State.record_ct (e : WireEvent) : (s.record e).ct = s.ct := rfl
@[simp] theorem State.record_sib (e : WireEvent) : (s.record e).sib = s.sib := rfl
@[simp] theorem State.record_beforePage (e : WireEvent) : (s.record e).beforePage = s.beforePage := rfl
@[simp] theorem State.record_clk (e : WireEvent) : (s.record e).clk = s.clk := rfl
@[simp] theorem State.record_wdArmed (e : WireEvent) : (s.record e).wdArmed = s.wdArmed := rfl
@[simp] theorem State.record_wdCnt (e : WireEvent) : (s.record e).wdCnt = s.wdCnt := rfl
@[simp] theorem State.record_wdDeadline (e : WireEvent) : (s.record e).wdDeadline = s.wdDeadline := rfl
@[simp] theorem State.record_arch (e : WireEvent) : (s.record e).arch = s.arch := rfl
@[simp] theorem State.record_umode (e : WireEvent) : (s.record e).umode = s.umode := rfl
@[simp] theorem State.record_trstBtn (e : WireEvent) : (s.record e).trstBtn = s.trstBtn := rfl
@[simp] theorem State.record_trstEng (e : WireEvent) : (s.record e).trstEng = s.trstEng := rfl
@[simp] theorem State.record_swPrev (e : WireEvent) : (s.record e).swPrev = s.swPrev := rfl
@[simp] theorem State.record_tpiChunk (e : WireEvent) : (s.record e).tpiChunk = s.tpiChunk := rfl
@[simp] theorem State.record_tpiParams (e : WireEvent) : (s.record e).tpiParams = s.tpiParams := rfl
@[simp] theorem State.record_rxf (e : WireEvent) : (s.record e).rxf = s.rxf := rfl
@[simp] theorem State.record_opi (e : WireEvent) : (s.record e).opi = s.opi := rfl
@[simp] theorem State.record_ph (e : WireEvent) : (s.record e).ph = s.ph := rfl
@[simp] theorem State.record_tclk (e : WireEvent) : (s.record e).tclk = s.tclk := rfl
@[simp] theorem State.record_tdat (e : WireEvent) : (s.record e).tdat = s.tdat := rfl
@[simp] theorem State.record_hist (e : WireEvent) : (s.record e).hist = e :: s.hist := rfl
@[simp] theorem State.record_res (e : WireEvent) : (s.record e).res = s.res := rfl
@[simp] theorem State.record_env (e : WireEvent) : (s.record e).env = s.env := rfl
@[simp] theorem State.record_cfg (e : WireEvent) : (s.record e).cfg = s.cfg := rfl

/-! ## State.arm -/

@[simp] theorem State.arm_cb : s.arm.cb = s.cb := rfl
@[simp] theorem State.arm_sess : s.arm.sess = s.sess := rfl
@[simp] theorem State.arm_ui : s.arm.ui = s.ui := rfl
@[simp] theorem State.arm_dd : s.arm.dd = s.dd := rfl
@[simp] theorem State.arm_ct : s.arm.ct = s.ct := rfl
@[simp] theorem State.arm_sib : s.arm.sib = s.sib := rfl
@[simp] theorem State.arm_beforePage : s.arm.beforePage = s.beforePage := rfl
@[simp] theorem State.arm_clk : s.arm.clk = s.clk := rfl
@[simp] theorem State.arm_wdArmed : s.arm.wdArmed = true := rfl
@[simp] theorem State.arm_wdCnt : s.arm.wdCnt = s.wdDeadline := rfl
@[simp] theorem State.arm_wdDeadline : s.arm.wdDeadline = s.wdDeadline := rfl
@[simp] theorem State.arm_arch : s.arm.arch = s.arch := rfl
@[simp] theorem State.arm_umode : s.arm.umode = s.umode := rfl
@[simp] theorem State.arm_trstBtn : s.arm.trstBtn = s.trstBtn := rfl
@[simp] theorem State.arm_trstEng : s.arm.trstEng = s.trstEng := rfl
@[simp] theorem State.arm_swPrev : s.arm.swPrev = s.swPrev := rfl
@[simp] theorem State.arm_tpiChunk : s.arm.tpiChunk = s.tpiChunk := rfl
@[simp] theorem State.arm_tpiParams : s.arm.tpiParams = s.tpiParams := rfl
@[simp] theorem State.arm_rxf : s.arm.rxf = s.rxf := rfl
@[simp] theorem State.arm_opi : s.arm.opi = s.opi := rfl
@[simp] theorem State.arm_ph : s.arm.ph = s.ph := rfl
@[simp] theorem State.arm_tclk : s.arm.tclk = s.tclk := rfl
@[simp] theorem State.arm_tdat : s.arm.tdat = s.tdat := rfl
@[simp] theorem State.arm_hist : s.arm.hist = s.hist := rfl
@[simp] theorem State.arm_res : s.arm.res = s.res := rfl
@[simp] theorem State.arm_env : s.arm.env = s.env := rfl
@[simp] theorem State.arm_cfg : s.arm.cfg = s.cfg := rfl

/-! ## State.disarm -/

@[simp] theorem State.disarm_cb : s.disarm.cb = s.cb := rfl
@[simp] theorem State.disarm_sess : s.disarm.sess = s.sess := rfl
@[simp] theorem State.disarm_ui : s.disarm.ui = s.ui := rfl
@[simp] theorem State.disarm_dd : s.disarm.dd = s.dd := rfl
@[simp] theorem State.disarm_ct : s.disarm.ct = s.ct := rfl
@[simp] theorem State.disarm_sib : s.disarm.sib = s.sib := rfl
@[simp] theorem State.disarm_beforePage : s.disarm.beforePage = s.beforePage := rfl
@[simp] theorem State.disarm_clk : s.disarm.clk = s.clk := rfl
@[simp] theorem State.disarm_wdArmed : s.disarm.wdArmed = false := rfl
@[simp] theorem State.disarm_wdCnt : s.disarm.wdCnt = s.wdCnt := rfl
@[simp] theorem State.disarm_wdDeadline : s.disarm.wdDeadline = s.wdDeadline := rfl
@[simp] theorem State.disarm_arch : s.disarm.arch = s.arch := rfl
@[simp] theorem State.disarm_umode : s.disarm.umode = s.umode := rfl
@[simp] theorem State.disarm_trstBtn : s.disarm.trstBtn = s.trstBtn := rfl
@[simp] theorem State.disarm_trstEng : s.disarm.trstEng = s.trstEng := rfl
@[simp] theorem State.disarm_swPrev : s.disarm.swPrev = s.swPrev := rfl
@[simp] theorem State.disarm_tpiChunk : s.disarm.tpiChunk = s.tpiChunk := rfl
@[simp] theorem State.disarm_tpiParams : s.disarm.tpiParams = s.tpiParams := rfl
@[simp] theorem State.disarm_rxf : s.disarm.rxf = s.rxf := rfl
@[simp] theorem State.disarm_opi : s.disarm.opi = s.opi := rfl
@[simp] theorem State.disarm_ph : s.disarm.ph = s.ph := rfl
@[simp] theorem State.disarm_tclk : s.disarm.tclk = s.tclk := rfl
@[simp] theorem State.disarm_tdat : s.disarm.tdat = s.tdat := rfl
@[simp] theorem State.disarm_hist : s.disarm.hist = s.hist := rfl
@[simp] theorem State.disarm_res : s.disarm.res = s.res := rfl
@[simp] theorem State.disarm_env : s.disarm.env = s.env := rfl
@[simp] theorem State.disarm_cfg : s.disarm.cfg = s.cfg := rfl

/-! ## State.divert -/

@[simp] theorem State.divert_cb : s.divert.cb = s.cb := rfl
@[simp] theorem State.divert_sess : s.divert.sess = s.sess := rfl
@[simp] theorem State.divert_ui : s.divert.ui = s.ui := rfl
@[simp] theorem State.divert_dd : s.divert.dd = s.dd := rfl
@[simp] theorem State.divert_ct : s.divert.ct = s.ct := rfl
@[simp] theorem State.divert_sib : s.divert.sib = s.sib := rfl
@[simp] theorem State.divert_beforePage : s.divert.beforePage = s.beforePage := rfl
@[simp] theorem State.divert_clk : s.divert.clk = s.clk := rfl
@[simp] theorem State.divert_wdArmed : s.divert.wdArmed = false := rfl
@[simp] theorem State.divert_wdCnt : s.divert.wdCnt = s.wdCnt := rfl
@[simp] theorem State.divert_wdDeadline : s.divert.wdDeadline = s.wdDeadline := rfl
@[simp] theorem State.divert_arch : s.divert.arch = s.arch := rfl
@[simp] theorem State.divert_umode : s.divert.umode = s.umode := rfl
@[simp] theorem State.divert_trstBtn : s.divert.trstBtn = s.trstBtn := rfl
@[simp] theorem State.divert_trstEng : s.divert.trstEng = s.trstEng := rfl
@[simp] theorem State.divert_swPrev : s.divert.swPrev = s.swPrev := rfl
@[simp] theorem State.divert_tpiChunk : s.divert.tpiChunk = s.tpiChunk := rfl
@[simp] theorem State.divert_tpiParams : s.divert.tpiParams = s.tpiParams := rfl
@[simp] theorem State.divert_rxf : s.divert.rxf = s.rxf := rfl
@[simp] theorem State.divert_opi : s.divert.opi = s.opi := rfl
@[simp] theorem State.divert_ph : s.divert.ph = 0 := rfl
@[simp] theorem State.divert_tclk : s.divert.tclk = s.tclk := rfl
@[simp] theorem State.divert_tdat : s.divert.tdat = s.tdat := rfl
@[simp] theorem State.divert_hist : s.divert.hist = s.hist := rfl
@[simp] theorem State.divert_res : s.divert.res = s.res := rfl
@[simp] theorem State.divert_env : s.divert.env = s.env := rfl
@[simp] theorem State.divert_cfg : s.divert.cfg = s.cfg := rfl

/-! ## State.deliver -/

@[simp] theorem State.deliver_cb (r : Res) :
    (s.deliver r).cb = { s.cb with body := .response (respond s.cfg r) } := rfl
@[simp] theorem State.deliver_sess (r : Res) : (s.deliver r).sess = s.sess := rfl
@[simp] theorem State.deliver_ui (r : Res) : (s.deliver r).ui = s.ui := rfl
@[simp] theorem State.deliver_dd (r : Res) : (s.deliver r).dd = s.dd := rfl
@[simp] theorem State.deliver_ct (r : Res) : (s.deliver r).ct = s.ct := rfl
@[simp] theorem State.deliver_sib (r : Res) : (s.deliver r).sib = s.sib := rfl
@[simp] theorem State.deliver_beforePage (r : Res) : (s.deliver r).beforePage = s.beforePage := rfl
@[simp] theorem State.deliver_clk (r : Res) : (s.deliver r).clk = s.clk := rfl
@[simp] theorem State.deliver_wdArmed (r : Res) : (s.deliver r).wdArmed = s.wdArmed := rfl
@[simp] theorem State.deliver_wdCnt (r : Res) : (s.deliver r).wdCnt = s.wdCnt := rfl
@[simp] theorem State.deliver_wdDeadline (r : Res) : (s.deliver r).wdDeadline = s.wdDeadline := rfl
@[simp] theorem State.deliver_arch (r : Res) : (s.deliver r).arch = s.arch := rfl
@[simp] theorem State.deliver_umode (r : Res) : (s.deliver r).umode = s.umode := rfl
@[simp] theorem State.deliver_trstBtn (r : Res) : (s.deliver r).trstBtn = s.trstBtn := rfl
@[simp] theorem State.deliver_trstEng (r : Res) : (s.deliver r).trstEng = s.trstEng := rfl
@[simp] theorem State.deliver_swPrev (r : Res) : (s.deliver r).swPrev = s.swPrev := rfl
@[simp] theorem State.deliver_tpiChunk (r : Res) : (s.deliver r).tpiChunk = s.tpiChunk := rfl
@[simp] theorem State.deliver_tpiParams (r : Res) : (s.deliver r).tpiParams = s.tpiParams := rfl
@[simp] theorem State.deliver_rxf (r : Res) : (s.deliver r).rxf = s.rxf := rfl
@[simp] theorem State.deliver_opi (r : Res) : (s.deliver r).opi = s.opi + 1 := rfl
@[simp] theorem State.deliver_ph (r : Res) : (s.deliver r).ph = 0 := rfl
@[simp] theorem State.deliver_tclk (r : Res) : (s.deliver r).tclk = s.tclk := rfl
@[simp] theorem State.deliver_tdat (r : Res) : (s.deliver r).tdat = s.tdat := rfl
@[simp] theorem State.deliver_hist (r : Res) : (s.deliver r).hist = s.hist := rfl
@[simp] theorem State.deliver_res (r : Res) : (s.deliver r).res = r := rfl
@[simp] theorem State.deliver_env (r : Res) : (s.deliver r).env = s.env := rfl
@[simp] theorem State.deliver_cfg (r : Res) : (s.deliver r).cfg = s.cfg := rfl

/-! ## State.conclude -/

@[simp] theorem State.conclude_cb (r : Res) : (s.conclude r).cb = s.cb := rfl
@[simp] theorem State.conclude_sess (r : Res) : (s.conclude r).sess = s.sess := rfl
@[simp] theorem State.conclude_ui (r : Res) : (s.conclude r).ui = s.ui := rfl
@[simp] theorem State.conclude_dd (r : Res) : (s.conclude r).dd = s.dd := rfl
@[simp] theorem State.conclude_ct (r : Res) : (s.conclude r).ct = s.ct := rfl
@[simp] theorem State.conclude_sib (r : Res) : (s.conclude r).sib = s.sib := rfl
@[simp] theorem State.conclude_beforePage (r : Res) : (s.conclude r).beforePage = s.beforePage := rfl
@[simp] theorem State.conclude_clk (r : Res) : (s.conclude r).clk = s.clk := rfl
@[simp] theorem State.conclude_wdArmed (r : Res) : (s.conclude r).wdArmed = s.wdArmed := rfl
@[simp] theorem State.conclude_wdCnt (r : Res) : (s.conclude r).wdCnt = s.wdCnt := rfl
@[simp] theorem State.conclude_wdDeadline (r : Res) : (s.conclude r).wdDeadline = s.wdDeadline := rfl
@[simp] theorem State.conclude_arch (r : Res) : (s.conclude r).arch = s.arch := rfl
@[simp] theorem State.conclude_umode (r : Res) : (s.conclude r).umode = s.umode := rfl
@[simp] theorem State.conclude_trstBtn (r : Res) : (s.conclude r).trstBtn = s.trstBtn := rfl
@[simp] theorem State.conclude_trstEng (r : Res) : (s.conclude r).trstEng = s.trstEng := rfl
@[simp] theorem State.conclude_swPrev (r : Res) : (s.conclude r).swPrev = s.swPrev := rfl
@[simp] theorem State.conclude_tpiChunk (r : Res) : (s.conclude r).tpiChunk = s.tpiChunk := rfl
@[simp] theorem State.conclude_tpiParams (r : Res) : (s.conclude r).tpiParams = s.tpiParams := rfl
@[simp] theorem State.conclude_rxf (r : Res) : (s.conclude r).rxf = s.rxf := rfl
@[simp] theorem State.conclude_opi (r : Res) : (s.conclude r).opi = s.opi := rfl
@[simp] theorem State.conclude_ph (r : Res) : (s.conclude r).ph = 0 := rfl
@[simp] theorem State.conclude_tclk (r : Res) : (s.conclude r).tclk = s.tclk := rfl
@[simp] theorem State.conclude_tdat (r : Res) : (s.conclude r).tdat = s.tdat := rfl
@[simp] theorem State.conclude_hist (r : Res) : (s.conclude r).hist = s.hist := rfl
@[simp] theorem State.conclude_res (r : Res) : (s.conclude r).res = r := rfl
@[simp] theorem State.conclude_env (r : Res) : (s.conclude r).env = s.env := rfl
@[simp] theorem State.conclude_cfg (r : Res) : (s.conclude r).cfg = s.cfg := rfl

/-! ## State.withBody -/

@[simp] theorem State.withBody_cb (sel : Byte) (cm : Byte) (p : Payload) :
    (s.withBody sel cm p).cb = { s.cb with body := .request sel cm p } := rfl
@[simp] theorem State.withBody_sess (sel : Byte) (cm : Byte) (p : Payload) :
    (s.withBody sel cm p).sess = s.sess := rfl
@[simp] theorem State.withBody_ui (sel : Byte) (cm : Byte) (p : Payload) : (s.withBody sel cm p).ui = s.ui := rfl
@[simp] theorem State.withBody_dd (sel : Byte) (cm : Byte) (p : Payload) : (s.withBody sel cm p).dd = s.dd := rfl
@[simp] theorem State.withBody_ct (sel : Byte) (cm : Byte) (p : Payload) : (s.withBody sel cm p).ct = s.ct := rfl
@[simp] theorem State.withBody_sib (sel : Byte) (cm : Byte) (p : Payload) : (s.withBody sel cm p).sib = s.sib := rfl
@[simp] theorem State.withBody_beforePage (sel : Byte) (cm : Byte) (p : Payload) :
    (s.withBody sel cm p).beforePage = s.beforePage := rfl
@[simp] theorem State.withBody_clk (sel : Byte) (cm : Byte) (p : Payload) : (s.withBody sel cm p).clk = s.clk := rfl
@[simp] theorem State.withBody_wdArmed (sel : Byte) (cm : Byte) (p : Payload) :
    (s.withBody sel cm p).wdArmed = s.wdArmed := rfl
@[simp] theorem State.withBody_wdCnt (sel : Byte) (cm : Byte) (p : Payload) :
    (s.withBody sel cm p).wdCnt = s.wdCnt := rfl
@[simp] theorem State.withBody_wdDeadline (sel : Byte) (cm : Byte) (p : Payload) :
    (s.withBody sel cm p).wdDeadline = s.wdDeadline := rfl
@[simp] theorem State.withBody_arch (sel : Byte) (cm : Byte) (p : Payload) :
    (s.withBody sel cm p).arch = s.arch := rfl
@[simp] theorem State.withBody_umode (sel : Byte) (cm : Byte) (p : Payload) :
    (s.withBody sel cm p).umode = s.umode := rfl
@[simp] theorem State.withBody_trstBtn (sel : Byte) (cm : Byte) (p : Payload) :
    (s.withBody sel cm p).trstBtn = s.trstBtn := rfl
@[simp] theorem State.withBody_trstEng (sel : Byte) (cm : Byte) (p : Payload) :
    (s.withBody sel cm p).trstEng = s.trstEng := rfl
@[simp] theorem State.withBody_swPrev (sel : Byte) (cm : Byte) (p : Payload) :
    (s.withBody sel cm p).swPrev = s.swPrev := rfl
@[simp] theorem State.withBody_tpiChunk (sel : Byte) (cm : Byte) (p : Payload) :
    (s.withBody sel cm p).tpiChunk = s.tpiChunk := rfl
@[simp] theorem State.withBody_tpiParams (sel : Byte) (cm : Byte) (p : Payload) :
    (s.withBody sel cm p).tpiParams = s.tpiParams := rfl
@[simp] theorem State.withBody_rxf (sel : Byte) (cm : Byte) (p : Payload) : (s.withBody sel cm p).rxf = s.rxf := rfl
@[simp] theorem State.withBody_opi (sel : Byte) (cm : Byte) (p : Payload) : (s.withBody sel cm p).opi = s.opi := rfl
@[simp] theorem State.withBody_ph (sel : Byte) (cm : Byte) (p : Payload) : (s.withBody sel cm p).ph = s.ph := rfl
@[simp] theorem State.withBody_tclk (sel : Byte) (cm : Byte) (p : Payload) :
    (s.withBody sel cm p).tclk = s.tclk := rfl
@[simp] theorem State.withBody_tdat (sel : Byte) (cm : Byte) (p : Payload) :
    (s.withBody sel cm p).tdat = s.tdat := rfl
@[simp] theorem State.withBody_hist (sel : Byte) (cm : Byte) (p : Payload) :
    (s.withBody sel cm p).hist = s.hist := rfl
@[simp] theorem State.withBody_res (sel : Byte) (cm : Byte) (p : Payload) : (s.withBody sel cm p).res = s.res := rfl
@[simp] theorem State.withBody_env (sel : Byte) (cm : Byte) (p : Payload) : (s.withBody sel cm p).env = s.env := rfl
@[simp] theorem State.withBody_cfg (sel : Byte) (cm : Byte) (p : Payload) : (s.withBody sel cm p).cfg = s.cfg := rfl

/-! ## State.withRequest -/

@[simp] theorem State.withRequest_cb (sc : HostScope) (cm : Byte) (p : Payload) :
    (s.withRequest sc cm p).cb = { s.cb with body := .request (sc.byte s.cfg.scopes) cm p } := rfl
@[simp] theorem State.withRequest_sess (sc : HostScope) (cm : Byte) (p : Payload) :
    (s.withRequest sc cm p).sess = s.sess := rfl
@[simp] theorem State.withRequest_ui (sc : HostScope) (cm : Byte) (p : Payload) :
    (s.withRequest sc cm p).ui = s.ui := rfl
@[simp] theorem State.withRequest_dd (sc : HostScope) (cm : Byte) (p : Payload) :
    (s.withRequest sc cm p).dd = s.dd := rfl
@[simp] theorem State.withRequest_ct (sc : HostScope) (cm : Byte) (p : Payload) :
    (s.withRequest sc cm p).ct = s.ct := rfl
@[simp] theorem State.withRequest_sib (sc : HostScope) (cm : Byte) (p : Payload) :
    (s.withRequest sc cm p).sib = s.sib := rfl
@[simp] theorem State.withRequest_beforePage (sc : HostScope) (cm : Byte) (p : Payload) :
    (s.withRequest sc cm p).beforePage = s.beforePage := rfl
@[simp] theorem State.withRequest_clk (sc : HostScope) (cm : Byte) (p : Payload) :
    (s.withRequest sc cm p).clk = s.clk := rfl
@[simp] theorem State.withRequest_wdArmed (sc : HostScope) (cm : Byte) (p : Payload) :
    (s.withRequest sc cm p).wdArmed = s.wdArmed := rfl
@[simp] theorem State.withRequest_wdCnt (sc : HostScope) (cm : Byte) (p : Payload) :
    (s.withRequest sc cm p).wdCnt = s.wdCnt := rfl
@[simp] theorem State.withRequest_wdDeadline (sc : HostScope) (cm : Byte) (p : Payload) :
    (s.withRequest sc cm p).wdDeadline = s.wdDeadline := rfl
@[simp] theorem State.withRequest_arch (sc : HostScope) (cm : Byte) (p : Payload) :
    (s.withRequest sc cm p).arch = s.arch := rfl
@[simp] theorem State.withRequest_umode (sc : HostScope) (cm : Byte) (p : Payload) :
    (s.withRequest sc cm p).umode = s.umode := rfl
@[simp] theorem State.withRequest_trstBtn (sc : HostScope) (cm : Byte) (p : Payload) :
    (s.withRequest sc cm p).trstBtn = s.trstBtn := rfl
@[simp] theorem State.withRequest_trstEng (sc : HostScope) (cm : Byte) (p : Payload) :
    (s.withRequest sc cm p).trstEng = s.trstEng := rfl
@[simp] theorem State.withRequest_swPrev (sc : HostScope) (cm : Byte) (p : Payload) :
    (s.withRequest sc cm p).swPrev = s.swPrev := rfl
@[simp] theorem State.withRequest_tpiChunk (sc : HostScope) (cm : Byte) (p : Payload) :
    (s.withRequest sc cm p).tpiChunk = s.tpiChunk := rfl
@[simp] theorem State.withRequest_tpiParams (sc : HostScope) (cm : Byte) (p : Payload) :
    (s.withRequest sc cm p).tpiParams = s.tpiParams := rfl
@[simp] theorem State.withRequest_rxf (sc : HostScope) (cm : Byte) (p : Payload) :
    (s.withRequest sc cm p).rxf = s.rxf := rfl
@[simp] theorem State.withRequest_opi (sc : HostScope) (cm : Byte) (p : Payload) :
    (s.withRequest sc cm p).opi = s.opi := rfl
@[simp] theorem State.withRequest_ph (sc : HostScope) (cm : Byte) (p : Payload) :
    (s.withRequest sc cm p).ph = s.ph := rfl
@[simp] theorem State.withRequest_tclk (sc : HostScope) (cm : Byte) (p : Payload) :
    (s.withRequest sc cm p).tclk = s.tclk := rfl
@[simp] theorem State.withRequest_tdat (sc : HostScope) (cm : Byte) (p : Payload) :
    (s.withRequest sc cm p).tdat = s.tdat := rfl
@[simp] theorem State.withRequest_hist (sc : HostScope) (cm : Byte) (p : Payload) :
    (s.withRequest sc cm p).hist = s.hist := rfl
@[simp] theorem State.withRequest_res (sc : HostScope) (cm : Byte) (p : Payload) :
    (s.withRequest sc cm p).res = s.res := rfl
@[simp] theorem State.withRequest_env (sc : HostScope) (cm : Byte) (p : Payload) :
    (s.withRequest sc cm p).env = s.env := rfl
@[simp] theorem State.withRequest_cfg (sc : HostScope) (cm : Byte) (p : Payload) :
    (s.withRequest sc cm p).cfg = s.cfg := rfl

/-! ## State.stamp -/

@[simp] theorem State.stamp_cb (t : Time) : (s.stamp t).cb = s.cb := rfl
@[simp] theorem State.stamp_sess (t : Time) : (s.stamp t).sess = s.sess := rfl
@[simp] theorem State.stamp_ui (t : Time) : (s.stamp t).ui = s.ui := rfl
@[simp] theorem State.stamp_dd (t : Time) : (s.stamp t).dd = s.dd := rfl
@[simp] theorem State.stamp_ct (t : Time) : (s.stamp t).ct = s.ct := rfl
@[simp] theorem State.stamp_sib (t : Time) : (s.stamp t).sib = s.sib := rfl
@[simp] theorem State.stamp_beforePage (t : Time) : (s.stamp t).beforePage = s.beforePage := rfl
@[simp] theorem State.stamp_clk (t : Time) : (s.stamp t).clk = s.clk := rfl
@[simp] theorem State.stamp_wdArmed (t : Time) : (s.stamp t).wdArmed = s.wdArmed := rfl
@[simp] theorem State.stamp_wdCnt (t : Time) : (s.stamp t).wdCnt = t.cnt := rfl
@[simp] theorem State.stamp_wdDeadline (t : Time) : (s.stamp t).wdDeadline = s.wdDeadline := rfl
@[simp] theorem State.stamp_arch (t : Time) : (s.stamp t).arch = s.arch := rfl
@[simp] theorem State.stamp_umode (t : Time) : (s.stamp t).umode = s.umode := rfl
@[simp] theorem State.stamp_trstBtn (t : Time) : (s.stamp t).trstBtn = s.trstBtn := rfl
@[simp] theorem State.stamp_trstEng (t : Time) : (s.stamp t).trstEng = s.trstEng := rfl
@[simp] theorem State.stamp_swPrev (t : Time) : (s.stamp t).swPrev = s.swPrev := rfl
@[simp] theorem State.stamp_tpiChunk (t : Time) : (s.stamp t).tpiChunk = s.tpiChunk := rfl
@[simp] theorem State.stamp_tpiParams (t : Time) : (s.stamp t).tpiParams = s.tpiParams := rfl
@[simp] theorem State.stamp_rxf (t : Time) : (s.stamp t).rxf = s.rxf := rfl
@[simp] theorem State.stamp_opi (t : Time) : (s.stamp t).opi = s.opi := rfl
@[simp] theorem State.stamp_ph (t : Time) : (s.stamp t).ph = t.ph := rfl
@[simp] theorem State.stamp_tclk (t : Time) : (s.stamp t).tclk = s.tclk := rfl
@[simp] theorem State.stamp_tdat (t : Time) : (s.stamp t).tdat = s.tdat := rfl
@[simp] theorem State.stamp_hist (t : Time) : (s.stamp t).hist = s.hist := rfl
@[simp] theorem State.stamp_res (t : Time) : (s.stamp t).res = s.res := rfl
@[simp] theorem State.stamp_env_stream (t : Time) : (s.stamp t).env.stream = s.env.stream := rfl
@[simp] theorem State.stamp_env_line (t : Time) : (s.stamp t).env.line = s.env.line := rfl
@[simp] theorem State.stamp_env_delays (t : Time) : (s.stamp t).env.delays = t.delays := rfl
@[simp] theorem State.stamp_env_ie (t : Time) : (s.stamp t).env.ie = s.env.ie := rfl
@[simp] theorem State.stamp_env_vtg (t : Time) : (s.stamp t).env.vtg = s.env.vtg := rfl
@[simp] theorem State.stamp_env_pend (t : Time) : (s.stamp t).env.pend = s.env.pend := rfl
@[simp] theorem State.stamp_cfg (t : Time) : (s.stamp t).cfg = s.cfg := rfl

/-! ## State.moved -/

@[simp] theorem State.moved_cb (e : Engine) (ms : List Move) (rest : List LineEvent) :
    (s.moved e ms rest).cb = s.cb := rfl
@[simp] theorem State.moved_sess (e : Engine) (ms : List Move) (rest : List LineEvent) :
    (s.moved e ms rest).sess = s.sess := rfl
@[simp] theorem State.moved_ui (e : Engine) (ms : List Move) (rest : List LineEvent) :
    (s.moved e ms rest).ui = s.ui := rfl
@[simp] theorem State.moved_dd (e : Engine) (ms : List Move) (rest : List LineEvent) :
    (s.moved e ms rest).dd = s.dd := rfl
@[simp] theorem State.moved_ct (e : Engine) (ms : List Move) (rest : List LineEvent) :
    (s.moved e ms rest).ct = s.ct := rfl
@[simp] theorem State.moved_sib (e : Engine) (ms : List Move) (rest : List LineEvent) :
    (s.moved e ms rest).sib = s.sib := rfl
@[simp] theorem State.moved_beforePage (e : Engine) (ms : List Move) (rest : List LineEvent) :
    (s.moved e ms rest).beforePage = s.beforePage := rfl
@[simp] theorem State.moved_clk (e : Engine) (ms : List Move) (rest : List LineEvent) :
    (s.moved e ms rest).clk = s.clk := rfl
@[simp] theorem State.moved_wdArmed (e : Engine) (ms : List Move) (rest : List LineEvent) :
    (s.moved e ms rest).wdArmed = s.wdArmed := rfl
@[simp] theorem State.moved_wdCnt (e : Engine) (ms : List Move) (rest : List LineEvent) :
    (s.moved e ms rest).wdCnt = s.wdCnt := rfl
@[simp] theorem State.moved_wdDeadline (e : Engine) (ms : List Move) (rest : List LineEvent) :
    (s.moved e ms rest).wdDeadline = s.wdDeadline := rfl
@[simp] theorem State.moved_arch (e : Engine) (ms : List Move) (rest : List LineEvent) :
    (s.moved e ms rest).arch = s.arch := rfl
@[simp] theorem State.moved_umode (e : Engine) (ms : List Move) (rest : List LineEvent) :
    (s.moved e ms rest).umode = s.umode := rfl
@[simp] theorem State.moved_trstBtn (e : Engine) (ms : List Move) (rest : List LineEvent) :
    (s.moved e ms rest).trstBtn = s.trstBtn := rfl
@[simp] theorem State.moved_trstEng (e : Engine) (ms : List Move) (rest : List LineEvent) :
    (s.moved e ms rest).trstEng = s.trstEng := rfl
@[simp] theorem State.moved_swPrev (e : Engine) (ms : List Move) (rest : List LineEvent) :
    (s.moved e ms rest).swPrev = s.swPrev := rfl
@[simp] theorem State.moved_tpiChunk (e : Engine) (ms : List Move) (rest : List LineEvent) :
    (s.moved e ms rest).tpiChunk = s.tpiChunk := rfl
@[simp] theorem State.moved_tpiParams (e : Engine) (ms : List Move) (rest : List LineEvent) :
    (s.moved e ms rest).tpiParams = s.tpiParams := rfl
@[simp] theorem State.moved_rxf (e : Engine) (ms : List Move) (rest : List LineEvent) :
    (s.moved e ms rest).rxf = if (lineOf e ms).isEmpty then s.rxf else RxFlags.clear := rfl
@[simp] theorem State.moved_opi (e : Engine) (ms : List Move) (rest : List LineEvent) :
    (s.moved e ms rest).opi = s.opi := rfl
@[simp] theorem State.moved_ph (e : Engine) (ms : List Move) (rest : List LineEvent) :
    (s.moved e ms rest).ph = s.ph := rfl
@[simp] theorem State.moved_tclk (e : Engine) (ms : List Move) (rest : List LineEvent) :
    (s.moved e ms rest).tclk = (s.tclk || ms.any (moveStartsClock e)) := rfl
@[simp] theorem State.moved_tdat (e : Engine) (ms : List Move) (rest : List LineEvent) :
    (s.moved e ms rest).tdat = ms.foldl (tdatAfter e) s.tdat := rfl
@[simp] theorem State.moved_hist (e : Engine) (ms : List Move) (rest : List LineEvent) :
    (s.moved e ms rest).hist = (eventsOf e s.tclk ms).reverse ++ s.hist := rfl
@[simp] theorem State.moved_res (e : Engine) (ms : List Move) (rest : List LineEvent) :
    (s.moved e ms rest).res = s.res := rfl
@[simp] theorem State.moved_env_stream (e : Engine) (ms : List Move) (rest : List LineEvent) :
    (s.moved e ms rest).env.stream = s.env.stream := rfl
@[simp] theorem State.moved_env_line (e : Engine) (ms : List Move) (rest : List LineEvent) :
    (s.moved e ms rest).env.line = rest := rfl
@[simp] theorem State.moved_env_delays (e : Engine) (ms : List Move) (rest : List LineEvent) :
    (s.moved e ms rest).env.delays = s.env.delays := rfl
@[simp] theorem State.moved_env_ie (e : Engine) (ms : List Move) (rest : List LineEvent) :
    (s.moved e ms rest).env.ie = s.env.ie := rfl
@[simp] theorem State.moved_env_vtg (e : Engine) (ms : List Move) (rest : List LineEvent) :
    (s.moved e ms rest).env.vtg = s.env.vtg := rfl
@[simp] theorem State.moved_env_pend (e : Engine) (ms : List Move) (rest : List LineEvent) :
    (s.moved e ms rest).env.pend = s.env.pend := rfl
@[simp] theorem State.moved_cfg (e : Engine) (ms : List Move) (rest : List LineEvent) :
    (s.moved e ms rest).cfg = s.cfg := rfl

/-! ## State.takeRecord -/

@[simp] theorem State.takeRecord_cb (r : List Byte) (rest : List (List Byte)) :
    (s.takeRecord r rest).cb = { s.cb with seq := recordSeq s.cfg.scopes r } := rfl
@[simp] theorem State.takeRecord_sess (r : List Byte) (rest : List (List Byte)) :
    (s.takeRecord r rest).sess = s.sess := rfl
@[simp] theorem State.takeRecord_ui (r : List Byte) (rest : List (List Byte)) : (s.takeRecord r rest).ui = s.ui := rfl
@[simp] theorem State.takeRecord_dd (r : List Byte) (rest : List (List Byte)) : (s.takeRecord r rest).dd = s.dd := rfl
@[simp] theorem State.takeRecord_ct (r : List Byte) (rest : List (List Byte)) : (s.takeRecord r rest).ct = s.ct := rfl
@[simp] theorem State.takeRecord_sib (r : List Byte) (rest : List (List Byte)) :
    (s.takeRecord r rest).sib = s.sib := rfl
@[simp] theorem State.takeRecord_beforePage (r : List Byte) (rest : List (List Byte)) :
    (s.takeRecord r rest).beforePage = s.beforePage := rfl
@[simp] theorem State.takeRecord_clk (r : List Byte) (rest : List (List Byte)) :
    (s.takeRecord r rest).clk = s.clk := rfl
@[simp] theorem State.takeRecord_wdArmed (r : List Byte) (rest : List (List Byte)) :
    (s.takeRecord r rest).wdArmed = s.wdArmed := rfl
@[simp] theorem State.takeRecord_wdCnt (r : List Byte) (rest : List (List Byte)) :
    (s.takeRecord r rest).wdCnt = s.wdCnt := rfl
@[simp] theorem State.takeRecord_wdDeadline (r : List Byte) (rest : List (List Byte)) :
    (s.takeRecord r rest).wdDeadline = s.wdDeadline := rfl
@[simp] theorem State.takeRecord_arch (r : List Byte) (rest : List (List Byte)) :
    (s.takeRecord r rest).arch = s.arch := rfl
@[simp] theorem State.takeRecord_umode (r : List Byte) (rest : List (List Byte)) :
    (s.takeRecord r rest).umode = s.umode := rfl
@[simp] theorem State.takeRecord_trstBtn (r : List Byte) (rest : List (List Byte)) :
    (s.takeRecord r rest).trstBtn = s.trstBtn := rfl
@[simp] theorem State.takeRecord_trstEng (r : List Byte) (rest : List (List Byte)) :
    (s.takeRecord r rest).trstEng = s.trstEng := rfl
@[simp] theorem State.takeRecord_swPrev (r : List Byte) (rest : List (List Byte)) :
    (s.takeRecord r rest).swPrev = s.swPrev := rfl
@[simp] theorem State.takeRecord_tpiChunk (r : List Byte) (rest : List (List Byte)) :
    (s.takeRecord r rest).tpiChunk = s.tpiChunk := rfl
@[simp] theorem State.takeRecord_tpiParams (r : List Byte) (rest : List (List Byte)) :
    (s.takeRecord r rest).tpiParams = s.tpiParams := rfl
@[simp] theorem State.takeRecord_rxf (r : List Byte) (rest : List (List Byte)) :
    (s.takeRecord r rest).rxf = s.rxf := rfl
@[simp] theorem State.takeRecord_opi (r : List Byte) (rest : List (List Byte)) :
    (s.takeRecord r rest).opi = s.opi := rfl
@[simp] theorem State.takeRecord_ph (r : List Byte) (rest : List (List Byte)) : (s.takeRecord r rest).ph = s.ph := rfl
@[simp] theorem State.takeRecord_tclk (r : List Byte) (rest : List (List Byte)) :
    (s.takeRecord r rest).tclk = s.tclk := rfl
@[simp] theorem State.takeRecord_tdat (r : List Byte) (rest : List (List Byte)) :
    (s.takeRecord r rest).tdat = s.tdat := rfl
@[simp] theorem State.takeRecord_hist (r : List Byte) (rest : List (List Byte)) :
    (s.takeRecord r rest).hist = s.hist := rfl
@[simp] theorem State.takeRecord_res (r : List Byte) (rest : List (List Byte)) :
    (s.takeRecord r rest).res = s.res := rfl
@[simp] theorem State.takeRecord_env_stream (r : List Byte) (rest : List (List Byte)) :
    (s.takeRecord r rest).env.stream = rest := rfl
@[simp] theorem State.takeRecord_env_line (r : List Byte) (rest : List (List Byte)) :
    (s.takeRecord r rest).env.line = s.env.line := rfl
@[simp] theorem State.takeRecord_env_delays (r : List Byte) (rest : List (List Byte)) :
    (s.takeRecord r rest).env.delays = s.env.delays := rfl
@[simp] theorem State.takeRecord_env_ie (r : List Byte) (rest : List (List Byte)) :
    (s.takeRecord r rest).env.ie = s.env.ie := rfl
@[simp] theorem State.takeRecord_env_vtg (r : List Byte) (rest : List (List Byte)) :
    (s.takeRecord r rest).env.vtg = s.env.vtg := rfl
@[simp] theorem State.takeRecord_env_pend (r : List Byte) (rest : List (List Byte)) :
    (s.takeRecord r rest).env.pend = s.env.pend := rfl
@[simp] theorem State.takeRecord_cfg (r : List Byte) (rest : List (List Byte)) :
    (s.takeRecord r rest).cfg = s.cfg := rfl

/-! ## State.setPend -/

@[simp] theorem State.setPend_cb (p : Pending) : (s.setPend p).cb = s.cb := rfl
@[simp] theorem State.setPend_sess (p : Pending) : (s.setPend p).sess = s.sess := rfl
@[simp] theorem State.setPend_ui (p : Pending) : (s.setPend p).ui = s.ui := rfl
@[simp] theorem State.setPend_dd (p : Pending) : (s.setPend p).dd = s.dd := rfl
@[simp] theorem State.setPend_ct (p : Pending) : (s.setPend p).ct = s.ct := rfl
@[simp] theorem State.setPend_sib (p : Pending) : (s.setPend p).sib = s.sib := rfl
@[simp] theorem State.setPend_beforePage (p : Pending) : (s.setPend p).beforePage = s.beforePage := rfl
@[simp] theorem State.setPend_clk (p : Pending) : (s.setPend p).clk = s.clk := rfl
@[simp] theorem State.setPend_wdArmed (p : Pending) : (s.setPend p).wdArmed = s.wdArmed := rfl
@[simp] theorem State.setPend_wdCnt (p : Pending) : (s.setPend p).wdCnt = s.wdCnt := rfl
@[simp] theorem State.setPend_wdDeadline (p : Pending) : (s.setPend p).wdDeadline = s.wdDeadline := rfl
@[simp] theorem State.setPend_arch (p : Pending) : (s.setPend p).arch = s.arch := rfl
@[simp] theorem State.setPend_umode (p : Pending) : (s.setPend p).umode = s.umode := rfl
@[simp] theorem State.setPend_trstBtn (p : Pending) : (s.setPend p).trstBtn = s.trstBtn := rfl
@[simp] theorem State.setPend_trstEng (p : Pending) : (s.setPend p).trstEng = s.trstEng := rfl
@[simp] theorem State.setPend_swPrev (p : Pending) : (s.setPend p).swPrev = s.swPrev := rfl
@[simp] theorem State.setPend_tpiChunk (p : Pending) : (s.setPend p).tpiChunk = s.tpiChunk := rfl
@[simp] theorem State.setPend_tpiParams (p : Pending) : (s.setPend p).tpiParams = s.tpiParams := rfl
@[simp] theorem State.setPend_rxf (p : Pending) : (s.setPend p).rxf = s.rxf := rfl
@[simp] theorem State.setPend_opi (p : Pending) : (s.setPend p).opi = s.opi := rfl
@[simp] theorem State.setPend_ph (p : Pending) : (s.setPend p).ph = s.ph := rfl
@[simp] theorem State.setPend_tclk (p : Pending) : (s.setPend p).tclk = s.tclk := rfl
@[simp] theorem State.setPend_tdat (p : Pending) : (s.setPend p).tdat = s.tdat := rfl
@[simp] theorem State.setPend_hist (p : Pending) : (s.setPend p).hist = s.hist := rfl
@[simp] theorem State.setPend_res (p : Pending) : (s.setPend p).res = s.res := rfl
@[simp] theorem State.setPend_env_stream (p : Pending) : (s.setPend p).env.stream = s.env.stream := rfl
@[simp] theorem State.setPend_env_line (p : Pending) : (s.setPend p).env.line = s.env.line := rfl
@[simp] theorem State.setPend_env_delays (p : Pending) : (s.setPend p).env.delays = s.env.delays := rfl
@[simp] theorem State.setPend_env_ie (p : Pending) : (s.setPend p).env.ie = s.env.ie := rfl
@[simp] theorem State.setPend_env_vtg (p : Pending) : (s.setPend p).env.vtg = s.env.vtg := rfl
@[simp] theorem State.setPend_env_pend (p : Pending) : (s.setPend p).env.pend = p := rfl
@[simp] theorem State.setPend_cfg (p : Pending) : (s.setPend p).cfg = s.cfg := rfl

/-! ## State.elapse -/

@[simp] theorem State.elapse_cb : s.elapse.cb = s.cb := by unfold State.elapse; split <;> rfl
@[simp] theorem State.elapse_sess : s.elapse.sess = s.sess := by unfold State.elapse; split <;> rfl
@[simp] theorem State.elapse_ui : s.elapse.ui = s.ui := by unfold State.elapse; split <;> rfl
@[simp] theorem State.elapse_dd : s.elapse.dd = s.dd := by unfold State.elapse; split <;> rfl
@[simp] theorem State.elapse_ct : s.elapse.ct = s.ct := by unfold State.elapse; split <;> rfl
@[simp] theorem State.elapse_sib : s.elapse.sib = s.sib := by unfold State.elapse; split <;> rfl
@[simp] theorem State.elapse_beforePage : s.elapse.beforePage = s.beforePage := by unfold State.elapse; split <;> rfl
@[simp] theorem State.elapse_clk : s.elapse.clk = s.clk := by unfold State.elapse; split <;> rfl
@[simp] theorem State.elapse_wdArmed : s.elapse.wdArmed = s.wdArmed := by unfold State.elapse; split <;> rfl
@[simp] theorem State.elapse_wdDeadline : s.elapse.wdDeadline = s.wdDeadline := by unfold State.elapse; split <;> rfl
@[simp] theorem State.elapse_arch : s.elapse.arch = s.arch := by unfold State.elapse; split <;> rfl
@[simp] theorem State.elapse_umode : s.elapse.umode = s.umode := by unfold State.elapse; split <;> rfl
@[simp] theorem State.elapse_trstBtn : s.elapse.trstBtn = s.trstBtn := by unfold State.elapse; split <;> rfl
@[simp] theorem State.elapse_trstEng : s.elapse.trstEng = s.trstEng := by unfold State.elapse; split <;> rfl
@[simp] theorem State.elapse_swPrev : s.elapse.swPrev = s.swPrev := by unfold State.elapse; split <;> rfl
@[simp] theorem State.elapse_tpiChunk : s.elapse.tpiChunk = s.tpiChunk := by unfold State.elapse; split <;> rfl
@[simp] theorem State.elapse_tpiParams : s.elapse.tpiParams = s.tpiParams := by unfold State.elapse; split <;> rfl
@[simp] theorem State.elapse_rxf : s.elapse.rxf = s.rxf := by unfold State.elapse; split <;> rfl
@[simp] theorem State.elapse_opi : s.elapse.opi = s.opi := by unfold State.elapse; split <;> rfl
@[simp] theorem State.elapse_ph : s.elapse.ph = s.ph := by unfold State.elapse; split <;> rfl
@[simp] theorem State.elapse_tclk : s.elapse.tclk = s.tclk := by unfold State.elapse; split <;> rfl
@[simp] theorem State.elapse_tdat : s.elapse.tdat = s.tdat := by unfold State.elapse; split <;> rfl
@[simp] theorem State.elapse_hist : s.elapse.hist = s.hist := by unfold State.elapse; split <;> rfl
@[simp] theorem State.elapse_res : s.elapse.res = s.res := by unfold State.elapse; split <;> rfl
@[simp] theorem State.elapse_cfg : s.elapse.cfg = s.cfg := by unfold State.elapse; split <;> rfl
@[simp] theorem State.elapse_env_stream : s.elapse.env.stream = s.env.stream := by unfold State.elapse; split <;> rfl
@[simp] theorem State.elapse_env_line : s.elapse.env.line = s.env.line := by unfold State.elapse; split <;> rfl
@[simp] theorem State.elapse_env_ie : s.elapse.env.ie = s.env.ie := by unfold State.elapse; split <;> rfl
@[simp] theorem State.elapse_env_vtg : s.elapse.env.vtg = s.env.vtg := by unfold State.elapse; split <;> rfl
@[simp] theorem State.elapse_env_pend : s.elapse.env.pend = s.env.pend := by unfold State.elapse; split <;> rfl

/-! ## State.setClk -/

@[simp] theorem State.setClk_cb (c : Nat) : (s.setClk c).cb = s.cb := by unfold State.setClk; split <;> rfl
@[simp] theorem State.setClk_sess (c : Nat) : (s.setClk c).sess = s.sess := by unfold State.setClk; split <;> rfl
@[simp] theorem State.setClk_ui (c : Nat) : (s.setClk c).ui = s.ui := by unfold State.setClk; split <;> rfl
@[simp] theorem State.setClk_dd (c : Nat) : (s.setClk c).dd = s.dd := by unfold State.setClk; split <;> rfl
@[simp] theorem State.setClk_ct (c : Nat) : (s.setClk c).ct = s.ct := by unfold State.setClk; split <;> rfl
@[simp] theorem State.setClk_sib (c : Nat) : (s.setClk c).sib = s.sib := by unfold State.setClk; split <;> rfl
@[simp] theorem State.setClk_beforePage (c : Nat) :
    (s.setClk c).beforePage = s.beforePage := by unfold State.setClk; split <;> rfl
@[simp] theorem State.setClk_wdArmed (c : Nat) :
    (s.setClk c).wdArmed = s.wdArmed := by unfold State.setClk; split <;> rfl
@[simp] theorem State.setClk_wdCnt (c : Nat) : (s.setClk c).wdCnt = s.wdCnt := by unfold State.setClk; split <;> rfl
@[simp] theorem State.setClk_wdDeadline (c : Nat) :
    (s.setClk c).wdDeadline = s.wdDeadline := by unfold State.setClk; split <;> rfl
@[simp] theorem State.setClk_arch (c : Nat) : (s.setClk c).arch = s.arch := by unfold State.setClk; split <;> rfl
@[simp] theorem State.setClk_umode (c : Nat) : (s.setClk c).umode = s.umode := by unfold State.setClk; split <;> rfl
@[simp] theorem State.setClk_trstBtn (c : Nat) :
    (s.setClk c).trstBtn = s.trstBtn := by unfold State.setClk; split <;> rfl
@[simp] theorem State.setClk_trstEng (c : Nat) :
    (s.setClk c).trstEng = s.trstEng := by unfold State.setClk; split <;> rfl
@[simp] theorem State.setClk_swPrev (c : Nat) :
    (s.setClk c).swPrev = s.swPrev := by unfold State.setClk; split <;> rfl
@[simp] theorem State.setClk_tpiChunk (c : Nat) :
    (s.setClk c).tpiChunk = s.tpiChunk := by unfold State.setClk; split <;> rfl
@[simp] theorem State.setClk_tpiParams (c : Nat) :
    (s.setClk c).tpiParams = s.tpiParams := by unfold State.setClk; split <;> rfl
@[simp] theorem State.setClk_rxf (c : Nat) : (s.setClk c).rxf = s.rxf := by unfold State.setClk; split <;> rfl
@[simp] theorem State.setClk_opi (c : Nat) : (s.setClk c).opi = s.opi := by unfold State.setClk; split <;> rfl
@[simp] theorem State.setClk_ph (c : Nat) : (s.setClk c).ph = s.ph := by unfold State.setClk; split <;> rfl
@[simp] theorem State.setClk_tclk (c : Nat) : (s.setClk c).tclk = s.tclk := by unfold State.setClk; split <;> rfl
@[simp] theorem State.setClk_tdat (c : Nat) : (s.setClk c).tdat = s.tdat := by unfold State.setClk; split <;> rfl
@[simp] theorem State.setClk_res (c : Nat) : (s.setClk c).res = s.res := by unfold State.setClk; split <;> rfl
@[simp] theorem State.setClk_env (c : Nat) : (s.setClk c).env = s.env := by unfold State.setClk; split <;> rfl
@[simp] theorem State.setClk_cfg (c : Nat) : (s.setClk c).cfg = s.cfg := by unfold State.setClk; split <;> rfl
@[simp] theorem State.setClk_clk (c : Nat) : (s.setClk c).clk = c := by
  unfold State.setClk; split
  · assumption
  · rfl
@[simp] theorem State.setClk_hist (c : Nat) :
    (s.setClk c).hist = if s.clk = c then s.hist else .rateSet c :: s.hist := by unfold State.setClk; split <;> rfl

/-! ## State.driveTdat -/

@[simp] theorem State.driveTdat_cb (e : Engine) : (s.driveTdat e).cb = s.cb := rfl
@[simp] theorem State.driveTdat_sess (e : Engine) : (s.driveTdat e).sess = s.sess := rfl
@[simp] theorem State.driveTdat_ui (e : Engine) : (s.driveTdat e).ui = s.ui := rfl
@[simp] theorem State.driveTdat_dd (e : Engine) : (s.driveTdat e).dd = s.dd := rfl
@[simp] theorem State.driveTdat_ct (e : Engine) : (s.driveTdat e).ct = s.ct := rfl
@[simp] theorem State.driveTdat_sib (e : Engine) : (s.driveTdat e).sib = s.sib := rfl
@[simp] theorem State.driveTdat_beforePage (e : Engine) : (s.driveTdat e).beforePage = s.beforePage := rfl
@[simp] theorem State.driveTdat_clk (e : Engine) : (s.driveTdat e).clk = s.clk := rfl
@[simp] theorem State.driveTdat_wdArmed (e : Engine) : (s.driveTdat e).wdArmed = s.wdArmed := rfl
@[simp] theorem State.driveTdat_wdCnt (e : Engine) : (s.driveTdat e).wdCnt = s.wdCnt := rfl
@[simp] theorem State.driveTdat_wdDeadline (e : Engine) : (s.driveTdat e).wdDeadline = s.wdDeadline := rfl
@[simp] theorem State.driveTdat_arch (e : Engine) : (s.driveTdat e).arch = s.arch := rfl
@[simp] theorem State.driveTdat_umode (e : Engine) : (s.driveTdat e).umode = s.umode := rfl
@[simp] theorem State.driveTdat_trstBtn (e : Engine) : (s.driveTdat e).trstBtn = s.trstBtn := rfl
@[simp] theorem State.driveTdat_trstEng (e : Engine) : (s.driveTdat e).trstEng = s.trstEng := rfl
@[simp] theorem State.driveTdat_swPrev (e : Engine) : (s.driveTdat e).swPrev = s.swPrev := rfl
@[simp] theorem State.driveTdat_tpiChunk (e : Engine) : (s.driveTdat e).tpiChunk = s.tpiChunk := rfl
@[simp] theorem State.driveTdat_tpiParams (e : Engine) : (s.driveTdat e).tpiParams = s.tpiParams := rfl
@[simp] theorem State.driveTdat_rxf (e : Engine) : (s.driveTdat e).rxf = s.rxf := rfl
@[simp] theorem State.driveTdat_opi (e : Engine) : (s.driveTdat e).opi = s.opi := rfl
@[simp] theorem State.driveTdat_ph (e : Engine) : (s.driveTdat e).ph = s.ph := rfl
@[simp] theorem State.driveTdat_tclk (e : Engine) : (s.driveTdat e).tclk = s.tclk := rfl
@[simp] theorem State.driveTdat_tdat (e : Engine) : (s.driveTdat e).tdat = some (engineDrive e) := rfl
@[simp] theorem State.driveTdat_hist (e : Engine) : (s.driveTdat e).hist = s.hist := rfl
@[simp] theorem State.driveTdat_res (e : Engine) : (s.driveTdat e).res = s.res := rfl
@[simp] theorem State.driveTdat_env (e : Engine) : (s.driveTdat e).env = s.env := rfl
@[simp] theorem State.driveTdat_cfg (e : Engine) : (s.driveTdat e).cfg = s.cfg := rfl

/-! ## State.freeTdat -/

@[simp] theorem State.freeTdat_cb : s.freeTdat.cb = s.cb := rfl
@[simp] theorem State.freeTdat_sess : s.freeTdat.sess = s.sess := rfl
@[simp] theorem State.freeTdat_ui : s.freeTdat.ui = s.ui := rfl
@[simp] theorem State.freeTdat_dd : s.freeTdat.dd = s.dd := rfl
@[simp] theorem State.freeTdat_ct : s.freeTdat.ct = s.ct := rfl
@[simp] theorem State.freeTdat_sib : s.freeTdat.sib = s.sib := rfl
@[simp] theorem State.freeTdat_beforePage : s.freeTdat.beforePage = s.beforePage := rfl
@[simp] theorem State.freeTdat_clk : s.freeTdat.clk = s.clk := rfl
@[simp] theorem State.freeTdat_wdArmed : s.freeTdat.wdArmed = s.wdArmed := rfl
@[simp] theorem State.freeTdat_wdCnt : s.freeTdat.wdCnt = s.wdCnt := rfl
@[simp] theorem State.freeTdat_wdDeadline : s.freeTdat.wdDeadline = s.wdDeadline := rfl
@[simp] theorem State.freeTdat_arch : s.freeTdat.arch = s.arch := rfl
@[simp] theorem State.freeTdat_umode : s.freeTdat.umode = s.umode := rfl
@[simp] theorem State.freeTdat_trstBtn : s.freeTdat.trstBtn = s.trstBtn := rfl
@[simp] theorem State.freeTdat_trstEng : s.freeTdat.trstEng = s.trstEng := rfl
@[simp] theorem State.freeTdat_swPrev : s.freeTdat.swPrev = s.swPrev := rfl
@[simp] theorem State.freeTdat_tpiChunk : s.freeTdat.tpiChunk = s.tpiChunk := rfl
@[simp] theorem State.freeTdat_tpiParams : s.freeTdat.tpiParams = s.tpiParams := rfl
@[simp] theorem State.freeTdat_rxf : s.freeTdat.rxf = s.rxf := rfl
@[simp] theorem State.freeTdat_opi : s.freeTdat.opi = s.opi := rfl
@[simp] theorem State.freeTdat_ph : s.freeTdat.ph = s.ph := rfl
@[simp] theorem State.freeTdat_tclk : s.freeTdat.tclk = s.tclk := rfl
@[simp] theorem State.freeTdat_tdat : s.freeTdat.tdat = none := rfl
@[simp] theorem State.freeTdat_hist : s.freeTdat.hist = s.hist := rfl
@[simp] theorem State.freeTdat_res : s.freeTdat.res = s.res := rfl
@[simp] theorem State.freeTdat_env : s.freeTdat.env = s.env := rfl
@[simp] theorem State.freeTdat_cfg : s.freeTdat.cfg = s.cfg := rfl

/-! ## State.runTclk -/

@[simp] theorem State.runTclk_cb : s.runTclk.cb = s.cb := rfl
@[simp] theorem State.runTclk_sess : s.runTclk.sess = s.sess := rfl
@[simp] theorem State.runTclk_ui : s.runTclk.ui = s.ui := rfl
@[simp] theorem State.runTclk_dd : s.runTclk.dd = s.dd := rfl
@[simp] theorem State.runTclk_ct : s.runTclk.ct = s.ct := rfl
@[simp] theorem State.runTclk_sib : s.runTclk.sib = s.sib := rfl
@[simp] theorem State.runTclk_beforePage : s.runTclk.beforePage = s.beforePage := rfl
@[simp] theorem State.runTclk_clk : s.runTclk.clk = s.clk := rfl
@[simp] theorem State.runTclk_wdArmed : s.runTclk.wdArmed = s.wdArmed := rfl
@[simp] theorem State.runTclk_wdCnt : s.runTclk.wdCnt = s.wdCnt := rfl
@[simp] theorem State.runTclk_wdDeadline : s.runTclk.wdDeadline = s.wdDeadline := rfl
@[simp] theorem State.runTclk_arch : s.runTclk.arch = s.arch := rfl
@[simp] theorem State.runTclk_umode : s.runTclk.umode = s.umode := rfl
@[simp] theorem State.runTclk_trstBtn : s.runTclk.trstBtn = s.trstBtn := rfl
@[simp] theorem State.runTclk_trstEng : s.runTclk.trstEng = s.trstEng := rfl
@[simp] theorem State.runTclk_swPrev : s.runTclk.swPrev = s.swPrev := rfl
@[simp] theorem State.runTclk_tpiChunk : s.runTclk.tpiChunk = s.tpiChunk := rfl
@[simp] theorem State.runTclk_tpiParams : s.runTclk.tpiParams = s.tpiParams := rfl
@[simp] theorem State.runTclk_rxf : s.runTclk.rxf = s.rxf := rfl
@[simp] theorem State.runTclk_opi : s.runTclk.opi = s.opi := rfl
@[simp] theorem State.runTclk_ph : s.runTclk.ph = s.ph := rfl
@[simp] theorem State.runTclk_tclk : s.runTclk.tclk = (s.tclk || s.umode.isSync) := rfl
@[simp] theorem State.runTclk_tdat : s.runTclk.tdat = s.tdat := rfl
@[simp] theorem State.runTclk_hist : s.runTclk.hist = (if s.umode.isSync && !s.tclk then .clkStart :: s.hist else s.hist) := rfl
@[simp] theorem State.runTclk_res : s.runTclk.res = s.res := rfl
@[simp] theorem State.runTclk_env : s.runTclk.env = s.env := rfl
@[simp] theorem State.runTclk_cfg : s.runTclk.cfg = s.cfg := rfl

/-! ## State.listen -/

@[simp] theorem State.listen_cb : s.listen.cb = s.cb := rfl
@[simp] theorem State.listen_sess : s.listen.sess = s.sess := rfl
@[simp] theorem State.listen_ui : s.listen.ui = s.ui := rfl
@[simp] theorem State.listen_dd : s.listen.dd = s.dd := rfl
@[simp] theorem State.listen_ct : s.listen.ct = s.ct := rfl
@[simp] theorem State.listen_sib : s.listen.sib = s.sib := rfl
@[simp] theorem State.listen_beforePage : s.listen.beforePage = s.beforePage := rfl
@[simp] theorem State.listen_clk : s.listen.clk = s.clk := rfl
@[simp] theorem State.listen_wdArmed : s.listen.wdArmed = s.wdArmed := rfl
@[simp] theorem State.listen_wdCnt : s.listen.wdCnt = s.wdCnt := rfl
@[simp] theorem State.listen_wdDeadline : s.listen.wdDeadline = s.wdDeadline := rfl
@[simp] theorem State.listen_arch : s.listen.arch = s.arch := rfl
@[simp] theorem State.listen_umode : s.listen.umode = s.umode := rfl
@[simp] theorem State.listen_trstBtn : s.listen.trstBtn = s.trstBtn := rfl
@[simp] theorem State.listen_trstEng : s.listen.trstEng = s.trstEng := rfl
@[simp] theorem State.listen_swPrev : s.listen.swPrev = s.swPrev := rfl
@[simp] theorem State.listen_tpiChunk : s.listen.tpiChunk = s.tpiChunk := rfl
@[simp] theorem State.listen_tpiParams : s.listen.tpiParams = s.tpiParams := rfl
@[simp] theorem State.listen_rxf : s.listen.rxf = s.rxf := rfl
@[simp] theorem State.listen_opi : s.listen.opi = s.opi := rfl
@[simp] theorem State.listen_ph : s.listen.ph = s.ph := rfl
@[simp] theorem State.listen_tclk : s.listen.tclk = (s.tclk || s.umode.isSync) := rfl
@[simp] theorem State.listen_tdat : s.listen.tdat = none := rfl
@[simp] theorem State.listen_hist : s.listen.hist = (if s.umode.isSync && !s.tclk then .clkStart :: s.hist else s.hist) := rfl
@[simp] theorem State.listen_res : s.listen.res = s.res := rfl
@[simp] theorem State.listen_env : s.listen.env = s.env := rfl
@[simp] theorem State.listen_cfg : s.listen.cfg = s.cfg := rfl

/-! ## State.quiesce -/

@[simp] theorem State.quiesce_cb : s.quiesce.cb = s.cb := rfl
@[simp] theorem State.quiesce_sess : s.quiesce.sess = s.sess := rfl
@[simp] theorem State.quiesce_ui : s.quiesce.ui = s.ui := rfl
@[simp] theorem State.quiesce_dd : s.quiesce.dd = s.dd := rfl
@[simp] theorem State.quiesce_ct : s.quiesce.ct = s.ct := rfl
@[simp] theorem State.quiesce_sib : s.quiesce.sib = s.sib := rfl
@[simp] theorem State.quiesce_beforePage : s.quiesce.beforePage = s.beforePage := rfl
@[simp] theorem State.quiesce_clk : s.quiesce.clk = s.clk := rfl
@[simp] theorem State.quiesce_wdArmed : s.quiesce.wdArmed = s.wdArmed := rfl
@[simp] theorem State.quiesce_wdCnt : s.quiesce.wdCnt = s.wdCnt := rfl
@[simp] theorem State.quiesce_wdDeadline : s.quiesce.wdDeadline = s.wdDeadline := rfl
@[simp] theorem State.quiesce_arch : s.quiesce.arch = s.arch := rfl
@[simp] theorem State.quiesce_umode : s.quiesce.umode = s.umode := rfl
@[simp] theorem State.quiesce_trstBtn : s.quiesce.trstBtn = s.trstBtn := rfl
@[simp] theorem State.quiesce_trstEng : s.quiesce.trstEng = s.trstEng := rfl
@[simp] theorem State.quiesce_swPrev : s.quiesce.swPrev = s.swPrev := rfl
@[simp] theorem State.quiesce_tpiChunk : s.quiesce.tpiChunk = s.tpiChunk := rfl
@[simp] theorem State.quiesce_tpiParams : s.quiesce.tpiParams = s.tpiParams := rfl
@[simp] theorem State.quiesce_rxf : s.quiesce.rxf = s.rxf := rfl
@[simp] theorem State.quiesce_opi : s.quiesce.opi = s.opi := rfl
@[simp] theorem State.quiesce_ph : s.quiesce.ph = s.ph := rfl
@[simp] theorem State.quiesce_tclk : s.quiesce.tclk = false := rfl
@[simp] theorem State.quiesce_tdat : s.quiesce.tdat = none := rfl
@[simp] theorem State.quiesce_hist : s.quiesce.hist = s.quiesceEvents ++ s.hist := rfl
@[simp] theorem State.quiesce_res : s.quiesce.res = s.res := rfl
@[simp] theorem State.quiesce_env : s.quiesce.env = s.env := rfl
@[simp] theorem State.quiesce_cfg : s.quiesce.cfg = s.cfg := rfl

/-! ## State.noteRate -/

@[simp] theorem State.noteRate_cb : s.noteRate.cb = s.cb := by unfold State.noteRate; split <;> rfl
@[simp] theorem State.noteRate_sess : s.noteRate.sess = s.sess := by unfold State.noteRate; split <;> rfl
@[simp] theorem State.noteRate_ui : s.noteRate.ui = s.ui := by unfold State.noteRate; split <;> rfl
@[simp] theorem State.noteRate_dd : s.noteRate.dd = s.dd := by unfold State.noteRate; split <;> rfl
@[simp] theorem State.noteRate_ct : s.noteRate.ct = s.ct := by unfold State.noteRate; split <;> rfl
@[simp] theorem State.noteRate_sib : s.noteRate.sib = s.sib := by unfold State.noteRate; split <;> rfl
@[simp] theorem State.noteRate_beforePage :
    s.noteRate.beforePage = s.beforePage := by unfold State.noteRate; split <;> rfl
@[simp] theorem State.noteRate_clk : s.noteRate.clk = s.clk := by unfold State.noteRate; split <;> rfl
@[simp] theorem State.noteRate_wdArmed : s.noteRate.wdArmed = s.wdArmed := by unfold State.noteRate; split <;> rfl
@[simp] theorem State.noteRate_wdCnt : s.noteRate.wdCnt = s.wdCnt := by unfold State.noteRate; split <;> rfl
@[simp] theorem State.noteRate_wdDeadline :
    s.noteRate.wdDeadline = s.wdDeadline := by unfold State.noteRate; split <;> rfl
@[simp] theorem State.noteRate_arch : s.noteRate.arch = s.arch := by unfold State.noteRate; split <;> rfl
@[simp] theorem State.noteRate_umode : s.noteRate.umode = s.umode := by unfold State.noteRate; split <;> rfl
@[simp] theorem State.noteRate_trstBtn : s.noteRate.trstBtn = s.trstBtn := by unfold State.noteRate; split <;> rfl
@[simp] theorem State.noteRate_trstEng : s.noteRate.trstEng = s.trstEng := by unfold State.noteRate; split <;> rfl
@[simp] theorem State.noteRate_swPrev : s.noteRate.swPrev = s.swPrev := by unfold State.noteRate; split <;> rfl
@[simp] theorem State.noteRate_tpiChunk : s.noteRate.tpiChunk = s.tpiChunk := by unfold State.noteRate; split <;> rfl
@[simp] theorem State.noteRate_tpiParams :
    s.noteRate.tpiParams = s.tpiParams := by unfold State.noteRate; split <;> rfl
@[simp] theorem State.noteRate_rxf : s.noteRate.rxf = s.rxf := by unfold State.noteRate; split <;> rfl
@[simp] theorem State.noteRate_opi : s.noteRate.opi = s.opi := by unfold State.noteRate; split <;> rfl
@[simp] theorem State.noteRate_ph : s.noteRate.ph = s.ph := by unfold State.noteRate; split <;> rfl
@[simp] theorem State.noteRate_tclk : s.noteRate.tclk = s.tclk := by unfold State.noteRate; split <;> rfl
@[simp] theorem State.noteRate_tdat : s.noteRate.tdat = s.tdat := by unfold State.noteRate; split <;> rfl
@[simp] theorem State.noteRate_hist :
    s.noteRate.hist = if s.notedRate = s.clk then s.hist else .rateSet s.clk :: s.hist := by unfold State.noteRate; split <;> rfl
@[simp] theorem State.noteRate_res : s.noteRate.res = s.res := by unfold State.noteRate; split <;> rfl
@[simp] theorem State.noteRate_env : s.noteRate.env = s.env := by unfold State.noteRate; split <;> rfl
@[simp] theorem State.noteRate_cfg : s.noteRate.cfg = s.cfg := by unfold State.noteRate; split <;> rfl

end Sys2Proof.Machine
end

