-- ==== Sys2Proof/Laws/Run.lean ====
section
/-! SUPPORT. How pieces of an operation run: sequencing, sequencer steps within the time there is, and exchanges on an
undisturbed line. `Goes` says that a piece ends with a value in a state, up to time; `Plays` says that a piece is an
exchange. Both compose, so that an operation's law is put together from its steps' laws. -/

namespace Sys2Proof.Machine

/-! ## The monad -/

theorem m_pure {α : Type} (a : α) (s : State) : (pure a : M α) s = .ok a s := rfl

theorem m_bind {α β : Type} (m : M α) (k : α → M β) (s : State) :
    (m >>= k) s = match m s with
      | .ok a t => k a t
      | .error e t => .error e t := by
  show EStateM.bind m k s = _
  unfold EStateM.bind
  cases m s <;> rfl

theorem m_get (s : State) : (get : M State) s = .ok s s := rfl

theorem m_modify (f : State → State) (s : State) : (modify f : M Unit) s = .ok () (f s) := rfl

theorem m_raise {α : Type} (c : Cause) (s : State) : (raise c : M α) s = .error (.raise c) s := rfl

theorem require_true (s : State) : require true s = .ok () s := rfl

theorem require_false (s : State) : require false s = .error (.raise .precond) s := rfl

/-! ## Time -/

/-- All the time left on the tape is below `n`, and below what an armed countdown has left. -/
def State.within (n : Nat) (s : State) : Prop :=
  s.env.delays.sum < n ∧ (s.wdArmed = true → s.env.delays.sum < s.wdCnt.toNat)

/-- The values of time of a state. -/
def State.time (s : State) : Time := ⟨s.wdCnt, s.ph, s.env.delays⟩

@[simp] theorem State.stamp_time (s : State) : s.stamp s.time = s := rfl

@[simp] theorem State.stamp_stamp (t u : Time) (s : State) : (s.stamp t).stamp u = s.stamp u := rfl

/-- Time passing changes only values of time. -/
theorem State.elapse_eq_stamp (s : State) : ∃ t, s.elapse = s.stamp t := by
  unfold State.elapse
  split
  · exact ⟨s.time, rfl⟩
  · next d ds _ =>
    exact ⟨⟨if s.wdArmed then BitVec.ofNat 16 (s.wdCnt.toNat - d) else s.wdCnt, s.ph, ds⟩, rfl⟩

/-- Time passing leaves enough time. -/
theorem State.elapse_within {n : Nat} {s : State} (h : s.within n) : s.elapse.within n := by
  unfold State.elapse
  split
  · exact h
  · next d ds hd =>
    obtain ⟨h1, h2⟩ := h
    rw [hd, List.sum_cons] at h1 h2
    refine ⟨by show ds.sum < n; omega, fun ha => ?_⟩
    change s.wdArmed = true at ha
    have := h2 ha
    have hlt : s.wdCnt.toNat - d < 2 ^ 16 := by have := s.wdCnt.isLt; omega
    simp only [ha, if_true, BitVec.toNat_ofNat, Nat.mod_eq_of_lt hlt]
    omega

theorem State.within_not_due {n : Nat} {s : State} (h : s.within n) : s.expiryDue = false := by
  unfold State.expiryDue
  cases ha : s.wdArmed
  · simp
  · have := h.2 ha
    have hc : s.wdCnt ≠ 0 := by intro h0; rw [h0] at this; simp at this
    simpa using fun _ => hc

theorem State.within_not_waiting {n : Nat} {s : State} (h : s.within n) : s.expiresWaiting = false := by
  unfold State.expiresWaiting
  cases ha : s.wdArmed
  · simp
  · have := h.2 ha
    split
    · next d ds hd =>
      rw [hd, List.sum_cons] at this
      simp only [Bool.true_and, Bool.and_eq_false_imp]
      intro _
      simp only [decide_eq_false_iff_not]
      omega
    · simp

/-! ## A boundary and a reception, all they can do -/

/-- At a boundary time passes; then either the expiry is due, or the step is taken (R329). -/
theorem boundary_cases (s : State) :
    (s.elapse.expiryDue = true ∧ boundary s = .error .expired s.elapse) ∨
    (s.elapse.expiryDue = false ∧ boundary s = .ok () s.elapse) := by
  unfold boundary
  cases s.elapse.expiryDue <;> simp

/-- A blocked wait ends by the expiry, or is stuck (R145, R333). -/
theorem blockedWait_cases {α : Type} (s : State) :
    (s.wdArmed = true ∧ s.env.ie = true ∧ (blockedWait : M α) s = .error .expired { s with wdCnt := 0 }) ∨
    ((s.wdArmed = false ∨ s.env.ie = false) ∧ (blockedWait : M α) s = .error .stuck s) := by
  unfold blockedWait
  cases s.wdArmed <;> cases s.env.ie <;> simp

/-- A wait for a frame is cut by the expiry, takes the frame at the head of the line, or blocks on a silent line (R172,
R173, R329). -/
theorem awaitFrame_cases (mk : Byte → RxFlags → WireEvent) (s : State) :
    (∃ f rest, s.env.line = .frame f :: rest ∧ s.expiresWaiting = true ∧ awaitFrame mk s = .error .expired s.elapse) ∨
    (∃ f rest, s.env.line = .frame f :: rest ∧ awaitFrame mk s =
      .ok (f.data, RxFlags.ofFrame f) (s.received f rest (mk f.data (RxFlags.ofFrame f)))) ∨
    (∃ rest, s.env.line = .silence :: rest ∧ awaitFrame mk s =
      blockedWait { s with env := { s.env with line := rest } }) ∨
    (s.env.line = [] ∧ awaitFrame mk s = blockedWait s) := by
  unfold awaitFrame
  cases hl : s.env.line with
  | nil => simp
  | cons x rest =>
    cases x with
    | silence => simp
    | frame f => cases s.expiresWaiting <;> simp

/-- At the boundary of a reception the expiry is due, or TPB listens and waits for its frame (R170, R220, R251, R329).
-/
theorem recvFrame_cases (mk : Byte → RxFlags → WireEvent) (s : State) :
    (s.expiryDue = true ∧ recvFrame mk s = .error .expired s) ∨
    (s.expiryDue = false ∧ recvFrame mk s = awaitFrame mk s.listen) := by
  unfold recvFrame
  cases s.expiryDue <;> simp

/-- A bit of a synchronous engine finds `TCLK` running, or starts it; there is none in an asynchronous hold (R220). -/
theorem runTclk_cases (s : State) :
    (s.runTclk = s ∧ (s.umode.isSync = false ∨ s.tclk = true)) ∨
    (s.umode.isSync = true ∧ s.tclk = false ∧ s.runTclk = { s with tclk := true, hist := .clkStart :: s.hist }) := by
  cases s with
  | mk _ _ _ _ _ _ _ _ _ _ _ _ m _ _ _ _ _ _ _ _ k _ _ _ _ _ =>
    cases hm : m.isSync <;> cases k <;> simp [State.runTclk, hm]

/-- A send requires the engine's hold of the UART, whose want is a failure of the wire (R311). -/
theorem requireOwner_cases (e : Engine) (s : State) :
    (s.umode = engineMode e ∧ requireOwner e s = .ok () s) ∨
    (s.umode ≠ engineMode e ∧ requireOwner e s = .error (.raise .status) s) := by
  unfold requireOwner
  rw [m_bind, m_get]
  by_cases h : s.umode = engineMode e
  · exact .inl ⟨h, by simp [h, m_pure]⟩
  · exact .inr ⟨h, by simp [h, m_raise]⟩

/-! ## Pieces that end with a value -/

/-- How a piece that went from `s` to `t` used time: enough is left, and, where the pace `k` says so, a countdown that
was not armed still is not, and stands where it stood. -/
def Lasts (k : Bool) (n : Nat) (s t : State) (τ : Time) : Prop :=
  (t.stamp τ).within n ∧ (k = true → s.wdArmed = false → t.wdArmed = false ∧ τ.cnt = s.wdCnt)

/-- With time enough, the piece ends with a value in a state known up to time. -/
def Goes {α : Type} (k : Bool) (n : Nat) (m : M α) (s : State) (a : α) (t : State) : Prop :=
  s.within n → ∃ τ, m s = .ok a (t.stamp τ) ∧ Lasts k n s t τ

/-- With time enough, the piece ends with a failure cause. -/
def Fails {α : Type} (k : Bool) (n : Nat) (m : M α) (s : State) (c : Cause) (t : State) : Prop :=
  s.within n → ∃ τ, m s = .error (.raise c) (t.stamp τ) ∧ Lasts k n s t τ

theorem lasts_refl {k : Bool} {n : Nat} {s : State} (h : s.within n) : Lasts k n s s s.time := ⟨h, fun _ ha => ⟨ha, rfl⟩⟩

theorem lasts_trans {k : Bool} {n : Nat} {s t u : State} {τ τ' : Time} (h1 : Lasts k n s t τ)
    (h2 : Lasts k n (t.stamp τ) u τ') : Lasts k n s u τ' := by
  refine ⟨h2.1, fun hk ha => ?_⟩
  obtain ⟨h3, h4⟩ := h1.2 hk ha
  obtain ⟨h5, h6⟩ := h2.2 hk h3
  exact ⟨h5, h6.trans h4⟩

/-- A piece that keeps the count also lasts at the looser pace. -/
theorem Lasts.loose {k : Bool} {n : Nat} {s t : State} {τ : Time} (h : Lasts k n s t τ) : Lasts false n s t τ :=
  ⟨h.1, fun hk => absurd hk (by simp)⟩

section
variable {α β : Type} {w : Bool} {n : Nat} {m : M α} {k : α → M β} {s t u : State} {a : α} {b : β} {c : Cause}

theorem Goes.loose (h : Goes w n m s a t) : Goes false n m s a t := fun hw =>
  let ⟨τ, e, l⟩ := h hw
  ⟨τ, e, l.loose⟩

theorem goes_pure : Goes w n (pure a : M α) s a s := fun h => ⟨s.time, rfl, lasts_refl h⟩

theorem goes_stamp (τ : Time) : Goes w n m s a (t.stamp τ) ↔ Goes w n m s a t := Iff.rfl

/-- The end state of a piece is known up to time. -/
theorem Goes.upto (h : Goes w n m s a t) (τ : Time) (e : t = u.stamp τ) : Goes w n m s a u := (goes_stamp τ).1 (e ▸ h)

theorem fails_stamp (τ : Time) : Fails w n m s c (t.stamp τ) ↔ Fails w n m s c t := Iff.rfl

theorem goes_bind (h1 : Goes w n m s a t) (h2 : ∀ τ, Goes w n (k a) (t.stamp τ) b u) : Goes w n (m >>= k) s b u := by
  intro hw
  obtain ⟨τ, e1, w1⟩ := h1 hw
  obtain ⟨τ', e2, w2⟩ := h2 τ w1.1
  exact ⟨τ', by rw [m_bind, e1]; exact e2, lasts_trans w1 w2⟩

theorem goes_get {k : State → M β} (h : Goes w n (k s) s b u) : Goes w n (get >>= k) s b u := by
  intro hw
  rw [m_bind, m_get]
  exact h hw

theorem goes_require {p : Bool} {k : Unit → M β} (hp : p = true) (h : Goes w n (k ()) s b u) :
    Goes w n (require p >>= k) s b u := by
  intro hw
  rw [m_bind, hp, require_true]
  exact h hw

theorem goes_owner {e : Engine} {k : Unit → M β} (hu : s.umode = engineMode e) (h : Goes w n (k ()) s b u) :
    Goes w n (requireOwner e >>= k) s b u := by
  intro hw
  rw [m_bind]
  rcases requireOwner_cases e s with ⟨_, h1⟩ | ⟨h1, _⟩
  · rw [h1]; exact h hw
  · exact absurd hu h1

/-- A change of registers that no time passes for. -/
theorem goes_modify {f : State → State} (h : (f s).time = s.time ∧ (f s).wdArmed = s.wdArmed) :
    Goes w n (modify f) s () (f s) := fun hw => by
  obtain ⟨h1, h2⟩ := h
  have hc : (f s).wdCnt = s.wdCnt := congrArg Time.cnt h1
  have hd : (f s).env.delays = s.env.delays := congrArg Time.delays h1
  refine ⟨(f s).time, rfl, ?_, fun _ ha => ⟨h2.trans ha, hc⟩⟩
  unfold State.within at *
  rw [State.stamp_time, hc, hd, h2]
  exact hw

theorem fails_bind_left (h1 : Fails w n m s c t) : Fails w n (m >>= k) s c t := by
  intro hw
  obtain ⟨τ, e1, w1⟩ := h1 hw
  exact ⟨τ, by rw [m_bind, e1], w1⟩

theorem fails_bind (h1 : Goes w n m s a t) (h2 : ∀ τ, Fails w n (k a) (t.stamp τ) c u) : Fails w n (m >>= k) s c u := by
  intro hw
  obtain ⟨τ, e1, w1⟩ := h1 hw
  obtain ⟨τ', e2, w2⟩ := h2 τ w1.1
  exact ⟨τ', by rw [m_bind, e1]; exact e2, lasts_trans w1 w2⟩

theorem fails_get {k : State → M β} (h : Fails w n (k s) s c u) : Fails w n (get >>= k) s c u := by
  intro hw
  rw [m_bind, m_get]
  exact h hw

theorem fails_require_pass {p : Bool} {k : Unit → M β} (hp : p = true) (h : Fails w n (k ()) s c u) :
    Fails w n (require p >>= k) s c u := by
  intro hw
  rw [m_bind, hp, require_true]
  exact h hw

theorem fails_raise : Fails w n (raise c : M α) s c s := fun h => ⟨s.time, rfl, lasts_refl h⟩

theorem fails_require {p : Bool} {k : Unit → M β} (hp : p = false) : Fails w n (require p >>= k) s .precond s := by
  intro hw
  rw [m_bind, hp, require_false]
  exact ⟨s.time, rfl, lasts_refl hw⟩

end

/-! ## Sequencer steps -/

/-- Time passing leaves an idle countdown alone (R35). -/
theorem State.elapse_lasts {k : Bool} {n : Nat} {s : State} (h : s.within n) :
    ∃ τ, s.elapse = s.stamp τ ∧ Lasts k n s s τ := by
  have hw := State.elapse_within h
  unfold State.elapse at *
  split
  · exact ⟨s.time, rfl, lasts_refl h⟩
  · next d ds hd =>
    rw [hd] at hw
    exact ⟨⟨if s.wdArmed then BitVec.ofNat 16 (s.wdCnt.toNat - d) else s.wdCnt, s.ph, ds⟩, rfl, hw,
      fun _ ha => ⟨ha, by simp [ha]⟩⟩

theorem goes_boundary {k : Bool} {n : Nat} {s : State} : Goes k n boundary s () s := by
  intro hw
  obtain ⟨τ, hτ, hl⟩ := State.elapse_lasts (k := k) hw
  refine ⟨τ, ?_, hl⟩
  rcases boundary_cases s with h | h
  · rw [State.within_not_due (State.elapse_within hw)] at h; exact absurd h.1 (by simp)
  · rw [h.2, hτ]

/-- The phase is a value of time. -/
theorem goes_phase {w : Bool} {n k : Nat} {s : State} : Goes w n (phase k) s () s := by
  intro hw
  exact ⟨⟨s.wdCnt, k, s.env.delays⟩, rfl, hw, fun _ ha => ⟨ha, rfl⟩⟩

/-- A change of registers that neither reads nor writes values of time. -/
def Timeless (f : State → State) : Prop := ∀ s t, f (s.stamp t) = (f s).stamp t

theorem trst_stamp (s : State) (t : Time) : (s.stamp t).trst = s.trst := rfl

theorem timeless_write {f : State → State} (hf : Timeless f) : Timeless (State.write f) := by
  intro s t
  unfold State.write State.noteTrst
  rw [hf s t, trst_stamp, trst_stamp]
  split <;> rfl

theorem write_wdArmed (f : State → State) (s : State) : (s.write f).wdArmed = (f s).wdArmed := by
  unfold State.write State.noteTrst
  split <;> rfl

/-- A write of registers that leaves the countdown alone. -/
structure Plain (f : State → State) : Prop where
  timeless : Timeless f
  armed : ∀ s, (f s).wdArmed = s.wdArmed
  env : ∀ s, (f s).env = s.env
  cnt : ∀ s, (f s).wdCnt = s.wdCnt

theorem Plain.write {f : State → State} (hf : Plain f) : Plain (State.write f) where
  timeless := timeless_write hf.timeless
  armed s := by rw [write_wdArmed, hf.armed]
  env s := by
    unfold State.write State.noteTrst
    split
    · exact hf.env s
    · exact hf.env s
  cnt s := by
    unfold State.write State.noteTrst
    split
    · exact hf.cnt s
    · exact hf.cnt s

theorem noteTrst_timeless (old : Bool) : Timeless (State.noteTrst old) := by
  intro s t
  unfold State.noteTrst
  rw [trst_stamp]
  split <;> rfl

theorem Plain.noteTrst {f : State → State} (hf : Plain f) (old : Bool) : Plain fun s => (f s).noteTrst old where
  timeless s t := by
    show (f (s.stamp t)).noteTrst old = _
    rw [hf.timeless, noteTrst_timeless]
  armed s := (show ((f s).noteTrst old).wdArmed = (f s).wdArmed by unfold State.noteTrst; split <;> rfl).trans (hf.armed s)
  env s := (show ((f s).noteTrst old).env = (f s).env by unfold State.noteTrst; split <;> rfl).trans (hf.env s)
  cnt s := (show ((f s).noteTrst old).wdCnt = (f s).wdCnt by unfold State.noteTrst; split <;> rfl).trans (hf.cnt s)

theorem Plain.lasts {f : State → State} (hf : Plain f) {k : Bool} {n : Nat} {s : State} {τ : Time}
    (h : Lasts k n s s τ) : Lasts k n s (f s) τ := by
  refine ⟨?_, fun hk ha => ⟨by rw [hf.armed]; exact ha, (h.2 hk ha).2⟩⟩
  rw [← hf.timeless]
  unfold State.within at *
  rw [hf.env, hf.armed, hf.cnt]
  exact h.1

/-- One sequencer step that writes registers and records nothing. -/
theorem goes_regs {k : Bool} {n : Nat} {s : State} {f : State → State} (hf : Plain f) : Goes k n (regs f) s () (f s) := by
  intro hw
  obtain ⟨τ, e1, w1⟩ := (goes_boundary (k := k) (n := n) (s := s)) hw
  refine ⟨τ, ?_, hf.lasts w1⟩
  unfold regs
  rw [m_bind, e1]
  exact congrArg (EStateM.Result.ok ()) (hf.timeless s τ)

/-- One sequencer step that writes registers. -/
theorem goes_upd {k : Bool} {n : Nat} {s : State} {f : State → State} (hf : Plain f) :
    Goes k n (upd f) s () (s.write f) := by
  intro hw
  obtain ⟨τ, e1, w1⟩ := (goes_boundary (k := k) (n := n) (s := s)) hw
  refine ⟨τ, ?_, hf.write.lasts w1⟩
  unfold upd
  rw [m_bind, e1]
  show EStateM.Result.ok () ((s.stamp τ).write f) = _
  rw [timeless_write hf.timeless s τ]

/-- A write of registers that leaves the reset line alone records nothing. -/
theorem State.write_quiet {f : State → State} {s : State} (h : (f s).trst = s.trst) : s.write f = f s := if_pos h

end Sys2Proof.Machine
end

