-- ==== Sys2Proof/Laws/Wire.lean ====
section
/-! SUPPORT. What each wire primitive does on an undisturbed line: `Plays e c m ms a` says that a piece of engine `e`,
under parameters `c`, is the exchange `ms` and ends with `a`. One law for each shared operation. -/

namespace Sys2Proof.Machine

/-- The piece is an exchange of the engine and ends with a value, whenever the engine holds the UART. -/
def Plays {α : Type} (e : Engine) (c : Params) (m : M α) (ms : List Move) (a : α) : Prop :=
  ∀ k n s rest, s.umode = engineMode e → s.cfg = c → s.hears e ms rest → Goes k n m s a (s.moved e ms rest)

/-! ## Keys (R120, R177) -/

/-- Every UPDI key is ten bytes on the wire. -/
@[simp] theorem keyBytes_length (c : Params) (k : UpdiKey) : (keyBytes c k).length = 10 := by
  cases k <;> simp [keyBytes]

/-- The key TPI and PDI share is ten bytes on the wire. -/
@[simp] theorem syncKeyBytes_length (c : Params) : (syncKeyBytes c).length = 10 := by simp [syncKeyBytes]

theorem syncKeyBytes_ne_nil (c : Params) : syncKeyBytes c ≠ [] :=
  List.ne_nil_of_length_pos (by simp)

/-! ## Exchanges compose -/

@[simp] theorem lineOf_nil (e : Engine) : lineOf e [] = [] := rfl

@[simp] theorem lineOf_append (e : Engine) (m1 m2 : List Move) : lineOf e (m1 ++ m2) = lineOf e m1 ++ lineOf e m2 :=
  List.flatMap_append

@[simp] theorem eventsOf_append (e : Engine) (m1 m2 : List Move) : ∀ k : Bool,
    eventsOf e k (m1 ++ m2) = eventsOf e k m1 ++ eventsOf e (k || m1.any (moveStartsClock e)) m2 := by
  induction m1 with
  | nil => intro k; simp [eventsOf]
  | cons m ms ih => intro k; simp [eventsOf, ih, Bool.or_assoc]

theorem State.moved_nil (e : Engine) (s : State) : s.moved e [] s.env.line = s := by
  simp [State.moved, eventsOf]

@[simp] theorem tdatAfter_out (e : Engine) (d : Option Drive) (b : Byte) : tdatAfter e d (.out b) = none := rfl
@[simp] theorem tdatAfter_into (e : Engine) (d : Option Drive) (b : Byte) : tdatAfter e d (.into b) = none := rfl
@[simp] theorem tdatAfter_clocks (e : Engine) (d : Option Drive) (n : Nat) : tdatAfter e d (.clocks n) = d := rfl
@[simp] theorem tdatAfter_rate (e : Engine) (d : Option Drive) (k : Nat) : tdatAfter e d (.act (.rateSet k)) = d := rfl

theorem State.moved_moved (e : Engine) (m1 m2 : List Move) (r1 r2 : List LineEvent) (s : State) :
    (s.moved e m1 r1).moved e m2 r2 = s.moved e (m1 ++ m2) r2 := by
  cases h1 : (lineOf e m1) <;> cases h2 : (lineOf e m2) <;>
    simp [State.moved, h1, h2, List.any_append, Bool.or_assoc]

theorem State.hears_moved {e : Engine} {m1 m2 : List Move} {rest : List LineEvent} {s : State}
    (h : s.hears e (m1 ++ m2) rest) :
    s.hears e m1 (lineOf e m2 ++ rest) ∧ (s.moved e m1 (lineOf e m2 ++ rest)).hears e m2 rest := by
  unfold State.hears at *
  rw [lineOf_append, List.append_assoc] at h
  exact ⟨h, rfl⟩

section
variable {α β : Type} {e : Engine} {c : Params} {m : M α} {k : α → M β} {ms m1 m2 : List Move} {a : α} {b : β}

theorem plays_pure : Plays e c (pure a : M α) [] a := by
  intro k n s rest _ _ hl
  have : rest = s.env.line := by simpa [State.hears] using hl.symm
  rw [this, State.moved_nil]
  exact goes_pure

theorem plays_bind (h1 : Plays e c m m1 a) (h2 : Plays e c (k a) m2 b) : Plays e c (m >>= k) (m1 ++ m2) b := by
  intro k n s rest hu hc hl
  obtain ⟨hl1, hl2⟩ := State.hears_moved hl
  rw [← State.moved_moved e m1 m2 (lineOf e m2 ++ rest) rest s]
  exact goes_bind (h1 k n s _ hu hc hl1) (fun τ => h2 k n _ rest hu hc hl2)

theorem plays_bind_nil (h1 : Plays e c m ms a) (h2 : Plays e c (k a) [] b) : Plays e c (m >>= k) ms b := by
  have := plays_bind h1 h2
  rwa [List.append_nil] at this

theorem plays_nil_bind (h1 : Plays e c m [] a) (h2 : Plays e c (k a) ms b) : Plays e c (m >>= k) ms b :=
  plays_bind h1 h2

theorem plays_get {k : State → M β} (h : ∀ s : State, s.cfg = c → s.umode = engineMode e → Plays e c (k s) ms b) :
    Plays e c (get >>= k) ms b :=
  fun k n s rest hu hc hl => goes_get (h s hc hu k n s rest hu hc hl)

theorem plays_require {p : Bool} {k : Unit → M β} (hp : p = true) (h : Plays e c (k ()) ms b) :
    Plays e c (require p >>= k) ms b :=
  fun k n s rest hu hc hl => goes_require hp (h k n s rest hu hc hl)

theorem plays_owner {k : Unit → M β} (h : Plays e c (k ()) ms b) : Plays e c (requireOwner e >>= k) ms b :=
  fun k n s rest hu hc hl => goes_owner hu (h k n s rest hu hc hl)

theorem plays_phase {p : Nat} {k : Unit → M β} (h : Plays e c (k ()) ms b) : Plays e c (phase p >>= k) ms b :=
  fun k n s rest hu hc hl => goes_bind goes_phase fun τ => (h k n (s.stamp τ) rest hu hc hl).upto τ rfl

theorem plays_ite_false {p : Prop} [Decidable p] {x : M Unit} (hp : ¬p) :
    Plays e c (if p then x else pure ()) [] () := by
  rw [if_neg hp]
  exact plays_pure

end

/-! ## One action, one frame -/

/-- A piece that takes nothing from the line is the exchange that changes the state as it does. -/
theorem plays_of_goes {e : Engine} {c : Params} {m : M Unit} {ms : List Move} {f : State → State}
    (hm : ∀ k n s, Goes k n m s () (f s)) (hl : lineOf e ms = [])
    (hf : ∀ s : State, s.umode = engineMode e → f s = s.moved e ms s.env.line) : Plays e c m ms () := by
  intro k n s rest hu _ h
  have : rest = s.env.line := by simpa [State.hears, hl] using h.symm
  rw [this, ← hf s hu]
  exact hm k n s

theorem plain_record (ev : WireEvent) : Plain (State.record ev) :=
  ⟨fun _ _ => rfl, fun _ => rfl, fun _ => rfl, fun _ => rfl⟩

theorem plain_drive (e : Engine) (ev : WireEvent) : Plain fun s => (s.driveTdat e).record ev :=
  ⟨fun _ _ => rfl, fun _ => rfl, fun _ => rfl, fun _ => rfl⟩

theorem plain_frame (e : Engine) (ev : WireEvent) : Plain fun s => (s.runTclk.driveTdat e).record ev :=
  ⟨fun _ _ => rfl, fun _ => rfl, fun _ => rfl, fun _ => rfl⟩

theorem plain_clocks (n : Nat) : Plain fun s => s.runTclk.record (.clocks n) :=
  ⟨fun _ _ => rfl, fun _ => rfl, fun _ => rfl, fun _ => rfl⟩

theorem goes_freeTdat {k : Bool} {n : Nat} {s : State} : Goes k n (modify State.freeTdat) s () s.freeTdat :=
  goes_modify ⟨rfl, rfl⟩

/-- A frame goes out: `TCLK` runs for it where a synchronous engine sends it, `TDAT` is driven for it and then free
(R170, R220, R251). -/
theorem goes_frame {e : Engine} {ev : WireEvent} {k : Bool} {n : Nat} {s : State} :
    Goes k n (do regs fun s => (s.runTclk.driveTdat e).record ev; modify State.freeTdat) s () (s.listen.record ev) :=
  goes_bind (goes_regs (plain_frame e ev)) fun τ => goes_freeTdat.upto τ rfl

theorem plays_rate (e : Engine) (c : Params) (khz : Nat) : Plays e c (act (.rateSet khz)) [.act (.rateSet khz)] () :=
  plays_of_goes (fun _ _ _ => goes_regs (plain_record _)) rfl fun s _ => by
    simp [State.moved, State.record, eventsOf, moveEvents, lineOf, moveLine, moveStartsClock]

/-- In the UPDI engine's hold no clock runs (R170). -/
theorem listen_updi {s : State} (h : s.umode = .updi) : s.listen = s.freeTdat := by
  rcases runTclk_cases s with ⟨e, _⟩ | ⟨hs, _⟩
  · rw [State.listen, e]
  · rw [h] at hs
    cases hs

/-- In a synchronous engine's hold `TCLK` runs for what comes (R220, R250). -/
theorem runTclk_sync {e : Engine} {s : State} (he : e ≠ .updi) (h : s.umode = engineMode e) :
    s.runTclk = { s with tclk := true, hist := (moveEvents.clockStart s.tclk).reverse ++ s.hist } := by
  cases e <;> first
    | exact absurd rfl he
    | cases ht : s.tclk <;> simp [State.runTclk, h, ht, engineMode, Umode.isSync, moveEvents.clockStart]

theorem plays_sendFrame_sync {e : Engine} (c : Params) (b : Byte) (he : e ≠ .updi) :
    Plays e c (sendFrame e b) [.out b] () := by
  refine plays_owner (plays_of_goes (fun _ _ _ => goes_frame) ?_ fun s hu => ?_)
  · cases e <;> first | exact absurd rfl he | rfl
  · unfold State.listen
    rw [runTclk_sync he hu]
    cases e <;> first
      | exact absurd rfl he
      | simp [State.moved, State.record, State.freeTdat, eventsOf, moveEvents, lineOf, moveLine, moveStartsClock]

/-- What a reception of a clean frame leaves. -/
theorem goes_recvFrame {k : Bool} {n : Nat} {s : State} (mk : Byte → RxFlags → WireEvent) (b : Byte)
    (rest : List LineEvent) (hl : s.env.line = cleanFrame b :: rest) :
    Goes k n (recvFrame mk) s (b, RxFlags.clear)
      { s.listen with
        hist := mk b RxFlags.clear :: s.listen.hist, rxf := RxFlags.clear, env := { s.env with line := rest } } := by
  intro hw
  have hf : RxFlags.ofFrame (LineFrame.clean b) = RxFlags.clear := by
    simp [RxFlags.ofFrame, LineFrame.clean, RxFlags.clear]
  obtain ⟨t, ht, hl'⟩ := State.elapse_lasts (k := k) (s := s.listen) hw
  refine ⟨t, ?_, hl'⟩
  unfold recvFrame awaitFrame
  rw [State.within_not_due hw, show s.listen.env.line = _ from hl]
  simp only [cleanFrame, State.within_not_waiting (s := s.listen) hw, hf]
  simp only [Bool.false_eq_true, if_false, State.received, hf, ht]
  rfl

theorem plays_rx (e : Engine) (c : Params) (b : Byte) : Plays e c rx [.into b] b := by
  intro k n s rest hu _ hl
  unfold rx
  refine goes_bind (a := (b, RxFlags.clear)) (t := s.moved e [.into b] rest) ?_ fun τ => ?_
  · refine (goes_recvFrame (k := k) (n := n) (s := s) .rx b rest hl).upto s.time ?_
    by_cases he : e = .updi
    · subst he
      rw [listen_updi hu]
      simp [State.moved, State.stamp, State.time, State.freeTdat, eventsOf, moveEvents, lineOf, moveLine,
        moveStartsClock]
    · unfold State.listen
      rw [runTclk_sync he hu]
      cases e <;> first
        | exact absurd rfl he
        | simp [State.moved, State.stamp, State.time, State.freeTdat, eventsOf, moveEvents, lineOf, moveLine,
            moveStartsClock]
  · simpa using (goes_stamp τ).1 (goes_pure (a := b) (s := (s.moved e [.into b] rest).stamp τ))

theorem plays_tx (c : Params) (b : Byte) : Plays .updi c (tx b) [.out b] () := by
  intro k n s rest hu hc hl
  unfold tx
  refine goes_bind (a := ()) (t := s.freeTdat.record (.tx b))
    (goes_owner hu ((listen_updi hu) ▸ goes_frame)) fun τ => ?_
  refine goes_bind (a := (b, RxFlags.clear)) (t := s.moved .updi [.out b] rest) ?_ fun τ' => ?_
  · refine (goes_recvFrame (k := k) (n := n) (s := (s.freeTdat.record (.tx b)).stamp τ) .echo b rest hl).upto τ ?_
    rw [listen_updi (s := (s.freeTdat.record (.tx b)).stamp τ) hu]
    simp [State.moved, State.stamp, State.record, State.freeTdat, eventsOf, moveEvents, lineOf, moveLine,
      moveStartsClock]
  · simpa using (goes_stamp τ').1 (goes_pure (a := ()) (s := (s.moved .updi [.out b] rest).stamp τ'))

theorem plays_sendByte (e : Engine) (c : Params) (b : Byte) : Plays e c (sendByte e b) [.out b] () := by
  cases e with
  | updi => exact plays_tx c b
  | tpi => exact plays_sendFrame_sync c b (by simp)
  | pdi => exact plays_sendFrame_sync c b (by simp)

theorem plays_send (e : Engine) (c : Params) (bs : List Byte) : Plays e c (send e bs) (outs bs) () := by
  induction bs with
  | nil => exact plays_pure
  | cons b bs ih => exact plays_bind (m1 := [.out b]) (plays_sendByte e c b) ih

theorem plays_recvN (e : Engine) (c : Params) (d : List Byte) : Plays e c (recvN d.length) (ins d) d := by
  induction d with
  | nil => exact plays_pure
  | cons b bs ih =>
    exact plays_bind (m1 := [.into b]) (plays_rx e c b) (plays_bind_nil ih plays_pure)

end Sys2Proof.Machine
end

