-- ==== Sys2Proof/Laws/Engines.lean ====
section
/-! SUPPORT. The exchanges of the engines' composite operations: register access, polls, wire scripts, blocks, the
controller variants' scripts, the TPI and PDI primitives. One law for each shared operation. -/

namespace Sys2Proof.Machine

variable {c : Params}

/-! ## Register access and polls -/

theorem plays_ldcs (e : Engine) (c : Params) (r : RegIx) (v : Byte) : Plays e c (ldcs e r) (ldcsMoves c e r v) v := by
  unfold ldcs
  refine plays_get fun s hc _ => ?_
  rw [hc]
  exact plays_bind (plays_send e c _) (plays_rx e c v)

theorem plays_stcs (e : Engine) (c : Params) (r : RegIx) (v : Byte) : Plays e c (stcs e r v) (stcsMoves c e r v) () := by
  unfold stcs
  refine plays_get fun s hc _ => ?_
  rw [hc]
  exact plays_send e c _

theorem plays_pollLoop {e : Engine} {read : M Byte} {mv : Byte → List Move} {done : Byte → Bool}
    (hr : ∀ x, Plays e c read (mv x) x) {v : Byte} (hv : done v = true) :
    ∀ (unwanted : List Byte) (fuel : Nat), (∀ x ∈ unwanted, done x = false) → unwanted.length < fuel →
      Plays e c (pollLoop read done fuel) (pollMoves mv unwanted v) v := by
  intro unwanted
  induction unwanted with
  | nil =>
    intro fuel _ hf
    cases fuel with
    | zero => simp at hf
    | succ k =>
      unfold pollLoop
      refine plays_bind_nil (hr v) ?_
      rw [if_pos hv]
      exact plays_pure
  | cons x xs ih =>
    intro fuel hu hf
    cases fuel with
    | zero => simp at hf
    | succ k =>
      unfold pollLoop
      have h2 := ih k (fun y hy => hu y (List.mem_cons_of_mem _ hy)) (by simpa using hf)
      have hx : done x = false := hu x List.mem_cons_self
      have : pollMoves mv (x :: xs) v = mv x ++ pollMoves mv xs v := by
        simp [pollMoves, List.flatMap_cons]
      rw [this]
      refine plays_bind (hr x) ?_
      rw [if_neg (by simp [hx])]
      exact h2

theorem pollMoves_length_le {e : Engine} {mv : Byte → List Move} (hne : ∀ x, 1 ≤ (lineOf e (mv x)).length)
    (unwanted : List Byte) (v : Byte) : unwanted.length < (lineOf e (pollMoves mv unwanted v)).length := by
  induction unwanted with
  | nil => simpa [pollMoves] using Nat.lt_of_lt_of_le Nat.zero_lt_one (hne v)
  | cons x xs ih =>
    have : pollMoves mv (x :: xs) v = mv x ++ pollMoves mv xs v := by
      simp [pollMoves, List.flatMap_cons]
    rw [this, lineOf_append, List.length_append, List.length_cons]
    have := hne x
    omega

/-- A poll reads until an answer is as awaited (R7, R152). -/
theorem plays_pollUntil {e : Engine} {read : M Byte} {mv : Byte → List Move} {done : Byte → Bool}
    (hr : ∀ x, Plays e c read (mv x) x) (hne : ∀ x, 1 ≤ (lineOf e (mv x)).length) {unwanted : List Byte} {v : Byte}
    (hu : ∀ x ∈ unwanted, done x = false) (hv : done v = true) :
    Plays e c (pollUntil read done) (pollMoves mv unwanted v) v := by
  intro k n s rest h1 h2 hl hw
  have hlen : unwanted.length < s.env.line.length + 1 := by
    rw [show s.env.line = _ from hl, List.length_append]
    have := pollMoves_length_le hne unwanted v
    omega
  exact plays_pollLoop hr hv unwanted _ hu hlen k n s rest h1 h2 hl hw

theorem lineOf_into_pos (e : Engine) (ms : List Move) (v : Byte) : 1 ≤ (lineOf e (ms ++ [.into v])).length := by
  simp [lineOf, moveLine]

/-! ## Scripts -/

theorem plays_attention (e : Engine) (c : Params) : Plays e c (attention e) (attnMoves c e) () := by
  unfold attention
  refine plays_get fun s hc _ => ?_
  rw [hc]
  cases e with
  | updi =>
    refine plays_of_goes (f := fun s => ((s.record (.attnLow c.updi.attnLowUs)).record (.attnHigh c.updi.attnHighUs)).freeTdat)
      (fun _ _ _ => goes_bind (goes_regs (plain_drive _ _)) fun τ =>
        (goes_bind (goes_regs (plain_drive _ _)) fun _ => goes_freeTdat.upto _ rfl).upto τ rfl) rfl fun s _ => ?_
    simp [State.moved, State.record, State.freeTdat, eventsOf, moveEvents, lineOf, moveLine, moveStartsClock, attnMoves,
      tdatAfter]
  | tpi =>
    refine plays_of_goes (fun _ _ _ => goes_regs (plain_drive _ _)) rfl fun s _ => ?_
    simp [State.moved, State.record, State.driveTdat, eventsOf, moveEvents, lineOf, moveLine, moveStartsClock, attnMoves,
      tdatAfter]
  | pdi =>
    refine plays_of_goes (fun _ _ _ => goes_regs (plain_drive _ _)) rfl fun s _ => ?_
    simp [State.moved, State.record, State.driveTdat, eventsOf, moveEvents, lineOf, moveLine, moveStartsClock, attnMoves,
      tdatAfter]

theorem plays_clocks_sync {e : Engine} (c : Params) (n : Nat) (he : e ≠ .updi) :
    Plays e c (clocks e n) [.clocks n] () := by
  have key : Plays e c (do requireOwner e; regs fun s => s.runTclk.record (.clocks n)) [.clocks n] () := by
    refine plays_owner (plays_of_goes (fun _ _ _ => goes_regs (plain_clocks n)) rfl fun t hu => ?_)
    rw [runTclk_sync he hu]
    simp [State.moved, State.record, eventsOf, moveEvents, lineOf, moveLine, moveStartsClock]
  cases e with
  | updi => exact absurd rfl he
  | tpi => exact key
  | pdi => exact key

theorem plays_scriptStep {e : Engine} {st : ScriptStep} {ms : List Move} {r : Option (List Byte)}
    (h : stepRuns c e st ms r) : Plays e c (scriptStep e st) ms r := by
  cases st with
  | tx bs =>
    obtain ⟨rfl, rfl⟩ := h
    exact plays_bind_nil (plays_send e c bs) plays_pure
  | rx n =>
    obtain ⟨d, rfl, rfl, rfl⟩ := h
    exact plays_bind_nil (plays_recvN e c d) plays_pure
  | expect b =>
    obtain ⟨rfl, rfl⟩ := h
    refine plays_bind_nil (plays_rx e c b) ?_
    simpa using plays_pure
  | ldcs g =>
    obtain ⟨v, rfl, rfl⟩ := h
    exact plays_bind_nil (plays_ldcs e c g v) plays_pure
  | stcs g v =>
    obtain ⟨rfl, rfl⟩ := h
    exact plays_bind_nil (plays_stcs e c g v) plays_pure
  | poll g mask want =>
    obtain ⟨unwanted, v, hu, hv, rfl, rfl⟩ := h
    refine plays_bind_nil (plays_pollUntil (fun x => plays_ldcs e c g x) (fun x => lineOf_into_pos e _ x)
      (fun x hx => ?_) ?_) plays_pure
    · simpa using hu x hx
    · simpa using hv
  | attn =>
    obtain ⟨rfl, rfl⟩ := h
    exact plays_bind_nil (plays_attention e c) plays_pure
  | clocks n =>
    obtain ⟨rfl, rfl⟩ := h
    cases e with
    | updi => exact plays_bind_nil plays_pure plays_pure
    | tpi => exact plays_bind_nil (plays_clocks_sync c n (by simp)) plays_pure
    | pdi => exact plays_bind_nil (plays_clocks_sync c n (by simp)) plays_pure

theorem plays_runSteps {e : Engine} : ∀ {sc : Script} {d : List Byte} {ms : List Move} {r : List Byte},
    stepsRun c e d sc ms r → Plays e c (runSteps e d sc) ms r
  | [], _, _, _, ⟨rfl, rfl⟩ => plays_pure
  | _ :: _, _, _, _, ⟨_, _, _, h1, h2, rfl⟩ => plays_bind (plays_scriptStep h1) (plays_runSteps h2)

/-- A wire script without a failure is its steps' exchanges in order, and answers its result (R116). -/
theorem plays_runScript {e : Engine} {sc : Script} {ms : List Move} {r : List Byte} (h : scriptRuns c e sc ms r) :
    Plays e c (runScript e sc) ms r := plays_runSteps h

/-! ## UPDI -/

theorem plays_instr (c : Params) (op : Byte) (args : List Byte) : Plays .updi c (instr op args) (instrMoves c op args) () := by
  unfold instr
  refine plays_get fun s hc _ => ?_
  rw [hc]
  exact plays_send .updi c _

theorem plays_sendKey (c : Params) (k : UpdiKey) : Plays .updi c (sendKey k) (outs (keyBytes c k)) () := by
  unfold sendKey
  refine plays_get fun s hc _ => ?_
  rw [hc]
  exact plays_send .updi c _

theorem plays_setPtr (c : Params) (w : PtrWidth) (a : Addr) (ack : Bool) :
    Plays .updi c (setPtr w a ack) (setPtrMoves c w a ack) () := by
  unfold setPtr
  refine plays_get fun s hc _ => ?_
  rw [hc]
  refine plays_bind (plays_instr c _ _) ?_
  cases ack with
  | false => simpa using plays_pure
  | true =>
    simp only [if_true]
    refine plays_bind_nil (plays_rx .updi c c.updi.ack) ?_
    simpa using plays_pure

theorem plays_cssWrite (c : Params) (on : Bool) : Plays .updi c (cssWrite on) (cssMoves c on) () := by
  unfold cssWrite
  refine plays_get fun s hc _ => ?_
  rw [hc]
  exact plays_stcs .updi c _ _

/-- The block header without a failure (R188, R193). -/
theorem plays_blockHeader {w : PtrWidth} {a : Addr} {n : Nat} (op : Byte) (css : Bool) (h : blockOk c w a n) :
    Plays .updi c (blockHeader w a n op css) (headerMoves c w a n op css) () := by
  obtain ⟨h1, h2, h3⟩ := h
  unfold blockHeader headerMoves
  refine plays_get fun s hc _ => ?_
  rw [hc]
  refine plays_require (by simp [h1, h2]) ?_
  refine plays_require h3 ?_
  have tail : Plays .updi c (do instr c.updi.opRepeat [BitVec.ofNat 8 (n - 1)]; instr op [])
      (instrMoves c c.updi.opRepeat [BitVec.ofNat 8 (n - 1)] ++ instrMoves c op []) () :=
    plays_bind (plays_instr c _ _) (plays_instr c op [])
  cases hb : css && c.updi.cssPos == .beforePtr with
  | true =>
    simp only [Bool.not_true, Bool.and_false, if_true, Bool.false_eq_true, if_false, List.nil_append]
    exact plays_bind (plays_cssWrite c true) (plays_bind (plays_setPtr c w a _) tail)
  | false =>
    simp only [Bool.not_false, Bool.and_true, Bool.false_eq_true, if_false, List.nil_append]
    refine plays_bind (plays_setPtr c w a _) ?_
    cases css with
    | true =>
      simp only [if_true]
      exact plays_bind (plays_cssWrite c true) tail
    | false =>
      simp only [Bool.false_eq_true, if_false, List.nil_append]
      exact tail

theorem plays_recvBytesBlock {w : PtrWidth} {a : Addr} {d : List Byte} (h : blockOk c w a d.length) :
    Plays .updi c (recvBytesBlock w a d.length) (recvBytesMoves c w a d) d := by
  unfold recvBytesBlock
  refine plays_get fun s hc _ => ?_
  rw [hc]
  exact plays_bind (plays_blockHeader _ _ h) (plays_recvN .updi c d)

theorem plays_recvWordsBlock {w : PtrWidth} {a : Addr} {d : List Byte} (h : blockOk c w a (d.length / 2))
    (he : d.length % 2 = 0) :
    Plays .updi c (recvWordsBlock w a (d.length / 2)) (recvWordsMoves c w a d) d := by
  unfold recvWordsBlock
  refine plays_get fun s hc _ => ?_
  rw [hc, show 2 * (d.length / 2) = d.length by omega]
  exact plays_bind (plays_blockHeader _ _ h) (plays_recvN .updi c d)

theorem plays_sendBytesBlock {w : PtrWidth} {a : Addr} {d : List Byte} (h : blockOk c w a d.length) :
    Plays .updi c (sendBytesBlock w a d) (sendBytesMoves c w a d) () := by
  unfold sendBytesBlock
  refine plays_get fun s hc _ => ?_
  rw [hc]
  exact plays_bind (plays_blockHeader _ _ h) (plays_bind (plays_send .updi c d) (plays_cssWrite c false))

theorem plays_sendWordsBlock {w : PtrWidth} {a : Addr} {d : List Byte} (h : blockOk c w a (d.length / 2))
    (he : d.length % 2 = 0) :
    Plays .updi c (sendWordsBlock w a d) (sendWordsMoves c w a d) () := by
  unfold sendWordsBlock
  refine plays_get fun s hc _ => ?_
  refine plays_require (by simp [he]) ?_
  rw [hc]
  exact plays_bind (plays_blockHeader _ _ h) (plays_bind (plays_send .updi c d) (plays_cssWrite c false))

/-! ## The controller variants -/

variable {r : VariantRec} {w : PtrWidth}

theorem recvBytesMoves_into_pos (x : Byte) (a : Addr) : 1 ≤ (lineOf .updi (recvBytesMoves c w a [x])).length := by
  unfold recvBytesMoves
  exact lineOf_into_pos .updi _ x

theorem plays_nvmWait {ms : List Move} (h : waitRuns c r w ms) : Plays .updi c (nvmWait r w) ms () := by
  obtain ⟨hb, busy, v, hu, hv, he, rfl⟩ := h
  unfold nvmWait
  refine plays_bind_nil (plays_pollUntil (mv := fun x => recvBytesMoves c w r.nvmStatus [x])
    (fun x => ?_) (fun x => recvBytesMoves_into_pos x _) (fun x hx => ?_) ?_) ?_
  · unfold nvmStatus
    exact plays_bind_nil (plays_recvBytesBlock (d := [x]) hb) plays_pure
  · simpa using hu x hx
  · simpa using hv
  · simpa [he] using plays_pure

theorem plays_store {a : Addr} {d : List Byte} {ms : List Move} (h : storeRuns c w a d ms) :
    Plays .updi c (sendBytesBlock w a d) ms () := by
  obtain ⟨hb, rfl⟩ := h
  exact plays_sendBytesBlock hb

theorem plays_nvmStep {a : Addr} {b : Byte} {st : NvmStep} {ms : List Move} (h : nvmStepRuns c r w a b st ms) :
    Plays .updi c (nvmStep r w a b st) ms () := by
  cases st with
  | wait => exact plays_nvmWait h
  | cmd x => exact plays_store h
  | sendBytes p d => exact plays_store h
  | sendWords p d =>
    obtain ⟨he, hb, rfl⟩ := h
    exact plays_sendWordsBlock hb he
  | recvBytes p n =>
    obtain ⟨hb, d, rfl, rfl⟩ := h
    exact plays_bind_nil (plays_recvBytesBlock hb) plays_pure
  | recvWords p n =>
    obtain ⟨hb, d, hd, rfl⟩ := h
    obtain rfl : n = d.length / 2 := by omega
    exact plays_bind_nil (plays_recvWordsBlock hb (by omega)) plays_pure

/-- A variant's script without a failure is its steps' exchanges in order (R284). -/
theorem plays_runNvm {a : Addr} {b : Byte} : ∀ {sc : NvmScript} {ms : List Move}, nvmRuns c r w a b sc ms →
    Plays .updi c (runNvm r w a b sc) ms ()
  | [], _, rfl => plays_pure
  | _ :: _, _, ⟨_, _, h1, h2, rfl⟩ => plays_bind (plays_nvmStep h1) (plays_runNvm h2)

theorem plays_bytewiseLoop {one : NvmScript} : ∀ {a : Addr} {d : List Byte} {ms : List Move},
    bytewiseRuns c r w one a d ms → Plays .updi c (bytewiseLoop r w one a d) ms ()
  | _, [], _, rfl => plays_pure
  | _, _ :: _, _, ⟨_, _, h1, h2, rfl⟩ => plays_bind (plays_runNvm h1) (plays_bytewiseLoop h2)

theorem plays_burstLoop {pre commit : NvmScript} : ∀ {a : Addr} {d : List Byte} {ms : List Move},
    burstRuns c r w pre commit a d ms → Plays .updi c (burstLoop r w pre commit a d) ms ()
  | _, [], _, rfl => plays_pure
  | _, [_], _, ⟨_, _, _, h1, h2, h3, rfl⟩ =>
    plays_bind (plays_runNvm h1) (plays_bind (plays_store h2) (plays_runNvm h3))
  | _, _ :: _ :: _, _, ⟨_, _, _, _, h1, h2, h3, h4, rfl⟩ =>
    plays_bind (plays_runNvm h1) (plays_bind (plays_store h2) (plays_bind (plays_runNvm h3) (plays_burstLoop h4)))

theorem plays_transfer {a : Addr} {d : List Byte} (h : transferOk c w a d.length) :
    Plays .updi c (transfer w a d) (transferMoves c w a d) () := by
  obtain ⟨h1, h2, h3⟩ := h
  unfold transfer transferMoves
  refine plays_get fun s hc _ => ?_
  rw [hc]
  by_cases hb : d.length ≤ c.blockMaxUnits
  · rw [if_pos hb, if_pos hb]
    exact plays_sendBytesBlock ⟨h1, hb, h3⟩
  · have h4 : d.length % 2 = 0 ∧ d.length / 2 ≤ c.blockMaxUnits := by simpa [blockable, hb] using h2
    rw [if_neg hb, if_neg hb, if_pos h4]
    exact plays_sendWordsBlock ⟨by omega, h4.2, h3⟩ h4.1

theorem plays_readTransfer {a : Addr} {d : List Byte} (h : transferOk c w a d.length) :
    Plays .updi c (readTransfer w a d.length) (readMoves c w a d) d := by
  obtain ⟨h1, h2, h3⟩ := h
  unfold readTransfer readMoves
  refine plays_get fun s hc _ => ?_
  rw [hc]
  by_cases hb : d.length ≤ c.blockMaxUnits
  · rw [if_pos hb, if_pos hb]
    exact plays_recvBytesBlock ⟨h1, hb, h3⟩
  · have h4 : d.length % 2 = 0 ∧ d.length / 2 ≤ c.blockMaxUnits := by simpa [blockable, hb] using h2
    rw [if_neg hb, if_neg hb, if_pos h4]
    exact plays_recvWordsBlock ⟨by omega, h4.2, h3⟩ h4.1

/-! ## TPI -/

theorem plays_tpiSetPtr (c : Params) (a : Addr) : Plays .tpi c (tpiSetPtr a) (tpiPtrMoves c a) () := by
  unfold tpiSetPtr
  refine plays_get fun s hc _ => ?_
  rw [hc]
  exact plays_send .tpi c _

theorem plays_tpiLdInc (c : Params) (v : Byte) : Plays .tpi c tpiLdInc [.out c.tpi.opLdInc, .into v] v := by
  unfold tpiLdInc
  refine plays_get fun s hc _ => ?_
  rw [hc]
  exact plays_bind (m1 := [.out c.tpi.opLdInc]) (plays_send .tpi c [_]) (plays_rx .tpi c v)

theorem plays_tpiStInc (c : Params) (b : Byte) : Plays .tpi c (tpiStInc b) (outs [c.tpi.opStInc, b]) () := by
  unfold tpiStInc
  refine plays_get fun s hc _ => ?_
  rw [hc]
  exact plays_send .tpi c _

theorem plays_tpiOut (c : Params) (io : IoIx) (v : Byte) : Plays .tpi c (tpiOut io v) (outs [opSout c io, v]) () := by
  unfold tpiOut
  refine plays_get fun s hc _ => ?_
  rw [hc]
  exact plays_send .tpi c _

theorem plays_tpiIn (c : Params) (io : IoIx) (v : Byte) : Plays .tpi c (tpiIn io) [.out (opSin c io), .into v] v := by
  unfold tpiIn
  refine plays_get fun s hc _ => ?_
  rw [hc]
  exact plays_bind (m1 := [.out (opSin c io)]) (plays_send .tpi c [_]) (plays_rx .tpi c v)

theorem plays_tpiLoads (c : Params) (d : List Byte) :
    Plays .tpi c (tpiLoads d.length) (d.flatMap fun v => [.out c.tpi.opLdInc, .into v]) d := by
  induction d with
  | nil => exact plays_pure
  | cons v vs ih =>
    rw [List.flatMap_cons]
    exact plays_bind (plays_tpiLdInc c v) (plays_bind_nil ih plays_pure)

/-- Pointer-set and loads (R230). -/
theorem plays_tpiReadAt (c : Params) (a : Addr) (d : List Byte) :
    Plays .tpi c (tpiReadAt a d.length) (tpiReadMoves c a d) d :=
  plays_bind (plays_tpiSetPtr c a) (plays_tpiLoads c d)

/-- The busy poll of the TPI controller (R228). -/
theorem plays_tpiNvmWait {ms : List Move} (h : tpiWaitRuns c ms) : Plays .tpi c tpiNvmWait ms () := by
  obtain ⟨busy, v, hu, hv, rfl⟩ := h
  unfold tpiNvmWait
  refine plays_get fun s hc _ => ?_
  rw [hc]
  refine plays_bind_nil (plays_pollUntil (fun x => plays_tpiIn c c.tpi.nvmCsr x)
    (fun x => by simp [lineOf, moveLine]) (fun x hx => ?_) ?_) plays_pure
  · simpa using hu x hx
  · simpa using hv

theorem plays_tpiStores (c : Params) (d : List Byte) : Plays .tpi c (tpiStores d) (tpiStoreMoves c d) () := by
  induction d with
  | nil => exact plays_pure
  | cons v vs ih => exact plays_bind (plays_tpiStInc c v) ih

theorem plays_tpiChunks {k : Nat} : ∀ {n : Nat} {d : List Byte} {ms : List Move}, tpiChunkRuns c k n d ms →
    Plays .tpi c (tpiChunks k n d) ms ()
  | 0, _, _, rfl => plays_pure
  | _ + 1, _, _, ⟨_, _, h1, h2, rfl⟩ =>
    plays_bind (plays_tpiStores c _) (plays_bind (plays_tpiNvmWait h1) (plays_tpiChunks h2))

/-- `tpi_erase_at` (R231). -/
theorem plays_tpiEraseAt {a : Addr} {x : Byte} {ms : List Move} (h : tpiEraseRuns c a x ms) :
    Plays .tpi c (tpiEraseAt a x) ms () := by
  obtain ⟨m, hm, rfl⟩ := h
  unfold tpiEraseAt
  refine plays_get fun s hc _ => ?_
  rw [hc]
  have h1 : Plays .tpi c (tpiStInc 0xFF) (tpiStoreMoves c [0xFF]) () := by
    simpa [tpiStoreMoves] using plays_tpiStInc c 0xFF
  exact plays_bind (plays_tpiOut c _ _) (plays_bind (plays_tpiSetPtr c _) (plays_bind h1
    (plays_bind (plays_tpiNvmWait hm) (plays_tpiOut c _ _))))

theorem plays_sendSyncKey (e : Engine) (c : Params) : Plays e c (sendSyncKey e) (outs (syncKeyBytes c)) () := by
  unfold sendSyncKey
  refine plays_get fun s hc _ => ?_
  rw [hc]
  exact plays_send e c _

/-! ## PDI -/

theorem plays_pdiSts8 (c : Params) (a : Addr) (v : Byte) : Plays .pdi c (pdiSts8 a v) (pdiStoreMoves c a v) () := by
  unfold pdiSts8
  refine plays_get fun s hc _ => ?_
  rw [hc]
  exact plays_send .pdi c _

theorem plays_pdiLds8 (c : Params) (a : Addr) (v : Byte) :
    Plays .pdi c (pdiLds8 a) (outs (c.pdi.opLds8 :: pdiAddr c a) ++ [.into v]) v := by
  unfold pdiLds8
  refine plays_get fun s hc _ => ?_
  rw [hc]
  exact plays_bind (plays_send .pdi c _) (plays_rx .pdi c v)

theorem plays_pdiSetPtr (c : Params) (a : Addr) : Plays .pdi c (pdiSetPtr a) (outs (c.pdi.opPtr :: pdiAddr c a)) () := by
  unfold pdiSetPtr
  refine plays_get fun s hc _ => ?_
  rw [hc]
  exact plays_send .pdi c _

theorem plays_pdiRepeat (c : Params) (n : Byte) : Plays .pdi c (pdiRepeat n) (outs [c.pdi.opRepeat, n]) () := by
  unfold pdiRepeat
  refine plays_get fun s hc _ => ?_
  rw [hc]
  exact plays_send .pdi c _

theorem plays_requireUnits {n : Nat} (h1 : 1 ≤ n) (h2 : n ≤ c.blockMaxUnits) : Plays .pdi c (requireUnits n) [] () := by
  unfold requireUnits
  refine plays_get fun s hc _ => ?_
  rw [hc, show (decide (1 ≤ n) && decide (n ≤ c.blockMaxUnits)) = true by simp [h1, h2]]
  exact plays_pure

/-- `pdi_recv_block` (R255). -/
theorem plays_pdiRecvBlock {a : Addr} {d : List Byte} (h1 : 1 ≤ d.length) (h2 : d.length ≤ c.blockMaxUnits) :
    Plays .pdi c (pdiRecvBlock a d.length) (pdiRecvMoves c a d) d := by
  unfold pdiRecvBlock
  refine plays_get fun s hc _ => ?_
  rw [hc]
  refine plays_nil_bind (plays_requireUnits h1 h2) ?_
  unfold pdiRecvMoves pdiHeadMoves
  rw [List.append_assoc]
  exact plays_bind (plays_pdiSetPtr c a) (plays_bind (plays_pdiRepeat c _) (plays_bind (plays_send .pdi c _)
    (plays_recvN .pdi c d)))

/-- `pdi_send_block` (R255). -/
theorem plays_pdiSendBlock {a : Addr} {d : List Byte} (h1 : 1 ≤ d.length) (h2 : d.length ≤ c.blockMaxUnits) :
    Plays .pdi c (pdiSendBlock a d) (pdiSendMoves c a d) () := by
  unfold pdiSendBlock
  refine plays_get fun s hc _ => ?_
  rw [hc]
  refine plays_nil_bind (plays_requireUnits h1 h2) ?_
  unfold pdiSendMoves pdiHeadMoves
  rw [List.append_assoc]
  exact plays_bind (plays_pdiSetPtr c a) (plays_bind (plays_pdiRepeat c _) (plays_send .pdi c _))

theorem plays_pdiCmd (c : Params) (x : Byte) : Plays .pdi c (pdiCmd x) (pdiCmdMoves c x) () := by
  unfold pdiCmd
  refine plays_get fun s hc _ => ?_
  rw [hc]
  exact plays_pdiSts8 c _ _

theorem plays_pdiExecute (c : Params) : Plays .pdi c pdiExecute (pdiStoreMoves c c.pdi.nvmCtrlA c.pdi.cmdex) () := by
  unfold pdiExecute
  refine plays_get fun s hc _ => ?_
  rw [hc]
  exact plays_pdiSts8 c _ _

theorem plays_pdiPollEnabled {ms : List Move} (h : pdiEnabledRuns c ms) : Plays .pdi c pdiPollEnabled ms () := by
  obtain ⟨unwanted, v, hu, hv, rfl⟩ := h
  unfold pdiPollEnabled
  refine plays_get fun s hc _ => ?_
  rw [hc]
  refine plays_bind_nil (plays_pollUntil (fun x => plays_ldcs .pdi c c.pdi.rStatus x)
    (fun x => lineOf_into_pos .pdi _ x) (fun x hx => ?_) ?_) plays_pure
  · simpa using hu x hx
  · simpa using hv

/-- `pdi_nvm_wait` (R258). -/
theorem plays_pdiNvmWait {ms : List Move} (h : pdiWaitRuns c ms) : Plays .pdi c pdiNvmWait ms () := by
  obtain ⟨m, busy, v, hm, hu, hv, rfl⟩ := h
  unfold pdiNvmWait
  refine plays_bind (plays_pdiPollEnabled hm) (plays_get fun s hc _ => ?_)
  rw [hc]
  refine plays_bind_nil (plays_pollUntil (fun x => plays_pdiLds8 c c.pdi.nvmStatus x)
    (fun x => lineOf_into_pos .pdi _ x) (fun x hx => ?_) ?_) plays_pure
  · simpa using hu x hx
  · simpa using hv

theorem plays_pdiBytes {x : Byte} : ∀ {a : Addr} {d : List Byte} {ms : List Move}, pdiByteRuns c x a d ms →
    Plays .pdi c (do pdiBytes x a d; pdiNvmWait) ms ()
  | _, [], _, h => plays_nil_bind plays_pure (plays_pdiNvmWait h)
  | _, b :: rest, _, ⟨m1, m2, h1, h2, rfl⟩ => by
    show Plays .pdi c ((do pdiNvmWait; pdiCmd x; pdiSts8 _ b; pdiBytes x _ rest) >>= fun _ => pdiNvmWait) _ ()
    simp only [bind_assoc]
    exact plays_bind (plays_pdiNvmWait h1) (plays_bind (plays_pdiCmd c x) (plays_bind (plays_pdiSts8 c _ b)
      (plays_pdiBytes h2)))

end Sys2Proof.Machine
end

