-- ==== Sys2Proof/Laws/Outcomes.lean ====
section
/-! SUPPORT. From a piece of an operation to what an instruction answers: primitives, host operations, runs. -/

namespace Sys2Proof.Machine

/-! ## Primitives -/

theorem conclude_late (r : Res) (τ : Time) (t : State) : (t.stamp τ).conclude r = (t.conclude r).late τ.cnt τ.delays := rfl

theorem deliver_late (r : Res) (τ : Time) (t : State) :
    State.deliver r (t.stamp τ) = (State.deliver r t).late τ.cnt τ.delays := rfl

/-- A disarmed state has time enough below any bound above what its tape holds. -/
theorem State.within_of_disarmed {s : State} (h : s.wdArmed = false) : s.within (s.env.delays.sum + 1) :=
  ⟨Nat.lt_succ_self _, fun ha => by rw [h] at ha; exact absurd ha (by simp)⟩

/-- A primitive that goes through ends in its result's next state (R11). -/
theorem primOp_goes {m : M Res} {s t : State} {r : Res} (ha : s.wdArmed = false) (h : ∀ n, Goes true n m s r t)
    (hc : t.wdCnt = s.wdCnt) : ∃ ds, primOp m s = .next (t.ended r ds) := by
  obtain ⟨τ, e, l⟩ := h _ (State.within_of_disarmed ha)
  refine ⟨τ.delays, ?_⟩
  obtain ⟨_, h2⟩ := l.2 rfl ha
  unfold primOp outcome
  rw [e]
  simp only [conclude_late, State.ended, hc, h2]

/-- A primitive that fails ends in the failure's next state: count 0 (R11, R320). -/
theorem primOp_fails {m : M Res} {s t : State} {c : Cause} (ha : s.wdArmed = false) (h : ∀ n, Fails true n m s c t)
    (hc : t.wdCnt = s.wdCnt) : ∃ ds, primOp m s = .next (t.ended (Res.fail c) ds) := by
  obtain ⟨τ, e, l⟩ := h _ (State.within_of_disarmed ha)
  refine ⟨τ.delays, ?_⟩
  obtain ⟨_, h2⟩ := l.2 rfl ha
  unfold primOp outcome
  rw [e]
  simp only [conclude_late, State.ended, hc, h2]

/-- A primitive that is an exchange (R11). -/
theorem primOp_plays {e : Engine} {m : M Res} {s : State} {ms : List Move} {r : Res} {rest : List LineEvent}
    (ha : s.wdArmed = false) (hu : s.umode = engineMode e) (hl : s.hears e ms rest) (h : Plays e s.cfg m ms r) :
    ∃ ds, primOp m s = .next ((s.moved e ms rest).ended r ds) :=
  primOp_goes ha (fun n => h true n s rest hu rfl hl) rfl

theorem plays_done {e : Engine} {c : Params} {m : M Unit} {ms : List Move} (h : Plays e c m ms ()) :
    Plays e c (done m) ms (Res.ok 1) := plays_bind_nil h plays_pure

theorem plays_oneByte {e : Engine} {c : Params} {m : M Byte} {ms : List Move} {v : Byte} (h : Plays e c m ms v) :
    Plays e c (oneByte m) ms (Res.read [v]) := plays_bind_nil h plays_pure

/-! ## Host operations -/

/-- A host operation whose body goes through (R21, R41, R376). -/
theorem hostOp_goes {scope : HostScope} {cmd : Byte} {p : Payload} {m : M Res} {s t : State} {r : Res} {k : Bool} {n : Nat}
    (hw : s.within n) (ha : s.wdArmed = false) (h : Goes k n m (s.withRequest scope cmd p) r t) :
    ∃ cnt ds, hostOp scope cmd p m s = .next (t.answered r cnt ds) ∧ (k = true → cnt = s.wdCnt) := by
  obtain ⟨τ, e, l⟩ := h hw
  refine ⟨τ.cnt, τ.delays, ?_, fun hk => (l.2 hk ha).2⟩
  unfold hostOp outcome
  rw [e]
  rfl

/-- A state with time for a deadline. -/
theorem State.within_of_ready {s : State} {n : Nat} (h : s.ready n) : s.within n :=
  ⟨h.2.2, fun ha => by rw [h.1] at ha; exact absurd ha (by simp)⟩

/-- An AVR-core-scope operation under its own `ARCH` is a host operation (R103). -/
theorem avrOp_eq {a : Arch} {cmd : Byte} {p : Payload} {m : M Res} {s : State} (h : s.arch = a) :
    avrOp a cmd p m s = hostOp .avr cmd p m s := by
  unfold avrOp hostOp outcome
  have : ((do
      let s ← get
      require (s.arch == a)
      m : M Res)) (s.withRequest .avr cmd p) = m (s.withRequest .avr cmd p) := by
    rw [m_bind, m_get]
    show (require ((s.withRequest .avr cmd p).arch == a) >>= fun _ => m) _ = _
    rw [show ((s.withRequest .avr cmd p).arch == a) = true by simp [State.withRequest, h], m_bind, require_true]
  rw [this]

/-! ## Runs -/

/-- A run whose operation goes through before the expiry (R142). -/
theorem goes_supervise {m : M Res} {fb : FallbackSel} {deadline : Half} {s t : State} {r : Res} {k : Bool} {n : Nat}
    (h1 : s.wdArmed = false) (h2 : s.env.ie = true) (hn : n ≤ deadline.toNat)
    (hm : Goes k n m (s.started deadline) r t) (hc : r.count ≠ 0 ∨ t.cfg.retryOnFailure = false) :
    Goes false n (supervise m fb deadline) s r t.disarm := by
  intro hw
  have hs : s.env.delays.sum < deadline.toNat := lt_of_lt_of_le hw.1 hn
  have hd : deadline ≠ 0 := by
    intro h0
    rw [h0] at hs
    simp at hs
  have hw' : (s.started deadline).within n := ⟨hw.1, fun _ => hs⟩
  obtain ⟨τ, e, l⟩ := hm hw'
  obtain ⟨τ', e', l'⟩ := State.elapse_lasts (k := false) l.1
  refine ⟨τ', ?_, ⟨l'.1.1, fun ha => absurd ha (by simp [State.disarm, State.stamp])⟩, fun hk => absurd hk (by simp)⟩
  unfold supervise
  rw [h2, h1]
  simp only [Bool.true_eq_false, if_false, Bool.false_eq_true, hd]
  unfold runLoop
  show (match m (s.started deadline) with
    | .ok r s' => if s'.expiresWaiting ∨ (r.count = 0 ∧ s'.cfg.retryOnFailure) then _
      else EStateM.Result.ok r s'.elapse.disarm
    | .error (.raise c) s' => _
    | .error .expired s' => _
    | .error .stuck s' => _
    | .error (.refused r) s' => _) = _
  rw [e]
  show (if (t.stamp τ).expiresWaiting = true ∨ (r.count = 0 ∧ t.cfg.retryOnFailure = true) then _
    else EStateM.Result.ok r (t.stamp τ).elapse.disarm) = _
  rw [if_neg]
  · rw [e']
    rfl
  · rintro (h4 | ⟨h4, h5⟩)
    · rw [State.within_not_waiting l.1] at h4; exact absurd h4 (by simp)
    rcases hc with hc | hc
    · exact hc h4
    · rw [hc] at h5; exact absurd h5 (by simp)

/-- A run, with the give-up that a success does not meet. -/
theorem goes_runWith {op : RunOp} {fb : FallbackSel} {deadline : Half} {s t : State} {r : Res} {k : Bool} {n : Nat}
    (h1 : s.wdArmed = false) (h2 : s.env.ie = true) (hn : n ≤ deadline.toNat)
    (hm : Goes k n (runBody op) (s.started deadline) r t) (hc : r.count ≠ 0 ∨ t.cfg.retryOnFailure = false)
    (ht : r.cause ≠ some .timeout) : Goes false n (runWith op fb deadline) s r t.disarm := by
  unfold runWith
  refine goes_bind (goes_supervise h1 h2 hn hm hc) fun τ => ?_
  rw [if_neg ht]
  exact (goes_stamp τ).1 goes_pure

/-- A host operation that is a run of its body (R153). -/
theorem hostRun_goes {scope : HostScope} {cmd : Byte} {p : Payload} {op : RunOp} {s t : State} {r : Res} {k : Bool}
    (hr : s.ready Config.wdDefaultMs.toNat)
    (hm : ∀ n, Goes k n (runBody op) ((s.withRequest scope cmd p).started Config.wdDefaultMs) r t)
    (hc : r.count ≠ 0 ∨ t.cfg.retryOnFailure = false) (hn : r.cause ≠ some .timeout) :
    ∃ cnt ds, hostOp scope cmd p (runOp op) s = .next (t.disarm.answered r cnt ds) := by
  obtain ⟨cnt, ds, h, _⟩ := hostOp_goes (scope := scope) (cmd := cmd) (p := p) (m := runOp op) (k := false)
    (State.within_of_ready hr) hr.1 (goes_runWith (fb := runFallback op) (s := s.withRequest scope cmd p) hr.1 hr.2.1
      (Nat.le_refl _) (hm _) hc hn)
  exact ⟨cnt, ds, h⟩

/-- `WD.RUN` of an operation that goes through (R140, R142). -/
theorem wdRun_goes {op : RunOp} {fb : FallbackSel} {deadline : Half} {s t : State} {r : Res} {k : Bool}
    (hr : s.ready deadline.toNat) (hm : ∀ n, Goes k n (runBody op) (s.started deadline) r t)
    (hc : r.count ≠ 0 ∨ t.cfg.retryOnFailure = false) (hn : r.cause ≠ some .timeout) :
    ∃ cnt ds, execWdRun op fb deadline s = .next ((t.disarm.conclude r).late cnt ds) := by
  obtain ⟨τ, e, _⟩ := goes_runWith (fb := fb) (s := s) hr.1 hr.2.1 (Nat.le_refl _) (hm _) hc hn
    (State.within_of_ready hr)
  refine ⟨τ.cnt, τ.delays, ?_⟩
  unfold execWdRun primOp outcome
  rw [e]
  rfl

end Sys2Proof.Machine
end

