-- ==== Sys2Proof/Laws/Connects.lean ====
section
/-! SUPPORT. The laws of register writes inside an operation: which leave the countdown alone, what quiesce, acquire,
release, teardown and a connect's start do. -/

namespace Sys2Proof.Machine

variable {k : Bool} {n : Nat}

/-! ## Putting pieces together -/

theorem Plays.goes {α : Type} {e : Engine} {m : M α} {ms : List Move} {a : α} {s : State} {rest : List LineEvent}
    (h : Plays e s.cfg m ms a) (hu : s.umode = engineMode e) (hl : s.hears e ms rest) :
    Goes k n m s a (s.moved e ms rest) := h k n s rest hu rfl hl

theorem Plays.goes_bind {α β : Type} {e : Engine} {c : Params} {m : M α} {ms : List Move} {a : α} {f : α → M β} {s u : State}
    {b : β} {rest : List LineEvent} (h : Plays e c m ms a) (hc : s.cfg = c) (hu : s.umode = engineMode e)
    (hl : s.hears e ms rest) (h2 : ∀ τ, Goes k n (f a) ((s.moved e ms rest).stamp τ) b u) : Goes k n (m >>= f) s b u :=
  Machine.goes_bind (h k n s rest hu hc hl) h2

theorem goes_upd_bind {β : Type} {f : State → State} {g : Unit → M β} {s u : State} {b : β} (hf : Plain f)
    (h2 : ∀ τ, Goes k n (g ()) ((s.write f).stamp τ) b u) : Goes k n (upd f >>= g) s b u :=
  goes_bind (goes_upd hf) h2

/-- A write that leaves the reset line alone, then the rest. -/
theorem goes_quiet_bind {β : Type} {f : State → State} {g : Unit → M β} {s u : State} {b : β} (hf : Plain f)
    (hq : (f s).trst = s.trst) (h2 : ∀ τ, Goes k n (g ()) ((f s).stamp τ) b u) : Goes k n (upd f >>= g) s b u := by
  refine goes_upd_bind hf ?_
  rw [State.write_quiet hq]
  exact h2

theorem goes_phase_bind {β : Type} {p : Nat} {g : Unit → M β} {s u : State} {b : β}
    (h2 : ∀ τ, Goes k n (g ()) (s.stamp τ) b u) : Goes k n (phase p >>= g) s b u :=
  goes_bind goes_phase h2

/-- A piece does the same in a state with other values of time. -/
theorem write_stamp {f : State → State} (hf : Plain f) (s : State) (τ : Time) :
    (s.stamp τ).write f = (s.write f).stamp τ := timeless_write hf.timeless s τ

/-! ## Register writes that leave the countdown alone -/

/-- What the quiesce leaves alone. -/
theorem State.quiesce_eq (s : State) :
    s.quiesce = { s with tclk := false, tdat := none, hist := s.quiesceEvents ++ s.hist } := rfl

theorem plain_quiesce : Plain State.quiesce where
  timeless _ _ := rfl
  armed _ := rfl
  env _ := rfl
  cnt _ := rfl

/-- An acquire is a quiesce or none, and the new owner. -/
theorem State.acquire_cases (e : Engine) (s : State) :
    (s.umode = .vcp ∨ (s.umode.isEngine ∧ s.umode ≠ engineMode e)) ∧ s.acquire e = { s.quiesce with umode := engineMode e } ∨
    ¬(s.umode = .vcp ∨ (s.umode.isEngine ∧ s.umode ≠ engineMode e)) ∧ s.acquire e = { s with umode := engineMode e } := by
  unfold State.acquire
  by_cases h : s.umode = .vcp ∨ (s.umode.isEngine ∧ s.umode ≠ engineMode e)
  · exact .inl ⟨h, by rw [if_pos h]⟩
  · exact .inr ⟨h, by rw [if_neg h]⟩

theorem plain_acquire (e : Engine) : Plain (State.acquire e) where
  timeless s t := by
    rcases State.acquire_cases e s with ⟨h, h1⟩ | ⟨h, h1⟩ <;>
      rcases State.acquire_cases e (s.stamp t) with ⟨h', h2⟩ | ⟨h', h2⟩ <;>
      first
      | exact absurd h h'
      | exact absurd h' h
      | rw [h1, h2]
    · rw [plain_quiesce.timeless]; rfl
    · rfl
  armed s := by
    rcases State.acquire_cases e s with ⟨_, h⟩ | ⟨_, h⟩ <;> rw [h]
    exact plain_quiesce.armed s
  env s := by
    rcases State.acquire_cases e s with ⟨_, h⟩ | ⟨_, h⟩ <;> rw [h]
    exact plain_quiesce.env s
  cnt s := by
    rcases State.acquire_cases e s with ⟨_, h⟩ | ⟨_, h⟩ <;> rw [h]
    exact plain_quiesce.cnt s

theorem plain_releaseUart : Plain State.releaseUart where
  timeless s t := by unfold State.releaseUart; rw [plain_quiesce.timeless]; rfl
  armed s := plain_quiesce.armed s
  env s := plain_quiesce.env s
  cnt s := plain_quiesce.cnt s

theorem setClk_stamp (c : Nat) (s : State) (t : Time) : (s.stamp t).setClk c = (s.setClk c).stamp t := by
  unfold State.setClk
  by_cases h : s.clk = c
  · rw [if_pos h, if_pos (show (s.stamp t).clk = c from h)]
  · rw [if_neg h, if_neg (show ¬(s.stamp t).clk = c from h)]
    rfl

theorem plain_setClk {f : State → State} (hf : Plain f) (c : State → Nat) (hc : ∀ s t, c (s.stamp t) = c s) :
    Plain fun s => (f s).setClk (c s) where
  timeless s t := by
    show (f (s.stamp t)).setClk (c (s.stamp t)) = _
    rw [hf.timeless, hc, setClk_stamp]
  armed s := (State.setClk_wdArmed _ _).trans (hf.armed s)
  env s := (State.setClk_env _ _).trans (hf.env s)
  cnt s := (State.setClk_wdCnt _ _).trans (hf.cnt s)

theorem plain_clearSession : Plain State.clearSession :=
  plain_setClk (f := fun s => { s.dropSession with dd := { s.dd with valid := false } })
    ⟨fun _ _ => rfl, fun _ => rfl, fun _ => rfl, fun _ => rfl⟩ (fun s => s.cfg.clkCfgKhz) fun _ _ => rfl

/-- What a change of `CLK` leaves. -/
theorem setClk_eq (c : Nat) (s : State) : ∃ h, s.setClk c = { s with clk := c, hist := h } := by
  unfold State.setClk
  split
  · next hc => exact ⟨s.hist, by rw [← hc]⟩
  · exact ⟨_, rfl⟩

/-- What a change of `CLK` in a connect leaves. -/
theorem connectRate_eq (e : Engine) (s : State) :
    ∃ h, connectRate e s = { s with clk := s.cfg.clkCfgKhz, hist := h } := by
  cases e
  · exact ⟨s.hist, rfl⟩
  · exact setClk_eq _ _
  · exact setClk_eq _ _

theorem plain_connectRate (e : Engine) {f : State → State} (hf : Plain f) (hc : ∀ s t, (f (s.stamp t)).cfg = (f s).cfg) :
    Plain fun s => connectRate e (f s) := by
  have hp : Plain fun s => (f s).setClk (f s).cfg.clkCfgKhz :=
    plain_setClk hf (fun s => (f s).cfg.clkCfgKhz) fun s t => congrArg Params.clkCfgKhz (hc s t)
  cases e
  · exact ⟨fun s t => by
      show ({ f (s.stamp t) with clk := (f (s.stamp t)).cfg.clkCfgKhz } : State) = _
      rw [hf.timeless]; rfl, hf.armed, hf.env, hf.cnt⟩
  · exact hp
  · exact hp

@[simp] theorem connectRate_clk (e : Engine) (s : State) : (connectRate e s).clk = s.cfg.clkCfgKhz := by
  obtain ⟨h, e⟩ := connectRate_eq e s; rw [e]

@[simp] theorem connectRate_trstEng (e : Engine) (s : State) : (connectRate e s).trstEng = s.trstEng := by
  obtain ⟨h, e⟩ := connectRate_eq e s; rw [e]

@[simp] theorem connectRate_sess (e : Engine) (s : State) : (connectRate e s).sess = s.sess := by
  obtain ⟨h, e⟩ := connectRate_eq e s; rw [e]

@[simp] theorem connectRate_ct (e : Engine) (s : State) : (connectRate e s).ct = s.ct := by
  obtain ⟨h, e⟩ := connectRate_eq e s; rw [e]

@[simp] theorem connectTrst_tpi (held : Bool) : connectTrst .tpi held = held := rfl

@[simp] theorem connectTrst_updi (held : Bool) : connectTrst .updi held = false := rfl

@[simp] theorem connectTrst_pdi (held : Bool) : connectTrst .pdi held = false := rfl

/-- The change of registers that ends step 1 of a connect leaves the countdown alone. -/
theorem plain_connectDrop (e : Engine) : Plain fun s => connectRate e { s with
    sib := { s.sib with valid := false }
    beforePage := none
    dd := { s.dd with valid := s.dd.valid && !s.cfg.ddClearOnSignOn }
    rxf := RxFlags.clear
    trstEng := connectTrst e s.trstEng
    tpiChunk := .two } :=
  plain_connectRate e ⟨fun _ _ => rfl, fun _ => rfl, fun _ => rfl, fun _ => rfl⟩ fun _ _ => rfl

theorem plain_linkLoss : Plain State.linkLoss where
  timeless s t := by unfold State.linkLoss; exact plain_releaseUart.timeless s.dropSession t
  armed s := plain_releaseUart.armed s.dropSession
  env s := plain_releaseUart.env s.dropSession
  cnt s := plain_releaseUart.cnt s.dropSession

theorem plain_connectFailed : Plain State.connectFailed where
  timeless _ _ := rfl
  armed _ := rfl
  env _ := rfl
  cnt _ := rfl

@[simp] theorem State.acquire_umode (e : Engine) (s : State) : (s.acquire e).umode = engineMode e := rfl

theorem State.acquire_trst (e : Engine) (s : State) : (s.acquire e).trst = s.trst := by
  rcases State.acquire_cases e s with ⟨_, h⟩ | ⟨_, h⟩ <;> rw [h]
  · rw [State.quiesce_eq]; rfl
  · rfl

/-! ## Connects' start -/

/-- What is as it was after a write of registers, whatever it records. -/
theorem State.write_field {α : Type} {f : State → State} {s : State} (g : State → α)
    (hg : ∀ (t : State) h, g { t with hist := h } = g t) : g (s.write f) = g (f s) := by
  unfold State.write State.noteTrst
  split
  · rfl
  · exact hg _ _

/-- What an acquire leaves alone. -/
theorem State.acquire_field {α : Type} (g : State → α) (e : Engine) (s : State)
    (h1 : ∀ (t : State) u, g { t with umode := u } = g t)
    (h2 : ∀ (t : State) b d h, g { t with tclk := b, tdat := d, hist := h } = g t) : g (s.acquire e) = g s := by
  rcases State.acquire_cases e s with ⟨_, h⟩ | ⟨_, h⟩ <;> rw [h, h1]
  rw [State.quiesce_eq, h2]

/-- What a connect's start leaves alone. -/
theorem State.connectStart_field {α : Type} (g : State → α) (e : Engine) (s : State)
    (h1 : ∀ (t : State) u, g { t with umode := u } = g t)
    (h2 : ∀ (t : State) b d h, g { t with tclk := b, tdat := d, hist := h } = g t)
    (h3 : ∀ t : State, g { t with trstBtn := false } = g t)
    (h4 : ∀ t : State, g { t with sess := Sess.zero, ct := .stub } = g t)
    (h5 : ∀ (t : State) b, g { t with
      sib := { t.sib with valid := false }, beforePage := none
      dd := { t.dd with valid := t.dd.valid && !t.cfg.ddClearOnSignOn }
      rxf := RxFlags.clear, trstEng := b, clk := t.cfg.clkCfgKhz, tpiChunk := .two } = g t) :
    g (s.connectStart e) = g s := by
  have hh : ∀ (t : State) h, g { t with hist := h } = g t := fun t h => h2 t t.tclk t.tdat h
  have h5 : ∀ t : State, g (connectRate e { t with
      sib := { t.sib with valid := false }, beforePage := none
      dd := { t.dd with valid := t.dd.valid && !t.cfg.ddClearOnSignOn }
      rxf := RxFlags.clear, trstEng := connectTrst e t.trstEng, tpiChunk := .two }) = g t := by
    intro t
    obtain ⟨h, he⟩ := connectRate_eq e { t with
      sib := { t.sib with valid := false }, beforePage := none
      dd := { t.dd with valid := t.dd.valid && !t.cfg.ddClearOnSignOn }
      rxf := RxFlags.clear, trstEng := connectTrst e t.trstEng, tpiChunk := .two }
    rw [he, ← h5 t (connectTrst e t.trstEng)]
    exact hh { t with
      sib := { t.sib with valid := false }, beforePage := none
      dd := { t.dd with valid := t.dd.valid && !t.cfg.ddClearOnSignOn }
      rxf := RxFlags.clear, trstEng := connectTrst e t.trstEng, clk := t.cfg.clkCfgKhz, tpiChunk := .two } h
  unfold State.connectStart
  simp only [State.write_field g hh]
  rw [h3]
  rw [State.write_field g hh, State.acquire_field g e _ h1 h2, State.write_field g hh, h5, State.write_field g hh, h4]

@[simp] theorem connectStart_cfg (e : Engine) (s : State) : (s.connectStart e).cfg = s.cfg :=
  State.connectStart_field (fun s => s.cfg) e s (fun _ _ => rfl) (fun _ _ _ _ => rfl) (fun _ => rfl) (fun _ => rfl)
    fun _ _ => rfl

@[simp] theorem connectStart_env (e : Engine) (s : State) : (s.connectStart e).env = s.env :=
  State.connectStart_field (fun s => s.env) e s (fun _ _ => rfl) (fun _ _ _ _ => rfl) (fun _ => rfl) (fun _ => rfl)
    fun _ _ => rfl

@[simp] theorem connectStart_wdArmed (e : Engine) (s : State) : (s.connectStart e).wdArmed = s.wdArmed :=
  State.connectStart_field (fun s => s.wdArmed) e s (fun _ _ => rfl) (fun _ _ _ _ => rfl) (fun _ => rfl) (fun _ => rfl)
    fun _ _ => rfl

@[simp] theorem connectStart_umode (e : Engine) (s : State) : (s.connectStart e).umode = engineMode e := by
  unfold State.connectStart
  simp only [State.write_field (fun s => s.umode) (fun _ _ => rfl)]
  rfl

@[simp] theorem connectStart_trstBtn (e : Engine) (s : State) : (s.connectStart e).trstBtn = false := by
  unfold State.connectStart
  exact State.write_field (fun s => s.trstBtn) fun _ _ => rfl

@[simp] theorem connectStart_clk (e : Engine) (s : State) : (s.connectStart e).clk = s.cfg.clkCfgKhz := by
  unfold State.connectStart
  simp only [State.write_field (fun s => s.clk) (fun _ _ => rfl)]
  rw [State.acquire_field (fun s => s.clk) e _ (fun _ _ => rfl) fun _ _ _ _ => rfl]
  simp only [State.write_field (fun s => s.clk) (fun _ _ => rfl), connectRate_clk,
    State.write_field (fun s => s.cfg) (fun _ _ => rfl)]

@[simp] theorem connectStart_trstEng (e : Engine) (s : State) : (s.connectStart e).trstEng = connectTrst e s.trstEng := by
  unfold State.connectStart
  simp only [State.write_field (fun s => s.trstEng) (fun _ _ => rfl)]
  rw [State.acquire_field (fun s => s.trstEng) e _ (fun _ _ => rfl) fun _ _ _ _ => rfl]
  simp only [State.write_field (fun s => s.trstEng) (fun _ _ => rfl), connectRate_trstEng]

@[simp] theorem connectStart_sess (e : Engine) (s : State) : (s.connectStart e).sess = Sess.zero := by
  unfold State.connectStart
  simp only [State.write_field (fun s => s.sess) (fun _ _ => rfl)]
  rw [State.acquire_field (fun s => s.sess) e _ (fun _ _ => rfl) fun _ _ _ _ => rfl]
  simp only [State.write_field (fun s => s.sess) (fun _ _ => rfl), connectRate_sess]

@[simp] theorem connectStart_ct (e : Engine) (s : State) : (s.connectStart e).ct = .stub := by
  unfold State.connectStart
  simp only [State.write_field (fun s => s.ct) (fun _ _ => rfl)]
  rw [State.acquire_field (fun s => s.ct) e _ (fun _ _ => rfl) fun _ _ _ _ => rfl]
  simp only [State.write_field (fun s => s.ct) (fun _ _ => rfl), connectRate_ct]

/-- A register write inside the connect's start, one with values of time in it. -/
theorem connectStart_stamp (e : Engine) (s : State) (τ : Time) :
    (s.stamp τ).connectStart e = (s.connectStart e).stamp τ := by
  unfold State.connectStart
  simp only
  rw [show ((s.stamp τ).write fun s => { s with sess := Sess.zero, ct := .stub }) =
    (s.write fun s => { s with sess := Sess.zero, ct := .stub }).stamp τ from timeless_write (fun _ _ => rfl) s τ]
  rw [timeless_write (plain_connectDrop e).timeless, timeless_write (plain_acquire e).timeless, timeless_write (fun _ _ => rfl)]

/-- Writes that leave the reset line alone, then one that may not, are one write. -/
theorem State.write_write3 {t : State} {f1 f2 f3 f4 : State → State} (h1 : (f1 t).trst = t.trst)
    (h2 : (f2 (f1 t)).trst = t.trst) (h3 : (f3 (f2 (f1 t))).trst = t.trst) :
    (((t.write f1).write f2).write f3).write f4 = t.write fun s => f4 (f3 (f2 (f1 s))) := by
  rw [State.write_quiet h1, State.write_quiet (h2.trans h1.symm), State.write_quiet (h3.trans h2.symm)]
  unfold State.write State.noteTrst
  rw [h3]

/-- A plain write from its four facts. -/
theorem plain_of {f : State → State} (h1 : ∀ s t, f (s.stamp t) = (f s).stamp t) (h2 : ∀ s, (f s).wdArmed = s.wdArmed)
    (h3 : ∀ s, (f s).env = s.env) (h4 : ∀ s, (f s).wdCnt = s.wdCnt) : Plain f := ⟨h1, h2, h3, h4⟩

/-- What step 1 of a connect leaves. -/
def State.connectCleared (e : Engine) (s : State) : State :=
  (s.write fun s => { s with sess := Sess.zero, ct := .stub }).write fun s => connectRate e { s with
    sib := { s.sib with valid := false }
    beforePage := none
    dd := { s.dd with valid := s.dd.valid && !s.cfg.ddClearOnSignOn }
    rxf := RxFlags.clear
    trstEng := connectTrst e s.trstEng
    tpiChunk := .two }

theorem connectCleared_stamp (e : Engine) (s : State) (τ : Time) :
    (s.stamp τ).connectCleared e = (s.connectCleared e).stamp τ := by
  unfold State.connectCleared
  rw [show ((s.stamp τ).write fun s => { s with sess := Sess.zero, ct := .stub }) =
    (s.write fun s => { s with sess := Sess.zero, ct := .stub }).stamp τ from timeless_write (fun _ _ => rfl) s τ]
  exact timeless_write (plain_connectDrop e).timeless _ τ

/-- Steps 1 and 2 of a connect are the clearing, the acquire, and the reset line let go by the button. -/
theorem connectStart_eq (e : Engine) (s : State) :
    s.connectStart e = ((s.connectCleared e).write (State.acquire e)).write fun s => { s with trstBtn := false } := by
  unfold State.connectStart State.connectCleared
  rfl

/-- Step 1 of a connect (R181, R222, R252; log 16). -/
theorem goes_connectClear {β : Type} {e : Engine} {g : Unit → M β} {s u : State} {b : β}
    (h2 : ∀ τ, Goes k n (g ()) ((s.connectCleared e).stamp τ) b u) : Goes k n (connectClear e >>= g) s b u := by
  unfold connectClear
  simp only [bind_assoc]
  have p1 := plain_of (f := fun s => { s with sess := Sess.zero, ct := .stub }) (fun _ _ => rfl) (fun _ => rfl)
    (fun _ => rfl) (fun _ => rfl)
  have p2 := plain_of (f := fun s => { s with sib := { s.sib with valid := false } }) (fun _ _ => rfl) (fun _ => rfl)
    (fun _ => rfl) (fun _ => rfl)
  have p3 := plain_of (f := fun s => { s with beforePage := none }) (fun _ _ => rfl) (fun _ => rfl) (fun _ => rfl)
    (fun _ => rfl)
  have p4 := plain_of (f := fun s => { s with dd := { s.dd with valid := s.dd.valid && !s.cfg.ddClearOnSignOn } })
    (fun _ _ => rfl) (fun _ => rfl) (fun _ => rfl) (fun _ => rfl)
  have p5 : Plain fun s => connectRate e { s with
      rxf := RxFlags.clear, trstEng := connectTrst e s.trstEng, tpiChunk := .two } :=
    plain_connectRate e ⟨fun _ _ => rfl, fun _ => rfl, fun _ => rfl, fun _ => rfl⟩ fun _ _ => rfl
  refine goes_upd_bind p1 fun τ1 => ?_
  refine goes_upd_bind p2 fun τ2 => ?_
  refine goes_upd_bind p3 fun τ3 => ?_
  refine goes_upd_bind p4 fun τ4 => ?_
  refine goes_upd_bind p5 fun τ5 => ?_
  simp only [write_stamp p2, write_stamp p3, write_stamp p4, write_stamp p5, State.stamp_stamp]
  rw [State.write_write3 (f1 := fun s => { s with sib := { s.sib with valid := false } })
    (f2 := fun s => { s with beforePage := none }) rfl rfl rfl]
  exact h2 τ5

/-- Step 2 of a connect (R307, R308). -/
theorem goes_connectAcquire {β : Type} {e : Engine} {g : Unit → M β} {s u : State} {b : β}
    (h2 : ∀ τ, Goes k n (g ()) (((s.write (State.acquire e)).write fun s => { s with trstBtn := false }).stamp τ) b u) :
    Goes k n (connectAcquire e >>= g) s b u := by
  unfold connectAcquire
  simp only [bind_assoc]
  have p7 := plain_of (f := fun s => { s with trstBtn := false }) (fun _ _ => rfl) (fun _ => rfl) (fun _ => rfl)
    (fun _ => rfl)
  refine goes_upd_bind (plain_acquire e) fun τ6 => ?_
  refine goes_upd_bind p7 fun τ7 => ?_
  simp only [write_stamp p7, State.stamp_stamp]
  exact h2 τ7

/-- Steps 1 and 2 of a connect (R181, R222, R252). -/
theorem goes_connectStart {β : Type} {e : Engine} {g : Unit → M β} {s u : State} {b : β}
    (h2 : ∀ τ, Goes k n (g ()) ((s.connectStart e).stamp τ) b u) :
    Goes k n (connectClear e >>= fun _ => connectAcquire e >>= g) s b u := by
  refine goes_connectClear fun τ1 => goes_connectAcquire fun τ2 => ?_
  have p7 := plain_of (f := fun s => { s with trstBtn := false }) (fun _ _ => rfl) (fun _ => rfl) (fun _ => rfl)
    (fun _ => rfl)
  rw [write_stamp (plain_acquire e), write_stamp p7, ← connectStart_eq]
  exact h2 τ2

/-- Steps 1 and 2 of a connect, numbered (R41, R181, R252). -/
theorem goes_connectStart_phases {β : Type} {e : Engine} {p q : Nat} {g : Unit → M β} {s u : State} {b : β}
    (h2 : ∀ τ, Goes k n (g ()) ((s.connectStart e).stamp τ) b u) :
    Goes k n (phase p >>= fun _ => connectClear e >>= fun _ => phase q >>= fun _ => connectAcquire e >>= g) s b u := by
  refine goes_phase_bind fun τ0 => goes_connectClear fun τ1 => goes_phase_bind fun τ2 => goes_connectAcquire fun τ3 => ?_
  have p7 := plain_of (f := fun s => { s with trstBtn := false }) (fun _ _ => rfl) (fun _ => rfl) (fun _ => rfl)
    (fun _ => rfl)
  rw [connectCleared_stamp]
  simp only [State.stamp_stamp]
  rw [write_stamp (plain_acquire e), write_stamp p7, ← connectStart_eq]
  exact h2 τ3

end Sys2Proof.Machine
end

