-- ==== Sys2Proof/Laws/Acts.lean ====
section
/-! SUPPORT. Pieces of an operation that are an exchange and a change of registers: `Acts e P m ms f a` says that from
every state of which `P` holds, the piece is the exchange `ms` with the change `f`, and ends with `a`. -/

namespace Sys2Proof.Machine

/-- The piece is an exchange of the engine together with a change of registers. -/
def Acts {α : Type} (e : Engine) (P : State → Prop) (m : M α) (ms : List Move) (f : State → State) (a : α) : Prop :=
  ∀ k n s rest, s.umode = engineMode e → P s → s.hears e ms rest → Goes k n m s a (f (s.moved e ms rest))

/-- A change of registers that an exchange neither sees nor makes. -/
structure Effect (e : Engine) (f : State → State) : Prop where
  moved : ∀ s ms rest, f (s.moved e ms rest) = (f s).moved e ms rest
  stamp : ∀ s τ, f (s.stamp τ) = (f s).stamp τ
  umode : ∀ s, (f s).umode = s.umode
  env : ∀ s, (f s).env = s.env
  armed : ∀ s, (f s).wdArmed = s.wdArmed
  cnt : ∀ s, (f s).wdCnt = s.wdCnt

/-- A property that neither time nor an exchange changes. -/
structure Steady (e : Engine) (P : State → Prop) : Prop where
  moved : ∀ s ms rest, P s → P (s.moved e ms rest)
  stamp : ∀ s τ, P s → P (s.stamp τ)

theorem effect_id (e : Engine) : Effect e (fun s => s) :=
  ⟨fun _ _ _ => rfl, fun _ _ => rfl, fun _ => rfl, fun _ => rfl, fun _ => rfl, fun _ => rfl⟩

theorem Effect.comp {e : Engine} {f g : State → State} (hf : Effect e f) (hg : Effect e g) :
    Effect e (fun s => g (f s)) where
  moved s ms rest := by show g (f _) = _; rw [hf.moved, hg.moved]
  stamp s τ := by show g (f _) = _; rw [hf.stamp, hg.stamp]
  umode s := (hg.umode _).trans (hf.umode s)
  env s := (hg.env _).trans (hf.env s)
  armed s := (hg.armed _).trans (hf.armed s)
  cnt s := (hg.cnt _).trans (hf.cnt s)

theorem Effect.plain {e : Engine} {f : State → State} (h : Effect e f) : Plain f := ⟨h.stamp, h.armed, h.env, h.cnt⟩

section
variable {α β : Type} {e : Engine} {P Q : State → Prop} {m : M α} {k : α → M β} {ms m1 m2 : List Move}
  {f g : State → State} {a : α} {b : β}

theorem acts_bind (h1 : Acts e P m m1 f a) (h2 : Acts e Q (k a) m2 g b) (hf : Effect e f) (hg : Effect e g)
    (hQ : Steady e Q) (hPQ : ∀ s, P s → Q (f s)) : Acts e P (m >>= k) (m1 ++ m2) (fun s => g (f s)) b := by
  intro w n s rest hu hP hl
  obtain ⟨hl1, hl2⟩ := State.hears_moved hl
  refine goes_bind (h1 w n s _ hu hP hl1) fun τ => ?_
  have hq : Q ((f (s.moved e m1 (lineOf e m2 ++ rest))).stamp τ) := by
    apply hQ.stamp
    rw [hf.moved]
    exact hQ.moved _ _ _ (hPQ s hP)
  have hu' : ((f (s.moved e m1 (lineOf e m2 ++ rest))).stamp τ).umode = engineMode e := (hf.umode _).trans hu
  have hl' : ((f (s.moved e m1 (lineOf e m2 ++ rest))).stamp τ).hears e m2 rest := by
    unfold State.hears
    show (f (s.moved e m1 (lineOf e m2 ++ rest))).env.line = _
    rw [hf.env]
    rfl
  refine (h2 w n _ rest hu' hq hl').upto τ ?_
  rw [show ((f (s.moved e m1 (lineOf e m2 ++ rest))).stamp τ).moved e m2 rest =
      ((f (s.moved e m1 (lineOf e m2 ++ rest))).moved e m2 rest).stamp τ from rfl, ← hf.moved, State.moved_moved,
    hg.stamp]

/-- The second piece changes registers only. -/
theorem acts_bind_quiet (h1 : Acts e P m ms f a) (h2 : Acts e Q (k a) [] g b) (hf : Effect e f) (hg : Effect e g)
    (hQ : Steady e Q) (hPQ : ∀ s, P s → Q (f s)) : Acts e P (m >>= k) ms (fun s => g (f s)) b := by
  have := acts_bind h1 h2 hf hg hQ hPQ
  rwa [List.append_nil] at this

theorem acts_pure : Acts e P (pure a : M α) [] (fun s => s) a := fun k n s rest hu _ hl =>
  plays_pure (e := e) (c := s.cfg) (a := a) k n s rest hu rfl hl

/-- The second piece is a value. -/
theorem acts_bind_pure (h1 : Acts e P m ms f a) (hk : k a = pure b) : Acts e P (m >>= k) ms f b := by
  intro w n s rest hu hp hl
  refine goes_bind (h1 w n s rest hu hp hl) fun τ => ?_
  rw [hk]
  exact (goes_pure).upto τ rfl

theorem acts_get {k : State → M β} (h : ∀ s : State, P s → s.umode = engineMode e → Acts e P (k s) ms f b) :
    Acts e P (get >>= k) ms f b := fun w n s rest hu hP hl => goes_get (h s hP hu w n s rest hu hP hl)

theorem acts_require {p : Bool} {k : Unit → M β} (hp : p = true) (h : Acts e P (k ()) ms f b) :
    Acts e P (require p >>= k) ms f b := fun w n s rest hu hP hl => goes_require hp (h w n s rest hu hP hl)

/-- A piece that only moves, where the parameters are known. -/
theorem acts_plays {c : Params} (hP : ∀ s, P s → s.cfg = c) (h : Plays e c m ms a) : Acts e P m ms (fun s => s) a :=
  fun k n s rest hu hp hl => h k n s rest hu (hP s hp) hl

/-- A piece that moves, then another. -/
theorem acts_plays_bind {c : Params} (hP : ∀ s, P s → s.cfg = c) (hS : Steady e P) (h1 : Plays e c m m1 a)
    (h2 : Acts e P (k a) m2 g b) (hg : Effect e g) : Acts e P (m >>= k) (m1 ++ m2) g b :=
  acts_bind (acts_plays hP h1) h2 (effect_id e) hg hS fun _ h => h

theorem acts_phase {p : Nat} : Acts e P (phase p) [] (fun s => s) () := by
  intro k n s rest hu _ hl
  have : rest = s.env.line := by simpa [State.hears] using hl.symm
  show Goes k n (phase p) s () (s.moved e [] rest)
  rw [this, State.moved_nil]
  exact goes_phase

theorem acts_phase_bind {p : Nat} {k : Unit → M β} (hS : Steady e P) (h2 : Acts e P (k ()) ms g b) (hg : Effect e g) :
    Acts e P (phase p >>= k) ms g b :=
  acts_bind (m1 := []) acts_phase h2 (effect_id e) hg hS fun _ h => h

/-- A write of registers that leaves the reset line alone. -/
theorem acts_upd (hf : Effect e f) (hq : ∀ s, P s → (f s).trst = s.trst) : Acts e P (upd f) [] f () := by
  intro k n s rest hu hp hl
  have : rest = s.env.line := by simpa [State.hears] using hl.symm
  rw [this, State.moved_nil]
  have := goes_upd (k := k) (n := n) (s := s) hf.plain
  rwa [State.write_quiet (hq s hp)] at this

theorem acts_upd_bind {k : Unit → M β} (hf : Effect e f) (hq : ∀ s, P s → (f s).trst = s.trst)
    (h2 : Acts e Q (k ()) ms g b) (hg : Effect e g) (hQ : Steady e Q) (hPQ : ∀ s, P s → Q (f s)) :
    Acts e P (upd f >>= k) ms (fun s => g (f s)) b :=
  acts_bind (m1 := []) (acts_upd hf hq) h2 hf hg hQ hPQ

theorem Acts.weaken (h : Acts e Q m ms f a) (hPQ : ∀ s, P s → Q s) : Acts e P m ms f a :=
  fun k n s rest hu hp hl => h k n s rest hu (hPQ s hp) hl

end

end Sys2Proof.Machine
end

