-- ==== Sys2Proof/Laws/Operations.lean ====
section
/-! SUPPORT. What the operations' bodies do when nothing fails: exchanges with changes of registers. -/

namespace Sys2Proof.Machine

variable {c : Params}

/-- The parameters are these. -/
def IsCfg (c : Params) (s : State) : Prop := s.cfg = c

theorem steady_isCfg (e : Engine) (c : Params) : Steady e (IsCfg c) := ⟨fun _ _ _ h => h, fun _ _ h => h⟩

/-- `PROG` as given. -/
def State.setProg (b : Bool) (s : State) : State := { s with sess := { s.sess with prog := b } }

theorem effect_setProg (e : Engine) (b : Bool) : Effect e (State.setProg b) := by constructor <;> intros <;> rfl

theorem setProg_trst (b : Bool) (s : State) : (s.setProg b).trst = s.trst := rfl

/-- `ERASE_DONE` set. -/
def State.setErased (s : State) : State := { s with sess := { s.sess with eraseDone := true } }

theorem effect_setErased (e : Engine) : Effect e State.setErased := by constructor <;> intros <;> rfl

/-- The SIB read. -/
def State.setSib (d : List Byte) (s : State) : State := { s with sib := ⟨true, d⟩ }

theorem effect_setSib (e : Engine) (d : List Byte) : Effect e (State.setSib d) := by constructor <;> intros <;> rfl

/-- The page tracker as given. -/
def State.setTracker (p : Option Addr) (s : State) : State := { s with beforePage := p }

theorem effect_setTracker (e : Engine) (p : Option Addr) : Effect e (State.setTracker p) := by
  constructor <;> intros <;> rfl

/-! ## UPDI: connect -/

/-- The SIB read writes the register after the last byte (R178). -/
theorem acts_readSib (c : Params) {d : List Byte} (hd : d.length = Config.sibLen) :
    Acts .updi (IsCfg c) readSib (instrMoves c c.updi.opSib [] ++ ins d) (State.setSib d) () := by
  unfold readSib
  refine acts_get fun s hc _ => ?_
  rw [hc]
  have hr := plays_recvN .updi c d
  rw [hd] at hr
  refine acts_plays_bind (fun _ h => h) (steady_isCfg _ c) (plays_instr c _ _) ?_ (effect_setSib _ d)
  refine acts_bind_quiet (acts_plays (fun _ h => h) hr) (acts_upd (effect_setSib _ d) fun _ _ => rfl)
    (effect_id _) (effect_setSib _ d) (steady_isCfg _ c) fun _ h => h

/-- The handshake compares what its script last received (R179). -/
theorem plays_handshake {ms : List Move} (h : scriptRuns c .updi c.updi.initSeq ms [c.updi.initAck]) :
    Plays .updi c handshake ms () := by
  unfold handshake
  refine plays_get fun s hc _ => ?_
  rw [hc]
  refine plays_bind_nil (plays_runScript h) ?_
  simpa using plays_pure

/-- The parameters and the rate are these. -/
def IsRate (c : Params) (khz : Nat) (s : State) : Prop := s.cfg = c ∧ s.clk = khz

theorem steady_isRate (e : Engine) (c : Params) (khz : Nat) : Steady e (IsRate c khz) :=
  ⟨fun _ _ _ h => h, fun _ _ h => h⟩

theorem acts_lineConfig (c : Params) (khz : Nat) :
    Acts .updi (IsRate c khz) lineConfig [.act (.rateSet khz)] (fun s => s) () := by
  unfold lineConfig
  refine acts_get fun s hc _ => ?_
  rw [hc.2]
  exact acts_plays (fun _ h => h.1) (plays_rate .updi c _)

/-- One connect attempt (R180). -/
theorem acts_connectAttempt {khz : Nat} {sib : List Byte} {ms : List Move} (h : attemptRuns c khz sib ms) :
    Acts .updi (IsRate c khz) connectAttempt ms (State.setSib sib) (Res.ok 1) := by
  obtain ⟨hd, m, hm, rfl⟩ := h
  unfold connectAttempt
  have hs := effect_setSib .updi sib
  refine acts_plays_bind (fun _ h => h.1) (steady_isRate _ c khz) (plays_attention .updi c) ?_ hs
  refine acts_bind (m1 := [.act (.rateSet khz)]) (acts_lineConfig c khz) (Q := IsCfg c) ?_ (effect_id _) hs
    (steady_isCfg _ c) fun _ h => h.1
  refine acts_plays_bind (fun _ h => h) (steady_isCfg _ c) (plays_handshake hm) ?_ hs
  exact acts_bind_pure (acts_readSib c hd) rfl

/-- With the button's reset let go, setting `LINK` leaves `TRST` alone (R306). -/
theorem link_trst {s : State} (h : s.trstBtn = false) (l : Bool) :
    ({ s with sess := { s.sess with link := l } } : State).trst = s.trst := by
  unfold State.trst
  simp [h]

/-- The end of a successful SIGN_ON (R181 step 6, R184). -/
theorem goes_signOnLinked {k : Bool} {n : Nat} {s : State} (h : s.trstBtn = false) :
    Goes k n signOnLinked s ⟨4, identityBytes s, none⟩
      { s with ct := sibVariant s.cfg s.sib.bytes, sess := { s.sess with link := true } } := by
  unfold signOnLinked bindVariant
  refine goes_phase_bind fun _ => ?_
  refine goes_quiet_bind (plain_of (fun _ _ => rfl) (fun _ => rfl) (fun _ => rfl) fun _ => rfl) rfl fun _ => ?_
  refine goes_quiet_bind (plain_of (fun _ _ => rfl) (fun _ => rfl) (fun _ => rfl) fun _ => rfl) ?_ fun τ => ?_
  · exact link_trst h true
  · exact goes_get (goes_pure.upto τ rfl)

/-- SIGN_ON's attempts, the first of which succeeds (R181 steps 4 and 6). -/
theorem goes_signOnLoop {s : State} {sib : List Byte} {ms : List Move} {rest : List LineEvent} (h1 : s.wdArmed = false)
    (h2 : s.env.ie = true) (h3 : s.umode = .updi) (h4 : s.hears .updi ms rest) (h5 : s.trstBtn = false)
    (h6 : attemptRuns s.cfg s.clk sib ms) :
    Goes false Config.connectAttemptMs.toNat (signOnLoop Config.connectAttempts) s
      ⟨4, (sib.drop s.cfg.sibIdOffset).take 4, none⟩
      (let t := (s.ran Config.connectAttemptMs).moved .updi ms rest
       { t with sib := ⟨true, sib⟩, ct := sibVariant s.cfg sib, sess := { t.sess with link := true } }) := by
  show Goes _ _ (signOnLoop (3 + 1)) _ _ _
  unfold signOnLoop
  refine goes_phase_bind fun τ1 => ?_
  have hsup := goes_supervise (m := connectAttempt) (fb := .absent) (deadline := Config.connectAttemptMs)
    (s := s.stamp τ1) (k := true) (n := Config.connectAttemptMs.toNat) h1 h2 (Nat.le_refl _)
    (acts_connectAttempt h6 true Config.connectAttemptMs.toNat ((s.stamp τ1).started Config.connectAttemptMs) rest h3
      ⟨rfl, rfl⟩ h4) (.inl (by simp [Res.ok]))
  refine goes_bind hsup fun τ2 => ?_
  rw [if_pos (by simp [Res.ok])]
  have := goes_signOnLinked (k := false) (n := Config.connectAttemptMs.toNat)
    (s := State.stamp τ2 ((State.setSib sib (((s.stamp τ1).started Config.connectAttemptMs).moved .updi ms rest)).disarm))
    h5
  exact this.upto τ2 rfl

/-! ## UPDI: programming mode and ceremonies -/

theorem plays_pollKey {mask : Byte} {ms : List Move} (h : keyPollRuns c mask ms) : Plays .updi c (pollKey mask) ms () := by
  obtain ⟨unwanted, v, hu, hv, rfl⟩ := h
  unfold pollKey
  refine plays_get fun s hc _ => ?_
  rw [hc]
  refine plays_bind_nil (plays_pollUntil (fun x => plays_ldcs .updi c c.updi.rKeySt x)
    (fun x => lineOf_into_pos .updi _ x) (fun x hx => ?_) ?_) plays_pure
  · simpa using hu x hx
  · simpa using hv

/-- The initialisation of a variant with a record (R283). -/
theorem plays_progInit {v : Variant} {r : VariantRec} {ms : List Move} (hr : variantRec c v = some r)
    (h : nvmRuns c r (ptrWidth c v) 0 0 r.initScript ms) : Plays .updi c (progInit v) ms 1 := by
  intro k n s rest hu hc hl hw
  obtain ⟨τ, e, l⟩ := (plays_runNvm h) k n s rest hu hc hl hw
  refine ⟨τ, ?_, l⟩
  unfold progInit
  rw [hc, hr]
  show (match runNvm r (ptrWidth c v) 0 0 r.initScript s with
    | .ok _ s' => EStateM.Result.ok 1 s'
    | .error (.raise _) s' => .ok 0 s'
    | .error e s' => .error e s') = _
  rw [e]

/-- The parameters and the bound variant are these. -/
def IsBound (c : Params) (v : Variant) (s : State) : Prop := s.cfg = c ∧ s.ct = v

theorem steady_isBound (e : Engine) (c : Params) (v : Variant) : Steady e (IsBound c v) :=
  ⟨fun _ _ _ h => h, fun _ _ h => h⟩

/-- Steps 1 to 6 of ENTER_PROGMODE (R186). -/
theorem acts_updiUnlock {v : Variant} {r : VariantRec} {ms : List Move} (hr : variantRec c v = some r)
    (h : unlockRuns c v r ms) : Acts .updi (IsBound c v) updiUnlock ms (State.setProg true) (Res.ok 1) := by
  obtain ⟨m2, m3, m5, m3r, x, h2, h3, hx, h5, rfl⟩ := h
  have st := steady_isBound .updi c v
  have ef := effect_setProg .updi true
  have hc : ∀ s, IsBound c v s → s.cfg = c := fun _ h => h.1
  unfold updiUnlock
  refine acts_get fun s hs _ => ?_
  rw [hs.1, hs.2]
  refine acts_phase_bind st (acts_plays_bind hc st (plays_sendKey c .prog) ?_ ef) ef
  refine acts_phase_bind st (acts_plays_bind hc st (plays_pollKey h2) ?_ ef) ef
  refine acts_phase_bind st (acts_plays_bind hc st (plays_runScript h3) ?_ ef) ef
  refine acts_phase_bind st (acts_plays_bind hc st (plays_ldcs .updi c _ x) ?_ ef) ef
  rw [if_neg (by simp [hx])]
  rw [← List.append_nil m5]
  refine acts_phase_bind st (acts_plays_bind hc st (plays_progInit hr h5) ?_ ef) ef
  refine acts_phase_bind st ?_ ef
  exact acts_bind_pure (acts_upd ef fun _ _ => rfl) rfl

/-- The parameters, the bound variant, the link and `PROG` are these. -/
def IsSession (c : Params) (v : Variant) (l p : Bool) (s : State) : Prop :=
  s.cfg = c ∧ s.ct = v ∧ s.sess.link = l ∧ s.sess.prog = p

theorem steady_isSession (e : Engine) (c : Params) (v : Variant) (l p : Bool) : Steady e (IsSession c v l p) :=
  ⟨fun _ _ _ h => h, fun _ _ h => h⟩

/-- Steps 1 to 5 of the chip-erase ceremony before what follows (R196). -/
theorem acts_chipErase {v : Variant} {p : Bool} {ms m2 : List Move} {g : State → State} (h : chipEraseRuns c ms)
    (hg : Effect .updi g) (h2 : Acts .updi (IsBound c v) (if p && c.eraseReentersProg then updiUnlock else pure (Res.ok 1))
      m2 g (Res.ok 1)) :
    Acts .updi (IsSession c v true p) chipErase (ms ++ m2) (fun s => g (State.setErased (s.setProg false))) (Res.ok 1) := by
  obtain ⟨m2', m4, r, k2, k4, rfl⟩ := h
  have st := steady_isSession .updi c v true p
  have sb := steady_isBound .updi c v
  have hc : ∀ s, IsSession c v true p s → s.cfg = c := fun _ h => h.1
  have hb : ∀ s, IsBound c v s → s.cfg = c := fun _ h => h.1
  have e1 := effect_setProg .updi false
  have e2 := (effect_setErased .updi).comp hg
  have ef := e1.comp e2
  unfold chipErase
  refine acts_get fun s hs _ => ?_
  refine acts_require hs.2.2.1 ?_
  rw [hs.1, List.append_assoc, List.append_assoc]
  refine acts_phase_bind st (acts_plays_bind hc st (plays_sendKey c .erase) ?_ ef) ef
  refine acts_phase_bind st (acts_plays_bind hc st (plays_pollKey k2) ?_ ef) ef
  refine acts_phase_bind st ?_ ef
  refine acts_get fun t ht _ => ?_
  rw [ht.2.2.2]
  refine acts_upd_bind (f := State.setProg false) (g := fun s => g s.setErased) e1 (fun _ _ => rfl) (Q := IsBound c v) ?_ e2
    sb fun s h => ⟨h.1, h.2.1⟩
  refine acts_phase_bind sb (acts_plays_bind hb sb (plays_runScript k4) ?_ e2) e2
  refine acts_phase_bind sb ?_ e2
  refine acts_upd_bind (f := State.setErased) (g := g) (effect_setErased _) (fun _ _ => rfl) (Q := IsBound c v) ?_ hg sb
    fun s h => h
  exact acts_phase_bind sb h2 hg

/-- The USERROW ceremony (R197). -/
theorem goes_userrow {s : State} {w : PtrWidth} {a : Addr} {d : List Byte} {ms : List Move}
    (hl : s.sess.link = true) (hw : boundWidth s = w) (hb : blockOk s.cfg w a d.length)
    (h : userrowRuns s.cfg w a d ms) {rest : List LineEvent} (hu : s.umode = .updi) (hh : s.hears .updi ms rest)
    {k : Bool} {n : Nat} : Goes k n (userrowCeremony a d) s (Res.ok d.length) (s.moved .updi ms rest) := by
  obtain ⟨m2, m3, m5, r3, r5, h2, h3, h5, rfl⟩ := h
  have st := steady_isCfg .updi s.cfg
  have hc : ∀ t, IsCfg s.cfg t → t.cfg = s.cfg := fun _ h => h
  have ef := effect_id .updi
  unfold userrowCeremony
  refine goes_get (goes_require hl (goes_require ?_ ?_))
  · obtain ⟨h1, h2, h3⟩ := hb
    simp [h2]
  · rw [hw]
    refine (?_ : Acts .updi (IsCfg s.cfg) _ _ (fun s => s) (Res.ok d.length)) k n s rest hu rfl hh
    refine acts_phase_bind st (acts_plays_bind hc st (plays_sendKey s.cfg .urow) ?_ ef) ef
    refine acts_phase_bind st (acts_plays_bind hc st (plays_pollKey h2) ?_ ef) ef
    refine acts_phase_bind st (acts_plays_bind hc st (plays_runScript h3) ?_ ef) ef
    refine acts_phase_bind st (acts_plays_bind hc st (plays_sendBytesBlock hb) ?_ ef) ef
    exact acts_phase_bind st (acts_bind_pure (acts_plays hc (plays_runScript h5)) rfl) ef

/-! ## Write methods -/

variable {r : VariantRec} {w : PtrWidth}

theorem plays_requireTransfer {a : Addr} {n : Nat} (h : transferOk c w a n) :
    Plays .updi c (requireTransfer w a n) [] () := by
  obtain ⟨h1, h2, h3⟩ := h
  unfold requireTransfer
  refine plays_get fun s hc _ => ?_
  rw [hc, show (decide (1 ≤ n) && blockable c n && ptrFits w a) = true by simp [h1, h2, h3]]
  exact plays_pure

theorem plays_writePlain {a : Addr} {d : List Byte} (h : transferOk c w a d.length) :
    Plays .updi c (writePlain w a d) (transferMoves c w a d) (Res.ok d.length) :=
  plays_nil_bind (plays_requireTransfer h) (plays_bind_nil (plays_transfer h) plays_pure)

/-- `pre_write`, the transfer, the closing script (R285). -/
theorem plays_paged {a : Addr} {d : List Byte} {pre post : NvmScript} {ms : List Move} (ht : transferOk c w a d.length)
    (h : pagedRuns c r w pre post a d ms) : Plays .updi c (do
      runNvm r w a 0 pre
      transfer w a d
      runNvm r w a 0 post
      pure (Res.ok d.length)) ms (Res.ok d.length) := by
  obtain ⟨m1, m2, h1, h2, rfl⟩ := h
  exact plays_bind (plays_runNvm h1) (plays_bind (plays_transfer ht) (plays_bind_nil (plays_runNvm h2) plays_pure))

theorem plays_writeAtomic {k : MemKind} {a : Addr} {d : List Byte} {ms : List Move} (ht : transferOk c w a d.length)
    (h : pagedRuns c r w (r.preWrite.get k) (r.commitEraseWrite.get k) a d ms) :
    Plays .updi c (writeAtomic r w k a d) ms (Res.ok d.length) :=
  plays_nil_bind (plays_requireTransfer ht) (plays_paged ht h)

theorem plays_writeBytewise {k : MemKind} {a : Addr} {d : List Byte} {ms : List Move} (hr : reaches w a d.length 1)
    (h : bytewiseRuns c r w (r.writeOne.get k) a d ms) : Plays .updi c (writeBytewise r w k a d) ms (Res.ok d.length) :=
  plays_require (by simpa [reaches, and_assoc] using hr) (plays_bind_nil (plays_bytewiseLoop h) plays_pure)

theorem plays_writeBurst2 {k : MemKind} {a : Addr} {d : List Byte} {ms : List Move} (hr : reaches w a d.length 2)
    (h : burstRuns c r w (r.preWrite.get k) (r.commit.get k) a d ms) :
    Plays .updi c (writeBurst2 r w k a d) ms (Res.ok d.length) :=
  plays_require (by simpa [reaches, and_assoc] using hr) (plays_bind_nil (plays_burstLoop h) plays_pure)

/-- The parameters and the page tracker are these. -/
def IsTracked (c : Params) (p : Option Addr) (s : State) : Prop := s.cfg = c ∧ s.beforePage = p

theorem steady_isTracked (e : Engine) (c : Params) (p : Option Addr) : Steady e (IsTracked c p) :=
  ⟨fun _ _ _ h => h, fun _ _ h => h⟩

/-- The explicit method: the erase exactly where the page changes, then the tracker, then the write (R273, R285). -/
theorem acts_writeExplicit {k : MemKind} {a page : Addr} {d : List Byte} {m1 m2 : List Move} {before : Option Addr}
    (ho : onePage a d.length page = true) (ht : transferOk c w a d.length)
    (h1 : if before = some (pageAlign a page) then m1 = [] else nvmRuns c r w (pageAlign a page) 0 r.pageErase m1)
    (h2 : pagedRuns c r w (r.preWrite.get k) (r.commit.get k) a d m2) :
    Acts .updi (IsTracked c before) (writeExplicit r w k a d page) (m1 ++ m2)
      (State.setTracker (some (pageAlign a page))) (Res.ok d.length) := by
  have st := steady_isTracked .updi c before
  have stc := steady_isCfg .updi c
  have hcf : ∀ s, IsTracked c before s → s.cfg = c := fun _ h => h.1
  have ef := effect_setTracker .updi (some (pageAlign a page))
  have tail : Acts .updi (IsTracked c before) (do
      pageNote (pageAlign a page)
      runNvm r w a 0 (r.preWrite.get k)
      transfer w a d
      runNvm r w a 0 (r.commit.get k)
      pure (Res.ok d.length)) m2 (State.setTracker (some (pageAlign a page))) (Res.ok d.length) := by
    unfold pageNote
    exact acts_upd_bind ef (fun _ _ => rfl) (acts_plays (fun _ h => h) (plays_paged ht h2)) (effect_id _) stc
      fun _ h => h.1
  unfold writeExplicit
  refine acts_require ho ?_
  refine acts_plays_bind (m1 := []) hcf st (plays_requireTransfer ht) ?_ ef
  refine acts_get fun s hs _ => ?_
  unfold pageCheck
  rw [hs.2]
  by_cases hb : before = some (pageAlign a page)
  · rw [if_pos hb] at h1
    subst h1
    simp only [hb, bne_self_eq_false, Bool.false_eq_true, if_false]
    rw [hb] at tail
    exact tail
  · rw [if_neg hb] at h1
    simp only [bne_iff_ne, ne_eq, hb, not_false_eq_true, if_true]
    exact acts_plays_bind hcf st (plays_runNvm h1) tail ef

/-! ## The Command Table's functions -/

/-- A variant's write (R275, R278, R279). -/
theorem goes_ctWrite {s : State} {v : Variant} {k : MemKind} {a : Addr} {d : List Byte} {ms : List Move}
    {tracker : Option Addr} {rest : List LineEvent} (hv : variantRec s.cfg v = some r)
    (h : writeRuns s v r k a d ms tracker) (hu : s.umode = .updi) (hl : s.hears .updi ms rest) {b : Bool} {n : Nat} :
    Goes b n (ctWrite v k a d) s (Res.ok d.length) ((s.moved .updi ms rest).setTracker tracker) := by
  have plain : ∀ {m : M Res}, Plays .updi s.cfg m ms (Res.ok d.length) → tracker = s.beforePage →
      Goes b n m s (Res.ok d.length) ((s.moved .updi ms rest).setTracker tracker) := by
    intro m hm ht
    rw [ht]
    exact hm b n s rest hu rfl hl
  have expl : ∀ {r : VariantRec} {page : Addr},
      (transferOk s.cfg (ptrWidth s.cfg v) a d.length ∧ onePage a d.length page = true ∧
        tracker = some (pageAlign a page) ∧ ∃ m1 m2,
          (if s.beforePage = some (pageAlign a page) then m1 = []
            else nvmRuns s.cfg r (ptrWidth s.cfg v) (pageAlign a page) 0 r.pageErase m1) ∧
          pagedRuns s.cfg r (ptrWidth s.cfg v) (r.preWrite.get k) (r.commit.get k) a d m2 ∧ ms = m1 ++ m2) →
      Goes b n (writeExplicit r (ptrWidth s.cfg v) k a d page) s (Res.ok d.length)
        ((s.moved .updi ms rest).setTracker tracker) := by
    rintro r page ⟨h1, h2, rfl, m1, m2, h3, h4, rfl⟩
    exact acts_writeExplicit h2 h1 h3 h4 b n s rest hu ⟨rfl, rfl⟩ hl
  unfold ctWrite
  unfold writeRuns at h
  cases v with
  | stub => simp [variantRec] at hv
  | v1 => simp [variantRec] at hv
  | v2 => simp [variantRec] at hv
  | v5 => simp [variantRec] at hv
  | v0 =>
    obtain rfl : s.cfg.v0 = r := by simpa [variantRec] using hv
    unfold v0Write
    refine goes_get ?_
    cases hk : memClass k with
    | sram => rw [hk] at h; exact plain (h.2.2 ▸ plays_writePlain h.1) h.2.1
    | readOnly => rw [hk] at h; exact h.elim
    | flash =>
      rw [hk] at h
      refine goes_require h.1 (expl h.2)
    | fuseLike => rw [hk] at h; exact plain (plays_writeBytewise h.1 h.2.2) h.2.1
    | eeprom =>
      rw [hk] at h
      exact plain (plays_writeAtomic h.1 h.2.2) h.2.1
    | userrow =>
      rw [hk] at h
      exact plain (plays_writeAtomic h.1 h.2.2) h.2.1
  | v3 =>
    obtain rfl : s.cfg.v3 = r := by simpa [variantRec] using hv
    unfold v3Write
    refine goes_get ?_
    cases hk : memClass k with
    | sram => rw [hk] at h; exact plain (h.2.2 ▸ plays_writePlain h.1) h.2.1
    | readOnly => rw [hk] at h; exact h.elim
    | flash =>
      rw [hk] at h
      exact plain (plays_writeAtomic h.1 h.2.2) h.2.1
    | fuseLike =>
      rw [hk] at h
      exact plain (plays_writeAtomic h.1 h.2.2) h.2.1
    | eeprom =>
      rw [hk] at h
      exact plain (plays_writeAtomic h.1 h.2.2) h.2.1
    | userrow =>
      rw [hk] at h
      exact plain (plays_writeAtomic h.1 h.2.2) h.2.1
  | v4 =>
    obtain rfl : s.cfg.v4 = r := by simpa [variantRec] using hv
    unfold v4Write
    refine goes_get ?_
    cases hk : memClass k with
    | sram => rw [hk] at h; exact plain (h.2.2 ▸ plays_writePlain h.1) h.2.1
    | readOnly => rw [hk] at h; exact h.elim
    | flash => rw [hk] at h; exact expl h
    | userrow => rw [hk] at h; exact expl h
    | eeprom =>
      rw [hk] at h
      exact plain (plays_writeBurst2 h.1 h.2.2) h.2.1
    | fuseLike =>
      rw [hk] at h
      exact plain (plays_writeBurst2 h.1 h.2.2) h.2.1

/-- A variant's read (R281). -/
theorem plays_ctRead {v : Variant} {a : Addr} {d : List Byte} (hv : variantRec c v = some r)
    (h : transferOk c (ptrWidth c v) a d.length) :
    Plays .updi c (ctRead v a d.length) (readMoves c (ptrWidth c v) a d) (Res.read d) := by
  unfold ctRead
  refine plays_get fun s hc _ => ?_
  rw [hc, hv]
  exact plays_bind_nil (plays_readTransfer h) plays_pure

/-- A variant's page erase (R282). -/
theorem goes_ctErase {s : State} {v : Variant} {a : Addr} {ms : List Move} {rest : List LineEvent}
    (hv : variantRec s.cfg v = some r) (h : eraseRuns s v r a ms) (hu : s.umode = .updi) (hl : s.hears .updi ms rest)
    {b : Bool} {n : Nat} : Goes b n (ctErase v a) s (Res.ok 1) (s.moved .updi ms rest) := by
  unfold ctErase
  refine goes_get ?_
  cases v with
  | stub => simp [variantRec] at hv
  | v1 => simp [variantRec] at hv
  | v2 => simp [variantRec] at hv
  | v5 => simp [variantRec] at hv
  | v0 =>
    obtain rfl : s.cfg.v0 = r := by simpa [variantRec] using hv
    obtain ⟨h1, h2, h3⟩ := h
    refine goes_require h1 (goes_require h2 ?_)
    exact goes_bind ((plays_runNvm h3) b n s rest hu rfl hl) fun τ => goes_pure.upto τ rfl
  | v3 =>
    obtain rfl : ms = [] := h
    have : rest = s.env.line := by simpa [State.hears] using hl.symm
    rw [this, State.moved_nil]
    exact goes_pure
  | v4 =>
    obtain rfl : s.cfg.v4 = r := by simpa [variantRec] using hv
    obtain ⟨h2, h3⟩ := h
    refine goes_require h2 ?_
    exact goes_bind ((plays_runNvm h3) b n s rest hu rfl hl) fun τ => goes_pure.upto τ rfl

end Sys2Proof.Machine
end

