-- ==== Sys2Proof/Laws/SyncOps.lean ====
section
/-! SUPPORT. What the bodies of the TPI and PDI operations, and of the disconnects, do when nothing fails. -/

namespace Sys2Proof.Machine

variable {c : Params} {k : Bool} {n : Nat}

/-! ## Operands in `CB` -/

theorem goes_cbMem {β : Type} {s u : State} {b : β} {sc cmd mt : Byte} {a l : Addr} {d : List Byte}
    {f : Byte × Addr × Addr × List Byte → M β} (hc : s.cb.body = .request sc cmd (.mem mt a l d))
    (h : Goes k n (f (mt, a, l, d)) s b u) : Goes k n (cbMem >>= f) s b u := by
  unfold cbMem
  rw [bind_assoc]
  refine goes_get ?_
  rw [hc]
  exact h

theorem goes_cbErase {β : Type} {s u : State} {b : β} {sc cmd et : Byte} {a : Addr} {f : Byte × Addr → M β}
    (hc : s.cb.body = .request sc cmd (.erase et a)) (h : Goes k n (f (et, a)) s b u) :
    Goes k n (cbErase >>= f) s b u := by
  unfold cbErase
  rw [bind_assoc]
  refine goes_get ?_
  rw [hc]
  exact h

/-- An address that translates, with its range in the space (R72, R84). -/
theorem goes_translate {β : Type} {s u : State} {b : β} {q : MemKind} {a a' : Addr} {l : Nat} {f : Addr → M β}
    (hx : xlate s.cfg s.dd q a = some a') (hi : inSpace32 a' l = true) (h : Goes k n (f a') s b u) :
    Goes k n (Machine.translate q a l >>= f) s b u := by
  unfold Machine.translate
  rw [bind_assoc]
  refine goes_get ?_
  rw [hx]
  simp only [bind_assoc, pure_bind]
  exact goes_require hi h

/-! ## Disconnects (R185, R233, R260) -/

theorem plain_clearRelease : Plain fun s => s.clearSession.releaseUart where
  timeless s t := by
    show (s.stamp t).clearSession.releaseUart = _
    rw [plain_clearSession.timeless, plain_releaseUart.timeless]
  armed s := (plain_releaseUart.armed _).trans (plain_clearSession.armed s)
  env s := (plain_releaseUart.env _).trans (plain_clearSession.env s)
  cnt s := (plain_releaseUart.cnt _).trans (plain_clearSession.cnt s)

theorem teardown_stamp (s : State) (τ : Time) : (s.stamp τ).teardown = s.teardown.stamp τ :=
  write_stamp plain_clearRelease s τ

/-- Steps 2 and 3 of a disconnect. -/
theorem goes_teardown {s : State} :
    Goes k n (do teardown; pure (Res.ok 1) : M Res) s (Res.ok 1) s.teardown := by
  unfold teardown
  simp only [bind_assoc]
  refine goes_phase_bind fun τ => goes_get (goes_bind (goes_regs plain_clearSession) fun τ2 =>
    goes_phase_bind fun τ3 => goes_bind (goes_regs (plain_releaseUart.noteTrst _)) fun τ4 => ?_)
  refine goes_pure.upto τ4 ?_
  rw [plain_clearSession.timeless]
  simp only [State.stamp_stamp, (plain_releaseUart.noteTrst _).timeless _ _, trst_stamp]
  rfl

/-- Without a link only the teardown. -/
theorem goes_disconnect_unlinked {s : State} {w : RunOp} (hl : s.sess.link = false) :
    Goes k n (disconnect w) s (Res.ok 1) s.teardown := by
  unfold disconnect
  refine goes_phase_bind fun τ => goes_get ?_
  simp only [show (s.stamp τ).sess.link = false from hl, Bool.false_eq_true, if_false]
  rw [← goes_stamp τ, ← teardown_stamp]
  exact goes_teardown

/-- With a link, first the wire part. -/
theorem goes_disconnect {s t : State} {w : RunOp} {r : Res} (hl : s.sess.link = true) (h1 : s.wdArmed = false)
    (h2 : s.env.ie = true) (hn : n ≤ Config.wdDefaultMs.toNat)
    (hm : ∀ τ, Goes k n (runBody w) ((s.stamp τ).started Config.wdDefaultMs) r t) (hr : r.count ≠ 0)
    (ht : r.cause ≠ some .timeout) : Goes false n (disconnect w) s (Res.ok 1) t.disarm.teardown := by
  unfold disconnect
  refine goes_phase_bind fun τ => goes_get ?_
  simp only [show (s.stamp τ).sess.link = true from hl, if_true]
  refine goes_bind (goes_runWith (fb := runFallback w) (s := s.stamp τ) h1 h2 hn (hm τ) (.inl hr) ht) fun τ2 => ?_
  rw [← goes_stamp τ2, ← teardown_stamp]
  exact goes_teardown

/-- The wire part of UPDI's SIGN_OFF (R185). -/
theorem goes_updiSignOffWire {s : State} {ms : List Move} {rest : List LineEvent} (hu : s.umode = .updi)
    (h : updiSignOffRuns s.cfg s.sess.prog ms) (hl : s.hears .updi ms rest) :
    Goes k n updiSignOffWire s (Res.ok 1) (s.moved .updi ms rest) := by
  obtain ⟨m1, m2, r1, r2, h1, h2, rfl⟩ := h
  unfold updiSignOffWire
  refine goes_get ?_
  have p2 := plays_bind_nil (k := fun _ => pure (Res.ok 1)) (plays_runScript h2) plays_pure
  cases hp : s.sess.prog
  · rw [hp, if_neg (by simp)] at h1
    subst h1
    simp only [Bool.false_eq_true, if_false]
    exact p2 k n s rest hu rfl hl
  · rw [hp, if_pos rfl] at h1
    simp only [if_true]
    exact (plays_bind (plays_runScript h1) p2) k n s rest hu rfl hl

/-- The wire part of PDI's SIGN_OFF (R260). -/
theorem plays_pdiLeaveScript {ms : List Move} {r : List Byte} (h : scriptRuns c .pdi c.pdi.leaveSeq ms r) :
    Plays .pdi c (do let _ ← runScript .pdi c.pdi.leaveSeq; pure (Res.ok 1)) ms (Res.ok 1) :=
  plays_bind_nil (plays_runScript h) plays_pure

/-- The wire part of TPI's LEAVE_PROGMODE (R233). -/
theorem plays_tpiLeaveWire (c : Params) :
    Plays .tpi c tpiLeaveWire (stcsMoves c .tpi c.tpi.rStatus 0) (Res.ok 1) := by
  unfold tpiLeaveWire
  refine plays_get fun s hc _ => ?_
  rw [hc]
  exact plays_bind_nil (plays_stcs .tpi c _ _) plays_pure

/-! ## TPI -/

/-- A connect that goes through is not the failing one's business (R222, R252). -/
theorem goes_failingConnect {m : M Unit} {s t : State} (h : Goes k n m s () t) : Goes k n (failingConnect m) s () t := by
  intro hw
  obtain ⟨τ, e, l⟩ := h hw
  refine ⟨τ, ?_, l⟩
  unfold failingConnect
  rw [e]

/-- A connect that fails ends in `connectFailed` (R222, R252). -/
theorem fails_failingConnect {m : M Unit} {s t : State} {x : Cause} (h : Fails k n m s x t) :
    Fails k n (failingConnect m) s x (t.write State.connectFailed) := by
  intro hw
  obtain ⟨τ, e, l⟩ := h hw
  obtain ⟨τ2, e2, l2⟩ := (goes_upd (k := k) (n := n) (s := t.stamp τ) plain_connectFailed) l.1
  rw [write_stamp plain_connectFailed] at e2 l2
  refine ⟨τ2, ?_, lasts_trans l l2⟩
  unfold failingConnect
  rw [e]
  simp only [e2, State.stamp_stamp]

/-- The state in which TPI's activation script starts (R222 steps 1 to 3). -/
def State.tpiConnectStart (s : State) : State := (s.connectStart .tpi).write fun s => { s with trstEng := true }

/-- Raising the engine's reset request leaves all else alone. -/
theorem plain_trstEng (v : Bool) : Plain fun s => { s with trstEng := v } :=
  plain_of (fun _ _ => rfl) (fun _ => rfl) (fun _ => rfl) fun _ => rfl

/-- A TPI connect up to its activation script. -/
theorem goes_tpiConnectOpen {s : State} : Goes k n tpiConnectOpen s () s.tpiConnectStart := by
  unfold tpiConnectOpen
  refine goes_connectStart_phases fun τ => goes_phase_bind fun τ2 => ?_
  refine (goes_upd (plain_trstEng true)).upto τ2 ?_
  rw [State.stamp_stamp, write_stamp (plain_trstEng true)]
  rfl

theorem fails_stamp_of {α : Type} {m : M α} {s t u : State} {x : Cause} (h : Fails k n m s x t) (τ : Time)
    (e : t = u.stamp τ) : Fails k n m s x u := (fails_stamp τ).1 (e ▸ h)

/-- `LINK` with the engine holding the reset line leaves `TRST` alone (R306). -/
theorem link_trst_eng {s : State} (h : s.trstEng = true) (l : Bool) :
    ({ s with sess := { s.sess with link := l } } : State).trst = s.trst := by
  unfold State.trst
  simp [h]

/-- What the start of a TPI connect leaves alone or sets. -/
theorem tpiConnectStart_field {α : Type} (g : State → α) (s : State) (hg : ∀ (t : State) h, g { t with hist := h } = g t)
    (he : ∀ (t : State) v, g { t with trstEng := v } = g t) : g s.tpiConnectStart = g (s.connectStart .tpi) := by
  unfold State.tpiConnectStart
  rw [State.write_field g hg, he]

theorem tpiConnectStart_trstEng (s : State) : s.tpiConnectStart.trstEng = true := by
  unfold State.tpiConnectStart
  exact State.write_field (fun s => s.trstEng) (fun _ _ => rfl)

theorem tpiConnectStart_cfg (s : State) : s.tpiConnectStart.cfg = s.cfg :=
  (tpiConnectStart_field (fun s => s.cfg) s (fun _ _ => rfl) fun _ _ => rfl).trans (connectStart_cfg .tpi s)

theorem tpiConnectStart_env (s : State) : s.tpiConnectStart.env = s.env :=
  (tpiConnectStart_field (fun s => s.env) s (fun _ _ => rfl) fun _ _ => rfl).trans (connectStart_env .tpi s)

theorem tpiConnectStart_umode (s : State) : s.tpiConnectStart.umode = .tpi :=
  (tpiConnectStart_field (fun s => s.umode) s (fun _ _ => rfl) fun _ _ => rfl).trans (connectStart_umode .tpi s)

theorem tpiConnectStart_wdArmed (s : State) : s.tpiConnectStart.wdArmed = s.wdArmed :=
  (tpiConnectStart_field (fun s => s.wdArmed) s (fun _ _ => rfl) fun _ _ => rfl).trans (connectStart_wdArmed .tpi s)

theorem tpiConnectStart_sess (s : State) : s.tpiConnectStart.sess = Sess.zero :=
  (tpiConnectStart_field (fun s => s.sess) s (fun _ _ => rfl) fun _ _ => rfl).trans (connectStart_sess .tpi s)

theorem moved_stamp (e : Engine) (ms : List Move) (rest : List LineEvent) (s : State) (τ : Time) :
    (s.stamp τ).moved e ms rest = (s.moved e ms rest).stamp τ := rfl

/-- `LINK` is set while the engine holds the reset line (R222). -/
theorem goes_linked {s : State} (h : s.trstEng = true) :
    Goes k n (upd fun s => { s with sess := { s.sess with link := true } }) s ()
      { s with sess := { s.sess with link := true } } := by
  have := goes_upd (k := k) (n := n) (s := s)
    (plain_of (f := fun s => { s with sess := { s.sess with link := true } }) (fun _ _ => rfl)
      (fun _ => rfl) (fun _ => rfl) fun _ => rfl)
  rwa [State.write_quiet (f := fun s => { s with sess := { s.sess with link := true } }) (link_trst_eng h true)]
    at this

/-- `TPI.connect` on a target that identifies itself (R222). -/
theorem goes_tpiConnect {s : State} {ms : List Move} {rest : List LineEvent}
    (h : scriptRuns s.cfg .tpi s.cfg.tpi.activateSeq ms [s.cfg.tpi.ident]) (hl : s.hears .tpi ms rest) :
    Goes k n tpiConnect s () (let t := s.tpiConnectStart.moved .tpi ms rest
      { t with sess := { t.sess with link := true } }) := by
  refine goes_failingConnect ?_
  unfold tpiConnectSteps
  refine goes_bind goes_tpiConnectOpen fun τ => goes_get (goes_phase_bind fun τ1 => ?_)
  have h1 := tpiConnectStart_cfg s
  have h2 := tpiConnectStart_umode s
  have h3 := tpiConnectStart_env s
  have h4 := tpiConnectStart_trstEng s
  generalize s.tpiConnectStart = q at *
  rw [← h1] at h
  refine (plays_runScript h).goes_bind (c := q.cfg) (s := (q.stamp τ).stamp τ1) rfl h2
    (by show q.env.line = _; rw [h3]; exact hl) fun τ3 => goes_phase_bind fun τ4 => ?_
  rw [if_neg (by simp [State.stamp])]
  refine goes_phase_bind fun τ2 => ?_
  rw [moved_stamp, moved_stamp, State.stamp_stamp, State.stamp_stamp, State.stamp_stamp, State.stamp_stamp]
  have he : (q.moved .tpi ms rest).trstEng = true := h4
  generalize q.moved .tpi ms rest = r at *
  refine (goes_linked (s := r.stamp τ2) he).upto τ2 ?_
  rfl

/-- `TPI.connect` on a target that answers a wrong identification (R222). -/
theorem fails_tpiConnect {s : State} {ms : List Move} {r : List Byte} {rest : List LineEvent}
    (h : scriptRuns s.cfg .tpi s.cfg.tpi.activateSeq ms r) (hr : r ≠ [s.cfg.tpi.ident]) (hl : s.hears .tpi ms rest) :
    Fails k n tpiConnect s .status ((s.tpiConnectStart.moved .tpi ms rest).write State.connectFailed) := by
  refine fails_failingConnect ?_
  have h1 := tpiConnectStart_cfg s
  have h2 := tpiConnectStart_umode s
  have h3 := tpiConnectStart_env s
  unfold tpiConnectSteps
  refine fails_bind goes_tpiConnectOpen fun τ => fails_get (fails_bind goes_phase fun τ1 => ?_)
  generalize s.tpiConnectStart = q at *
  rw [← h1] at h hr
  refine fails_bind ((plays_runScript h) k n ((q.stamp τ).stamp τ1) rest h2 rfl (by
    show q.env.line = _; rw [h3]; exact hl)) fun τ2 => fails_bind goes_phase fun τ3 => ?_
  rw [if_pos (by simpa [State.stamp] using hr)]
  exact fails_stamp_of fails_raise τ3 rfl

/-- `TPI_CHUNK` as the table gives it for a signature (R224). -/
def State.setChunk (sig : List Byte) (s : State) : State := { s with tpiChunk := chunkOf s.cfg sig }

theorem effect_setChunk (e : Engine) (sig : List Byte) : Effect e (State.setChunk sig) := by
  constructor <;> intros <;> rfl

/-- The poll for the NVM-enabled bit (R223). -/
theorem plays_tpiEnabled {ms : List Move} (h : tpiEnabledRuns c ms) :
    Plays .tpi c (do
      let _ ← pollUntil (ldcs .tpi c.tpi.rStatus) (fun v => v &&& c.tpi.statusNvmen != 0)
      pure ()) ms () := by
  obtain ⟨unwanted, v, hu, hv, rfl⟩ := h
  refine plays_bind_nil (plays_pollUntil (fun x => plays_ldcs .tpi c c.tpi.rStatus x)
    (fun x => lineOf_into_pos .tpi _ x) (fun x hx => ?_) ?_) plays_pure
  · simpa using hu x hx
  · simpa using hv

/-- `TPI.ENTER_PROGMODE` after the connect (R223 steps 2 to 5). -/
def tpiUnlock (c : Params) : M Res := do
  phase 2
  sendSyncKey .tpi
  phase 3
  let _ ← pollUntil (ldcs .tpi c.tpi.rStatus) (fun v => v &&& c.tpi.statusNvmen != 0)
  phase 4
  upd fun s => { s with sess := { s.sess with prog := true } }
  phase 5
  let sig ← tpiReadAt c.tpi.sigAddr 3
  tpiChunkSet sig
  phase 6
  pure (Res.ok 1)

theorem acts_tpiUnlock {sig : List Byte} {ms : List Move} (h : tpiUnlockRuns c sig ms) :
    Acts .tpi (IsCfg c) (tpiUnlock c) ms (fun s => (s.setProg true).setChunk sig) (Res.ok 1) := by
  obtain ⟨h3, m, hm, rfl⟩ := h
  have st := steady_isCfg .tpi c
  have hc : ∀ s, IsCfg c s → s.cfg = c := fun _ h => h
  have e1 := effect_setProg .tpi true
  have e2 := effect_setChunk .tpi sig
  have ef := e1.comp e2
  have hp := plays_tpiEnabled hm
  obtain ⟨unwanted, v, hu, hv, rfl⟩ := hm
  have hpoll : Plays .tpi c (pollUntil (ldcs .tpi c.tpi.rStatus) (fun v => v &&& c.tpi.statusNvmen != 0))
      (pollMoves (ldcsMoves c .tpi c.tpi.rStatus) unwanted v) v :=
    plays_pollUntil (fun x => plays_ldcs .tpi c c.tpi.rStatus x) (fun x => lineOf_into_pos .tpi _ x)
      (fun x hx => by simpa using hu x hx) (by simpa using hv)
  have hr := plays_tpiReadAt c c.tpi.sigAddr sig
  rw [h3] at hr
  unfold tpiUnlock
  refine acts_phase_bind st (acts_plays_bind hc st (plays_sendSyncKey .tpi c) ?_ ef) ef
  refine acts_phase_bind st (acts_plays_bind hc st hpoll ?_ ef) ef
  refine acts_phase_bind st ?_ ef
  refine acts_upd_bind (f := State.setProg true) (g := State.setChunk sig) e1 (fun _ _ => rfl) (Q := IsCfg c) ?_ e2 st
    fun s h => h
  rw [← List.append_nil (tpiReadMoves c c.tpi.sigAddr sig)]
  refine acts_phase_bind st (acts_plays_bind hc st hr ?_ e2) e2
  unfold tpiChunkSet
  exact acts_upd_bind e2 (fun _ _ => rfl) (acts_phase_bind (k := fun _ => pure (Res.ok 1)) st acts_pure (effect_id _)) (effect_id _) st
    fun s h => h

/-- A piece whose state is read first. -/
theorem goes_congr {α : Type} {m m' : M α} {s t : State} {a : α} (h : m s = m' s) (hg : Goes k n m' s a t) :
    Goes k n m s a t := by
  intro hw
  rw [h]
  exact hg hw

/-- The body of `TPI.ENTER_PROGMODE` without `PROG` (R223). -/
theorem tpiEnter_eq {s : State} (hp : s.sess.prog = false) :
    tpiEnter s = (do
      phase 1
      if s.sess.link then pure () else tpiConnect
      tpiUnlock s.cfg : M Res) s := by
  unfold tpiEnter
  rw [m_bind, m_get]
  simp only [hp, Bool.false_eq_true, if_false]
  rfl

/-- `TPI.ENTER_PROGMODE` of a linked target (R223). -/
theorem goes_tpiEnter_linked {s : State} {sig : List Byte} {ms : List Move} {rest : List LineEvent}
    (hp : s.sess.prog = false) (hk : s.sess.link = true) (hu : s.umode = .tpi) (h : tpiUnlockRuns s.cfg sig ms)
    (hl : s.hears .tpi ms rest) :
    Goes k n tpiEnter s (Res.ok 1) (((s.moved .tpi ms rest).setProg true).setChunk sig) := by
  refine goes_congr (tpiEnter_eq hp) ?_
  rw [if_pos hk]
  refine goes_phase_bind fun τ => ?_
  exact (acts_tpiUnlock h k n (s.stamp τ) rest hu rfl hl).upto τ rfl

/-- `TPI.ENTER_PROGMODE` that connects first, without a link (R222, R223). -/
theorem goes_tpiEnter_connect {s : State} {sig : List Byte} {m1 m2 : List Move} {rest : List LineEvent}
    (hp : s.sess.prog = false) (hk : s.sess.link = false)
    (h1 : scriptRuns s.cfg .tpi s.cfg.tpi.activateSeq m1 [s.cfg.tpi.ident]) (h2 : tpiUnlockRuns s.cfg sig m2)
    (hl : s.hears .tpi (m1 ++ m2) rest) :
    Goes k n tpiEnter s (Res.ok 1)
      { s.tpiConnectStart.moved .tpi (m1 ++ m2) rest with
        sess := ⟨true, true, false, false, false⟩, tpiChunk := chunkOf s.cfg sig } := by
  refine goes_congr (tpiEnter_eq hp) ?_
  rw [if_neg (by simp [hk])]
  obtain ⟨l1, _⟩ := State.hears_moved hl
  refine goes_phase_bind fun τ => ?_
  have hc := tpiConnectStart_cfg (s.stamp τ)
  have hs := tpiConnectStart_sess (s.stamp τ)
  have hm := tpiConnectStart_umode (s.stamp τ)
  have he : ∀ u : State, (u.stamp τ).tpiConnectStart = u.tpiConnectStart.stamp τ := by
    intro u
    unfold State.tpiConnectStart
    rw [connectStart_stamp, write_stamp (plain_trstEng true)]
  refine goes_bind (goes_tpiConnect (s := s.stamp τ) (rest := lineOf .tpi m2 ++ rest) h1 l1) fun τ2 => ?_
  simp only
  have hu := acts_tpiUnlock h2 k n
  rw [he] at hc hs hm ⊢
  generalize s.tpiConnectStart = q at *
  have hc' : q.cfg = s.cfg := hc
  have hs' : q.sess = Sess.zero := hs
  have := hu (State.stamp τ2 { (q.moved .tpi m1 (lineOf .tpi m2 ++ rest)) with
    sess := { (q.moved .tpi m1 (lineOf .tpi m2 ++ rest)).sess with link := true } }) rest hm hc' rfl
  refine this.upto τ2 ?_
  rw [← State.moved_moved .tpi m1 m2 (lineOf .tpi m2 ++ rest) rest q]
  simp only [State.setProg, State.setChunk, State.moved, State.stamp, hs', hc', Sess.zero]

/-- One chunked write: the command, the pointer, the chunks, no command (R228). -/
theorem plays_tpiBody {a : Addr} {d : List Byte} {kk : Nat} {ms : List Move} (h : tpiBodyRuns c kk a d ms) :
    Plays .tpi c (do
      tpiOut c.tpi.nvmCmd c.tpi.cmdWrite
      tpiSetPtr (BitVec.ofNat 32 (padStart kk a.toNat))
      tpiChunks kk ((padBuf Config.fillByte kk a.toNat d).length / kk) (padBuf Config.fillByte kk a.toNat d)
      tpiOut c.tpi.nvmCmd c.tpi.cmdNone
      pure (Res.ok d.length)) ms (Res.ok d.length) := by
  obtain ⟨m, hm, rfl⟩ := h
  exact plays_bind (plays_tpiOut c _ _) (plays_bind (plays_tpiSetPtr c _) (plays_bind (plays_tpiChunks hm)
    (plays_bind_nil (plays_tpiOut c _ _) plays_pure)))

/-- `TPI.WRITE_MEM` (R228, R232). -/
theorem goes_tpiWrite {s : State} {sc cmd mt : Byte} {a l : Addr} {d : List Byte} {ms : List Move}
    {rest : List LineEvent} (hb : s.cb.body = .request sc cmd (.mem mt a l d)) (hu : s.umode = .tpi)
    (hp : s.sess.prog = true) (hn : lenOk l.toNat = true) (hd : d.length = l.toNat)
    (hv : s.cfg.tpi.vminMv ≤ s.env.vtg) (he : padEnd s.tpiChunk.bytes a.toNat l.toNat ≤ 2 ^ 16)
    (h : tpiWriteRuns s mt a d ms) (hl : s.hears .tpi ms rest) :
    Goes k n tpiWrite s (Res.ok l.toNat) (s.moved .tpi ms rest) := by
  obtain ⟨m1, m2, h1, h2, rfl⟩ := h
  unfold tpiWrite
  refine goes_cbMem hb (goes_get ?_)
  refine goes_require (by simp [hn, hd]) (goes_require hp (goes_require (by simp [vtgOk, hv])
    (goes_require (decide_eq_true he) ?_)))
  have body := plays_tpiBody h2
  rw [hd] at body
  by_cases hx : mt = s.cfg.tpi.xmtAppl ∧ s.sess.eraseDone = false
  · rw [if_pos hx] at h1
    rw [if_pos hx]
    exact (plays_bind (plays_tpiEraseAt h1) body) k n s rest hu rfl hl
  · rw [if_neg hx] at h1
    rw [if_neg hx]
    subst h1
    exact (plays_nil_bind plays_pure body) k n s rest hu rfl hl

/-- `TPI.READ_MEM` (R230). -/
theorem goes_tpiRead {s : State} {sc cmd mt : Byte} {a l : Addr} {d d' : List Byte} {rest : List LineEvent}
    (hb : s.cb.body = .request sc cmd (.mem mt a l d')) (hu : s.umode = .tpi) (hp : s.sess.prog = true)
    (hn : lenOk l.toNat = true) (hi : inSpace16 a l.toNat = true) (hd : d.length = l.toNat)
    (hl : s.hears .tpi (tpiReadMoves s.cfg a d) rest) :
    Goes k n tpiRead s (Res.read d) (s.moved .tpi (tpiReadMoves s.cfg a d) rest) := by
  unfold tpiRead
  refine goes_cbMem hb (goes_get ?_)
  refine goes_require (by simp [hn, hi]) (goes_require hp ?_)
  rw [← hd]
  exact (plays_bind_nil (k := fun d => pure (Res.read d)) (plays_tpiReadAt s.cfg a d) plays_pure) k n s rest hu rfl hl

/-- The chip erase of `TPI.ERASE` (R231). -/
theorem acts_tpiErase_chip {a : Addr} {ms : List Move} (h : tpiEraseRuns c a c.tpi.cmdChipErase ms) :
    Acts .tpi (IsCfg c) (do
      tpiEraseAt a c.tpi.cmdChipErase
      upd fun s => { s with sess := { s.sess with eraseDone := true } }
      pure (Res.ok 1)) ms State.setErased (Res.ok 1) := by
  rw [← List.append_nil ms]
  refine acts_plays_bind (fun _ h => h) (steady_isCfg _ c) (plays_tpiEraseAt h) ?_ (effect_setErased _)
  exact acts_bind_pure (acts_upd (effect_setErased _) fun _ _ => rfl) rfl

/-! ## PDI -/

/-- The blocks of a PDI write: enough pieces are always counted (R255). -/
theorem plays_pdiSend (hb : 1 ≤ c.blockMaxUnits) : ∀ {f : Nat} {a : Addr} {d : List Byte},
    Plays .pdi c (pdiSend f a d) (pdiSendPieces c f a d) ()
  | 0, _, _ => plays_pure
  | f + 1, a, d => by
    unfold pdiSend pdiSendPieces
    cases hd : d.isEmpty
    · simp only [Bool.false_eq_true, if_false]
      refine plays_get fun s hc _ => ?_
      rw [hc]
      have hlen : 1 ≤ d.length := by cases d <;> simp_all
      have hk : (d.take (min d.length c.blockMaxUnits)).length = min d.length c.blockMaxUnits := by simp
      exact plays_bind (plays_pdiSendBlock (by rw [hk]; omega) (by rw [hk]; omega)) (plays_pdiSend hb)
    · simp only [if_true]
      exact plays_pure

/-- The blocks of a PDI read (R255). -/
theorem plays_pdiRecv (hb : 1 ≤ c.blockMaxUnits) : ∀ {f : Nat} {a : Addr} {d : List Byte}, d.length ≤ f →
    Plays .pdi c (pdiRecv f a d.length) (pdiRecvPieces c f a d) d
  | 0, _, d, h => by
    obtain rfl : d = [] := by cases d <;> simp_all
    exact plays_pure
  | f + 1, a, d, h => by
    unfold pdiRecv pdiRecvPieces
    cases hd : d.isEmpty
    · have hlen : 1 ≤ d.length := by cases d <;> simp_all
      simp only [Bool.false_eq_true, if_false]
      rw [if_neg (by omega)]
      refine plays_get fun s hc _ => ?_
      rw [hc]
      have hk : (d.take (min d.length c.blockMaxUnits)).length = min d.length c.blockMaxUnits := by simp
      have h1 := plays_pdiRecvBlock (c := c) (a := a) (d := d.take (min d.length c.blockMaxUnits))
        (by rw [hk]; omega) (by rw [hk]; omega)
      rw [hk] at h1
      have h2 := plays_pdiRecv hb (f := f) (a := addrAt a (min d.length c.blockMaxUnits))
        (d := d.drop (min d.length c.blockMaxUnits)) (by simp; omega)
      rw [List.length_drop] at h2
      refine plays_bind h1 (plays_bind_nil h2 ?_)
      rw [List.take_append_drop]
      exact plays_pure
    · obtain rfl : d = [] := by simpa using hd
      exact plays_pure

/-- The paged path (R258). -/
theorem plays_pdiPaged {q : MemKind} {cs : PdiPageCmds} {a : Addr} {d : List Byte} {ms : List Move}
    (hb : 1 ≤ c.blockMaxUnits) (h : pdiPagedRuns c q cs a d ms) :
    Plays .pdi c (pdiPaged q cs a d) ms (Res.ok d.length) := by
  obtain ⟨m1, m2, m3, m4, h1, h2, h3, h4, rfl⟩ := h
  unfold pdiPaged
  refine plays_phase (plays_bind (plays_pdiNvmWait h1) (plays_bind (plays_pdiCmd c _) (plays_bind (plays_pdiExecute c)
    (plays_phase (plays_bind (plays_pdiNvmWait h2) (plays_bind (plays_pdiCmd c _) (plays_bind (plays_pdiSend hb)
    (plays_phase ?_))))))))
  have tail : Plays .pdi c (do
      pdiCmd cs.writePage
      pdiSts8 a 0x00
      phase 4
      pdiNvmWait
      pure (Res.ok d.length)) (pdiCmdMoves c cs.writePage ++ (pdiStoreMoves c a 0 ++ m3)) (Res.ok d.length) :=
    plays_bind (plays_pdiCmd c _) (plays_bind (plays_pdiSts8 c a 0)
      (plays_phase (plays_bind_nil (plays_pdiNvmWait h3) plays_pure)))
  by_cases hq : q = .userrow
  · rw [if_pos hq] at h4 ⊢
    obtain ⟨m, hm, rfl⟩ := h4
    refine plays_get fun s hc _ => ?_
    rw [hc, List.append_assoc, List.append_assoc]
    exact plays_bind (plays_pdiCmd c _) (plays_bind (plays_pdiSts8 c a 0) (plays_bind (plays_pdiNvmWait hm) tail))
  · rw [if_neg hq] at h4 ⊢
    subst h4
    exact tail

/-- `pdi_nvm_write` (R258). -/
theorem plays_pdiNvmWrite {q : MemKind} {a : Addr} {d : List Byte} {ms : List Move} (hb : 1 ≤ c.blockMaxUnits)
    (h : pdiNvmRuns c q a d ms) : Plays .pdi c (pdiNvmWrite q a d) ms (Res.ok d.length) := by
  unfold pdiNvmWrite
  refine plays_get fun s hc _ => ?_
  rw [hc]
  unfold pdiNvmRuns at h
  cases hp : pdiPageCmds c.pdi q with
  | some cs =>
    rw [hp] at h
    exact plays_pdiPaged hb h
  | none =>
    rw [hp] at h
    cases hx : pdiByteCmd c.pdi q with
    | none => rw [hx] at h; exact h.elim
    | some x =>
      rw [hx] at h
      have := plays_bind_nil (k := fun _ => pure (Res.ok d.length)) (plays_pdiBytes h) plays_pure
      simpa only [bind_assoc] using this

/-- `LINK` set with the button's reset let go (R306). -/
theorem goes_link {s : State} (h : s.trstBtn = false) :
    Goes k n (upd fun s => { s with sess := { s.sess with link := true } }) s ()
      { s with sess := { s.sess with link := true } } := by
  have := goes_upd (k := k) (n := n) (s := s) (plain_of (f := fun s => { s with sess := { s.sess with link := true } })
    (fun _ _ => rfl) (fun _ => rfl) (fun _ => rfl) fun _ => rfl)
  rwa [State.write_quiet (link_trst h true)] at this

/-- The steps of PDI's SIGN_ON after its connect's start (R252 steps 3 to 5). -/
theorem goes_pdiSignOnTail {s : State} {m1 : List Move} {r : List Byte} {v : Byte} {rest : List LineEvent}
    (hu : s.umode = .pdi) (hb : s.trstBtn = false) (h : scriptRuns s.cfg .pdi s.cfg.pdi.activateSeq m1 r)
    (hl : s.hears .pdi (m1 ++ ldcsMoves s.cfg .pdi s.cfg.pdi.rStatus v) rest) :
    Goes k n (do
      phase 3
      let s ← get
      let _ ← runScript .pdi s.cfg.pdi.activateSeq
      phase 4
      let _ ← ldcs .pdi s.cfg.pdi.rStatus
      phase 5
      upd fun s => { s with sess := { s.sess with link := true } }) s ()
      (let t := s.moved .pdi (m1 ++ ldcsMoves s.cfg .pdi s.cfg.pdi.rStatus v) rest
       { t with sess := { t.sess with link := true } }) := by
  obtain ⟨l1, l2⟩ := State.hears_moved hl
  rw [← State.moved_moved .pdi m1 _ (lineOf .pdi (ldcsMoves s.cfg .pdi s.cfg.pdi.rStatus v) ++ rest) rest s]
  refine goes_phase_bind fun τ => goes_get ?_
  refine (plays_runScript h).goes_bind (s := s.stamp τ) rfl hu l1 fun τ2 => ?_
  refine goes_phase_bind fun τ3 => ?_
  refine (plays_ldcs .pdi s.cfg s.cfg.pdi.rStatus v).goes_bind (rest := rest) rfl hu l2 fun τ4 => ?_
  refine goes_phase_bind fun τ5 => ?_
  have e : ∀ q : State, q.trstBtn = false → Goes k n (upd fun s => { s with sess := { s.sess with link := true } }) (q.stamp τ5) ()
      { q with sess := { q.sess with link := true } } := fun q hq => (goes_link (s := q.stamp τ5) hq).upto τ5 rfl
  exact e ((s.moved .pdi m1 (lineOf .pdi (ldcsMoves s.cfg .pdi s.cfg.pdi.rStatus v) ++ rest)).moved .pdi
    (ldcsMoves s.cfg .pdi s.cfg.pdi.rStatus v) rest) hb

/-- PDI's SIGN_ON (R252). -/
theorem goes_pdiSignOn {s : State} {m1 : List Move} {r : List Byte} {v : Byte} {rest : List LineEvent}
    (h : scriptRuns s.cfg .pdi s.cfg.pdi.activateSeq m1 r)
    (hl : s.hears .pdi (m1 ++ ldcsMoves s.cfg .pdi s.cfg.pdi.rStatus v) rest) :
    Goes k n pdiSignOn s (Res.ok 1)
      (let t := (s.connectStart .pdi).moved .pdi (m1 ++ ldcsMoves s.cfg .pdi s.cfg.pdi.rStatus v) rest
       { t with sess := { t.sess with link := true } }) := by
  have h1 := connectStart_cfg .pdi s
  have h2 := connectStart_umode .pdi s
  have h3 := connectStart_env .pdi s
  have h4 := connectStart_trstBtn .pdi s
  have steps : Goes k n pdiSignOnSteps s ()
      (let t := (s.connectStart .pdi).moved .pdi (m1 ++ ldcsMoves s.cfg .pdi s.cfg.pdi.rStatus v) rest
       { t with sess := { t.sess with link := true } }) := by
    unfold pdiSignOnSteps
    refine goes_connectStart_phases fun τ => ?_
    generalize s.connectStart .pdi = q at *
    rw [← h1] at h hl ⊢
    have hq : q.hears .pdi (m1 ++ ldcsMoves q.cfg .pdi q.cfg.pdi.rStatus v) rest := by
      unfold State.hears
      rw [h3]
      exact hl
    exact (goes_pdiSignOnTail (s := q.stamp τ) h2 h4 h hq).upto τ rfl
  unfold pdiSignOn done
  refine goes_bind (goes_failingConnect steps) fun τ => ?_
  exact (goes_pure).upto τ rfl

/-- PDI's ENTER_PROGMODE of a linked target (R253). -/
theorem goes_pdiEnter {s : State} {m1 m3 : List Move} {r : List Byte} {rest : List LineEvent}
    (hk : s.sess.link = true) (hp : s.sess.prog = false) (hu : s.umode = .pdi)
    (h1 : scriptRuns s.cfg .pdi s.cfg.pdi.preKeySeq m1 r) (h3 : pdiEnabledRuns s.cfg m3)
    (hl : s.hears .pdi (m1 ++ (outs (syncKeyBytes s.cfg) ++ m3)) rest) :
    Goes k n pdiEnter s (Res.ok 1) ((s.moved .pdi (m1 ++ (outs (syncKeyBytes s.cfg) ++ m3)) rest).setProg true) := by
  unfold pdiEnter
  refine goes_get (goes_require hk ?_)
  rw [if_neg (by simp [hp])]
  have st := steady_isCfg .pdi s.cfg
  have hc : ∀ t, IsCfg s.cfg t → t.cfg = s.cfg := fun _ h => h
  have ef := effect_setProg .pdi true
  refine (?_ : Acts .pdi (IsCfg s.cfg) _ _ (State.setProg true) (Res.ok 1)) k n s rest hu rfl hl
  refine acts_phase_bind st (acts_plays_bind hc st (plays_runScript h1) ?_ ef) ef
  refine acts_phase_bind st (acts_plays_bind hc st (plays_sendSyncKey .pdi s.cfg) ?_ ef) ef
  rw [← List.append_nil m3]
  refine acts_phase_bind st (acts_plays_bind hc st (plays_pdiPollEnabled h3) ?_ ef) ef
  exact acts_phase_bind st (acts_bind_pure (acts_upd ef fun _ _ => rfl) rfl) ef

/-- PDI's READ_MEMORY (R256). -/
theorem goes_pdiRead {s : State} {sc cmd mt : Byte} {a a' l : Addr} {d d' : List Byte} {q : MemKind} {ms : List Move}
    {rest : List LineEvent} (hb : s.cb.body = .request sc cmd (.mem mt a l d')) (hu : s.umode = .pdi)
    (hp : s.sess.prog = true) (hx : 1 ≤ s.cfg.blockMaxUnits) (hn : lenOk l.toNat = true)
    (hi : inSpace32 a l.toNat = true) (hd : d.length = l.toNat) (hk : memKind s.cfg mt = some q)
    (ht : xlate s.cfg s.dd q a = some a') (hi' : inSpace32 a' l.toNat = true) (hq : q ≠ .sib)
    (h : pdiSpace a = s.cfg.pdi.spaceCode ∧ ms = pdiCmdMoves s.cfg s.cfg.pdi.cRead ++ pdiRecvPieces s.cfg l.toNat a' d ∨
      pdiSpace a ≠ s.cfg.pdi.spaceCode ∧ pdiSpace a = s.cfg.pdi.spaceData ∧ ms = pdiRecvPieces s.cfg l.toNat a' d)
    (hl : s.hears .pdi ms rest) : Goes k n pdiRead s (Res.read d) (s.moved .pdi ms rest) := by
  unfold pdiRead
  refine goes_cbMem hb (goes_get (goes_require (by simp [hn, hi]) (goes_require hp ?_)))
  rw [hk]
  simp only [hq, if_false]
  refine goes_translate ht hi' (goes_require ?_ ?_)
  · rcases h with ⟨h, _⟩ | ⟨_, h, _⟩ <;> simp [h]
  · have recv := plays_bind_nil (k := fun d => pure (Res.read d))
      (plays_pdiRecv (c := s.cfg) hx (f := l.toNat) (a := a') (d := d) (by omega)) plays_pure
    rw [hd] at recv
    rcases h with ⟨h, rfl⟩ | ⟨h, _, rfl⟩
    · rw [if_pos h]
      exact (plays_bind (plays_pdiCmd s.cfg _) recv) k n s rest hu rfl hl
    · rw [if_neg h]
      exact (plays_nil_bind plays_pure recv) k n s rest hu rfl hl

/-- PDI's WRITE_MEMORY (R257). -/
theorem goes_pdiWrite {s : State} {sc cmd mt : Byte} {a a' l : Addr} {d : List Byte} {q : MemKind} {ms : List Move}
    {rest : List LineEvent} (hb : s.cb.body = .request sc cmd (.mem mt a l d)) (hu : s.umode = .pdi)
    (hp : s.sess.prog = true) (hx : 1 ≤ s.cfg.blockMaxUnits) (hn : lenOk l.toNat = true)
    (hi : inSpace32 a l.toNat = true) (hd : d.length = l.toNat) (hk : memKind s.cfg mt = some q)
    (ht : xlate s.cfg s.dd q a = some a') (hi' : inSpace32 a' l.toNat = true) (hq : memClass q ≠ .readOnly)
    (h : pdiSpace a' = s.cfg.pdi.spaceData ∧ ms = pdiSendPieces s.cfg l.toNat a' d ∨
      pdiSpace a' ≠ s.cfg.pdi.spaceData ∧ pdiSpace a' = s.cfg.pdi.spaceCode ∧ pdiNvmRuns s.cfg q a' d ms)
    (hl : s.hears .pdi ms rest) : Goes k n pdiWrite s (Res.ok l.toNat) (s.moved .pdi ms rest) := by
  unfold pdiWrite
  refine goes_cbMem hb (goes_get (goes_require (by simp [hn, hi, hd]) (goes_require hp ?_)))
  rw [hk]
  simp only [hq, if_false]
  refine goes_translate ht hi' (goes_require ?_ ?_)
  · rcases h with ⟨h, _⟩ | ⟨_, h, _⟩ <;> simp [h]
  · rcases h with ⟨h, rfl⟩ | ⟨h, _, hr⟩
    · rw [if_pos h]
      exact (plays_bind_nil (k := fun _ => pure (Res.ok l.toNat)) (plays_pdiSend hx) plays_pure) k n s rest hu rfl hl
    · rw [if_neg h, ← hd]
      exact (plays_pdiNvmWrite hx hr) k n s rest hu rfl hl

/-- The chip erase of PDI's ERASE_MEMORY (R259). -/
theorem acts_pdiErase_chip {m1 m2 : List Move} (h1 : pdiWaitRuns c m1) (h2 : pdiWaitRuns c m2) :
    Acts .pdi (IsCfg c) (do
      pdiNvmWait
      pdiCmd c.pdi.cChipErase
      pdiExecute
      pdiNvmWait
      upd fun s => { s with sess := { s.sess with eraseDone := true } }
      pure (Res.ok 1))
      (m1 ++ (pdiCmdMoves c c.pdi.cChipErase ++ (pdiStoreMoves c c.pdi.nvmCtrlA c.pdi.cmdex ++ m2))) State.setErased
      (Res.ok 1) := by
  have st := steady_isCfg .pdi c
  have hc : ∀ t, IsCfg c t → t.cfg = c := fun _ h => h
  have ef := effect_setErased .pdi
  rw [← List.append_nil m2]
  exact acts_plays_bind hc st (plays_pdiNvmWait h1) (acts_plays_bind hc st (plays_pdiCmd c _)
    (acts_plays_bind hc st (plays_pdiExecute c) (acts_plays_bind hc st (plays_pdiNvmWait h2)
      (acts_bind_pure (acts_upd ef fun _ _ => rfl) rfl) ef) ef) ef) ef

/-- The page erase of PDI's ERASE_MEMORY (R259). -/
theorem plays_pdiErase_page {a : Addr} {m1 m2 : List Move} (h1 : pdiWaitRuns c m1) (h2 : pdiWaitRuns c m2) :
    Plays .pdi c (do
      pdiNvmWait
      pdiCmd c.pdi.cErasePage
      pdiSts8 a 0x00
      pdiNvmWait
      pure (Res.ok 1)) (m1 ++ (pdiCmdMoves c c.pdi.cErasePage ++ (pdiStoreMoves c a 0 ++ m2))) (Res.ok 1) :=
  plays_bind (plays_pdiNvmWait h1) (plays_bind (plays_pdiCmd c _) (plays_bind (plays_pdiSts8 c a 0)
    (plays_bind_nil (plays_pdiNvmWait h2) plays_pure)))

end Sys2Proof.Machine
end

