-- ==== Sys2Proof/Laws/Chains.lean ====
section
/-! SUPPORT. From one host operation to the next: outcomes with the time they leave, the parameter commands, runs as the
dispatcher starts them, and what a run's registers have to do with a connect's start. -/

namespace Sys2Proof.Machine

variable {k : Bool} {n : Nat}

/-! ## Outcomes -/

/-- A host operation whose body goes through, with the time left below the bound. -/
theorem hostOp_goes_within {scope : HostScope} {cmd : Byte} {p : Payload} {m : M Res} {s t : State} {r : Res} (hw : s.within n)
    (h : Goes k n m (s.withRequest scope cmd p) r t) :
    ∃ cnt ds, hostOp scope cmd p m s = .next (t.answered r cnt ds) ∧ ds.sum < n := by
  obtain ⟨τ, e, l⟩ := h hw
  refine ⟨τ.cnt, τ.delays, ?_, l.1.1⟩
  unfold hostOp outcome
  rw [e]
  rfl

/-- Likewise for a body that leaves the countdown alone. -/
theorem hostOp_goes_still {scope : HostScope} {cmd : Byte} {p : Payload} {m : M Res} {s t : State} {r : Res} (hw : s.within n)
    (ha : s.wdArmed = false) (h : Goes true n m (s.withRequest scope cmd p) r t) :
    ∃ ds, hostOp scope cmd p m s = .next (t.answered r s.wdCnt ds) ∧ ds.sum < n := by
  obtain ⟨τ, e, l⟩ := h hw
  refine ⟨τ.delays, ?_, l.1.1⟩
  rw [show s.wdCnt = τ.cnt from ((l.2 rfl ha).2).symm]
  unfold hostOp outcome
  rw [e]
  rfl

/-- A primitive that fails before anything happens (R11, R324). -/
theorem primOp_raises {m : M Res} {s : State} {x : Cause} (h : m s = .error (.raise x) s) :
    primOp m s = .next (s.ended (Res.fail x) s.env.delays) := by
  unfold primOp outcome
  rw [h]
  rfl

/-- A run as the dispatcher starts it, of an operation that succeeds (R142, R153). -/
theorem goes_runOp {op : RunOp} {s t : State} {r : Res} (h1 : s.wdArmed = false) (h2 : s.env.ie = true)
    (hm : ∀ j, Goes k j (runBody op) (s.started Config.wdDefaultMs) r t) (hc : r.count ≠ 0)
    (hn : r.cause ≠ some .timeout) : Goes false Config.wdDefaultMs.toNat (runOp op) s r t.disarm :=
  goes_runWith (fb := runFallback op) h1 h2 (Nat.le_refl _) (hm _) (.inl hc) hn

/-- The host operations that are a run of their body (R153). -/
theorem exec_hostRun {i : Instr} {op : RunOp} {scope : HostScope} {cmd : Byte} {q : Payload} {s : State}
    (hi : hostRun s.cfg.scopes.tpiCodes i = some (op, scope, cmd, q)) (ha : scope = .avr → s.arch = i.archOf) :
    exec i s = hostOp scope cmd q (runOp op) s := by
  cases i
  case updiEnterProgmode => cases hi; exact avrOp_eq (ha rfl)
  case updiLeaveProgmode => cases hi; exact avrOp_eq (ha rfl)
  case updiEraseMemory => cases hi; exact avrOp_eq (ha rfl)
  case updiReadMemory => cases hi; exact avrOp_eq (ha rfl)
  case updiWriteMemory => cases hi; exact avrOp_eq (ha rfl)
  case pdiSignOn => cases hi; exact avrOp_eq (ha rfl)
  case pdiEnterProgmode => cases hi; exact avrOp_eq (ha rfl)
  case pdiLeaveProgmode => cases hi; exact avrOp_eq (ha rfl)
  case pdiEraseMemory => cases hi; exact avrOp_eq (ha rfl)
  case pdiReadMemory => cases hi; exact avrOp_eq (ha rfl)
  case pdiWriteMemory => cases hi; exact avrOp_eq (ha rfl)
  case tpiEnterProgmode => cases hi; rfl
  case tpiErase => cases hi; rfl
  case tpiWriteMem => cases hi; rfl
  case tpiReadMem => cases hi; rfl
  all_goals cases hi

/-! ## The parameter commands (R109) -/

theorem goes_setArch {s : State} {v : Byte} (hl : s.sess.link = false) :
    Goes k n (setParameter (.arch v)) s (Res.ok 1) { s with arch := decodeArch s.cfg v } := by
  unfold setParameter
  refine goes_get ?_
  show Goes k n (require (!s.sess.link) >>= fun _ =>
    upd (fun s => { s with arch := decodeArch s.cfg v }) >>= fun _ => pure (Res.ok 1)) _ _ _
  refine goes_require (by simp [hl]) (goes_upd_bind (plain_of (fun _ _ => rfl) (fun _ => rfl) (fun _ => rfl)
    fun _ => rfl) fun τ => ?_)
  rw [State.write_quiet rfl]
  exact goes_pure.upto τ rfl

theorem goes_setDesc {s : State} {d : DevDesc} :
    Goes k n (setParameter (.deviceDesc d)) s (Res.ok 1) { s with dd := ⟨true, d⟩ } := by
  unfold setParameter
  refine goes_get ?_
  show Goes k n (upd (fun s => { s with dd := ⟨true, d⟩ }) >>= fun _ => pure (Res.ok 1)) _ _ _
  refine goes_upd_bind (plain_of (fun _ _ => rfl) (fun _ => rfl) (fun _ => rfl) fun _ => rfl) fun τ => ?_
  rw [State.write_quiet rfl]
  exact goes_pure.upto τ rfl

/-! ## A connect's start inside a run -/

/-- Two changes of registers that can be made in either order. -/
def Swaps (g f : State → State) : Prop := ∀ s, f (g s) = g (f s)

/-- A change that neither the reset line nor the history shows. -/
structure Hidden (g : State → State) : Prop where
  trst : ∀ s : State, (g s).trst = s.trst
  hist : ∀ (s : State) (e : WireEvent), { g s with hist := e :: (g s).hist } = g { s with hist := e :: s.hist }

theorem swaps_write {f g : State → State} (hg : Hidden g) (h : Swaps g f) : Swaps g (State.write f) := by
  intro s
  unfold State.write State.noteTrst
  rw [h s, hg.trst, hg.trst]
  split
  · rfl
  · exact hg.hist (f s) _

theorem hidden_started (d : Half) : Hidden (State.started d) := ⟨fun _ => rfl, fun _ _ => rfl⟩

theorem hidden_ran (d : Half) : Hidden (State.ran d) := ⟨fun _ => rfl, fun _ _ => rfl⟩

theorem started_quiesce (d : Half) : Swaps (State.started d) State.quiesce := fun _ => rfl

theorem ran_quiesce (d : Half) : Swaps (State.ran d) State.quiesce := fun _ => rfl

theorem swaps_acquire {g : State → State} (e : Engine) (hq : Swaps g State.quiesce) (hm : ∀ s, (g s).umode = s.umode)
    (hs : ∀ (s : State) (m : Umode), { g s with umode := m } = g { s with umode := m }) :
    Swaps g (State.acquire e) := by
  intro s
  unfold State.acquire
  rw [hm]
  split
  · rw [hq s]
    exact hs _ _
  · exact hs _ _

/-- The connect column of R46 but for `SESS`, `CT` and `CLK`. -/
def State.connectDropped (e : Engine) (s : State) : State :=
  { s with
    sib := { s.sib with valid := false }
    beforePage := none
    dd := { s.dd with valid := s.dd.valid && !s.cfg.ddClearOnSignOn }
    rxf := RxFlags.clear
    trstEng := connectTrst e s.trstEng
    tpiChunk := .two }

/-- The second write of a connect's start. -/
def State.connectDrop (e : Engine) (s : State) : State := connectRate e (s.connectDropped e)

theorem swaps_setClk {g : State → State} (hg : Hidden g) (hc : ∀ s, (g s).clk = s.clk)
    (hs : ∀ (s : State) (v : Nat), { g s with clk := v } = g { s with clk := v }) (c : Nat) :
    Swaps g (State.setClk c) := by
  intro s
  unfold State.setClk
  rw [hc s]
  split
  · rfl
  · exact (congrArg (fun u : State => { u with hist := .rateSet c :: u.hist }) (hs s c)).trans
      (hg.hist { s with clk := c } (.rateSet c))

theorem swaps_connectRate {g : State → State} (e : Engine) (hg : Hidden g) (hc : ∀ s, (g s).clk = s.clk)
    (hf : ∀ s, (g s).cfg = s.cfg) (hs : ∀ (s : State) (v : Nat), { g s with clk := v } = g { s with clk := v }) :
    Swaps g (connectRate e) := by
  intro s
  cases e
  case updi =>
    show ({ g s with clk := (g s).cfg.clkCfgKhz } : State) = _
    rw [hf s]
    exact hs s _
  all_goals
    show State.setClk (g s).cfg.clkCfgKhz (g s) = g (State.setClk s.cfg.clkCfgKhz s)
    rw [hf s]
    exact swaps_setClk hg hc hs _ s

theorem started_connectDrop (e : Engine) (d : Half) : Swaps (State.started d) (State.connectDrop e) := fun s =>
  swaps_connectRate e (hidden_started d) (fun _ => rfl) (fun _ => rfl) (fun _ _ => rfl) (s.connectDropped e)

theorem ran_connectDrop (e : Engine) (d : Half) : Swaps (State.ran d) (State.connectDrop e) := fun s =>
  swaps_connectRate e (hidden_ran d) (fun _ => rfl) (fun _ => rfl) (fun _ _ => rfl) (s.connectDropped e)

theorem swaps_connectStart {g : State → State} (e : Engine) (hg : Hidden g) (h : Swaps g (State.acquire e))
    (h1 : Swaps g fun s => { s with sess := Sess.zero, ct := .stub }) (h2 : Swaps g (State.connectDrop e))
    (h3 : Swaps g fun s => { s with trstBtn := false }) : Swaps g (State.connectStart e) := by
  intro s
  have e1 : ∀ s : State, s.connectStart e = (((s.write fun s => { s with sess := Sess.zero, ct := .stub }).write
    (State.connectDrop e)).write (State.acquire e)).write fun s => { s with trstBtn := false } := fun _ => rfl
  rw [e1, e1, swaps_write hg h1 s, swaps_write hg h2, swaps_write hg h, swaps_write hg h3]

/-- A connect's start does not see that a run has started (R141). -/
theorem connectStart_started (e : Engine) (d : Half) (s : State) :
    (s.started d).connectStart e = (s.connectStart e).started d :=
  swaps_connectStart e (hidden_started d) (swaps_acquire e (started_quiesce d) (fun _ => rfl) fun _ _ => rfl)
    (fun _ => rfl) (started_connectDrop e d) (fun _ => rfl) s

/-- Nor what a run leaves in the supervisor's registers (R142). -/
theorem connectStart_ran (e : Engine) (d : Half) (s : State) : (s.ran d).connectStart e = (s.connectStart e).ran d :=
  swaps_connectStart e (hidden_ran d) (swaps_acquire e (ran_quiesce d) (fun _ => rfl) fun _ _ => rfl)
    (fun _ => rfl) (ran_connectDrop e d) (fun _ => rfl) s

/-- The same for the start of TPI's connect. -/
theorem tpiConnectStart_started (d : Half) (s : State) : (s.started d).tpiConnectStart = s.tpiConnectStart.started d := by
  unfold State.tpiConnectStart
  rw [connectStart_started, swaps_write (hidden_started d) (f := fun s => { s with trstEng := true }) fun _ => rfl]

theorem tpiConnectStart_ran (d : Half) (s : State) : (s.ran d).tpiConnectStart = s.tpiConnectStart.ran d := by
  unfold State.tpiConnectStart
  rw [connectStart_ran, swaps_write (hidden_ran d) (f := fun s => { s with trstEng := true }) fun _ => rfl]

end Sys2Proof.Machine
end

