-- ==== Sys2Proof/Laws/Failures.lean ====
section
/-! SUPPORT. Pieces of an operation that fail after an exchange: `Breaks e P m ms f x` says that from every state of which
`P` holds, the piece is the exchange `ms` with the change of registers `f`, and then fails with the cause `x` (R320). -/

namespace Sys2Proof.Machine

/-- The piece makes an exchange of the engine and a change of registers, then fails. -/
def Breaks {α : Type} (e : Engine) (P : State → Prop) (m : M α) (ms : List Move) (f : State → State) (x : Cause) :
    Prop :=
  ∀ k n s rest, s.umode = engineMode e → P s → s.hears e ms rest → Fails k n m s x (f (s.moved e ms rest))

section
variable {α β : Type} {e : Engine} {c : Params} {P : State → Prop} {m : M α} {k : α → M β} {ms m1 m2 : List Move}
  {f g : State → State} {a : α} {x : Cause}

/-- An exchange and a change of registers, then a piece that fails. -/
theorem breaks_bind (h1 : Acts e P m m1 f a) (h2 : Breaks e P (k a) m2 g x) (hf : Effect e f) (hg : Effect e g)
    (hS : Steady e P) (hP : ∀ s, P s → P (f s)) : Breaks e P (m >>= k) (m1 ++ m2) (fun s => g (f s)) x := by
  intro w n s rest hu hp hl
  obtain ⟨hl1, _⟩ := State.hears_moved hl
  refine fails_bind (h1 w n s _ hu hp hl1) fun τ => ?_
  have hq : P ((f (s.moved e m1 (lineOf e m2 ++ rest))).stamp τ) := by
    apply hS.stamp
    rw [hf.moved]
    exact hS.moved _ _ _ (hP s hp)
  have hu' : ((f (s.moved e m1 (lineOf e m2 ++ rest))).stamp τ).umode = engineMode e := (hf.umode _).trans hu
  have hl' : ((f (s.moved e m1 (lineOf e m2 ++ rest))).stamp τ).hears e m2 rest := by
    unfold State.hears
    show (f (s.moved e m1 (lineOf e m2 ++ rest))).env.line = _
    rw [hf.env]
    rfl
  refine fails_stamp_of (h2 w n _ rest hu' hq hl') τ ?_
  rw [show ((f (s.moved e m1 (lineOf e m2 ++ rest))).stamp τ).moved e m2 rest =
      ((f (s.moved e m1 (lineOf e m2 ++ rest))).moved e m2 rest).stamp τ from rfl, ← hf.moved, State.moved_moved,
    hg.stamp]

/-- An exchange, then a piece that fails. -/
theorem breaks_plays_bind (hP : ∀ s, P s → s.cfg = c) (hS : Steady e P) (h1 : Plays e c m m1 a)
    (h2 : Breaks e P (k a) m2 g x) (hg : Effect e g) : Breaks e P (m >>= k) (m1 ++ m2) g x :=
  breaks_bind (acts_plays hP h1) h2 (effect_id e) hg hS fun _ h => h

theorem breaks_phase_bind {p : Nat} {k : Unit → M β} (hS : Steady e P) (h2 : Breaks e P (k ()) ms g x)
    (hg : Effect e g) : Breaks e P (phase p >>= k) ms g x :=
  breaks_bind (m1 := []) acts_phase h2 (effect_id e) hg hS fun _ h => h

theorem breaks_get {k : State → M β} (h : ∀ s : State, P s → s.umode = engineMode e → Breaks e P (k s) ms f x) :
    Breaks e P (get >>= k) ms f x := fun w n s rest hu hp hl => fails_get (h s hp hu w n s rest hu hp hl)

theorem breaks_require {p : Bool} {k : Unit → M β} (hp : p = true) (h : Breaks e P (k ()) ms f x) :
    Breaks e P (require p >>= k) ms f x := fun w n s rest hu hP hl => fails_require_pass hp (h w n s rest hu hP hl)

/-- The first piece fails, whatever follows. -/
theorem breaks_left (h : Breaks e P m ms f x) : Breaks e P (m >>= k) ms f x := fun w n s rest hu hp hl =>
  fails_bind_left (h w n s rest hu hp hl)

/-- A piece that fails at once. -/
theorem breaks_now (h : ∀ (w : Bool) (n : Nat) (s : State), P s → Fails w n m s x s) :
    Breaks e P m [] (fun s => s) x := by
  intro w n s rest _ hp hl
  have : rest = s.env.line := by simpa [State.hears] using hl.symm
  rw [this, State.moved_nil]
  exact h w n s hp

theorem breaks_raise : Breaks e P (raise x : M α) [] (fun s => s) x := breaks_now fun _ _ _ _ => fails_raise

end

/-! ## A wire that another engine holds (R311; log 12) -/

section
variable {α β : Type} {w : Bool} {n : Nat} {e : Engine} {s : State}

theorem fails_owner {k : Unit → M β} (h : s.umode ≠ engineMode e) : Fails w n (requireOwner e >>= k) s .status s := by
  refine fails_bind_left fun hw => ?_
  rcases requireOwner_cases e s with ⟨hu, _⟩ | ⟨_, e1⟩
  · exact absurd hu h
  · exact ⟨s.time, e1, lasts_refl hw⟩

theorem fails_sendByte (b : Byte) (h : s.umode ≠ engineMode e) : Fails w n (sendByte e b) s .status s := by
  cases e
  · exact fails_bind_left (fails_owner h)
  · exact fails_owner h
  · exact fails_owner h

/-- Nothing but an empty send goes out on another engine's UART. -/
theorem fails_send {bs : List Byte} (hb : bs ≠ []) (h : s.umode ≠ engineMode e) : Fails w n (send e bs) s .status s := by
  cases bs with
  | nil => exact absurd rfl hb
  | cons b bs => exact fails_bind_left (fails_sendByte b h)

theorem fails_stcs (r : RegIx) (v : Byte) (h : s.umode ≠ engineMode e) : Fails w n (stcs e r v) s .status s :=
  fails_get (fails_send (by simp) h)

/-- `TPI.ENTER_PROGMODE` with another engine's link does not connect, and its key does not go out (R223, R311). -/
theorem fails_tpiEnter_elsewhere (hp : s.sess.prog = false) (hl : s.sess.link = true) (hu : s.umode ≠ .tpi) :
    Fails w n tpiEnter s .status s := by
  intro hw
  rw [tpiEnter_eq hp, if_pos hl]
  have key : ∀ t : State, t.umode = s.umode → t.cfg = s.cfg → Fails w n (sendSyncKey .tpi) t .status t :=
    fun t h1 _ => fails_get (fails_send (syncKeyBytes_ne_nil t.cfg) (h1 ▸ hu))
  refine (fails_bind goes_phase fun τ1 => ?_ : Fails w n _ s .status s) hw
  refine fails_stamp_of (fails_bind goes_phase fun τ2 => ?_) τ1 rfl
  exact fails_stamp_of (fails_bind_left (key _ rfl rfl)) τ2 rfl

/-- A script that begins with a register write does not begin on another engine's UART. -/
theorem fails_runScript {r : RegIx} {v : Byte} {more : Script} (h : s.umode ≠ engineMode e) :
    Fails w n (runScript e (.stcs r v :: more)) s .status s :=
  fails_bind_left (fails_bind_left (fails_stcs r v h))

end

/-! ## Runs of an operation that fails -/

/-- A failure as the result it is for the supervisor (R142, R148, R320). -/
def caught (m : M Res) : M Res := fun s =>
  match m s with
  | .error (.raise x) s' => .ok (Res.fail x) s'
  | r => r

theorem goes_caught {k : Bool} {n : Nat} {m : M Res} {s t : State} {x : Cause} (h : Fails k n m s x t) :
    Goes k n (caught m) s (Res.fail x) t := by
  intro hw
  obtain ⟨τ, e, l⟩ := h hw
  refine ⟨τ, ?_, l⟩
  unfold caught
  rw [e]

/-- The loop of a run does not tell a failure from the result it stands for. -/
theorem runLoop_caught (m : M Res) (fb : FallbackSel) : ∀ n, runLoop (caught m) fb n = runLoop m fb n
  | 0 => rfl
  | n + 1 => by
    funext s
    unfold runLoop
    rw [runLoop_caught m fb n]
    show (match (match m s.arm with
        | .error (.raise x) s' => EStateM.Result.ok (Res.fail x) s'
        | r => r) with
      | .ok r s' => _
      | .error (.raise c) s' => _
      | .error .expired s' => _
      | .error .stuck s' => _
      | .error (.refused r) s' => _) = _
    cases m s.arm with
    | ok r t => rfl
    | error e t =>
      cases e with
      | raise x => simp [Res.fail]
      | expired => rfl
      | stuck => rfl
      | refused r => rfl

theorem supervise_caught (m : M Res) (fb : FallbackSel) (d : Half) : supervise (caught m) fb d = supervise m fb d := by
  funext s
  unfold supervise
  rw [runLoop_caught]

/-- A run whose operation fails before the expiry, where failures are not retried (R142, R143). -/
theorem goes_runWith_fails {op : RunOp} {fb : FallbackSel} {deadline : Half} {s t : State} {x : Cause} {k : Bool}
    {n : Nat} (h1 : s.wdArmed = false) (h2 : s.env.ie = true) (hn : n ≤ deadline.toNat)
    (hm : Fails k n (runBody op) (s.started deadline) x t) (hc : t.cfg.retryOnFailure = false) (hx : x ≠ .timeout) :
    Goes false n (runWith op fb deadline) s (Res.fail x) t.disarm := by
  unfold runWith
  rw [← supervise_caught]
  refine goes_bind (goes_supervise h1 h2 hn (goes_caught hm) (.inr hc)) fun τ => ?_
  rw [if_neg (by simp [Res.fail, hx])]
  exact (goes_stamp τ).1 goes_pure

/-- A host operation whose run fails before the expiry (R142, R143, R153). -/
theorem hostRun_fails {scope : HostScope} {cmd : Byte} {p : Payload} {op : RunOp} {s t : State} {x : Cause} {k : Bool}
    (hr : s.ready Config.wdDefaultMs.toNat)
    (hm : ∀ n, Fails k n (runBody op) ((s.withRequest scope cmd p).started Config.wdDefaultMs) x t)
    (hc : t.cfg.retryOnFailure = false) (hx : x ≠ .timeout) :
    ∃ cnt ds, hostOp scope cmd p (runOp op) s = .next (t.disarm.answered (Res.fail x) cnt ds) := by
  obtain ⟨cnt, ds, h, _⟩ := hostOp_goes (scope := scope) (cmd := cmd) (p := p) (m := runOp op) (k := false)
    (State.within_of_ready hr) hr.1 (goes_runWith_fails (fb := runFallback op) (s := s.withRequest scope cmd p) hr.1
      hr.2.1 (Nat.le_refl _) (hm _) hc hx)
  exact ⟨cnt, ds, h⟩

/-! ## UPDI -/

section
variable {c : Params} {v : Variant} {r : VariantRec} {w : PtrWidth} {a : Addr} {d : List Byte} {m2 m3 : List Move}
  {r3 : List Byte} {b : Byte}

/-- A block that its bounds forbid fails before its first frame (R76, R188). -/
theorem fails_sendBytesBlock {k : Bool} {n : Nat} {s : State} (h : ¬ blockOk s.cfg w a d.length) :
    Fails k n (sendBytesBlock w a d) s .precond s := by
  unfold sendBytesBlock
  refine fails_get (fails_bind_left ?_)
  unfold blockHeader
  refine fails_get ?_
  by_cases h1 : (decide (1 ≤ d.length) && decide (d.length ≤ s.cfg.blockMaxUnits)) = true
  · refine fails_require_pass h1 (fails_require ?_)
    simp only [Bool.and_eq_true, decide_eq_true_eq] at h1
    cases hp : ptrFits w a
    · rfl
    · exact absurd ⟨h1.1, h1.2, hp⟩ h
  · exact fails_require (by simpa using h1)

/-- The USERROW ceremony whose block is impossible fails at that block (R188, R197; log 19). -/
theorem breaks_userrow (hn : d.length ≤ c.blockMaxUnits) (hb : ¬ blockOk c (ptrWidth c v) a d.length)
    (h2 : keyPollRuns c c.updi.keystUrow m2) (h3 : scriptRuns c .updi c.updi.urowProceedSeq m3 r3) :
    Breaks .updi (fun s => IsBound c v s ∧ s.sess.link = true) (userrowCeremony a d)
      (outs (keyBytes c .urow) ++ (m2 ++ m3)) (fun s => s) .precond := by
  have st : Steady .updi (fun s => IsBound c v s ∧ s.sess.link = true) := ⟨fun _ _ _ h => h, fun _ _ h => h⟩
  have hc : ∀ s : State, IsBound c v s ∧ s.sess.link = true → s.cfg = c := fun _ h => h.1.1
  have ef := effect_id .updi
  unfold userrowCeremony
  refine breaks_get fun s hs _ => breaks_require hs.2 (breaks_require (by simp [hs.1.1, hn]) ?_)
  rw [show boundWidth s = ptrWidth c v from by unfold boundWidth; rw [hs.1.1, hs.1.2], hs.1.1]
  refine breaks_phase_bind st (breaks_plays_bind hc st (plays_sendKey c .urow) ?_ ef) ef
  refine breaks_phase_bind st (breaks_plays_bind hc st (plays_pollKey h2) ?_ ef) ef
  rw [← List.append_nil m3]
  refine breaks_phase_bind st (breaks_plays_bind hc st (plays_runScript h3) ?_ ef) ef
  exact breaks_phase_bind st (breaks_left (breaks_now fun _ _ s hs => fails_sendBytesBlock (by rw [hs.1.1]; exact hb)))
    ef

/-- `INIT_FAIL` set. -/
def State.setInitFail (s : State) : State := { s with sess := { s.sess with initFail := true } }

theorem effect_setInitFail (e : Engine) : Effect e State.setInitFail := by constructor <;> intros <;> rfl

/-- Steps 1 to 4 of ENTER_PROGMODE (R186). -/
def unlockOpenMoves (c : Params) (m2 m3 : List Move) (b : Byte) : List Move :=
  outs (keyBytes c .prog) ++ (m2 ++ (m3 ++ ldcsMoves c .updi c.updi.rSysSt b))

/-- ENTER_PROGMODE of a target whose lock fuse is set fails after step 4 (R186). -/
theorem breaks_updiUnlock_locked (h2 : keyPollRuns c c.updi.keystProg m2)
    (h3 : scriptRuns c .updi c.updi.applyKeySeq m3 r3) (hb : b &&& c.updi.sysstLock ≠ 0) :
    Breaks .updi (IsBound c v) updiUnlock (unlockOpenMoves c m2 m3 b) (fun s => s) .status := by
  have st := steady_isBound .updi c v
  have hc : ∀ s, IsBound c v s → s.cfg = c := fun _ h => h.1
  have ef := effect_id .updi
  unfold updiUnlock unlockOpenMoves
  refine breaks_get fun s hs _ => ?_
  rw [hs.1, hs.2]
  refine breaks_phase_bind st (breaks_plays_bind hc st (plays_sendKey c .prog) ?_ ef) ef
  refine breaks_phase_bind st (breaks_plays_bind hc st (plays_pollKey h2) ?_ ef) ef
  refine breaks_phase_bind st (breaks_plays_bind hc st (plays_runScript h3) ?_ ef) ef
  rw [← List.append_nil (ldcsMoves c .updi c.updi.rSysSt b)]
  refine breaks_phase_bind st (breaks_plays_bind hc st (plays_ldcs .updi c _ b) ?_ ef) ef
  rw [if_pos (by simpa using hb)]
  exact breaks_left breaks_raise

/-- ENTER_PROGMODE whose variant cannot be initialised sets `INIT_FAIL` and fails (R186, R283). -/
theorem breaks_updiUnlock_init {m5 : List Move} (h2 : keyPollRuns c c.updi.keystProg m2)
    (h3 : scriptRuns c .updi c.updi.applyKeySeq m3 r3) (hb : b &&& c.updi.sysstLock = 0)
    (h5 : Acts .updi (IsBound c v) (progInit v) m5 (fun s => s) 0) :
    Breaks .updi (IsBound c v) updiUnlock (unlockOpenMoves c m2 m3 b ++ m5) State.setInitFail .status := by
  have st := steady_isBound .updi c v
  have hc : ∀ s, IsBound c v s → s.cfg = c := fun _ h => h.1
  have ef := effect_setInitFail .updi
  unfold updiUnlock unlockOpenMoves
  simp only [List.append_assoc]
  refine breaks_get fun s hs _ => ?_
  rw [hs.1, hs.2]
  refine breaks_phase_bind st (breaks_plays_bind hc st (plays_sendKey c .prog) ?_ ef) ef
  refine breaks_phase_bind st (breaks_plays_bind hc st (plays_pollKey h2) ?_ ef) ef
  refine breaks_phase_bind st (breaks_plays_bind hc st (plays_runScript h3) ?_ ef) ef
  refine breaks_phase_bind st (breaks_plays_bind hc st (plays_ldcs .updi c _ b) ?_ ef) ef
  rw [if_neg (by simp [hb]), ← List.append_nil m5]
  refine breaks_phase_bind st (breaks_bind h5 ?_ (effect_id _) ef st fun _ h => h) ef
  rw [if_pos rfl]
  exact breaks_bind (m1 := []) (f := State.setInitFail) (g := fun s => s) (acts_upd ef fun _ _ => rfl)
    (breaks_left breaks_raise) ef (effect_id _) st fun _ h => h

/-- `prog_init` of a variant without a record answers 0 and does nothing (R272, R283). -/
theorem acts_progInit_stub (hv : variantRec c v = none) : Acts .updi (IsBound c v) (progInit v) [] (fun s => s) 0 := by
  intro k n s rest _ hp hl
  have : rest = s.env.line := by simpa [State.hears] using hl.symm
  rw [this, State.moved_nil]
  refine goes_congr (m' := pure 0) ?_ goes_pure
  unfold progInit
  rw [hp.1, hv]
  rfl

/-- `nvm_wait` that finds the error bit (R270). -/
theorem breaks_nvmWait {busy : List Byte} (hb : blockOk c w r.nvmStatus 1) (hu : ∀ y ∈ busy, y &&& r.busyMask ≠ 0)
    (hv : b &&& r.busyMask = 0) (he : b &&& r.errMask ≠ 0) :
    Breaks .updi (IsBound c v) (nvmWait r w) (pollMoves (fun y => recvBytesMoves c w r.nvmStatus [y]) busy b)
      (fun s => s) .status := by
  unfold nvmWait
  rw [← List.append_nil (pollMoves _ _ _)]
  refine breaks_plays_bind (fun _ h => h.1) (steady_isBound .updi c v) (plays_pollUntil
    (mv := fun x => recvBytesMoves c w r.nvmStatus [x])
    (fun x => ?_) (fun x => recvBytesMoves_into_pos x _) (fun x hx => ?_) ?_) ?_ (effect_id _)
  · unfold nvmStatus
    exact plays_bind_nil (plays_recvBytesBlock (d := [x]) hb) plays_pure
  · simpa using hu x hx
  · simpa using hv
  · rw [if_pos (by simpa using he)]
    exact breaks_raise

/-- `prog_init` whose script breaks off answers 0 (R283). -/
theorem acts_progInit_breaks {ms : List Move} {x : Cause} (hv : variantRec c v = some r)
    (h : Breaks .updi (IsBound c v) (runNvm r (ptrWidth c v) 0 0 r.initScript) ms (fun s => s) x) :
    Acts .updi (IsBound c v) (progInit v) ms (fun s => s) 0 := by
  intro k n s rest hu hp hl hw
  obtain ⟨τ, e, l⟩ := h k n s rest hu hp hl hw
  refine ⟨τ, ?_, l⟩
  unfold progInit
  rw [hp.1, hv]
  show (match runNvm r (ptrWidth c v) 0 0 r.initScript s with
    | .ok _ s' => EStateM.Result.ok 1 s'
    | .error (.raise _) s' => .ok 0 s'
    | .error e s' => .error e s') = _
  rw [e]

end

end Sys2Proof.Machine
end

