-- ==== Sys2Proof/Laws/Keeps.lean ====
section
/-! SUPPORT. What the pieces of an operation keep, however they end. `At R s m` says that from `s` the piece ends in a
state that stands in the relation `R` to `s`, is cut by the expiry only with the countdown armed and interrupts enabled,
is stuck only without, and is never refused. `Quiet` is the relation of an exchange, `Stays` of an operation within a
session, `Joins` of an operation that may connect. -/

namespace Sys2Proof.Machine

/-! ## Endings -/

/-- Why a piece may stop: the expiry strikes only an armed countdown, with interrupts enabled; a wait is stuck only
without. -/
def mayStop (s : State) : Stop → Prop
  | .raise _ => True
  | .expired => s.wdArmed = true ∧ s.env.ie = true
  | .stuck => s.wdArmed = false ∨ s.env.ie = false
  | .refused _ => False

/-- How a piece may end. -/
def Ends {α : Type} (R : State → State → Prop) (s : State) : EStateM.Result Stop State α → Prop
  | .ok _ t => R s t
  | .error e t => R s t ∧ mayStop s e

/-- The piece ends so from this state. -/
def At {α : Type} (R : State → State → Prop) (s : State) (m : M α) : Prop := Ends R s (m s)

/-- A relation that composes, and keeps what the endings speak of. -/
structure Flows (R : State → State → Prop) : Prop where
  refl : ∀ s, R s s
  trans : ∀ {s t u}, R s t → R t u → R s u
  armed : ∀ {s t}, R s t → t.wdArmed = s.wdArmed
  ie : ∀ {s t}, R s t → t.env.ie = s.env.ie

section
variable {α β : Type} {R R' : State → State → Prop} {s t : State} {m : M α} {k : α → M β}

theorem Ends.mono {r : EStateM.Result Stop State α} (h : ∀ {a b}, R a b → R' a b) (hr : Ends R s r) : Ends R' s r := by
  cases r with
  | ok a t => exact h hr
  | error e t => exact ⟨h hr.1, hr.2⟩

theorem mayStop_back {e : Stop} (hR : Flows R) (h : R s t) (he : mayStop t e) : mayStop s e := by
  cases e with
  | raise c => trivial
  | expired => exact ⟨hR.armed h ▸ he.1, hR.ie h ▸ he.2⟩
  | stuck => exact he.imp (fun x => hR.armed h ▸ x) (fun x => hR.ie h ▸ x)
  | refused r => exact he

/-- What ends a piece begun later ends one begun before. -/
theorem ends_back {r : EStateM.Result Stop State α} (hR : Flows R) (h : R s t) (hr : Ends R t r) : Ends R s r := by
  cases r with
  | ok a u => exact hR.trans h hr
  | error x u => exact ⟨hR.trans h hr.1, mayStop_back hR h hr.2⟩

theorem At.mono (h : ∀ {a b}, R a b → R' a b) (hm : At R s m) : At R' s m := Ends.mono h hm

theorem at_pure (hR : Flows R) (a : α) : At R s (pure a : M α) := hR.refl s

theorem at_raise (hR : Flows R) (c : Cause) : At R s (raise c : M α) := ⟨hR.refl s, trivial⟩

/-- The rest of a piece may use that its first part ended with a value, and where. -/
theorem at_bind_of (hR : Flows R) (hm : At R s m) (hk : ∀ a t, m s = .ok a t → R s t → At R t (k a)) :
    At R s (m >>= k) := by
  unfold At at *
  rw [m_bind]
  cases hms : m s with
  | error e t => rw [hms] at hm; exact hm
  | ok a t =>
    rw [hms] at hm
    have h2 := hk a t hms hm
    show Ends R s (k a t)
    cases hka : k a t with
    | ok b u => rw [hka] at h2; exact hR.trans hm h2
    | error e u => rw [hka] at h2; exact ⟨hR.trans hm h2.1, mayStop_back hR hm h2.2⟩

theorem at_bind (hR : Flows R) (hm : At R s m) (hk : ∀ a t, R s t → At R t (k a)) : At R s (m >>= k) :=
  at_bind_of hR hm fun a t _ => hk a t

theorem at_get {k : State → M β} (h : At R s (k s)) : At R s (get >>= k) := h

theorem at_require {p : Bool} {k : Unit → M β} (hR : Flows R) (h : p = true → At R s (k ())) :
    At R s (require p >>= k) := by
  cases p
  · exact ⟨hR.refl s, trivial⟩
  · exact h rfl

theorem at_require_end {p : Bool} (hR : Flows R) : At R s (require p) := by
  cases p
  · exact ⟨hR.refl s, trivial⟩
  · exact hR.refl s

/-- A failure where a condition holds, then the rest. -/
theorem at_skip {p : Prop} [Decidable p] {c : Cause} {k : M β} (hR : Flows R) (hk : At R s k) :
    At R s (if p then (do let _ ← (raise c : M Unit); k) else k) := by
  split
  · exact at_bind_of hR (at_raise hR c) fun _ _ h _ => nomatch h
  · exact hk

/-- A piece where a condition holds, then the rest. -/
theorem at_when {p : Prop} [Decidable p] {x : M Unit} {k : Unit → M β} (hR : Flows R) (hx : p → At R s x)
    (hk : ∀ t, R s t → At R t (k ())) : At R s (if p then x >>= k else k ()) := by
  split
  · next h => exact at_bind hR (hx h) fun _ t ht => hk t ht
  · exact hk s (hR.refl s)

theorem at_ite {p : Prop} [Decidable p] {x y : M α} (h1 : p → At R s x) (h2 : ¬p → At R s y) :
    At R s (if p then x else y) := by
  split
  · next h => exact h1 h
  · next h => exact h2 h

end

/-! ## An exchange -/

/-- The state but for time, the phase, the line and what an exchange writes. -/
def State.bare (s : State) : State :=
  { s with
    wdCnt := 0, ph := 0, hist := [], rxf := RxFlags.clear, tclk := false, tdat := none
    env := { s.env with delays := [], line := [] } }

/-- What an exchange keeps. -/
structure Quiet (s t : State) : Prop where
  bare : t.bare = s.bare
  clock : s.clockOk → t.clockOk

theorem quiet_flows : Flows Quiet where
  refl _ := ⟨rfl, id⟩
  trans h1 h2 := ⟨h2.bare.trans h1.bare, h2.clock ∘ h1.clock⟩
  armed {s t} h := show t.bare.wdArmed = s.bare.wdArmed from congrArg State.wdArmed h.bare
  ie {s t} h := show t.bare.env.ie = s.bare.env.ie from congrArg (fun x => x.env.ie) h.bare

section
variable {s t : State} {α : Type}

theorem Quiet.umode (h : Quiet s t) : t.umode = s.umode :=
  show t.bare.umode = s.bare.umode from congrArg State.umode h.bare

theorem elapse_quiet (s : State) : Quiet s s.elapse := by
  unfold State.elapse
  split
  · exact quiet_flows.refl s
  · exact ⟨rfl, id⟩

theorem due_mayStop (h : s.expiryDue = true) : mayStop s .expired := by
  unfold State.expiryDue at h
  simp only [Bool.and_eq_true] at h
  exact h.1

theorem at_boundary : At Quiet s boundary := by
  unfold At
  rcases boundary_cases s with ⟨h, e⟩ | ⟨_, e⟩
  · rw [e]; exact ⟨elapse_quiet s, mayStop_back quiet_flows (elapse_quiet s) (due_mayStop h)⟩
  · rw [e]; exact elapse_quiet s

theorem at_blockedWait : At Quiet s (blockedWait : M α) := by
  unfold At
  rcases blockedWait_cases (α := α) s with ⟨h1, h2, e⟩ | ⟨h, e⟩
  · rw [e]; exact ⟨⟨rfl, id⟩, h1, h2⟩
  · rw [e]; exact ⟨quiet_flows.refl s, h⟩

theorem at_phase (n : Nat) : At Quiet s (phase n) := ⟨rfl, id⟩

theorem at_act (e : WireEvent) : At Quiet s (act e) :=
  at_bind quiet_flows at_boundary fun _ _ _ => ⟨rfl, id⟩

theorem at_drive (e : Engine) (ev : WireEvent) : At Quiet s (drive e ev) :=
  at_bind quiet_flows at_boundary fun _ _ _ => ⟨rfl, id⟩

theorem at_freeTdat : At Quiet s (modify State.freeTdat) := ⟨rfl, id⟩

theorem at_owner (e : Engine) {k : M α} (hk : s.umode = engineMode e → At Quiet s k) :
    At Quiet s (do requireOwner e; k) := by
  unfold At
  rw [m_bind]
  rcases requireOwner_cases e s with ⟨h, e1⟩ | ⟨_, e1⟩ <;> rw [e1]
  · exact hk h
  · exact ⟨quiet_flows.refl s, trivial⟩

theorem at_awaitFrame (mk : Byte → RxFlags → WireEvent) : At Quiet s (awaitFrame mk) := by
  unfold At
  rcases awaitFrame_cases mk s with ⟨f, rest, hl, h, e⟩ | ⟨f, rest, hl, e⟩ | ⟨rest, hl, e⟩ | ⟨hl, e⟩
  · rw [e]
    unfold State.expiresWaiting at h
    simp only [Bool.and_eq_true] at h
    exact ⟨elapse_quiet s, h.1⟩
  · rw [e]
    exact quiet_flows.trans (elapse_quiet s) ⟨rfl, id⟩
  · rw [e]
    have hq : Quiet s { s with env := { s.env with line := rest } } := ⟨rfl, id⟩
    exact ends_back quiet_flows hq at_blockedWait
  · rw [e]; exact at_blockedWait

theorem runTclk_clock (h : s.clockOk) : s.runTclk.clockOk := by
  rcases runTclk_cases s with ⟨e, _⟩ | ⟨hs, _, e⟩
  · rw [e]; exact h
  · intro _
    rw [State.runTclk_umode]
    cases hm : s.umode <;> simp [hm, Umode.isSync] at hs ⊢

theorem at_recvFrame (mk : Byte → RxFlags → WireEvent) : At Quiet s (recvFrame mk) := by
  have hq : Quiet s s.listen := ⟨rfl, runTclk_clock⟩
  unfold At
  rcases recvFrame_cases mk s with ⟨h, e⟩ | ⟨_, e⟩ <;> rw [e]
  · exact ⟨quiet_flows.refl s, due_mayStop h⟩
  · exact ends_back quiet_flows hq (at_awaitFrame mk)

/-- A step whose bits need `TCLK` is quiet where it is without it. -/
theorem at_clocked {f : State → State} (h : ∀ t : State, Quiet t.runTclk (f t)) : At Quiet s (regs f) :=
  at_bind quiet_flows at_boundary fun _ t _ =>
    quiet_flows.trans (t := t.runTclk) ⟨rfl, runTclk_clock⟩ (h t)

theorem at_sendFrame (e : Engine) (b : Byte) : At Quiet s (sendFrame e b) :=
  at_owner e fun _ => at_bind quiet_flows (at_clocked fun _ => ⟨rfl, id⟩) fun _ _ _ => at_freeTdat

theorem at_rx : At Quiet s rx :=
  at_bind quiet_flows (at_recvFrame _) fun a t _ => by
    exact at_skip quiet_flows (at_pure quiet_flows _)

theorem at_tx (b : Byte) : At Quiet s (tx b) :=
  at_bind quiet_flows (at_sendFrame _ _) fun _ _ _ => at_bind quiet_flows (at_recvFrame _) fun a t _ => by
    exact at_skip quiet_flows (at_ite (fun _ => at_raise quiet_flows _) fun _ => at_pure quiet_flows _)

theorem at_sendByte (e : Engine) (b : Byte) : At Quiet s (sendByte e b) := by
  cases e
  · exact at_tx b
  · exact at_sendFrame _ _
  · exact at_sendFrame _ _

theorem at_send (e : Engine) (bs : List Byte) : At Quiet s (send e bs) := by
  induction bs generalizing s with
  | nil => exact at_pure quiet_flows _
  | cons b bs ih => exact at_bind quiet_flows (at_sendByte e b) fun _ _ _ => ih

theorem at_recvN (n : Nat) : At Quiet s (recvN n) := by
  induction n generalizing s with
  | zero => exact at_pure quiet_flows _
  | succ n ih => exact at_bind quiet_flows at_rx fun _ _ _ => at_bind quiet_flows ih fun _ _ _ => at_pure quiet_flows _

theorem at_ldcs (e : Engine) (r : RegIx) : At Quiet s (ldcs e r) :=
  at_get (at_bind quiet_flows (at_send _ _) fun _ _ _ => at_rx)

theorem at_stcs (e : Engine) (r : RegIx) (v : Byte) : At Quiet s (stcs e r v) := at_get (at_send _ _)

theorem at_pollLoop {read : M Byte} (h : ∀ s, At Quiet s read) (ok : Byte → Bool) (n : Nat) :
    At Quiet s (pollLoop read ok n) := by
  induction n generalizing s with
  | zero => exact at_blockedWait
  | succ n ih =>
    exact at_bind quiet_flows (h s) fun v t _ => by
      cases hv : ok v
      · simpa [hv] using ih
      · simpa [hv] using at_pure (α := Byte) quiet_flows v

theorem at_pollUntil {read : M Byte} (h : ∀ s, At Quiet s read) (ok : Byte → Bool) : At Quiet s (pollUntil read ok) :=
  at_pollLoop h ok _

theorem at_attention (e : Engine) : At Quiet s (attention e) := by
  refine at_get ?_
  cases e
  · exact at_bind quiet_flows (at_drive _ _) fun _ _ _ => at_bind quiet_flows (at_drive _ _) fun _ _ _ => at_freeTdat
  · exact at_drive _ _
  · exact at_drive _ _

theorem at_lineConfig : At Quiet s lineConfig := at_get (at_act _)

theorem at_clocks (e : Engine) (n : Nat) : At Quiet s (clocks e n) := by
  have h : ∀ e, At Quiet s (do requireOwner e; regs fun s => s.runTclk.record (.clocks n)) := fun e =>
    at_owner e fun _ => at_clocked fun _ => ⟨rfl, id⟩
  cases e
  · exact at_pure quiet_flows _
  · exact h _
  · exact h _

theorem at_scriptStep (e : Engine) (st : ScriptStep) : At Quiet s (scriptStep e st) := by
  cases st with
  | tx bs => exact at_bind quiet_flows (at_send _ _) fun _ _ _ => at_pure quiet_flows _
  | rx n => exact at_bind quiet_flows (at_recvN _) fun _ _ _ => at_pure quiet_flows _
  | expect b =>
    exact at_bind quiet_flows at_rx fun _ _ _ => at_skip quiet_flows (at_pure quiet_flows _)
  | ldcs r => exact at_bind quiet_flows (at_ldcs _ _) fun _ _ _ => at_pure quiet_flows _
  | stcs r v => exact at_bind quiet_flows (at_stcs _ _ _) fun _ _ _ => at_pure quiet_flows _
  | poll r mask want =>
    exact at_bind quiet_flows (at_pollUntil (fun _ => at_ldcs _ _) _) fun _ _ _ => at_pure quiet_flows _
  | attn => exact at_bind quiet_flows (at_attention _) fun _ _ _ => at_pure quiet_flows _
  | clocks n => exact at_bind quiet_flows (at_clocks _ _) fun _ _ _ => at_pure quiet_flows _

theorem at_runSteps (e : Engine) (d : List Byte) (sc : Script) : At Quiet s (runSteps e d sc) := by
  induction sc generalizing s d with
  | nil => exact at_pure quiet_flows _
  | cons st rest ih => exact at_bind quiet_flows (at_scriptStep e st) fun _ _ _ => ih _

theorem at_runScript (e : Engine) (sc : Script) : At Quiet s (runScript e sc) := at_runSteps e [] sc

end

/-! ## The engines' exchanges -/

section
variable {s : State} {c : Cause} {r : VariantRec} {w : PtrWidth}

theorem at_instr (op : Byte) (args : List Byte) : At Quiet s (instr op args) := at_get (at_send _ _)

theorem at_sendKey (k : UpdiKey) : At Quiet s (sendKey k) := at_get (at_send _ _)

theorem at_handshake : At Quiet s handshake :=
  at_get (at_bind quiet_flows (at_runScript _ _) fun _ _ _ =>
    at_ite (fun _ => at_raise quiet_flows _) fun _ => at_pure quiet_flows _)

theorem at_setPtr (a : Addr) (ack : Bool) : At Quiet s (setPtr w a ack) :=
  at_get (at_bind quiet_flows (at_instr _ _) fun _ _ _ => at_ite
    (fun _ => at_bind quiet_flows at_rx fun _ _ _ => at_ite (fun _ => at_raise quiet_flows _) fun _ => at_pure quiet_flows _)
    fun _ => at_pure quiet_flows _)

theorem at_cssWrite (on : Bool) : At Quiet s (cssWrite on) := at_get (at_stcs _ _ _)

theorem at_blockHeader (a : Addr) (n : Nat) (op : Byte) (css : Bool) : At Quiet s (blockHeader w a n op css) := by
  refine at_get (at_require quiet_flows fun _ => at_require quiet_flows fun _ => ?_)
  refine at_when quiet_flows (fun _ => at_cssWrite _) fun _ _ => at_bind quiet_flows (at_setPtr _ _) fun _ _ _ => ?_
  exact at_when quiet_flows (fun _ => at_cssWrite _) fun _ _ => at_bind quiet_flows (at_instr _ _) fun _ _ _ => at_instr _ _

theorem at_recvBytesBlock (a : Addr) (n : Nat) : At Quiet s (recvBytesBlock w a n) :=
  at_get (at_bind quiet_flows (at_blockHeader _ _ _ _) fun _ _ _ => at_recvN _)

theorem at_recvWordsBlock (a : Addr) (n : Nat) : At Quiet s (recvWordsBlock w a n) :=
  at_get (at_bind quiet_flows (at_blockHeader _ _ _ _) fun _ _ _ => at_recvN _)

theorem at_sendBytesBlock (a : Addr) (d : List Byte) : At Quiet s (sendBytesBlock w a d) :=
  at_get (at_bind quiet_flows (at_blockHeader _ _ _ _) fun _ _ _ => at_bind quiet_flows (at_send _ _) fun _ _ _ =>
    at_cssWrite _)

theorem at_sendWordsBlock (a : Addr) (d : List Byte) : At Quiet s (sendWordsBlock w a d) :=
  at_get (at_require quiet_flows fun _ => at_bind quiet_flows (at_blockHeader _ _ _ _) fun _ _ _ =>
    at_bind quiet_flows (at_send _ _) fun _ _ _ => at_cssWrite _)

theorem at_nvmCmd (c : Byte) : At Quiet s (nvmCmd r w c) := at_sendBytesBlock _ _

theorem at_nvmStatus : At Quiet s (nvmStatus r w) :=
  at_bind quiet_flows (at_recvBytesBlock _ _) fun _ _ _ => at_pure quiet_flows _

theorem at_nvmWait : At Quiet s (nvmWait r w) :=
  at_bind quiet_flows (at_pollUntil (fun _ => at_nvmStatus) _) fun _ _ _ =>
    at_ite (fun _ => at_raise quiet_flows _) fun _ => at_pure quiet_flows _

theorem at_nvmStep (a : Addr) (b : Byte) (st : NvmStep) : At Quiet s (nvmStep r w a b st) := by
  cases st with
  | wait => exact at_nvmWait
  | cmd c => exact at_nvmCmd c
  | sendBytes p d => exact at_sendBytesBlock _ _
  | sendWords p d => exact at_sendWordsBlock _ _
  | recvBytes p n => exact at_bind quiet_flows (at_recvBytesBlock _ _) fun _ _ _ => at_pure quiet_flows _
  | recvWords p n => exact at_bind quiet_flows (at_recvWordsBlock _ _) fun _ _ _ => at_pure quiet_flows _

theorem at_runNvm (a : Addr) (b : Byte) (sc : NvmScript) : At Quiet s (runNvm r w a b sc) := by
  induction sc generalizing s with
  | nil => exact at_pure quiet_flows _
  | cons st rest ih => exact at_bind quiet_flows (at_nvmStep _ _ _) fun _ _ _ => ih

theorem at_transfer (a : Addr) (d : List Byte) : At Quiet s (transfer w a d) :=
  at_get (at_ite (fun _ => at_sendBytesBlock _ _) fun _ => at_ite (fun _ => at_sendWordsBlock _ _) fun _ =>
    at_raise quiet_flows _)

theorem at_readTransfer (a : Addr) (n : Nat) : At Quiet s (readTransfer w a n) :=
  at_get (at_ite (fun _ => at_recvBytesBlock _ _) fun _ => at_ite (fun _ => at_recvWordsBlock _ _) fun _ =>
    at_raise quiet_flows _)

theorem at_requireTransfer (a : Addr) (n : Nat) : At Quiet s (requireTransfer w a n) :=
  at_get (at_require_end quiet_flows)

theorem at_progInit (v : Variant) : At Quiet s (progInit v) := by
  unfold progInit At
  dsimp only
  split
  · next r _ =>
    have h : At Quiet s (runNvm r (ptrWidth s.cfg v) 0 0 r.initScript) := at_runNvm _ _ _
    unfold At at h
    revert h
    cases runNvm r (ptrWidth s.cfg v) 0 0 r.initScript s with
    | ok a t => exact fun h => h
    | error e t => cases e <;> exact fun h => by first | exact h.1 | exact h
  · exact quiet_flows.refl s

theorem at_pollKey (mask : Byte) : At Quiet s (pollKey mask) :=
  at_get (at_bind quiet_flows (at_pollUntil (fun _ => at_ldcs _ _) _) fun _ _ _ => at_pure quiet_flows _)

theorem at_tpiSetPtr (a : Addr) : At Quiet s (tpiSetPtr a) := at_get (at_send _ _)

theorem at_tpiLdInc : At Quiet s tpiLdInc := at_get (at_bind quiet_flows (at_send _ _) fun _ _ _ => at_rx)

theorem at_tpiStInc (b : Byte) : At Quiet s (tpiStInc b) := at_get (at_send _ _)

theorem at_tpiOut (io : IoIx) (v : Byte) : At Quiet s (tpiOut io v) := at_get (at_send _ _)

theorem at_tpiIn (io : IoIx) : At Quiet s (tpiIn io) := at_get (at_bind quiet_flows (at_send _ _) fun _ _ _ => at_rx)

theorem at_tpiLoads (n : Nat) : At Quiet s (tpiLoads n) := by
  induction n generalizing s with
  | zero => exact at_pure quiet_flows _
  | succ n ih =>
    exact at_bind quiet_flows at_tpiLdInc fun _ _ _ => at_bind quiet_flows ih fun _ _ _ => at_pure quiet_flows _

theorem at_tpiReadAt (a : Addr) (n : Nat) : At Quiet s (tpiReadAt a n) :=
  at_bind quiet_flows (at_tpiSetPtr _) fun _ _ _ => at_tpiLoads _

theorem at_tpiNvmWait : At Quiet s tpiNvmWait :=
  at_get (at_bind quiet_flows (at_pollUntil (fun _ => at_tpiIn _) _) fun _ _ _ => at_pure quiet_flows _)

theorem at_sendSyncKey (e : Engine) : At Quiet s (sendSyncKey e) := at_get (at_send _ _)

theorem at_tpiLeaveWire : At Quiet s tpiLeaveWire :=
  at_get (at_bind quiet_flows (at_stcs _ _ _) fun _ _ _ => at_pure quiet_flows _)

theorem at_tpiEraseAt (a : Addr) (c : Byte) : At Quiet s (tpiEraseAt a c) :=
  at_get (at_bind quiet_flows (at_tpiOut _ _) fun _ _ _ => at_bind quiet_flows (at_tpiSetPtr _) fun _ _ _ =>
    at_bind quiet_flows (at_tpiStInc _) fun _ _ _ => at_bind quiet_flows at_tpiNvmWait fun _ _ _ => at_tpiOut _ _)

theorem at_tpiStores (d : List Byte) : At Quiet s (tpiStores d) := by
  induction d generalizing s with
  | nil => exact at_pure quiet_flows _
  | cons b rest ih => exact at_bind quiet_flows (at_tpiStInc _) fun _ _ _ => ih

theorem at_tpiChunks (c n : Nat) (d : List Byte) : At Quiet s (tpiChunks c n d) := by
  induction n generalizing s d with
  | zero => exact at_pure quiet_flows _
  | succ n ih =>
    exact at_bind quiet_flows (at_tpiStores _) fun _ _ _ => at_bind quiet_flows at_tpiNvmWait fun _ _ _ => ih _

theorem at_pdiSts8 (a : Addr) (v : Byte) : At Quiet s (pdiSts8 a v) := at_get (at_send _ _)

theorem at_pdiLds8 (a : Addr) : At Quiet s (pdiLds8 a) :=
  at_get (at_bind quiet_flows (at_send _ _) fun _ _ _ => at_rx)

theorem at_pdiSetPtr (a : Addr) : At Quiet s (pdiSetPtr a) := at_get (at_send _ _)

theorem at_pdiRepeat (n : Byte) : At Quiet s (pdiRepeat n) := at_get (at_send _ _)

theorem at_requireUnits (n : Nat) : At Quiet s (requireUnits n) := at_get (at_require_end quiet_flows)

theorem at_pdiRecvBlock (a : Addr) (n : Nat) : At Quiet s (pdiRecvBlock a n) :=
  at_get (at_bind quiet_flows (at_requireUnits _) fun _ _ _ => at_bind quiet_flows (at_pdiSetPtr _) fun _ _ _ =>
    at_bind quiet_flows (at_pdiRepeat _) fun _ _ _ => at_bind quiet_flows (at_send _ _) fun _ _ _ => at_recvN _)

theorem at_pdiSendBlock (a : Addr) (d : List Byte) : At Quiet s (pdiSendBlock a d) :=
  at_get (at_bind quiet_flows (at_requireUnits _) fun _ _ _ => at_bind quiet_flows (at_pdiSetPtr _) fun _ _ _ =>
    at_bind quiet_flows (at_pdiRepeat _) fun _ _ _ => at_send _ _)

theorem at_pdiRecv (f : Nat) (a : Addr) (n : Nat) : At Quiet s (pdiRecv f a n) := by
  induction f generalizing s a n with
  | zero => exact at_pure quiet_flows _
  | succ f ih =>
    exact at_ite (fun _ => at_pure quiet_flows _) fun _ => at_get (at_bind quiet_flows (at_pdiRecvBlock _ _)
      fun _ _ _ => at_bind quiet_flows (ih _ _) fun _ _ _ => at_pure quiet_flows _)

theorem at_pdiSend (f : Nat) (a : Addr) (d : List Byte) : At Quiet s (pdiSend f a d) := by
  induction f generalizing s a d with
  | zero => exact at_pure quiet_flows _
  | succ f ih =>
    exact at_ite (fun _ => at_pure quiet_flows _) fun _ => at_get (at_bind quiet_flows (at_pdiSendBlock _ _)
      fun _ _ _ => ih _ _)

theorem at_pdiPollEnabled : At Quiet s pdiPollEnabled :=
  at_get (at_bind quiet_flows (at_pollUntil (fun _ => at_ldcs _ _) _) fun _ _ _ => at_pure quiet_flows _)

theorem at_pdiNvmWait : At Quiet s pdiNvmWait :=
  at_bind quiet_flows at_pdiPollEnabled fun _ _ _ => at_get
    (at_bind quiet_flows (at_pollUntil (fun _ => at_pdiLds8 _) _) fun _ _ _ => at_pure quiet_flows _)

theorem at_pdiCmd (c : Byte) : At Quiet s (pdiCmd c) := at_get (at_pdiSts8 _ _)

theorem at_pdiExecute : At Quiet s pdiExecute := at_get (at_pdiSts8 _ _)

theorem at_pdiPaged (k : MemKind) (cs : PdiPageCmds) (a : Addr) (d : List Byte) : At Quiet s (pdiPaged k cs a d) := by
  refine at_bind quiet_flows (at_phase _) fun _ _ _ => at_bind quiet_flows at_pdiNvmWait fun _ _ _ =>
    at_bind quiet_flows (at_pdiCmd _) fun _ _ _ => at_bind quiet_flows at_pdiExecute fun _ _ _ =>
    at_bind quiet_flows (at_phase _) fun _ _ _ => at_bind quiet_flows at_pdiNvmWait fun _ _ _ =>
    at_bind quiet_flows (at_pdiCmd _) fun _ _ _ => at_bind quiet_flows (at_pdiSend _ _ _) fun _ _ _ =>
    at_bind quiet_flows (at_phase _) fun _ _ _ => ?_
  have hk : ∀ t, At Quiet t (do
      pdiCmd cs.writePage
      pdiSts8 a 0x00
      phase 4
      pdiNvmWait
      pure (Res.ok d.length)) := fun _ =>
    at_bind quiet_flows (at_pdiCmd _) fun _ _ _ => at_bind quiet_flows (at_pdiSts8 _ _) fun _ _ _ =>
      at_bind quiet_flows (at_phase _) fun _ _ _ => at_bind quiet_flows at_pdiNvmWait fun _ _ _ =>
      at_pure quiet_flows _
  exact at_ite (fun _ => at_get (at_bind quiet_flows (at_pdiCmd _) fun _ _ _ =>
    at_bind quiet_flows (at_pdiSts8 _ _) fun _ _ _ => at_bind quiet_flows at_pdiNvmWait fun _ _ _ => hk _))
    fun _ => hk _

theorem at_pdiBytes (c : Byte) (a : Addr) (d : List Byte) : At Quiet s (pdiBytes c a d) := by
  induction d generalizing s a with
  | nil => exact at_pure quiet_flows _
  | cons b rest ih =>
    exact at_bind quiet_flows at_pdiNvmWait fun _ _ _ => at_bind quiet_flows (at_pdiCmd _) fun _ _ _ =>
      at_bind quiet_flows (at_pdiSts8 _ _) fun _ _ _ => ih _

theorem at_pdiNvmWrite (k : MemKind) (a : Addr) (d : List Byte) : At Quiet s (pdiNvmWrite k a d) := by
  refine at_get ?_
  split
  · exact at_pdiPaged _ _ _ _
  · split
    · exact at_bind quiet_flows (at_pdiBytes _ _ _) fun _ _ _ => at_bind quiet_flows at_pdiNvmWait fun _ _ _ =>
        at_pure quiet_flows _
    · exact at_raise quiet_flows _

theorem at_pdiSignOffWire : At Quiet s pdiSignOffWire :=
  at_get (at_ite (fun _ => at_bind quiet_flows (at_runScript _ _) fun _ _ _ => at_pure quiet_flows _)
    fun _ => at_pure quiet_flows _)

theorem at_updiSignOffWire : At Quiet s updiSignOffWire :=
  at_get (at_ite
    (fun _ => at_bind quiet_flows (at_runScript _ _) fun _ _ _ => at_bind quiet_flows (at_runScript _ _) fun _ _ _ =>
      at_pure quiet_flows _)
    fun _ => at_bind quiet_flows (at_runScript _ _) fun _ _ _ => at_pure quiet_flows _)

theorem at_signatureDummy (n : Nat) : At Quiet s (signatureDummy n) :=
  at_get (at_require quiet_flows fun _ => at_pure quiet_flows _)

theorem at_cbMem : At Quiet s cbMem := by
  refine at_get ?_
  split
  · exact at_pure quiet_flows _
  · exact at_raise quiet_flows _

theorem at_cbErase : At Quiet s cbErase := by
  refine at_get ?_
  split
  · exact at_pure quiet_flows _
  · exact at_raise quiet_flows _

theorem at_translate (k : MemKind) (a : Addr) (n : Nat) : At Quiet s (translate k a n) := by
  refine at_get ?_
  split
  · exact at_require quiet_flows fun _ => at_pure quiet_flows _
  · exact at_raise quiet_flows _

end

/-! ## An operation within a session -/

/-- What a step keeps of the invariants while an operation runs. -/
def State.sound (s : State) : Prop :=
  s.sess.hv = false ∧ s.levelOk ∧ s.sib.bytes.length = Config.sibLen ∧ clkParamsOk s.cfg = true ∧ s.rateOk ∧ s.clockOk

/-- The state but for what an operation within a session writes. -/
def State.core (s : State) : State :=
  { s.bare with
    sess := { Sess.zero with link := s.sess.link }, sib := ⟨false, []⟩, beforePage := none, tpiChunk := .two }

/-- What an operation within a session keeps. -/
structure Stays (s t : State) : Prop where
  core : t.core = s.core
  sound : s.sound → t.sound

theorem stays_flows : Flows Stays where
  refl _ := ⟨rfl, id⟩
  trans h1 h2 := ⟨h2.core.trans h1.core, h2.sound ∘ h1.sound⟩
  armed {s t} h := show t.core.wdArmed = s.core.wdArmed from congrArg State.wdArmed h.core
  ie {s t} h := show t.core.env.ie = s.core.env.ie from congrArg (fun x => x.env.ie) h.core

section
variable {s t : State} {α : Type} {m : M α}

theorem Quiet.stays (h : Quiet s t) : Stays s t where
  core := show t.bare.core = s.bare.core from congrArg State.core h.bare
  sound := by
    intro ⟨h1, h2, h3, h4, h5, h6⟩
    have e1 : t.sess = s.sess := show t.bare.sess = s.bare.sess from congrArg State.sess h.bare
    have e2 : t.sib = s.sib := show t.bare.sib = s.bare.sib from congrArg State.sib h.bare
    have e3 : t.cfg = s.cfg := show t.bare.cfg = s.bare.cfg from congrArg State.cfg h.bare
    have e4 : t.clk = s.clk := show t.bare.clk = s.bare.clk from congrArg State.clk h.bare
    refine ⟨by rw [e1]; exact h1, ?_, by rw [e2]; exact h3, by rw [e3]; exact h4, ?_, h.clock h6⟩
    · unfold State.levelOk at *; rw [e1]; exact h2
    · unfold State.rateOk at *; rw [e4]; exact h5

theorem At.stays (h : At Quiet s m) : At Stays s m := h.mono Quiet.stays

theorem Stays.link (h : Stays s t) : t.sess.link = s.sess.link :=
  show t.core.sess.link = s.core.sess.link from congrArg (fun x => x.sess.link) h.core

theorem Stays.umode (h : Stays s t) : t.umode = s.umode :=
  show t.core.umode = s.core.umode from congrArg State.umode h.core

theorem Stays.ct (h : Stays s t) : t.ct = s.ct := show t.core.ct = s.core.ct from congrArg State.ct h.core

theorem Stays.cfg (h : Stays s t) : t.cfg = s.cfg := show t.core.cfg = s.core.cfg from congrArg State.cfg h.core

theorem Stays.clk (h : Stays s t) : t.clk = s.clk := show t.core.clk = s.core.clk from congrArg State.clk h.core

theorem Stays.deadline (h : Stays s t) : t.wdDeadline = s.wdDeadline :=
  show t.core.wdDeadline = s.core.wdDeadline from congrArg State.wdDeadline h.core

/-- One sequencer step that writes registers. -/
theorem at_upd {R : State → State → Prop} (hR : Flows R) (hQ : ∀ {a b}, Quiet a b → R a b) {f : State → State}
    (hf : ∀ t, Quiet s t → ∀ h, R t { f t with hist := h }) : At R s (upd f) := by
  unfold At upd
  rw [m_bind]
  rcases boundary_cases s with ⟨h, e⟩ | ⟨_, e⟩
  · rw [e]
    have ht := elapse_quiet s
    exact ⟨hQ ht, mayStop_back hR (hQ ht) (due_mayStop h)⟩
  · rw [e]
    have ht := elapse_quiet s
    show R s (State.write f s.elapse)
    refine hR.trans (hQ ht) ?_
    unfold State.write State.noteTrst
    split
    · exact hf _ ht (f s.elapse).hist
    · exact hf _ ht _

theorem at_pageNote (p : Addr) : At Stays s (pageNote p) :=
  at_upd stays_flows Quiet.stays fun _ _ _ => ⟨rfl, fun h => h⟩

theorem at_setProg (hl : s.sess.link = true) :
    At Stays s (upd fun s => { s with sess := { s.sess with prog := true } }) :=
  at_upd stays_flows Quiet.stays fun _ ht _ => ⟨rfl, fun ⟨h1, _, h⟩ => ⟨h1, fun _ => (Quiet.stays ht).link.trans hl, h⟩⟩

theorem at_clearProg : At Stays s (upd fun s => { s with sess := { s.sess with prog := false } }) :=
  at_upd stays_flows Quiet.stays fun _ _ _ => ⟨rfl, fun ⟨h1, _, h⟩ => ⟨h1, fun hp => absurd hp Bool.false_ne_true, h⟩⟩

theorem at_setErased : At Stays s (upd fun s => { s with sess := { s.sess with eraseDone := true } }) :=
  at_upd stays_flows Quiet.stays fun _ _ _ => ⟨rfl, fun h => h⟩

theorem at_setInitFail : At Stays s (upd fun s => { s with sess := { s.sess with initFail := true } }) :=
  at_upd stays_flows Quiet.stays fun _ _ _ => ⟨rfl, fun h => h⟩

theorem at_tpiChunkSet (sig : List Byte) : At Stays s (tpiChunkSet sig) :=
  at_upd stays_flows Quiet.stays fun _ _ _ => ⟨rfl, fun h => h⟩

theorem recvN_length {n : Nat} {d : List Byte} (h : recvN n s = .ok d t) : d.length = n := by
  induction n generalizing s t d with
  | zero => cases h; rfl
  | succ n ih =>
    have h : (do
        let v ← rx
        let vs ← recvN n
        pure (v :: vs)) s = .ok d t := h
    rw [m_bind] at h
    cases hv : rx s with
    | error e u => rw [hv] at h; cases h
    | ok v u =>
      rw [hv] at h
      dsimp only at h
      rw [m_bind] at h
      cases hvs : recvN n u with
      | error e u' => rw [hvs] at h; cases h
      | ok vs u' =>
        rw [hvs] at h
        cases h
        simp [ih hvs]

theorem at_readSib : At Stays s readSib :=
  at_get (at_bind stays_flows (at_instr _ _).stays fun _ _ _ => at_bind_of stays_flows (at_recvN _).stays fun _ _ hd _ =>
    at_upd stays_flows Quiet.stays fun _ _ _ => ⟨rfl, fun ⟨h1, h2, _, h⟩ => ⟨h1, h2, recvN_length hd, h⟩⟩)

theorem at_connectAttempt : At Stays s connectAttempt :=
  at_bind stays_flows (at_attention _).stays fun _ _ _ => at_bind stays_flows at_lineConfig.stays fun _ _ _ =>
    at_bind stays_flows at_handshake.stays fun _ _ _ => at_bind stays_flows at_readSib fun _ _ _ => at_pure stays_flows _

end

/-! ## Write methods and operations within a session -/

section
variable {s : State} {r : VariantRec} {w : PtrWidth}

theorem at_bytewiseLoop (one : NvmScript) (a : Addr) (d : List Byte) : At Quiet s (bytewiseLoop r w one a d) := by
  induction d generalizing s a with
  | nil => exact at_pure quiet_flows _
  | cons b rest ih => exact at_bind quiet_flows (at_runNvm _ _ _) fun _ _ _ => ih _

theorem at_burstLoop (pre commit : NvmScript) : ∀ (d : List Byte) (a : Addr) (s : State),
    At Quiet s (burstLoop r w pre commit a d)
  | [], _, _ => at_pure quiet_flows _
  | [_], _, _ => at_bind quiet_flows (at_runNvm _ _ _) fun _ _ _ => at_bind quiet_flows (at_sendBytesBlock _ _)
      fun _ _ _ => at_runNvm _ _ _
  | _ :: _ :: rest, a, _ => at_bind quiet_flows (at_runNvm _ _ _) fun _ _ _ => at_bind quiet_flows
      (at_sendBytesBlock _ _) fun _ _ _ => at_bind quiet_flows (at_runNvm _ _ _) fun _ t _ =>
      at_burstLoop pre commit rest (a + 2) t

theorem at_writePlain (a : Addr) (d : List Byte) : At Quiet s (writePlain w a d) :=
  at_bind quiet_flows (at_requireTransfer _ _) fun _ _ _ => at_bind quiet_flows (at_transfer _ _) fun _ _ _ =>
    at_pure quiet_flows _

theorem at_writeAtomic (k : MemKind) (a : Addr) (d : List Byte) : At Quiet s (writeAtomic r w k a d) :=
  at_bind quiet_flows (at_requireTransfer _ _) fun _ _ _ => at_bind quiet_flows (at_runNvm _ _ _) fun _ _ _ =>
    at_bind quiet_flows (at_transfer _ _) fun _ _ _ => at_bind quiet_flows (at_runNvm _ _ _) fun _ _ _ =>
    at_pure quiet_flows _

theorem at_writeBytewise (k : MemKind) (a : Addr) (d : List Byte) : At Quiet s (writeBytewise r w k a d) :=
  at_require quiet_flows fun _ =>
    at_bind quiet_flows (at_bytewiseLoop _ _ _) fun _ _ _ => at_pure quiet_flows _

theorem at_writeBurst2 (k : MemKind) (a : Addr) (d : List Byte) : At Quiet s (writeBurst2 r w k a d) :=
  at_require quiet_flows fun _ => at_bind quiet_flows (at_burstLoop _ _ _ _ _) fun _ _ _ => at_pure quiet_flows _

theorem at_writeExplicit (k : MemKind) (a : Addr) (d : List Byte) (page : Addr) :
    At Stays s (writeExplicit r w k a d page) := by
  refine at_require stays_flows fun _ => at_bind stays_flows (at_requireTransfer _ _).stays fun _ _ _ =>
    at_get ?_
  exact at_when stays_flows (fun _ => (at_runNvm _ _ _).stays) fun _ _ => at_bind stays_flows (at_pageNote _) fun _ _ _ =>
    at_bind stays_flows (at_runNvm _ _ _).stays fun _ _ _ => at_bind stays_flows (at_transfer _ _).stays fun _ _ _ =>
    at_bind stays_flows (at_runNvm _ _ _).stays fun _ _ _ => at_pure stays_flows _

theorem at_v0Write (k : MemKind) (a : Addr) (d : List Byte) : At Stays s (v0Write k a d) := by
  refine at_get ?_
  dsimp only
  split
  · exact at_require stays_flows fun _ => at_writeExplicit _ _ _ _
  · exact (at_writeBytewise _ _ _).stays
  · exact (at_writeAtomic _ _ _).stays
  · exact (at_writeAtomic _ _ _).stays
  · exact (at_writePlain _ _).stays
  · exact at_raise stays_flows _

theorem at_v3Write (k : MemKind) (a : Addr) (d : List Byte) : At Stays s (v3Write k a d) := by
  refine at_get ?_
  dsimp only
  split
  · exact (at_writePlain _ _).stays
  · exact (at_writeAtomic _ _ _).stays
  · exact (at_writeAtomic _ _ _).stays
  · exact (at_writeAtomic _ _ _).stays
  · exact (at_writeAtomic _ _ _).stays
  · exact at_raise stays_flows _

theorem at_v4Write (k : MemKind) (a : Addr) (d : List Byte) : At Stays s (v4Write k a d) := by
  refine at_get ?_
  dsimp only
  split
  · exact at_writeExplicit _ _ _ _
  · exact at_writeExplicit _ _ _ _
  · exact (at_writeBurst2 _ _ _).stays
  · exact (at_writeBurst2 _ _ _).stays
  · exact (at_writePlain _ _).stays
  · exact at_raise stays_flows _

theorem at_ctWrite (v : Variant) (k : MemKind) (a : Addr) (d : List Byte) : At Stays s (ctWrite v k a d) := by
  cases v with
  | v0 => exact at_v0Write _ _ _
  | v3 => exact at_v3Write _ _ _
  | v4 => exact at_v4Write _ _ _
  | stub => exact at_pure stays_flows _
  | v1 => exact at_pure stays_flows _
  | v2 => exact at_pure stays_flows _
  | v5 => exact at_pure stays_flows _

theorem at_ctRead (v : Variant) (a : Addr) (n : Nat) : At Quiet s (ctRead v a n) := by
  refine at_get ?_
  split
  · exact at_bind quiet_flows (at_readTransfer _ _) fun _ _ _ => at_pure quiet_flows _
  · exact at_pure quiet_flows _

theorem at_ctErase (v : Variant) (a : Addr) : At Quiet s (ctErase v a) := by
  refine at_get ?_
  split
  · exact at_require quiet_flows fun _ => at_require quiet_flows fun _ => at_bind quiet_flows (at_runNvm _ _ _)
      fun _ _ _ => at_pure quiet_flows _
  · exact at_require quiet_flows fun _ => at_bind quiet_flows (at_runNvm _ _ _) fun _ _ _ => at_pure quiet_flows _
  · exact at_pure quiet_flows _
  · exact at_pure quiet_flows _
  · exact at_pure quiet_flows _
  · exact at_pure quiet_flows _
  · exact at_pure quiet_flows _

theorem at_variantFn (v : Variant) (f : VariantFn) : At Stays s (variantFn v f) := by
  cases f with
  | progInit => exact at_bind stays_flows (at_progInit _).stays fun _ _ _ => at_pure stays_flows _
  | readMemory _ a n => exact (at_ctRead _ _ _).stays
  | eraseMemory _ a => exact (at_ctErase _ _).stays
  | writeMemory mt a d =>
    refine at_get ?_
    split
    · exact at_pure stays_flows _
    · split
      · exact at_ctWrite _ _ _ _
      · exact at_raise stays_flows _

theorem at_updiUnlock (hl : s.sess.link = true) : At Stays s updiUnlock := by
  refine at_get (at_bind stays_flows (at_phase _).stays fun _ _ h1 => at_bind stays_flows (at_sendKey _).stays fun _ _ h2 =>
    at_bind stays_flows (at_phase _).stays fun _ _ h3 => at_bind stays_flows (at_pollKey _).stays fun _ _ h4 =>
    at_bind stays_flows (at_phase _).stays fun _ _ h5 => at_bind stays_flows (at_runScript _ _).stays fun _ _ h6 =>
    at_bind stays_flows (at_phase _).stays fun _ _ h7 => at_bind stays_flows (at_ldcs _ _).stays fun _ _ h8 => ?_)
  have h := stays_flows.trans (stays_flows.trans (stays_flows.trans (stays_flows.trans (stays_flows.trans
    (stays_flows.trans (stays_flows.trans h1 h2) h3) h4) h5) h6) h7) h8
  refine at_skip stays_flows (at_bind stays_flows (at_phase _).stays fun _ _ h9 => at_bind stays_flows
    (at_progInit _).stays fun _ _ h10 => ?_)
  have h := stays_flows.trans (stays_flows.trans h h9) h10
  have hk : ∀ t, Stays _ t → At Stays t (do
      phase 6
      upd fun s => { s with sess := { s.sess with prog := true } }
      pure (Res.ok 1)) := fun t ht =>
    at_bind stays_flows (at_phase _).stays fun _ _ h11 => at_bind stays_flows
      (at_setProg ((stays_flows.trans (stays_flows.trans h ht) h11).link.trans hl)) fun _ _ _ => at_pure stays_flows _
  exact at_ite (fun _ => at_bind stays_flows at_setInitFail fun _ t ht => at_bind_of stays_flows (at_raise stays_flows _)
    fun _ _ e _ => nomatch e) fun _ => hk _ (stays_flows.refl _)

theorem at_updiEnter : At Stays s updiEnter :=
  at_get (at_require stays_flows fun hl => at_ite (fun _ => at_pure stays_flows _) fun _ => at_updiUnlock hl)

theorem at_updiLeave : At Stays s updiLeave :=
  at_get (at_require stays_flows fun _ => at_ite
    (fun _ => at_bind stays_flows at_clearProg fun _ _ _ =>
      at_bind stays_flows (at_runScript _ _).stays fun _ _ _ => at_pure stays_flows _)
    fun _ => at_pure stays_flows _)

theorem at_chipErase : At Stays s chipErase :=
  at_get (at_require stays_flows fun hl => at_bind stays_flows (at_phase _).stays fun _ _ h1 =>
    at_bind stays_flows (at_sendKey _).stays fun _ _ h2 => at_bind stays_flows (at_phase _).stays fun _ _ h3 =>
    at_bind stays_flows (at_pollKey _).stays fun _ _ h4 => at_bind stays_flows (at_phase _).stays fun _ _ h5 =>
    at_get (at_bind stays_flows at_clearProg fun _ _ h6 => at_bind stays_flows (at_phase _).stays fun _ _ h7 =>
    at_bind stays_flows (at_runScript _ _).stays fun _ _ h8 => at_bind stays_flows (at_phase _).stays fun _ _ h9 =>
    at_bind stays_flows at_setErased fun _ _ h10 => at_bind stays_flows (at_phase _).stays fun _ _ h11 =>
    at_ite (fun _ => at_updiUnlock (by
      rw [h11.link, h10.link, h9.link, h8.link, h7.link, h6.link, h5.link, h4.link, h3.link, h2.link, h1.link]
      exact hl))
      fun _ => at_pure stays_flows _))

theorem at_userrowCeremony (a : Addr) (d : List Byte) : At Quiet s (userrowCeremony a d) :=
  at_get (at_require quiet_flows fun _ => at_require quiet_flows fun _ => at_bind quiet_flows (at_phase _) fun _ _ _ =>
    at_bind quiet_flows (at_sendKey _) fun _ _ _ => at_bind quiet_flows (at_phase _) fun _ _ _ =>
    at_bind quiet_flows (at_pollKey _) fun _ _ _ => at_bind quiet_flows (at_phase _) fun _ _ _ =>
    at_bind quiet_flows (at_runScript _ _) fun _ _ _ => at_bind quiet_flows (at_phase _) fun _ _ _ =>
    at_bind quiet_flows (at_sendBytesBlock _ _) fun _ _ _ => at_bind quiet_flows (at_phase _) fun _ _ _ =>
    at_bind quiet_flows (at_runScript _ _) fun _ _ _ => at_pure quiet_flows _)

theorem at_updiRead : At Quiet s updiRead :=
  at_bind quiet_flows at_cbMem fun _ _ _ => at_get (at_require quiet_flows fun _ => at_require quiet_flows fun _ =>
    at_ite (fun _ => at_require quiet_flows fun _ => at_pure quiet_flows _) fun _ => at_ite
    (fun _ => at_signatureDummy _) fun _ => at_require quiet_flows fun _ => by
      split
      · exact at_raise quiet_flows _
      · exact at_bind quiet_flows (at_translate _ _ _) fun _ _ _ => at_ctRead _ _ _)

theorem at_updiWrite : At Stays s updiWrite :=
  at_bind stays_flows at_cbMem.stays fun _ _ _ => at_get (at_require stays_flows fun _ => at_require stays_flows fun _ =>
    at_ite (fun _ => (at_userrowCeremony _ _).stays) fun _ => at_require stays_flows fun _ => by
      split
      · exact at_raise stays_flows _
      · exact at_ite (fun _ => at_raise stays_flows _) fun _ =>
          at_bind stays_flows (at_translate _ _ _).stays fun _ _ _ => at_ctWrite _ _ _ _)

theorem at_updiErase : At Stays s updiErase :=
  at_bind stays_flows at_cbErase.stays fun _ _ _ => at_get (at_require stays_flows fun _ =>
    at_ite (fun _ => at_chipErase) fun _ => at_ite
      (fun _ => at_require stays_flows fun _ => at_bind stays_flows (at_translate _ _ _).stays fun _ _ _ =>
        (at_ctErase _ _).stays)
      fun _ => at_pure stays_flows _)

theorem at_tpiWrite : At Quiet s tpiWrite :=
  at_bind quiet_flows at_cbMem fun _ _ _ => at_get (at_require quiet_flows fun _ => at_require quiet_flows fun _ =>
    at_require quiet_flows fun _ => at_require quiet_flows fun _ => at_when quiet_flows (fun _ => at_tpiEraseAt _ _)
    fun _ _ => at_bind quiet_flows (at_tpiOut _ _) fun _ _ _ => at_bind quiet_flows (at_tpiSetPtr _) fun _ _ _ =>
    at_bind quiet_flows (at_tpiChunks _ _ _) fun _ _ _ => at_bind quiet_flows (at_tpiOut _ _) fun _ _ _ =>
    at_pure quiet_flows _)

theorem at_tpiRead : At Quiet s tpiRead :=
  at_bind quiet_flows at_cbMem fun _ _ _ => at_get (at_require quiet_flows fun _ => at_require quiet_flows fun _ =>
    at_bind quiet_flows (at_tpiReadAt _ _) fun _ _ _ => at_pure quiet_flows _)

theorem at_tpiErase : At Stays s tpiErase :=
  at_bind stays_flows at_cbErase.stays fun _ _ _ => at_get (at_require stays_flows fun _ => at_require stays_flows fun _ =>
    at_ite
      (fun _ => at_require stays_flows fun _ => at_bind stays_flows (at_tpiEraseAt _ _).stays fun _ _ _ =>
        at_bind stays_flows at_setErased fun _ _ _ => at_pure stays_flows _)
      fun _ => at_ite
        (fun _ => at_require stays_flows fun _ => at_bind stays_flows (at_tpiEraseAt _ _).stays fun _ _ _ =>
          at_pure stays_flows _)
        fun _ => at_pure stays_flows _)

theorem at_pdiEnter : At Stays s pdiEnter :=
  at_get (at_require stays_flows fun hl => at_ite (fun _ => at_pure stays_flows _) fun _ =>
    at_bind stays_flows (at_phase _).stays fun _ _ h1 => at_bind stays_flows (at_runScript _ _).stays fun _ _ h2 =>
    at_bind stays_flows (at_phase _).stays fun _ _ h3 => at_bind stays_flows (at_sendSyncKey _).stays fun _ _ h4 =>
    at_bind stays_flows (at_phase _).stays fun _ _ h5 => at_bind stays_flows at_pdiPollEnabled.stays fun _ _ h6 =>
    at_bind stays_flows (at_phase _).stays fun _ _ h7 => at_bind stays_flows
      (at_setProg (by rw [h7.link, h6.link, h5.link, h4.link, h3.link, h2.link, h1.link]; exact hl)) fun _ _ _ =>
      at_pure stays_flows _)

theorem at_pdiLeave : At Stays s pdiLeave :=
  at_get (at_require stays_flows fun _ => at_ite
    (fun _ => at_bind stays_flows at_clearProg fun _ _ _ =>
      at_bind stays_flows (at_runScript _ _).stays fun _ _ _ => at_pure stays_flows _)
    fun _ => at_pure stays_flows _)

theorem at_pdiRead : At Quiet s pdiRead :=
  at_bind quiet_flows at_cbMem fun _ _ _ => at_get (at_require quiet_flows fun _ => at_require quiet_flows fun _ => by
    split
    · exact at_raise quiet_flows _
    · exact at_ite (fun _ => at_raise quiet_flows _) fun _ => at_bind quiet_flows (at_translate _ _ _) fun _ _ _ =>
        at_require quiet_flows fun _ => at_when quiet_flows (fun _ => at_pdiCmd _) fun _ _ =>
        at_bind quiet_flows (at_pdiRecv _ _ _) fun _ _ _ => at_pure quiet_flows _)

theorem at_pdiWrite : At Quiet s pdiWrite :=
  at_bind quiet_flows at_cbMem fun _ _ _ => at_get (at_require quiet_flows fun _ => at_require quiet_flows fun _ => by
    split
    · exact at_raise quiet_flows _
    · exact at_ite (fun _ => at_raise quiet_flows _) fun _ => at_bind quiet_flows (at_translate _ _ _) fun _ _ _ =>
        at_require quiet_flows fun _ => at_ite
          (fun _ => at_bind quiet_flows (at_pdiSend _ _ _) fun _ _ _ => at_pure quiet_flows _)
          fun _ => at_pdiNvmWrite _ _ _)

theorem at_pdiErase : At Stays s pdiErase :=
  at_bind stays_flows at_cbErase.stays fun _ _ _ => at_get (at_require stays_flows fun _ => at_ite
    (fun _ => at_bind stays_flows at_pdiNvmWait.stays fun _ _ _ => at_bind stays_flows (at_pdiCmd _).stays fun _ _ _ =>
      at_bind stays_flows at_pdiExecute.stays fun _ _ _ => at_bind stays_flows at_pdiNvmWait.stays fun _ _ _ =>
      at_bind stays_flows at_setErased fun _ _ _ => at_pure stays_flows _)
    fun _ => at_ite
      (fun _ => at_bind stays_flows at_pdiNvmWait.stays fun _ _ _ => at_bind stays_flows (at_pdiCmd _).stays fun _ _ _ =>
        at_bind stays_flows (at_pdiSts8 _ _).stays fun _ _ _ => at_bind stays_flows at_pdiNvmWait.stays fun _ _ _ =>
        at_pure stays_flows _)
      fun _ => at_pure stays_flows _)

end

end Sys2Proof.Machine
end

