-- ==== Sys2Proof/Laws/Sessions.lean ====
section
/-! SUPPORT. What connects, the supervisor and the whole operations keep. `Joins` is the relation of a piece that may
connect; `Mild` of what the supervisor itself writes; `supervise_keeps` says once how a run ends. -/

namespace Sys2Proof.Machine

/-! ## Rates -/

theorem betterRate_mem {c : Nat} {l : List Nat} : ∀ {b : Option Nat} {k : Nat}, l.foldl (betterRate c) b = some k →
    b = some k ∨ k ∈ l ∧ k < c := by
  induction l with
  | nil => intro b k h; exact .inl h
  | cons x l ih =>
    intro b k h
    rcases ih h with h | ⟨h, hk⟩
    · unfold betterRate at h
      split at h
      · next hx =>
        split at h
        · exact .inr ⟨by simp_all, by simp_all⟩
        · split at h
          · exact .inr ⟨by simp_all, by simp_all⟩
          · exact .inl h
      · exact .inl h
    · exact .inr ⟨List.mem_cons_of_mem _ h, hk⟩

theorem clkLower_lt {c : Params} {clk k : Nat} (h : clkLower c clk = some k) : k < clk := by
  rcases betterRate_mem h with h | h
  · cases h
  · exact h.2

theorem clkLower_legal {c : Params} {clk k : Nat} (hc : clkParamsOk c = true) (h : clkLower c clk = some k) :
    Config.clkMinKhz ≤ k ∧ k ≤ Config.clkMaxKhz := by
  rcases betterRate_mem h with h | h
  · cases h
  · unfold clkParamsOk at hc
    simp only [Bool.and_eq_true, List.all_eq_true, decide_eq_true_eq] at hc
    exact hc.1.2 k h.1

theorem clkCfg_legal {c : Params} (hc : clkParamsOk c = true) :
    Config.clkMinKhz ≤ c.clkCfgKhz ∧ c.clkCfgKhz ≤ Config.clkMaxKhz := by
  unfold clkParamsOk at hc
  simp only [Bool.and_eq_true, decide_eq_true_eq] at hc
  exact hc.1.1

/-! ## What a connect keeps -/

/-- While an operation runs: without a link no variant is bound, with one an engine holds the UART (R30, R311). -/
def State.mid (s : State) : Prop :=
  (s.sess.link = false → s.ct = .stub) ∧ (s.sess.link = true → s.umode.isEngine = true)

/-- The state but for what a connect writes. -/
def State.fixed (s : State) : State :=
  { s.core with
    sess := Sess.zero, ct := .stub, umode := .idle, clk := 0, trstEng := false, trstBtn := false
    dd := { s.dd with valid := false } }

/-- What an operation that may connect keeps. -/
structure Joins (s t : State) : Prop where
  fixed : t.fixed = s.fixed
  sound : s.sound → t.sound
  mid : s.mid → t.mid

theorem joins_flows : Flows Joins where
  refl _ := ⟨rfl, id, id⟩
  trans h1 h2 := ⟨h2.fixed.trans h1.fixed, h2.sound ∘ h1.sound, h2.mid ∘ h1.mid⟩
  armed {s t} h := show t.fixed.wdArmed = s.fixed.wdArmed from congrArg State.wdArmed h.fixed
  ie {s t} h := show t.fixed.env.ie = s.fixed.env.ie from congrArg (fun x => x.env.ie) h.fixed

section
variable {s t : State} {α β : Type} {m : M α}

theorem Stays.joins (h : Stays s t) : Joins s t where
  fixed := by
    have e : t.dd = s.dd := show t.core.dd = s.core.dd from congrArg State.dd h.core
    show ({ t.core with
      sess := Sess.zero, ct := .stub, umode := .idle, clk := 0, trstEng := false, trstBtn := false
      dd := { t.dd with valid := false } } : State) = _
    rw [h.core, e]; rfl
  sound := h.sound
  mid := by unfold State.mid; rw [h.link, h.ct, h.umode]; exact id

theorem Quiet.joins (h : Quiet s t) : Joins s t := h.stays.joins

theorem Joins.cfg (h : Joins s t) : t.cfg = s.cfg := show t.fixed.cfg = s.fixed.cfg from congrArg State.cfg h.fixed

theorem at_dropSess : At Joins s (upd fun s => { s with sess := Sess.zero, ct := .stub }) :=
  at_upd joins_flows Quiet.joins fun _ _ _ => ⟨rfl,
    fun ⟨_, _, h3⟩ => ⟨rfl, fun hp => absurd hp Bool.false_ne_true, h3⟩,
    fun _ => ⟨fun _ => rfl, fun hp => absurd hp Bool.false_ne_true⟩⟩

theorem at_connectRate (e : Engine) : At Joins s (upd fun s => connectRate e { s with
    rxf := RxFlags.clear
    trstEng := connectTrst e s.trstEng
    tpiChunk := .two }) :=
  at_upd joins_flows Quiet.joins fun t _ _ => by
    obtain ⟨l, h⟩ := connectRate_eq e { t with rxf := RxFlags.clear, trstEng := connectTrst e t.trstEng, tpiChunk := .two }
    rw [h]
    exact ⟨rfl, fun ⟨h1, h2, h3, h4, _, h6⟩ => ⟨h1, h2, h3, h4, clkCfg_legal h4, h6⟩, fun h => h⟩

/-- One step that writes only what neither an invariant nor a frame of a connect speaks of. -/
theorem at_upd_free {f : State → State} (hf : ∀ t l, Joins t { f t with hist := l }) : At Joins s (upd f) :=
  at_upd joins_flows Quiet.joins fun t _ l => hf t l

theorem at_connectClear (e : Engine) : At Joins s (connectClear e) :=
  at_bind joins_flows at_dropSess fun _ _ _ =>
    at_bind joins_flows (at_upd_free fun _ _ => ⟨rfl, fun h => h, fun h => h⟩) fun _ _ _ =>
    at_bind joins_flows (at_upd_free fun _ _ => ⟨rfl, fun h => h, fun h => h⟩) fun _ _ _ =>
    at_bind joins_flows (at_upd_free fun _ _ => ⟨rfl, fun h => h, fun h => h⟩) fun _ _ _ => at_connectRate e

theorem write_hist (f : State → State) (s : State) : ∃ l, s.write f = { f s with hist := l } := by
  unfold State.write State.noteTrst
  split
  · exact ⟨_, rfl⟩
  · exact ⟨_, rfl⟩

theorem upd_ok {f : State → State} {u : Unit} (h : upd f s = .ok u t) : t = s.elapse.write f := by
  unfold upd at h
  rw [m_bind] at h
  rcases boundary_cases s with ⟨_, e⟩ | ⟨_, e⟩
  · rw [e] at h; cases h
  · rw [e] at h; cases h; rfl

theorem write_field {γ : Type} (g : State → γ) (hg : ∀ (t : State) h, g { t with hist := h } = g t) (f : State → State)
    (s : State) : g (s.write f) = g (f s) := by
  unfold State.write State.noteTrst
  split
  · rfl
  · exact hg _ _

theorem bind_ok {k : α → M β} {b : β} {u : State} (h : (m >>= k) s = .ok b u) :
    ∃ a t, m s = .ok a t ∧ k a t = .ok b u := by
  rw [m_bind] at h
  cases hm : m s with
  | ok a t => rw [hm] at h; exact ⟨a, t, rfl, h⟩
  | error e t => rw [hm] at h; cases h

theorem bind_error {k : α → M β} {e : Stop} {u : State} (h : (m >>= k) s = .error e u) :
    m s = .error e u ∨ ∃ a t, m s = .ok a t ∧ k a t = .error e u := by
  rw [m_bind] at h
  cases hm : m s with
  | ok a t => rw [hm] at h; exact .inr ⟨a, t, rfl, h⟩
  | error e' t => rw [hm] at h; cases h; exact .inl rfl

theorem At.ok {R : State → State → Prop} (h : At R s m) {a : α} (e : m s = .ok a t) : R s t := by
  unfold At at h; rw [e] at h; exact h

theorem At.error {R : State → State → Prop} (h : At R s m) {x : Stop} (e : m s = .error x t) : R s t ∧ mayStop s x := by
  unfold At at h; rw [e] at h; exact h

theorem acquire_clock (e : Engine) (hc : s.clockOk) : (s.acquire e).clockOk := by
  rcases State.acquire_cases e s with ⟨_, h⟩ | ⟨hn, h⟩
  · rw [h, State.quiesce_eq]
    exact fun h => nomatch h
  · rw [h]
    intro ht
    rcases hc ht with hu | hu <;> cases e <;> simp_all [engineMode, Umode.isEngine]

theorem engine_isEngine (e : Engine) : (engineMode e).isEngine = true := by cases e <;> rfl

theorem at_connectAcquire (e : Engine) : At Joins s (connectAcquire e) := by
  refine at_bind joins_flows (at_upd joins_flows Quiet.joins fun t _ _ => ?_) fun _ _ _ =>
    at_upd_free fun _ _ => ⟨rfl, fun h => h, fun h => h⟩
  have hc := acquire_clock (s := t) e
  rcases State.acquire_cases e t with ⟨_, ha⟩ | ⟨_, ha⟩
  · rw [ha, State.quiesce_eq] at hc ⊢
    exact ⟨rfl, fun ⟨h1, h2, h3, h4, h5, h6⟩ => ⟨h1, h2, h3, h4, h5, hc h6⟩,
      fun h => ⟨h.1, fun _ => engine_isEngine e⟩⟩
  · rw [ha] at hc ⊢
    exact ⟨rfl, fun ⟨h1, h2, h3, h4, h5, h6⟩ => ⟨h1, h2, h3, h4, h5, hc h6⟩,
      fun h => ⟨h.1, fun _ => engine_isEngine e⟩⟩

theorem connectAcquire_umode {e : Engine} {u : Unit} (h : connectAcquire e s = .ok u t) : t.umode = engineMode e := by
  obtain ⟨_, s1, h1, h2⟩ := bind_ok h
  rw [upd_ok h2, write_field State.umode (fun _ _ => rfl)]
  show s1.elapse.umode = _
  rw [(elapse_quiet s1).umode, upd_ok h1, write_field State.umode (fun _ _ => rfl)]
  rfl

end

/-! ## Endings of a session -/

section
variable {s t : State} {α : Type}

theorem releaseUart_fixed (s : State) : s.releaseUart.fixed = s.fixed := by
  unfold State.releaseUart; rw [State.quiesce_eq]; rfl

theorem releaseUart_engine (s : State) : s.releaseUart.umode.isEngine = false := by
  show (if s.ui.vcpOpen = true then Umode.vcp else Umode.idle).isEngine = false
  split <;> rfl

theorem releaseUart_sound (h : s.sound) : s.releaseUart.sound := by
  obtain ⟨h1, h2, h3, h4, h5, h6⟩ := h
  unfold State.releaseUart
  rw [State.quiesce_eq]
  exact ⟨h1, h2, h3, h4, h5, fun h => nomatch h⟩

theorem releaseUart_sess (s : State) : s.releaseUart.sess = s.sess := by
  unfold State.releaseUart; rw [State.quiesce_eq]

theorem releaseUart_ct (s : State) : s.releaseUart.ct = s.ct := by
  unfold State.releaseUart; rw [State.quiesce_eq]

theorem releaseUart_sessionOk (hl : s.sess.link = false) (hc : s.ct = .stub) : s.releaseUart.sessionOk := by
  refine ⟨fun _ => (releaseUart_ct s).trans hc, ?_⟩
  rw [releaseUart_sess, releaseUart_engine, hl]

theorem dropSession_sound (h : s.sound) : s.dropSession.sound :=
  ⟨rfl, fun hp => absurd hp Bool.false_ne_true, h.2.2⟩

theorem linkLoss_sound (h : s.sound) : s.linkLoss.sound := releaseUart_sound (dropSession_sound h)

theorem linkLoss_fixed (s : State) : s.linkLoss.fixed = s.fixed := releaseUart_fixed _

theorem linkLoss_sessionOk (s : State) : s.linkLoss.sessionOk := releaseUart_sessionOk rfl rfl

theorem sessionOk_hist (h : s.sessionOk) (l : List WireEvent) : ({ s with hist := l } : State).sessionOk := h

/-- A teardown, up to the history. -/
theorem teardown_eq (s : State) : ∃ l1 l2, s.teardown = { State.releaseUart { s.dropSession with
    dd := { s.dd with valid := false }, clk := s.cfg.clkCfgKhz, hist := l1 } with hist := l2 } := by
  obtain ⟨l1, e⟩ := setClk_eq s.cfg.clkCfgKhz { s.dropSession with dd := { s.dd with valid := false } }
  obtain ⟨l2, e2⟩ := write_hist (fun s => s.clearSession.releaseUart) s
  exact ⟨l1, l2, by rw [State.teardown, e2, State.clearSession, e]⟩

theorem teardown_sound (h : s.sound) : s.teardown.sound := by
  obtain ⟨l1, l2, e⟩ := teardown_eq s
  obtain ⟨h1, h2, h3, h4, _, h6⟩ := dropSession_sound h
  rw [e]
  exact releaseUart_sound (s := { s.dropSession with
    dd := { s.dd with valid := false }, clk := s.cfg.clkCfgKhz, hist := l1 }) ⟨h1, h2, h3, h4, clkCfg_legal h4, h6⟩

theorem teardown_fixed (s : State) : s.teardown.fixed = s.fixed := by
  obtain ⟨l1, l2, e⟩ := teardown_eq s
  rw [e]
  exact releaseUart_fixed _

theorem teardown_sessionOk (s : State) : s.teardown.sessionOk := by
  obtain ⟨l1, l2, e⟩ := teardown_eq s
  rw [e]
  exact sessionOk_hist (releaseUart_sessionOk rfl rfl) l2

/-- A failed connect drops the session as a link loss does, but for `INIT_FAIL` (R24, R222, R252). -/
theorem connectFailed_sound (h : s.sound) : s.connectFailed.sound :=
  releaseUart_sound (s := { s with sess := { Sess.zero with initFail := true }, ct := .stub, trstEng := false : State })
    ⟨rfl, fun hp => absurd hp Bool.false_ne_true, h.2.2⟩

theorem connectFailed_fixed (s : State) : s.connectFailed.fixed = s.fixed := releaseUart_fixed _

theorem connectFailed_sessionOk (s : State) : s.connectFailed.sessionOk := releaseUart_sessionOk rfl rfl

theorem sessionOk_mid (h : s.sessionOk) : s.mid := ⟨h.1, h.2.1⟩

theorem mid_sessionOk (h : s.mid) (hl : s.sess.link = true) : s.sessionOk := ⟨h.1, fun _ => h.2 hl, fun _ => hl⟩

/-! ## Connects -/

theorem at_upd_fixed {f : State → State} (hf : ∀ t, (f t).fixed = t.fixed) (hs : ∀ t, t.sound → (f t).sound)
    (hm : ∀ t, Quiet s t → t.mid → (f t).mid) : At Joins s (upd f) :=
  at_upd joins_flows Quiet.joins fun t ht _ => ⟨hf t, hs t, hm t ht⟩

/-- Setting the link while an engine holds the UART. -/
theorem at_setLink (hu : s.umode.isEngine = true) :
    At Joins s (upd fun s => { s with sess := { s.sess with link := true } }) :=
  at_upd joins_flows Quiet.joins fun t ht _ => ⟨rfl, fun ⟨h1, _, h⟩ => ⟨h1, fun _ => rfl, h⟩,
    fun _ => ⟨fun hl => (Bool.noConfusion hl), fun _ => by
      show t.umode.isEngine = true
      rw [ht.umode]; exact hu⟩⟩

theorem failingConnect_ends {m : M Unit} (hm : At Joins s m) : At Joins s (failingConnect m) ∧
    ∀ c t, failingConnect m s = .error (.raise c) t → t.sessionOk := by
  unfold At failingConnect at *
  cases h : m s with
  | ok u t => rw [h] at hm; exact ⟨hm, fun _ _ e => nomatch e⟩
  | error e t =>
    rw [h] at hm
    cases e with
    | raise c =>
      have hj : Joins s t := hm.1
      dsimp only
      unfold upd
      rw [m_bind]
      rcases boundary_cases t with ⟨hd, eb⟩ | ⟨_, eb⟩
      · have hq := joins_flows.trans hj (elapse_quiet t).joins
        rw [eb]
        exact ⟨⟨hq, mayStop_back joins_flows hq (due_mayStop hd)⟩, fun _ _ e => nomatch e⟩
      · rw [eb]
        obtain ⟨l, hw⟩ := write_hist State.connectFailed t.elapse
        have hs := connectFailed_sessionOk t.elapse
        show (Joins s (State.write State.connectFailed t.elapse) ∧ True) ∧
          ∀ c' t', EStateM.Result.error (ε := Stop) (α := Unit) (.raise c) (State.write State.connectFailed t.elapse) =
            .error (.raise c') t' → t'.sessionOk
        rw [hw]
        refine ⟨⟨joins_flows.trans hj (joins_flows.trans (elapse_quiet t).joins ⟨connectFailed_fixed _,
          connectFailed_sound, fun _ => sessionOk_mid hs⟩), trivial⟩, fun c' t' e => ?_⟩
        cases e
        exact hs
    | expired => exact ⟨hm, fun _ _ e => nomatch e⟩
    | stuck => exact ⟨hm, fun _ _ e => nomatch e⟩
    | refused r => exact ⟨hm, fun _ _ e => nomatch e⟩

theorem at_setTrstEng (v : Bool) : At Joins s (upd fun s => { s with trstEng := v }) :=
  at_upd joins_flows Quiet.joins fun _ _ _ => ⟨rfl, fun h => h, fun h => h⟩

theorem upd_ok_field {γ : Type} {f : State → State} {u : Unit} (g : State → γ)
    (hg : ∀ (t : State) h, g { t with hist := h } = g t) (h : upd f s = .ok u t) : g t = g (f s.elapse) := by
  rw [upd_ok h, write_field g hg]

/-- The steps of a connect: their end is the link. -/
structure Connects (s : State) (m : M Unit) : Prop where
  keeps : At Joins s m
  links : ∀ u t, m s = .ok u t → t.sess.link = true

/-- A step of a connect after the UART is taken. -/
structure Held (s t : State) : Prop where
  joins : Joins s t
  umode : t.umode = s.umode

theorem held_flows : Flows Held where
  refl s := ⟨joins_flows.refl s, rfl⟩
  trans h1 h2 := ⟨joins_flows.trans h1.joins h2.joins, h2.umode.trans h1.umode⟩
  armed h := joins_flows.armed h.joins
  ie h := joins_flows.ie h.joins

theorem Stays.held (h : Stays s t) : Held s t := ⟨h.joins, h.umode⟩

theorem Quiet.held (h : Quiet s t) : Held s t := h.stays.held

theorem connects_bind {R : State → State → Prop} {m : M α} {k : α → M Unit} (hm : At R s m) (hR : ∀ {a b}, R a b → Joins a b)
    (hk : ∀ a t, m s = .ok a t → R s t → Connects t (k a)) : Connects s (m >>= k) where
  keeps := at_bind_of joins_flows (hm.mono hR) fun a t e _ => (hk a t e (hm.ok e)).keeps
  links := by
    intro u t h
    obtain ⟨a, v, hv, h⟩ := bind_ok h
    exact (hk a v hv (hm.ok hv)).links u t h

/-- A step within the connect, the UART held. -/
theorem connects_held {m : M α} {k : α → M Unit} (hm : At Held s m) (hk : ∀ a t, Held s t → Connects t (k a)) :
    Connects s (m >>= k) :=
  connects_bind hm Held.joins fun a t _ => hk a t

theorem connects_setLink (hu : s.umode.isEngine = true) :
    Connects s (upd fun s => { s with sess := { s.sess with link := true } }) where
  keeps := at_setLink hu
  links _ _ h := upd_ok_field (fun x => x.sess.link) (fun _ _ => rfl) h

theorem connects_phase {n : Nat} {k : M Unit} (hk : ∀ t, Quiet s t → Connects t k) : Connects s (do phase n; k) :=
  connects_bind (at_phase n) Quiet.joins fun _ t _ => hk t

theorem connects_clear {e : Engine} {k : M Unit} (hk : ∀ t, Connects t k) : Connects s (do connectClear e; k) :=
  connects_bind (at_connectClear e) id fun _ t _ _ => hk t

theorem connects_acquire {e : Engine} {k : M Unit} (hk : ∀ t, t.umode = engineMode e → Connects t k) :
    Connects s (do connectAcquire e; k) :=
  connects_bind (at_connectAcquire e) id fun _ t h _ => hk t (connectAcquire_umode h)

theorem tpiConnectSteps_connects : Connects s tpiConnectSteps := by
  unfold tpiConnectSteps tpiConnectOpen
  simp only [bind_assoc]
  refine connects_phase fun _ _ => connects_clear fun t => connects_phase fun t0 _ => ?_
  refine connects_acquire fun t hu => connects_phase fun t1 h1 => ?_
  refine connects_held (at_upd held_flows Quiet.held fun _ _ _ => ⟨⟨rfl, fun h => h, fun h => h⟩, rfl⟩) fun _ t2 h2 => ?_
  refine connects_held (m := (get : M State)) (held_flows.refl _) fun x t3 h3 => connects_phase fun t4 h4 => ?_
  refine connects_held ((at_runScript _ _).mono Quiet.held) fun v t5 h5 => connects_phase fun t6 h6 => ?_
  have hu6 : t6.umode = .tpi := by
    rw [h6.umode, h5.umode, h4.umode, h3.umode, h2.umode, h1.umode, hu]; rfl
  have hset : ∀ t7, Held t6 t7 → Connects t7 (do
      phase 6
      upd fun s => { s with sess := { s.sess with link := true } }) :=
    fun t7 h7 => connects_phase fun t8 h8 => connects_setLink (by rw [h8.umode, h7.umode, hu6]; rfl)
  split
  · exact connects_held (at_raise held_flows _) fun _ t7 h7 => hset t7 h7
  · exact hset t6 (held_flows.refl _)

theorem pdiSignOnSteps_connects : Connects s pdiSignOnSteps := by
  refine connects_phase fun _ _ => connects_clear fun t => connects_phase fun t1 h1 => ?_
  refine connects_acquire fun t2 hu2 => connects_phase fun t3 h3 => ?_
  refine connects_held (m := (get : M State)) (held_flows.refl _) fun x t4 h4 => ?_
  refine connects_held ((at_runScript _ _).mono Quiet.held) fun _ t5 h5 => connects_phase fun t6 h6 => ?_
  refine connects_held ((at_ldcs _ _).mono Quiet.held) fun _ t7 h7 => connects_phase fun t8 h8 => connects_setLink ?_
  rw [h8.umode, h7.umode, h6.umode, h5.umode, h4.umode, h3.umode, hu2]
  rfl

theorem at_tpiConnect : At Joins s tpiConnect := (failingConnect_ends tpiConnectSteps_connects.keeps).1

theorem at_pdiSignOn : At Joins s pdiSignOn :=
  at_bind joins_flows (failingConnect_ends pdiSignOnSteps_connects.keeps).1 fun _ _ _ => at_pure joins_flows _

theorem failingConnect_link {m : M Unit} (h : Connects s m) {u : Unit} (e : failingConnect m s = .ok u t) :
    t.sess.link = true := by
  unfold failingConnect at e
  cases hm : m s with
  | ok v t' => rw [hm] at e; cases e; exact h.links _ _ hm
  | error x t' =>
    rw [hm] at e
    cases x with
    | raise c =>
      dsimp only at e
      split at e
      · cases e
      · cases e
    | expired => cases e
    | stuck => cases e
    | refused r => cases e

/-! ## A body that may connect -/

/-- How the body of a run ends: with its session whole, but where the expiry struck. -/
def EndsWhole (s : State) (m : M Res) : Prop :=
  At Joins s m ∧ (s.levelOk → s.mid → ∀ t, (∃ r, m s = .ok r t) ∨ (∃ c, m s = .error (.raise c) t) → t.sessionOk)

theorem pdiSignOn_whole : EndsWhole s pdiSignOn := by
  have h := failingConnect_ends (pdiSignOnSteps_connects (s := s)).keeps
  refine ⟨at_pdiSignOn, fun _ hm t ht => ?_⟩
  rcases ht with ⟨r, e⟩ | ⟨c, e⟩
  · obtain ⟨u, v, h1, e⟩ := bind_ok e
    cases e
    exact mid_sessionOk ((h.1.ok h1).mid hm) (failingConnect_link pdiSignOnSteps_connects h1)
  · rcases bind_error e with e | ⟨_, _, _, e⟩
    · exact h.2 c t e
    · cases e

theorem at_tpiUnlock {c : Params} (hl : s.sess.link = true) : At Stays s (tpiUnlock c) :=
  at_bind stays_flows (at_phase _).stays fun _ _ h1 => at_bind stays_flows (at_sendSyncKey _).stays fun _ _ h2 =>
    at_bind stays_flows (at_phase _).stays fun _ _ h3 => at_bind stays_flows
      (at_pollUntil (fun _ => at_ldcs _ _) _).stays fun _ _ h4 => at_bind stays_flows (at_phase _).stays fun _ _ h5 =>
    at_bind stays_flows (at_setProg (by rw [h5.link, h4.link, h3.link, h2.link, h1.link]; exact hl)) fun _ _ _ =>
    at_bind stays_flows (at_phase _).stays fun _ _ _ => at_bind stays_flows (at_tpiReadAt _ _).stays fun _ _ _ =>
    at_bind stays_flows (at_tpiChunkSet _) fun _ _ _ => at_bind stays_flows (at_phase _).stays fun _ _ _ =>
    at_pure stays_flows _

theorem stays_whole {m : M Res} (h : At Stays s m) (hl : s.sess.link = true) : EndsWhole s m := by
  refine ⟨h.mono Stays.joins, fun _ hm t ht => ?_⟩
  have hs : Stays s t := by
    rcases ht with ⟨r, e⟩ | ⟨c, e⟩
    · exact h.ok e
    · exact (h.error e).1
  exact mid_sessionOk (hs.joins.mid hm) (hs.link.trans hl)

theorem tpiEnter_whole : EndsWhole s tpiEnter := by
  by_cases hp : s.sess.prog = true
  · have e : tpiEnter s = .ok (Res.ok 1) s := by
      unfold tpiEnter
      rw [m_bind, m_get]
      simp only [hp, if_true]
      rfl
    refine ⟨by unfold At; rw [e]; exact joins_flows.refl s, fun hlev hm t ht => ?_⟩
    rw [e] at ht
    rcases ht with ⟨r, h⟩ | ⟨c, h⟩
    · cases h; exact mid_sessionOk hm (hlev hp)
    · cases h
  · have hp : s.sess.prog = false := by simpa using hp
    unfold EndsWhole At
    rw [tpiEnter_eq hp]
    by_cases hl : s.sess.link = true
    · rw [if_pos hl]
      exact stays_whole (at_bind stays_flows (at_phase _).stays fun _ _ h1 => at_tpiUnlock (h1.link.trans hl)) hl
    · rw [if_neg hl]
      have hc := fun t : State => failingConnect_ends (tpiConnectSteps_connects (s := t)).keeps
      have hk : ∀ {t u : State}, tpiConnect t = .ok () u → u.sess.link = true := fun e =>
        failingConnect_link tpiConnectSteps_connects e
      constructor
      · exact at_bind joins_flows ((at_phase 1).mono Quiet.joins) fun _ _ _ => at_bind_of joins_flows at_tpiConnect
          fun _ t e _ => (at_tpiUnlock (hk e)).mono Stays.joins
      · intro _ hm t ht
        have hq : Joins s { s with ph := 1 } := Quiet.joins ⟨rfl, id⟩
        have hend : (∃ c, tpiConnect { s with ph := 1 } = .error (.raise c) t) ∨
            ∃ u, tpiConnect { s with ph := 1 } = .ok () u ∧ Stays u t := by
          rcases ht with ⟨r, e⟩ | ⟨c, e⟩
          · obtain ⟨_, u, h1, e⟩ := bind_ok e
            cases h1
            obtain ⟨_, v, h2, e⟩ := bind_ok e
            exact .inr ⟨v, h2, (at_tpiUnlock (hk h2)).ok e⟩
          · rcases bind_error e with e | ⟨_, u, h1, e⟩
            · cases e
            · cases h1
              rcases bind_error e with e | ⟨_, v, h2, e⟩
              · exact .inl ⟨c, e⟩
              · exact .inr ⟨v, h2, ((at_tpiUnlock (hk h2)).error e).1⟩
        rcases hend with ⟨c, e⟩ | ⟨u, e, hs⟩
        · exact (hc _).2 c t e
        · have hu : u.mid := (at_tpiConnect.ok e).mid (hq.mid hm)
          exact mid_sessionOk (hs.joins.mid hu) (hs.link.trans (hk e))

end

/-! ## The supervisor -/

/-- The state but for what the supervisor writes. -/
def State.calm (s : State) : State := { s.bare with wdArmed := false, wdDeadline := 0, clk := 0 }

/-- What the supervisor itself keeps. -/
structure Mild (s t : State) : Prop where
  calm : t.calm = s.calm
  sound : s.sound → t.sound

section
variable {s t u : State}

theorem mild_refl (s : State) : Mild s s := ⟨rfl, id⟩

theorem mild_trans (h1 : Mild s t) (h2 : Mild t u) : Mild s u := ⟨h2.calm.trans h1.calm, h2.sound ∘ h1.sound⟩

theorem Mild.ie (h : Mild s t) : t.env.ie = s.env.ie :=
  show t.calm.env.ie = s.calm.env.ie from congrArg (fun x => x.env.ie) h.calm

theorem Quiet.mild (h : Quiet s t) : Mild s t where
  calm := by
    show ({ t.bare with wdArmed := false, wdDeadline := 0, clk := 0 } : State) = _
    rw [h.bare]; rfl
  sound := h.stays.sound

theorem boundary_unarmed (h : s.wdArmed = false) : boundary s = .ok () s.elapse := by
  rcases boundary_cases s with ⟨hd, _⟩ | ⟨_, e⟩
  · have := (due_mayStop hd).1
    rw [quiet_flows.armed (elapse_quiet s), h] at this; cases this
  · exact e

theorem act_unarmed (e : WireEvent) (h : s.wdArmed = false) : ∃ t, act e s = .ok () t ∧ Quiet s t := by
  refine ⟨s.elapse.record e, ?_, quiet_flows.trans (elapse_quiet s) ⟨rfl, id⟩⟩
  unfold act regs
  rw [m_bind, boundary_unarmed h]
  rfl

theorem drive_unarmed (e : Engine) (ev : WireEvent) (h : s.wdArmed = false) : ∃ t, drive e ev s = .ok () t ∧ Quiet s t := by
  refine ⟨(s.elapse.driveTdat e).record ev, ?_, quiet_flows.trans (elapse_quiet s) ⟨rfl, id⟩⟩
  unfold drive regs
  rw [m_bind, boundary_unarmed h]
  rfl

theorem upd_unarmed (f : State → State) (h : s.wdArmed = false) : upd f s = .ok () (s.elapse.write f) := by
  unfold upd
  rw [m_bind, boundary_unarmed h]
  rfl

/-- With the countdown off the fallback ends, whatever it answers (R146, R201). -/
theorem fallbackRun_ends (fb : FallbackSel) (h : s.wdArmed = false) : ∃ n t, fallbackRun fb s = .ok n t ∧ Mild s t ∧
    t.wdArmed = false := by
  cases fb with
  | absent => exact ⟨0, s, rfl, mild_refl s, h⟩
  | updi =>
    show ∃ n t, updiFallback s = .ok n t ∧ _
    unfold updiFallback
    rw [m_bind, m_get]
    cases hc : clkLower s.cfg s.clk with
    | none => exact ⟨0, s, by simp only [hc]; rfl, mild_refl s, h⟩
    | some c =>
      simp only [hc]
      rw [m_bind, upd_unarmed _ h]
      have hq := elapse_quiet s
      have hw : s.elapse.write (fun s => { s with clk := c }) = { s.elapse with clk := c } := State.write_quiet rfl
      rw [hw]
      have h0 : Mild s { s.elapse with clk := c } := mild_trans hq.mild ⟨rfl, fun ⟨h1, h2, h3, h4, _, h6⟩ =>
        ⟨h1, h2, h3, h4, clkLower_legal (show clkParamsOk s.cfg = true by rw [← hq.stays.cfg]; exact h4) hc, h6⟩⟩
      have ha : ({ s.elapse with clk := c } : State).wdArmed = false := (quiet_flows.armed hq).trans h
      dsimp only
      rw [m_bind]
      unfold attention
      rw [m_bind, m_get]
      dsimp only
      obtain ⟨t1, e1, q1⟩ := drive_unarmed .updi (.attnLow ({ s.elapse with clk := c } : State).cfg.updi.attnLowUs) ha
      have a1 := (quiet_flows.armed q1).trans ha
      rw [m_bind, e1]
      obtain ⟨t2, e2, q2⟩ := drive_unarmed .updi (.attnHigh ({ s.elapse with clk := c } : State).cfg.updi.attnHighUs) a1
      have a2 := (quiet_flows.armed q2).trans a1
      dsimp only
      rw [m_bind, e2]
      dsimp only
      have q2' : Quiet t1 t2.freeTdat := quiet_flows.trans q2 ⟨rfl, id⟩
      obtain ⟨t3, e3, q3⟩ := act_unarmed (.rateSet t2.freeTdat.clk) (s := t2.freeTdat) a2
      refine ⟨1, t3, ?_, mild_trans h0 (mild_trans q1.mild (mild_trans q2'.mild q3.mild)), (quiet_flows.armed q3).trans a2⟩
      show (lineConfig >>= fun _ => pure 1) t2.freeTdat = _
      unfold lineConfig
      rw [m_bind, m_bind, m_get]
      dsimp only
      rw [e3]
      rfl

/-- How the loop of a run ends: with its operation's last state, or giving up (R142 to R148, R154). -/
theorem runLoop_keeps {P Q : State → Prop} {op : M Res} {fb : FallbackSel} (hQP : ∀ t, Q t → P t)
    (hP : ∀ s t, P s → Mild s t → P t) (hQ : ∀ s t, Q s → Mild s t → Q t)
    (hb : ∀ s, P s → s.wdArmed = true → s.env.ie = true →
      (∃ r t, op s = .ok r t ∧ Q t ∧ t.env.ie = true) ∨
      (∃ c t, op s = .error (.raise c) t ∧ Q t ∧ t.env.ie = true) ∨
      (∃ t, op s = .error .expired t ∧ P t ∧ t.env.ie = true)) :
    ∀ n s, P s → s.env.ie = true → s.wdArmed = false → ∃ r t, runLoop op fb n s = .ok r t ∧ t.env.ie = true ∧
      t.wdArmed = false ∧ (Q t ∨ r = Res.fail .timeout ∧ P t)
  | 0, s, h, hi, ha => ⟨Res.fail .timeout, s, rfl, hi, ha, .inr ⟨rfl, h⟩⟩
  | n + 1, s, h, hi, ha => by
    have hrec : ∀ t, P t → t.env.ie = true → ∃ r u, recovery fb (runLoop op fb n) t = .ok r u ∧ u.env.ie = true ∧
        u.wdArmed = false ∧ (Q u ∨ r = Res.fail .timeout ∧ P u) := by
      intro t ht hti
      have hd : Mild t t.divert := ⟨rfl, id⟩
      obtain ⟨k, u, e, hm, hu⟩ := fallbackRun_ends fb (s := t.divert) rfl
      have hPu := hP t u ht (mild_trans hd hm)
      have hiu : u.env.ie = true := hm.ie.trans hti
      unfold recovery
      rw [e]
      dsimp only
      by_cases hk : k = 0
      · rw [if_pos hk]; exact ⟨_, u, rfl, hiu, hu, .inr ⟨rfl, hPu⟩⟩
      · rw [if_neg hk]; exact runLoop_keeps hQP hP hQ hb n u hPu hiu hu
    have hm : Mild s s.arm := ⟨rfl, id⟩
    have he : ∀ t : State, Mild t t.elapse := fun t => (elapse_quiet t).mild
    rcases hb s.arm (hP _ _ h hm) rfl hi with ⟨r, t, e, hq, hti⟩ | ⟨c, t, e, hq, hti⟩ | ⟨t, e, hp, hti⟩
    all_goals
      unfold runLoop
      rw [e]
      dsimp only
    · split
      · exact hrec _ (hP _ _ (hQP t hq) (he t)) ((he t).ie.trans hti)
      · exact ⟨r, t.elapse.disarm, rfl, (he t).ie.trans hti, rfl, .inl (hQ _ _ hq (mild_trans (he t) ⟨rfl, id⟩))⟩
    · split
      · exact hrec _ (hP _ _ (hQP t hq) (he t)) ((he t).ie.trans hti)
      · exact ⟨_, t.elapse.disarm, rfl, (he t).ie.trans hti, rfl, .inl (hQ _ _ hq (mild_trans (he t) ⟨rfl, id⟩))⟩
    · exact hrec t hp hti

/-- A run that is not refused ends (R140 to R155). -/
theorem supervise_keeps {P Q : State → Prop} {op : M Res} {fb : FallbackSel} {d : Half} (hQP : ∀ t, Q t → P t)
    (hP : ∀ s t, P s → Mild s t → P t) (hQ : ∀ s t, Q s → Mild s t → Q t)
    (hb : ∀ s, P s → s.wdArmed = true → s.env.ie = true →
      (∃ r t, op s = .ok r t ∧ Q t ∧ t.env.ie = true) ∨
      (∃ c t, op s = .error (.raise c) t ∧ Q t ∧ t.env.ie = true) ∨
      (∃ t, op s = .error .expired t ∧ P t ∧ t.env.ie = true))
    (h : P s) (hi : s.env.ie = true) (ha : s.wdArmed = false) (hd : d ≠ 0) :
    ∃ r t, supervise op fb d s = .ok r t ∧ t.env.ie = true ∧ t.wdArmed = false ∧
      (Q t ∨ r = Res.fail .timeout ∧ P t) := by
  unfold supervise
  rw [hi, ha]
  simp only [Bool.true_eq_false, if_false, Bool.false_eq_true, hd]
  exact runLoop_keeps hQP hP hQ hb _ _ (hP s _ h ⟨rfl, id⟩) hi rfl

/-! ## Runs -/

theorem runBody_stays {op : RunOp} (h : connects op = false) : At Stays s (runBody op) := by
  cases op with
  | connectAttempt => exact at_connectAttempt
  | updiSignOffWire => exact at_updiSignOffWire.stays
  | updiEnterProgmode => exact at_updiEnter
  | updiLeaveProgmode => exact at_updiLeave
  | updiErase => exact at_updiErase
  | updiRead => exact at_updiRead.stays
  | updiWrite => exact at_updiWrite
  | tpiEnterProgmode => exact absurd h (by decide)
  | tpiLeaveWire => exact at_tpiLeaveWire.stays
  | tpiErase => exact at_tpiErase
  | tpiWrite => exact at_tpiWrite.stays
  | tpiRead => exact at_tpiRead.stays
  | pdiSignOn => exact absurd h (by decide)
  | pdiSignOffWire => exact at_pdiSignOffWire.stays
  | pdiEnterProgmode => exact at_pdiEnter
  | pdiLeaveProgmode => exact at_pdiLeave
  | pdiErase => exact at_pdiErase
  | pdiRead => exact at_pdiRead.stays
  | pdiWrite => exact at_pdiWrite.stays

/-- What an operation and its run keep. -/
def State.kept (s : State) : State := s.fixed.calm

theorem Joins.kept (h : Joins s t) : t.kept = s.kept := congrArg State.calm h.fixed

theorem Mild.kept (h : Mild s t) : t.kept = s.kept := by
  have e : ∀ x : State, x.kept = x.calm.fixed := fun _ => rfl
  rw [e, e, h.calm]

theorem Mild.mid (h : Mild s t) (hm : s.mid) : t.mid := by
  have e1 : t.sess = s.sess := show t.calm.sess = s.calm.sess from congrArg State.sess h.calm
  have e2 : t.ct = s.ct := show t.calm.ct = s.calm.ct from congrArg State.ct h.calm
  have e3 : t.umode = s.umode := show t.calm.umode = s.calm.umode from congrArg State.umode h.calm
  unfold State.mid; rw [e1, e2, e3]; exact hm

theorem Mild.sessionOk (h : Mild s t) (hm : s.sessionOk) : t.sessionOk := by
  have e1 : t.sess = s.sess := show t.calm.sess = s.calm.sess from congrArg State.sess h.calm
  have e2 : t.ct = s.ct := show t.calm.ct = s.calm.ct from congrArg State.ct h.calm
  have e3 : t.umode = s.umode := show t.calm.umode = s.calm.umode from congrArg State.umode h.calm
  unfold State.sessionOk; rw [e1, e2, e3]; exact hm

theorem Stays.sessionOk (h : Stays s t) (hm : s.sessionOk) : t.sessionOk := by
  unfold State.sessionOk; rw [h.link, h.ct, h.umode]; exact hm

/-- The three ways a body ends under an armed countdown. -/
theorem at_armed {R : State → State → Prop} {op : M Res} (h : At R s op) (ha : s.wdArmed = true) (hi : s.env.ie = true) :
    (∃ r t, op s = .ok r t ∧ R s t) ∨ (∃ c t, op s = .error (.raise c) t ∧ R s t) ∨
    (∃ t, op s = .error .expired t ∧ R s t) := by
  unfold At at h
  cases e : op s with
  | ok r t => rw [e] at h; exact .inl ⟨r, t, rfl, h⟩
  | error x t =>
    rw [e] at h
    cases x with
    | raise c => exact .inr (.inl ⟨c, t, rfl, h.1⟩)
    | expired => exact .inr (.inr ⟨t, rfl, h.1⟩)
    | stuck => rcases h.2 with h | h <;> simp_all
    | refused r => exact h.2.elim

/-- How the run of an operation ends: sound, with a whole session but where a connect gave up. -/
theorem superviseBody_ends {op : RunOp} {fb : FallbackSel} {d : Half} (hi : s.env.ie = true) (ha : s.wdArmed = false)
    (hd : d ≠ 0) : ∃ r t, supervise (runBody op) fb d s = .ok r t ∧ t.env.ie = true ∧
      t.wdArmed = false ∧ t.kept = s.kept ∧ (s.sound → t.sound ∧ (s.sessionOk → t.mid) ∧
      (s.sessionOk → connects op = false ∨ r ≠ Res.fail .timeout → t.sessionOk)) := by
  have hbody : ∃ r t, supervise (runBody op) fb d s = .ok r t ∧ t.env.ie = true ∧ t.wdArmed = false ∧
      ((t.kept = s.kept ∧ (s.sound → t.sound ∧ (s.sessionOk → t.sessionOk))) ∨ r = Res.fail .timeout ∧
        (t.kept = s.kept ∧ (s.sound → t.sound ∧ (s.sessionOk → if connects op = true then t.mid else t.sessionOk)))) := by
    refine supervise_keeps
      (Q := fun t => t.kept = s.kept ∧ (s.sound → t.sound ∧ (s.sessionOk → t.sessionOk)))
      (P := fun t => t.kept = s.kept ∧ (s.sound → t.sound ∧ (s.sessionOk → if connects op = true then t.mid else t.sessionOk)))
      ?_ ?_ ?_ ?_ ⟨rfl, fun hs => ⟨hs, fun h => ?_⟩⟩ hi ha hd
    · intro t ⟨h1, h2⟩
      refine ⟨h1, fun hs => ⟨(h2 hs).1, fun h => ?_⟩⟩
      split
      · exact sessionOk_mid ((h2 hs).2 h)
      · exact (h2 hs).2 h
    · intro t u ⟨h1, h2⟩ hm
      refine ⟨hm.kept.trans h1, fun hs => ⟨hm.sound (h2 hs).1, fun h => ?_⟩⟩
      have h3 := (h2 hs).2 h
      cases hc : connects op <;> simp only [hc, if_true, Bool.false_eq_true, if_false] at h3 ⊢
      · exact hm.sessionOk h3
      · exact hm.mid h3
    · intro t u ⟨h1, h2⟩ hm
      exact ⟨hm.kept.trans h1, fun hs => ⟨hm.sound (h2 hs).1, fun h => hm.sessionOk ((h2 hs).2 h)⟩⟩
    · intro t ⟨h1, h2⟩ hta hti
      cases hc : connects op with
      | false =>
        simp only [hc, Bool.false_eq_true, if_false] at h2 ⊢
        have hk : ∀ {u}, Stays t u → (u.kept = s.kept ∧ (s.sound → u.sound ∧ (s.sessionOk → u.sessionOk))) ∧
            u.env.ie = true := fun h => ⟨⟨h.joins.kept.trans h1, fun hs =>
              ⟨h.sound (h2 hs).1, fun x => h.sessionOk ((h2 hs).2 x)⟩⟩, (stays_flows.ie h).trans hti⟩
        rcases at_armed (runBody_stays (s := t) hc) hta hti with ⟨r, u, e, h⟩ | ⟨r, u, e, h⟩ | ⟨u, e, h⟩
        · exact .inl ⟨r, u, e, hk h⟩
        · exact .inr (.inl ⟨r, u, e, hk h⟩)
        · exact .inr (.inr ⟨u, e, hk h⟩)
      | true =>
        simp only [hc, if_true] at h2 ⊢
        have hw : EndsWhole t (runBody op) := by
          cases op with
          | tpiEnterProgmode => exact tpiEnter_whole
          | pdiSignOn => exact pdiSignOn_whole
          | _ => exact absurd hc (by decide)
        have hk : ∀ {u}, Joins t u → ((∃ r, runBody op t = .ok r u) ∨ ∃ c, runBody op t = .error (.raise c) u) →
            (u.kept = s.kept ∧ (s.sound → u.sound ∧ (s.sessionOk → u.sessionOk))) ∧ u.env.ie = true := fun h he =>
          ⟨⟨h.kept.trans h1, fun hs => ⟨h.sound (h2 hs).1, fun x => hw.2 (h2 hs).1.2.1 ((h2 hs).2 x) _ he⟩⟩,
            (joins_flows.ie h).trans hti⟩
        rcases at_armed hw.1 hta hti with ⟨r, u, e, h⟩ | ⟨r, u, e, h⟩ | ⟨u, e, h⟩
        · exact .inl ⟨r, u, e, hk h (.inl ⟨r, e⟩)⟩
        · exact .inr (.inl ⟨r, u, e, hk h (.inr ⟨r, e⟩)⟩)
        · exact .inr (.inr ⟨u, e, ⟨h.kept.trans h1, fun hs => ⟨h.sound (h2 hs).1, fun x => h.mid ((h2 hs).2 x)⟩⟩,
            (joins_flows.ie h).trans hti⟩)
    · split
      · exact sessionOk_mid h
      · exact h
  obtain ⟨r, t, e, h1, h2, h3⟩ := hbody
  refine ⟨r, t, e, h1, h2, ?_⟩
  rcases h3 with ⟨h3, h4⟩ | ⟨hr, h3, h4⟩
  · exact ⟨h3, fun hs => ⟨(h4 hs).1, fun h => sessionOk_mid ((h4 hs).2 h), fun h _ => (h4 hs).2 h⟩⟩
  · refine ⟨h3, fun hs => ⟨(h4 hs).1, fun h => ?_, fun h hc => ?_⟩⟩
    · have h5 := (h4 hs).2 h
      split at h5
      · exact h5
      · exact sessionOk_mid h5
    · rcases hc with hc | hc
      · simpa [hc] using (h4 hs).2 h
      · exact absurd hr hc

theorem gaveUp_keeps (op : RunOp) : (s.gaveUp op).fixed = s.fixed ∧ (s.sound → (s.gaveUp op).sound) := by
  unfold State.gaveUp
  have h : ∀ t : State, t.fixed = s.fixed → (s.sound → t.sound) →
      (if failsConnect op s = true then t.connectFailed else t).fixed = s.fixed ∧
      (s.sound → (if failsConnect op s = true then t.connectFailed else t).sound) := by
    intro t h1 h2
    split
    · exact ⟨(connectFailed_fixed t).trans h1, fun hs => connectFailed_sound (h2 hs)⟩
    · exact ⟨h1, h2⟩
  refine h _ ?_ ?_
  · split
    · exact linkLoss_fixed s
    · rfl
  · split
    · exact linkLoss_sound
    · exact id

/-- A connecting operation whose give-up is no failed connect has a link. -/
theorem link_of_not_failsConnect {op : RunOp} (hc : connects op = true) (hf : failsConnect op s = false)
    (hl : s.levelOk) : s.sess.link = true := by
  cases op with
  | tpiEnterProgmode =>
    simp only [failsConnect, Bool.and_eq_false_iff, Bool.not_eq_false'] at hf
    exact hf.elim (fun h => hl h) id
  | pdiSignOn => cases hf
  | _ => cases hc

theorem gaveUp_sessionOk (op : RunOp) (hm : s.mid) (hl : s.levelOk) (h : connects op = true ∨ s.sessionOk) :
    (s.gaveUp op).sessionOk := by
  unfold State.gaveUp
  dsimp only
  split
  · exact connectFailed_sessionOk _
  · next hf =>
    split
    · exact linkLoss_sessionOk s
    · exact h.elim (fun hc => mid_sessionOk hm (link_of_not_failsConnect hc (by simpa using hf) hl)) id

/-- How `WD.RUN` of an operation ends (R140 to R155, R203). -/
theorem runWith_ends {op : RunOp} {fb : FallbackSel} {d : Half} (hi : s.env.ie = true) (ha : s.wdArmed = false)
    (hd : d ≠ 0) : ∃ r t, runWith op fb d s = .ok r t ∧ t.wdArmed = false ∧ t.env.ie = true ∧
      t.kept = s.kept ∧ (s.sound → t.sound ∧ (s.sessionOk → t.sessionOk)) := by
  obtain ⟨r, t, e, h1, h2, h3, h4⟩ := superviseBody_ends (op := op) (fb := fb) hi ha hd
  unfold runWith
  rw [m_bind, e]
  dsimp only
  by_cases hc : r.cause = some .timeout
  · rw [if_pos hc, m_bind, upd_unarmed _ h2]
    have hq := elapse_quiet t
    obtain ⟨hg1, hg2⟩ := gaveUp_keeps (s := t.elapse) op
    obtain ⟨l, hw⟩ := write_hist (State.gaveUp op) t.elapse
    have hf : (t.elapse.gaveUp op).fixed = t.fixed := hg1.trans hq.joins.fixed
    refine ⟨r, _, rfl, ?_, ?_, ?_, fun hs => ⟨?_, fun h => ?_⟩⟩
    all_goals rw [hw]
    · exact (show (t.elapse.gaveUp op).fixed.wdArmed = t.fixed.wdArmed from congrArg State.wdArmed hf).trans h2
    · exact (show (t.elapse.gaveUp op).fixed.env.ie = t.fixed.env.ie from congrArg (fun x => x.env.ie) hf).trans h1
    · exact (show (t.elapse.gaveUp op).fixed.calm = t.fixed.calm from congrArg State.calm hf).trans h3
    · exact hg2 (hq.stays.sound (h4 hs).1)
    · refine gaveUp_sessionOk op (hq.joins.mid ((h4 hs).2.1 h)) (hq.stays.sound (h4 hs).1).2.1 ?_
      cases hop : connects op
      · exact .inr (hq.stays.sessionOk ((h4 hs).2.2 h (.inl hop)))
      · exact .inl rfl
  · rw [if_neg hc]
    refine ⟨r, t, rfl, h2, h1, h3, fun hs => ⟨(h4 hs).1, fun h => (h4 hs).2.2 h (.inr ?_)⟩⟩
    rintro rfl
    exact hc rfl

end

end Sys2Proof.Machine
end

