-- ==== Sys2Proof/Tests/Slice0.lean ====
section
/-! SUPPORT. Tests: ill-formed terms, decoding of words written out from 30_encoding.md, one step of each instruction
against the vectors of spec/95_test_vectors.md, and, at the end, witnesses: for every statement with hypotheses, states
and operands that meet them. Expected bytes and values are the vectors' or computed by hand from the rules cited. -/

namespace Sys2Proof.Tests

open Sys2Proof Sys2Proof.Machine

set_option Elab.async false

/-! ## Ill-formed terms: one for each check -/

/-- More data than `len` says (R100). -/
theorem test_wf_updi_data_over_len : (Instr.updiWriteMemory 0xB0 0x8000 1 [1, 2]).wf Config.defaultScopes = false := by
  decide +kernel

theorem test_wf_pdi_data_over_len : (Instr.pdiWriteMemory 0xB0 0 0 [1]).wf Config.defaultScopes = false := by
  decide +kernel

/-- A record over the inbound cap of 540 bytes (R110). -/
theorem test_wf_tpi_record_over_cap :
    (Instr.tpiWriteMem 1 0 600 (List.replicate 528 0)).wf Config.defaultScopes = false := by
  decide +kernel

theorem test_wf_record_at_cap : (Instr.tpiWriteMem 1 0 527 (List.replicate 527 0)).wf Config.defaultScopes = true := by
  decide +kernel

/-- A parameter that has a form of its own (R109). -/
theorem test_wf_named_parameter : (Instr.sysSetParameter (.other 1 [5])).wf Config.defaultScopes = false := by
  decide +kernel

theorem test_wf_parameter_over_cap :
    (Instr.sysSetParameter (.other 9 (List.replicate 536 0))).wf Config.defaultScopes = false := by
  decide +kernel

theorem test_wf_tpi_param_over_cap : (Instr.tpiSetParam (List.replicate 537 0)).wf Config.defaultScopes = false := by
  decide +kernel

/-- A code that is assigned is no unknown command; which codes the TPI scope assigns is a parameter (R102, R104). -/
theorem test_wf_assigned_code :
    (Instr.unknown .avr 0x21).wf Config.defaultScopes = false ∧
    (Instr.unknown .tpi 0x06).wf Config.defaultScopes = false ∧
    (Instr.unknown .tpi 0x46).wf Config.defaultScopes = true := by
  decide +kernel

/-- A pointer with a bit above its bytes (R71). -/
theorem test_wf_pointer_too_wide :
    (Instr.updiStPtr .two 0x10000).wf Config.defaultScopes = false ∧
    (Instr.updiStPtr .three 0x1000000).wf Config.defaultScopes = false := by
  decide +kernel

/-! ## Decoding: words written out from the tables of 30_encoding.md and of the opcode table -/

/-- The decoder names the instruction. -/
def names (a : Arch) (r : List Byte) (i : Instr) : Bool :=
  match decode Config.defaultScopes a r with
  | .ok j => decide (j = i)
  | .error _ => false

/-- The decoder names no instruction, for this reason. -/
def rejects (a : Arch) (r : List Byte) (e : DecodeError) : Bool :=
  match decode Config.defaultScopes a r with
  | .ok _ => false
  | .error f => decide (f = e)

/-- The AVR-core scope 0x12: seq, operands little-endian; `ARCH` selects the engine (R100, R102, R103, E1). -/
theorem test_decode_updi_operations :
    names .updi [0b00010000, 0x12, 0, 0] .updiSignOn ∧ names .updi [0b00010001, 0x12, 0, 0] .updiSignOff ∧
    names .updi [0b00010101, 0x12, 0, 0] .updiEnterProgmode ∧
    names .updi [0b00010110, 0x12, 0, 0] .updiLeaveProgmode ∧
    names .updi [0b00100000, 0x12, 0, 0, 0x04, 0x10, 0x80, 0, 0] (.updiEraseMemory 4 0x8010) ∧
    names .updi [0b00100001, 0x12, 0, 0, 0xD3, 0, 0, 0, 0, 32, 0, 0, 0] (.updiReadMemory 0xD3 0 32) ∧
    names .updi [0b00100011, 0x12, 0, 0, 0xB2, 0x80, 0x12, 0, 0, 1, 0, 0, 0, 0xC4]
      (.updiWriteMemory 0xB2 0x1280 1 [0xC4]) := by decide +kernel

theorem test_decode_pdi_operations :
    names .pdi [0b00010000, 0x12, 0, 0] .pdiSignOn ∧ names .pdi [0b00010001, 0x12, 0, 0] .pdiSignOff ∧
    names .pdi [0b00010101, 0x12, 0, 0] .pdiEnterProgmode ∧ names .pdi [0b00010110, 0x12, 0, 0] .pdiLeaveProgmode ∧
    names .pdi [0b00100000, 0x12, 0, 0, 0x00, 0, 0, 0, 0] (.pdiEraseMemory 0 0) ∧
    names .pdi [0b00100001, 0x12, 0, 0, 0xB4, 0x90, 0, 0, 1, 3, 0, 0, 0] (.pdiReadMemory 0xB4 0x01000090 3) ∧
    names .pdi [0b00100011, 0x12, 0, 0, 0xB2, 0x21, 0, 0x8F, 0, 1, 0, 0, 0, 0xFE]
      (.pdiWriteMemory 0xB2 0x008F0021 1 [0xFE]) := by decide +kernel

/-- The TPI scope 0x14: fields big-endian (R73, R104, R105; E1, P2). -/
theorem test_decode_tpi_operations :
    names .unset [0b00000001, 0x14, 0, 0] .tpiEnterProgmode ∧ names .unset [0b00000010, 0x14, 0, 0] .tpiLeaveProgmode ∧
    names .unset [0b00000011, 0x14, 0, 0, 1, 0, 0, 0x40, 0x00] (.tpiErase 1 0x4000) ∧
    names .unset [0b00000100, 0x14, 0, 0, 1, 0, 0, 0x40, 0x01, 0, 0, 0, 3, 0x11, 0x22, 0x33]
      (.tpiWriteMem 1 0x4001 3 [0x11, 0x22, 0x33]) ∧
    names .unset [0b00000101, 0x14, 0, 0, 1, 0, 0, 0x40, 0x00, 0, 0, 0, 4] (.tpiReadMem 1 0x4000 4) ∧
    names .unset [0b00000110, 0x14, 0, 0] .tpiCrc ∧
    names .unset [0b00000111, 0x14, 0, 0, 7, 8] (.tpiSetParam [7, 8]) := by decide +kernel

/-- Parameter commands and unassigned codes, 0x22 among them (R109, R113, E1). -/
theorem test_decode_parameters_and_unknown :
    names .unset [0b00000001, 0x12, 0, 0, 1, 5] (.sysSetParameter (.arch 5)) ∧
    names .unset [0b00000010, 0x12, 0, 0, 3] (.sysGetParameter 3) ∧
    names .updi [0b00100010, 0x12, 0, 0] (.unknown .avr 0x22) ∧ names .pdi [0b11111111, 0x12, 0, 0] (.unknown .avr 0xFF) ∧
    names .updi [0b00001000, 0x14, 0, 0] (.unknown .tpi 8) := by decide +kernel

/-- A record that ends before its fields do, and a scope that is not TPB's (R101, R112). -/
theorem test_decode_rejects :
    rejects .updi [0x21, 0x12, 0, 0, 0xD3, 0, 0] .truncated ∧ rejects .updi [0x01, 0x20, 0, 0] .foreignScope ∧
    rejects .updi [0x01, 0x55, 0, 0] .unknownScope ∧ rejects .updi [0x00, 0xA0, 0, 0] .reserved := by decide +kernel

/-- UPDI: `01010101`, `1000rrrr`, `1100rrrr`, `11100000`, `11100110`, `011010aa`, `10100000`, `0010010d`, `0110010d`
(R119; the operand bytes after them). -/
theorem test_decode_updi_wire :
    names .unset [0b01010101, 0xA0, 0, 0] .updiSynch ∧ names .unset [0b10000111, 0xA0, 0, 0] (.updiLdcs 7) ∧
    names .unset [0b11000010, 0xA0, 0, 0, 0x0E] (.updiStcs 2 0x0E) ∧
    names .unset [0b11100000, 0xA0, 0, 0, 1] (.updiKey .erase) ∧ names .unset [0b11100110, 0xA0, 0, 0] .updiSib ∧
    names .unset [0b01101001, 0xA0, 0, 0, 0x02, 0x10, 0, 0] (.updiStPtr .two 0x1002) ∧
    names .unset [0b01101010, 0xA0, 0, 0, 0x56, 0x34, 0x12, 0] (.updiStPtr .three 0x123456) ∧
    names .unset [0b10100000, 0xA0, 0, 0, 0x3F] (.updiRepeat 0x3F) ∧
    names .unset [0b00100100, 0xA0, 0, 0, 1] (.updiLdInc8 1) ∧ names .unset [0b00100101, 0xA0, 0, 0, 0] (.updiLdInc16 0) ∧
    names .unset [0b01100100, 0xA0, 0, 0, 0xAA] (.updiStInc8 [0xAA]) ∧
    names .unset [0b01100101, 0xA0, 0, 0, 1, 2] (.updiStInc16 [1, 2]) := by decide +kernel

/-- TPI: `1000rrrr`, `1100rrrr`, `11100000`, `0110100h`, `00100100`, `01100100`, `1aa1aaaa`, `0aa1aaaa`: SOUT of 0x33 is
0xF3, SIN of 0x32 is 0x72 (R221, T-op). -/
theorem test_decode_tpi_wire :
    names .unset [0b10001111, 0xA1, 0, 0] (.tpiLdcs 0xF) ∧ names .unset [0b11000010, 0xA1, 0, 0, 7] (.tpiStcs 2 7) ∧
    names .unset [0b11100000, 0xA1, 0, 0] .tpiKey ∧ names .unset [0b01101000, 0xA1, 0, 0, 0xC0] (.tpiSetPtrLo 0xC0) ∧
    names .unset [0b01101001, 0xA1, 0, 0, 0x3F] (.tpiSetPtrHi 0x3F) ∧ names .unset [0b00100100, 0xA1, 0, 0] .tpiLdInc ∧
    names .unset [0b01100100, 0xA1, 0, 0, 0xFF] (.tpiStInc 0xFF) ∧
    names .unset [0b11110011, 0xA1, 0, 0, 0x1D] (.tpiSout 0x33 0x1D) ∧
    names .unset [0b01110010, 0xA1, 0, 0] (.tpiSin 0x32) := by decide +kernel

/-- PDI: `1000rrrr`, `1100rrrr`, `11100000`, `01001100`, `00001100`, `01101011`, `10100000`, `00100100`, `01100100`
(R121, R251; D3, D7). -/
theorem test_decode_pdi_wire :
    names .unset [0b10000000, 0xA2, 0, 0] (.pdiLdcs 0) ∧ names .unset [0b11000001, 0xA2, 0, 0, 0x59] (.pdiStcs 1 0x59) ∧
    names .unset [0b11100000, 0xA2, 0, 0] .pdiKey ∧
    names .unset [0b01001100, 0xA2, 0, 0, 0xCA, 1, 0, 1, 0x43] (.pdiSts8 0x010001CA 0x43) ∧
    names .unset [0b00001100, 0xA2, 0, 0, 0xCF, 1, 0, 1] (.pdiLds8 0x010001CF) ∧
    names .unset [0b01101011, 0xA2, 0, 0, 0, 0x20, 0, 1] (.pdiSetPtr 0x01002000) ∧
    names .unset [0b10100000, 0xA2, 0, 0, 3] (.pdiRepeat 3) ∧ names .unset [0b00100100, 0xA2, 0, 0, 3] (.pdiLdInc 3) ∧
    names .unset [0b01100100, 0xA2, 0, 0, 9, 8] (.pdiStInc [9, 8]) := by decide +kernel

/-- The rows without an encoding in the spec, in the model's own numbering (log 1). -/
theorem test_decode_internal_updi :
    names .unset [0, 0xA3, 0, 0, 5, 1, 0x20, 0x03] (.wdRun .updiRead .updi 800) ∧
    names .unset [1, 0xA3, 0, 0] .updiLineConfig ∧ names .unset [2, 0xA3, 0, 0] .updiAttention ∧
    names .unset [3, 0xA3, 0, 0, 0x55] (.updiTx 0x55) ∧ names .unset [4, 0xA3, 0, 0] .updiRx ∧
    names .unset [5, 0xA3, 0, 0] .updiHandshake ∧ names .unset [6, 0xA3, 0, 0] .updiConnectAttempt ∧
    names .unset [7, 0xA3, 0, 0] .updiBindVariant ∧
    names .unset [8, 0xA3, 0, 0, 1, 0, 0x80, 0, 0, 1, 2] (.updiCssBracket .word 0x8000 [1, 2]) ∧
    names .unset [9, 0xA3, 0, 0] .updiChipErase ∧
    names .unset [10, 0xA3, 0, 0, 0, 0x13, 0, 0, 0xA5] (.updiUserrowCeremony 0x1300 [0xA5]) ∧
    names .unset [11, 0xA3, 0, 0, 3, 0, 0, 0] (.updiSignatureDummy 3) ∧ names .unset [12, 0xA3, 0, 0] .updiFallback ∧
    names .unset [13, 0xA3, 0, 0] .linkLoss := by decide +kernel

theorem test_decode_internal_engines :
    names .unset [14, 0xA3, 0, 0] .tpiConnect ∧
    names .unset [15, 0xA3, 0, 0, 0x1E, 0x91, 0x0F] (.tpiChunkLookup 0x1E 0x91 0x0F) ∧
    names .unset [16, 0xA3, 0, 0, 0, 0, 0x20, 0, 1, 3] (.pdiBlock 0x01002000 (.recv 3)) ∧
    names .unset [16, 0xA3, 0, 0, 1, 0, 0x20, 0, 1, 9] (.pdiBlock 0x01002000 (.send [9])) ∧
    names .unset [17, 0xA3, 0, 0, 0xB2, 0x21, 0, 0x8F, 0, 0xFE] (.pdiNvmSequence 0xB2 0x008F0021 [0xFE]) ∧
    names .unset [18, 0xA3, 0, 0, 1, 4] (.nvmCtl (.cmd 4)) ∧ names .unset [18, 0xA3, 0, 0, 0] (.nvmCtl .wait) ∧
    names .unset [19, 0xA3, 0, 0, 1, 0x60, 0x80, 0, 0, 64, 0, 0, 0] (.nvmPage (.check 0x8060 64)) ∧
    names .unset [20, 0xA3, 0, 0, 1, 64, 0, 0, 0, 0xB0, 0, 0x80, 0, 0, 9]
      (.nvmWriteMethod (.explicit 64) 0xB0 0x8000 [9]) ∧
    names .unset [21, 0xA3, 0, 0, 0xB0, 0, 0x80, 0, 0, 9] (.nvmV0WriteMemory 0xB0 0x8000 [9]) ∧
    names .unset [22, 0xA3, 0, 0, 0xC4, 0x82, 0x12, 0, 0] (.nvmV0WriteFuse 0x1282 0xC4) ∧
    names .unset [23, 0xA3, 0, 0, 0xB0, 0, 0x80, 0, 0] (.nvmV1WriteMemory 0xB0 0x8000 []) ∧
    names .unset [24, 0xA3, 0, 0, 0xB0, 0, 0x80, 0, 0, 9] (.nvmV3WriteMemory 0xB0 0x8000 [9]) ∧
    names .unset [25, 0xA3, 0, 0, 0xB0, 0, 0x80, 0, 0, 9] (.nvmV4WriteMemory 0xB0 0x8000 [9]) ∧
    names .unset [26, 0xA3, 0, 0, 1, 0] (.nvmOpaque .v5 .progInit) ∧
    names .unset [27, 0xA3, 0, 0, 2, 4, 0x10, 0x80, 0, 0] (.nvmStub (.eraseMemory 4 0x8010)) ∧
    names .unset [28, 0xA3, 0, 0, 0xB0, 0, 0x80, 0, 0, 64, 0, 0, 0] (.nvmReadMemory 0xB0 0x8000 64) ∧
    names .unset [29, 0xA3, 0, 0, 4, 0x10, 0x80, 0, 0] (.nvmEraseMemory 4 0x8010) ∧
    names .unset [30, 0xA3, 0, 0] .nvmProgInit := by decide +kernel

theorem test_decode_internal_events :
    names .unset [31, 0xA3, 0, 0, 1] (.rsaSample true) ∧ names .unset [32, 0xA3, 0, 0] .rsaPress ∧
    names .unset [33, 0xA3, 0, 0] .rsaRelease ∧ names .unset [34, 0xA3, 0, 0, 2] (.rsaAcquire .pdi) ∧
    names .unset [35, 0xA3, 0, 0] .rsaQuiesce ∧ names .unset [36, 0xA3, 0, 0] .rsaReleaseUart ∧
    names .unset [37, 0xA3, 0, 0, 1] (.sysVcp true) ∧ names .unset [38, 0xA3, 0, 0, 0] (.sysSw false) ∧
    names .unset [39, 0xA3, 0, 0, 0x88, 0x13] (.sysVtg 5000) ∧ names .unset [40, 0xA3, 0, 0] .sysUsbBusReset ∧
    names .unset [41, 0xA3, 0, 0] .sysUsbSuspendResume ∧ names .unset [42, 0xA3, 0, 0] .sysRestart ∧
    names .unset (43 :: 0xA3 :: 0 :: 0 :: 1 :: DevDesc.zero.bytes) (.sessionOpen .pdi DevDesc.zero) ∧
    names .unset [44, 0xA3, 0, 0, 0] (.sessionClose .updi) := by decide +kernel

/-- The table's own words: a host code, a wire byte, a byte that is no row. -/
theorem test_decode_table_words :
    decodeTableWord 8 0x55 = some .updiSynch ∧ decodeTableWord 8 0xF3 = some (.tpiSout 0x33 0) ∧
    decodeTableWord 8 0x0C = some (.pdiLds8 0) ∧ decodeTableWord 8 0x22 = some (.unknown .avr 0x22) := by
  refine ⟨?_, ?_, ?_, ?_⟩ <;> decide +kernel

/-! ## States the vectors start from -/

/-- V0's record with three address bytes. -/
def threeByteRec : VariantRec := { defaultV0 with addrBytes := .three }

/-- The defaults, with a value for each parameter that has none: `ACK0` 0x3A, `K9` 0xA5, `Vmin` 4500
(95_test_vectors.md), and V0's record, with three address bytes, for V3 and V4. -/
def testCfg : Params := { defaultParams with
  updi := { defaultUpdi with initAck := 0x3A, attnLowUs := 1, attnHighUs := 2 }
  tpi := { defaultTpi with vminMv := 4500 }
  tpiPdiKey := #v[0xE0, 0xFF, 0x88, 0xD8, 0xCD, 0x45, 0xAB, 0x89, 0x12, 0xA5]
  v3 := threeByteRec
  v4 := threeByteRec }

/-- Right after a restart. -/
def fresh : State := State.restarted Env.reset testCfg

/-- `ARCH = UPDI` selected. -/
def selected : State := { fresh with arch := .updi }

/-- A descriptor with flash pages of 64 bytes. -/
def testDesc : DevDesc := { DevDesc.zero with page := ⟨0, 0, 64, 0, 0, 0, 0, 0⟩ }

/-- The SIB of P1, `tinyAVR P:0D:0-3M2 (01.59B14.0)` and a zero byte. -/
def testSib : List Byte :=
  [0x74, 0x69, 0x6E, 0x79, 0x41, 0x56, 0x52, 0x20, 0x50, 0x3A, 0x30, 0x44, 0x3A, 0x30, 0x2D, 0x33,
   0x4D, 0x32, 0x20, 0x28, 0x30, 0x31, 0x2E, 0x35, 0x39, 0x42, 0x31, 0x34, 0x2E, 0x30, 0x29, 0x00]

/-- UPDI, LINKED, `CT = V0`. -/
def linked : State := { selected with
  umode := .updi, ct := .v0, sess := ⟨true, false, false, false, false⟩, sib := ⟨true, testSib⟩, dd := ⟨true, testDesc⟩ }

/-- UPDI, PROGRAMMING, `CT = V0`. -/
def prog : State := { linked with sess := ⟨true, true, false, false, false⟩ }

/-- TPI, PROGRAMMING, 5000 mV. -/
def tpiProg : State := { fresh with
  umode := .tpi, trstEng := true, tclk := true, sess := ⟨true, true, false, false, false⟩
  env := { fresh.env with vtg := 5000 } }

/-- PDI, LINKED. -/
def pdiLinked : State := { fresh with
  arch := .pdi, umode := .pdi, tclk := true, sess := ⟨true, false, false, false, false⟩ }

/-- PDI, PROGRAMMING. -/
def pdiProg : State := { pdiLinked with sess := ⟨true, true, false, false, false⟩ }

/-! ## Running one step -/

/-- The line is about to be this exchange, and then silent. -/
def lined (e : Engine) (ms : List Move) (s : State) : State := { s with env := { s.env with line := lineOf e ms } }

/-- A number for an event, so that histories compare fast in the kernel. -/
def eventCode : WireEvent → Nat
  | .tx b => 1000 + b.toNat
  | .echo b f => 10000 + 1000 * (f.perr.toNat + 2 * f.ferr.toNat + 4 * f.ovf.toNat) + b.toNat
  | .rx b f => 20000 + 1000 * (f.perr.toNat + 2 * f.ferr.toNat + 4 * f.ovf.toNat) + b.toNat
  | .attnLow n => 100000 + n
  | .attnHigh n => 200000 + n
  | .clocks n => 300000 + n
  | .clkStart => 0
  | .clkStop => 1
  | .tdatRelease => 2
  | .rateSet n => 400000 + n
  | .trst v => 3 + v.toNat

/-- Equal histories. -/
def sameEvents : List WireEvent → List WireEvent → Bool
  | [], [] => true
  | a :: as, b :: bs => Nat.beq (eventCode a) (eventCode b) && sameEvents as bs
  | _, _ => false

/-- The next state, where there is one. -/
def after (i : Instr) (s : State) : Option State :=
  match exec i s with
  | .next t => some t
  | .fault _ => none
  | .refused _ => none

/-- The refusal, where there is one. -/
def refusal (i : Instr) (s : State) : Option Refusal :=
  match exec i s with
  | .next _ => none
  | .fault _ => none
  | .refused r => some r

/-- The fault, where there is one. -/
def faultOf (i : Instr) (s : State) : Option Fault :=
  match exec i s with
  | .next _ => none
  | .fault f => some f
  | .refused _ => none

/-- From a state with an empty history the instruction plays exactly this exchange to its end, with this count. -/
def plays (i : Instr) (s : State) (e : Engine) (ms : List Move) (n : Nat) : Bool :=
  match after i (lined e ms s) with
  | some t => sameEvents t.hist.reverse (eventsOf e s.tclk ms) && Nat.beq t.res.count n && t.env.line.isEmpty
  | none => false

/-- The instruction fails with this cause, and leaves no history. -/
def failsQuietly (i : Instr) (s : State) (c : Cause) : Bool :=
  match after i s with
  | some t => decide (t.res = Res.fail c) && t.hist.isEmpty
  | none => false

/-! ## UPDI: wire rows and primitives (2.4 of the vectors) -/

theorem test_updiSynch : plays .updiSynch linked .updi (outs [0x55]) 1 = true := by decide +kernel
/-- U5 -/
theorem test_updiLdcs : plays (.updiLdcs 7) linked .updi (outs [0x55, 0x87] ++ ins [0x10]) 1 = true := by decide +kernel
/-- U5' -/
theorem test_updiStcs : plays (.updiStcs 2 0x0E) linked .updi (outs [0x55, 0xC2, 0x0E]) 1 = true := by decide +kernel
/-- U6 -/
theorem test_updiKey_prog : plays (.updiKey .prog) linked .updi
    (outs [0x55, 0xE0, 0x20, 0x67, 0x6F, 0x72, 0x50, 0x4D, 0x56, 0x4E]) 1 = true := by decide +kernel
/-- U6'' -/
theorem test_updiKey_urow : plays (.updiKey .urow) linked .updi
    (outs [0x55, 0xE0, 0x65, 0x74, 0x26, 0x73, 0x55, 0x4D, 0x56, 0x4E]) 1 = true := by decide +kernel
/-- U7 -/
theorem test_updiSib : plays .updiSib linked .updi (outs [0x55, 0xE6] ++ ins testSib) 1 = true := by decide +kernel
/-- U7': one flagged byte, and the register keeps what it held -/
theorem test_updiSib_flagged :
    (after .updiSib { fresh with
      umode := .updi
      env := { fresh.env with line := lineOf .updi (outs [0x55, 0xE6] ++ ins [1, 2]) ++
        [.frame { LineFrame.clean 3 with overrun := true }] } }).map
      (fun t => (t.sib.valid, t.res.cause)) = some (false, some (.flags ⟨false, false, true⟩)) := by decide +kernel
theorem test_updiStPtr : plays (.updiStPtr .three 0x123456) linked .updi
    (outs [0x55, 0x6A, 0x56, 0x34, 0x12] ++ ins [0x40]) 1 = true := by decide +kernel
/-- U9': another answer than the acknowledgement -/
theorem test_updiStPtr_nak :
    (after (.updiStPtr .two 0x8000) (lined .updi (outs [0x55, 0x69, 0x00, 0x80] ++ ins [0x41]) linked)).map
      (fun t => t.res.cause) = some (some .status) := by decide +kernel
theorem test_updiRepeat : plays (.updiRepeat 0x3F) linked .updi (outs [0x55, 0xA0, 0x3F]) 1 = true := by decide +kernel
theorem test_updiLdInc8 : plays (.updiLdInc8 1) linked .updi (outs [0x55, 0x24] ++ ins [9, 8]) 2 = true := by
  decide +kernel
theorem test_updiLdInc16 : plays (.updiLdInc16 0) linked .updi (outs [0x55, 0x25] ++ ins [0x34, 0x12]) 2 = true := by
  decide +kernel
theorem test_updiStInc8 : plays (.updiStInc8 [0xAA, 0xBB]) linked .updi (outs [0x55, 0x64, 0xAA, 0xBB]) 2 = true := by
  decide +kernel
theorem test_updiStInc16 : plays (.updiStInc16 [1, 2]) linked .updi (outs [0x55, 0x65, 1, 2]) 2 = true := by
  decide +kernel
theorem test_updiStInc16_odd : failsQuietly (.updiStInc16 [1]) linked .precond = true := by decide +kernel

theorem test_updiLineConfig : plays .updiLineConfig linked .updi [.act (.rateSet 240)] 1 = true := by decide +kernel
theorem test_updiAttention : plays .updiAttention linked .updi [.act (.attnLow 1), .act (.attnHigh 2)] 1 = true := by
  decide +kernel
/-- U2 -/
theorem test_updiTx_wrongEcho :
    (after (.updiTx 0x55) (lined .updi (ins [0x54]) linked)).map (fun t => (t.hist, t.res.cause)) =
      some ([.echo 0x54 RxFlags.clear, .tx 0x55], some (.echo 0x55 0x54)) := by decide +kernel
/-- U3': the flag is checked before the value -/
theorem test_updiTx_flagBeforeValue :
    (after (.updiTx 0x55) { linked with
      env := { linked.env with line := [.frame { LineFrame.clean 0x54 with stop1 := false }] } }).map
      (fun t => t.res.cause) = some (some (.flags ⟨false, true, false⟩)) := by decide +kernel
/-- F2 -/
theorem test_updiRx_parity :
    (after .updiRx { linked with
      env := { linked.env with line := [.frame { LineFrame.clean 0x55 with parity := true }] } }).map
      (fun t => (t.rxf, t.res.count)) = some (⟨true, false, false⟩, 0) := by decide +kernel
/-- X6 -/
theorem test_updiRx_stuck : faultOf .updiRx linked = some .blocked := by decide +kernel
/-- U8 -/
theorem test_updiHandshake : plays .updiHandshake linked .updi
    (outs [0x55, 0xC3, 0x08, 0x55, 0xC2, 0x06, 0x55, 0x80] ++ ins [0x3A]) 1 = true := by decide +kernel
/-- U8' -/
theorem test_updiHandshake_wrong :
    (after .updiHandshake (lined .updi (outs [0x55, 0xC3, 0x08, 0x55, 0xC2, 0x06, 0x55, 0x80] ++ ins [0x3B]) linked)).map
      (fun t => t.res.cause) = some (some .status) := by decide +kernel

/-- The frames of one attempt at a rate (P1 step 2). -/
def attempt (khz : Nat) : List Move :=
  [.act (.attnLow 1), .act (.attnHigh 2), .act (.rateSet khz)] ++
    (outs [0x55, 0xC3, 0x08, 0x55, 0xC2, 0x06, 0x55, 0x80] ++ (ins [0x3A] ++ (outs [0x55, 0xE6] ++ ins testSib)))

theorem test_updiConnectAttempt : plays .updiConnectAttempt linked .updi (attempt 240) 1 = true := by decide +kernel
/-- N5: '0' at offset 10 binds V0; '7' would bind the stub -/
theorem test_updiBindVariant :
    (after .updiBindVariant linked).map (fun t => t.ct) = some .v0 ∧
    (after .updiBindVariant { linked with sib := ⟨true, testSib.set 10 0x37⟩ }).map (fun t => t.ct) = some .stub := by
  decide +kernel
theorem test_updiBindVariant_unread : failsQuietly .updiBindVariant fresh .precond = true := by decide +kernel
/-- U13 -/
theorem test_updiCssBracket_byte : plays (.updiCssBracket .byte 0x1400 [0xAA, 0xBB]) linked .updi
    (outs [0x55, 0x69, 0x00, 0x14] ++ ins [0x40] ++
      outs [0x55, 0xC2, 0x0E, 0x55, 0xA0, 0x01, 0x55, 0x64, 0xAA, 0xBB, 0x55, 0xC2, 0x06]) 2 = true := by decide +kernel
/-- U14 -/
theorem test_updiCssBracket_word : plays (.updiCssBracket .word 0x8000 [1, 2, 3, 4]) linked .updi
    (outs [0x55, 0x69, 0x00, 0x80] ++ ins [0x40] ++
      outs [0x55, 0xC2, 0x0E, 0x55, 0xA0, 0x01, 0x55, 0x65, 1, 2, 3, 4, 0x55, 0xC2, 0x06]) 4 = true := by decide +kernel

/-- The apply-key pulse, and the ceremonies' frames O4 and O5. -/
def applyKey : List Move := outs [0x55, 0xC8, 0x59, 0x55, 0xC8, 0x00]

def eraseMoves : List Move :=
  outs [0x55, 0xE0, 0x65, 0x73, 0x61, 0x72, 0x45, 0x4D, 0x56, 0x4E, 0x55, 0x87] ++ (ins [0x08] ++ (applyKey ++
    (outs [0x55, 0x8B] ++ (ins [0x01] ++ (outs [0x55, 0x8B] ++ (ins [0x01] ++ (outs [0x55, 0x8B] ++ ins [0x00])))))))

/-- O4 -/
theorem test_updiChipErase : plays .updiChipErase linked .updi eraseMoves 1 = true := by decide +kernel
/-- O5 -/
theorem test_updiUserrowCeremony : plays (.updiUserrowCeremony 0x1300 [0xA5, 0x5A]) linked .updi
    (outs [0x55, 0xE0, 0x65, 0x74, 0x26, 0x73, 0x55, 0x4D, 0x56, 0x4E, 0x55, 0x87] ++ (ins [0x20] ++ (applyKey ++
      (outs [0x55, 0x8B] ++ (ins [0x04] ++ (outs [0x55, 0x69, 0x00, 0x13] ++ (ins [0x40] ++
      (outs [0x55, 0xC2, 0x0E, 0x55, 0xA0, 0x01, 0x55, 0x64, 0xA5, 0x5A, 0x55, 0xC2, 0x06, 0x55, 0xCA, 0x03, 0x55, 0x8B] ++
      (ins [0x00] ++ outs [0x55, 0xC7, 0x20, 0x55, 0xC8, 0x59, 0x55, 0xC8, 0x00])))))))))
    2 = true := by decide +kernel
theorem test_updiSignatureDummy :
    (after (.updiSignatureDummy 3) linked).map (fun t => t.res) = some (Res.read [0x1E, 0x00, 0x00]) ∧
    failsQuietly (.updiSignatureDummy 4) linked .precond = true := by decide +kernel
/-- U16 -/
theorem test_updiFallback : plays .updiFallback linked .updi
    [.act (.attnLow 1), .act (.attnHigh 2), .act (.rateSet 200)] 1 = true := by decide +kernel
/-- U16' -/
theorem test_updiFallback_floor : plays .updiFallback { linked with clk := 40 } .updi [] 0 = true := by decide +kernel
/-- R203: what is kept and what is not -/
theorem test_linkLoss :
    (after .linkLoss prog).map (fun t => (t.sess, t.ct, t.sib.valid, t.dd.valid, t.umode)) =
      some (Sess.zero, .stub, false, true, .idle) := by decide +kernel

/-! ## UPDI operations (2.5, O1 to O6) -/

/-- P1 step 2 -/
theorem test_updiSignOn :
    (after .updiSignOn (lined .updi (attempt 240) selected)).map
      (fun t => (t.cb.body, t.ct, t.sess, t.umode)) =
      some (.response ⟨0x84, 4, [0x74, 0x69, 0x6E, 0x79]⟩, .v0, ⟨true, false, false, false, false⟩, .updi) := by
  decide +kernel
/-- P3: `CLK` 240, 200, 160, 120, then step 5 -/
theorem test_updiSignOn_silent :
    (after .updiSignOn selected).map (fun t => (t.sess, t.clk, t.res.cause, t.umode)) =
      some (⟨false, false, false, false, true⟩, 120, some .timeout, .idle) := by decide +kernel
/-- The second attempt is cut in its attention, before its line configuration: its rate is recorded (R86, R181). -/
theorem test_updiSignOn_rate :
    (after .updiSignOn { selected with
      env := { selected.env with delays := List.replicate 14 0 ++ [20] } }).map
        (fun t => t.hist.reverse.map eventCode) =
      some [100001, 200002, 400240, 1085, 100001, 400200, 100001, 200002, 400160, 1085, 100001, 200002, 400120, 1085] := by
  decide +kernel
theorem test_updiSignOff : plays .updiSignOff prog .updi
    (applyKey ++ outs [0x55, 0xC3, 0x0C]) 1 = true := by decide +kernel
/-- A silent target does not stop the teardown (2.5). -/
theorem test_updiSignOff_silent :
    (after .updiSignOff prog).map (fun t => (t.res.count, t.sess, t.umode, t.dd.valid)) =
      some (1, Sess.zero, .idle, false) := by decide +kernel

/-- `WAIT` and `CMD(c)` of 2.6. -/
def waitMoves : List Move :=
  outs [0x55, 0x69, 0x02, 0x10] ++ (ins [0x40] ++ (outs [0x55, 0xA0, 0x00, 0x55, 0x24] ++ ins [0x00]))

def cmdMoves (c : Byte) : List Move :=
  outs [0x55, 0x69, 0x00, 0x10] ++ (ins [0x40] ++
    outs [0x55, 0xC2, 0x0E, 0x55, 0xA0, 0x00, 0x55, 0x64, c, 0x55, 0xC2, 0x06])

/-- `DATA(a, d)`, `a` in two bytes. -/
def dataMoves (lo hi : Byte) (d : List Byte) : List Move :=
  outs [0x55, 0x69, lo, hi] ++ (ins [0x40] ++
    outs ([0x55, 0xC2, 0x0E, 0x55, 0xA0, BitVec.ofNat 8 (d.length - 1), 0x55, 0x64] ++ (d ++ [0x55, 0xC2, 0x06])))

/-- O6 up to the status answer. -/
def keyMoves (status : Byte) : List Move :=
  outs [0x55, 0xE0, 0x20, 0x67, 0x6F, 0x72, 0x50, 0x4D, 0x56, 0x4E, 0x55, 0x87] ++ (ins [0x10] ++ (applyKey ++
    (outs [0x55, 0x8B] ++ ins [status])))

/-- O6 -/
theorem test_updiEnterProgmode : plays .updiEnterProgmode linked .updi (keyMoves 0x08 ++ waitMoves) 1 = true := by
  decide +kernel
/-- O6, the lock bit set -/
theorem test_updiEnterProgmode_locked :
    (after .updiEnterProgmode (lined .updi (keyMoves 0x09) linked)).map (fun t => (t.res.cause, t.sess.prog)) =
      some (some .status, false) := by decide +kernel
/-- In a session of TPI the leave script cannot go out, and `PROG` is cleared before it (R187). -/
theorem test_updiLeaveProgmode_otherEngine :
    (after .updiLeaveProgmode { tpiProg with arch := .updi }).map (fun t => (t.sess.prog, t.res.cause, t.hist)) =
      some (false, some .status, []) := by decide +kernel
theorem test_updiLeaveProgmode : plays .updiLeaveProgmode prog .updi applyKey 1 = true := by decide +kernel
theorem test_updiEraseMemory_chip : plays (.updiEraseMemory 0 0) linked .updi eraseMoves 1 = true := by decide +kernel
/-- N6 -/
theorem test_updiEraseMemory_page : plays (.updiEraseMemory 4 0x8010) prog .updi
    (waitMoves ++ (dataMoves 0x00 0x80 [0xFF] ++ (cmdMoves 2 ++ waitMoves))) 1 = true := by decide +kernel
/-- P1 step 8, three bytes -/
theorem test_updiReadMemory : plays (.updiReadMemory 0xB0 0x8000 3) prog .updi
    (outs [0x55, 0x69, 0x00, 0x80] ++ (ins [0x40] ++ (outs [0x55, 0xA0, 0x02, 0x55, 0x24] ++ ins [0, 1, 2])))
    3 = true := by decide +kernel
/-- E2: bits above 16 with two address bytes -/
theorem test_updiReadMemory_wide : failsQuietly (.updiReadMemory 0xB0 0x10000 1) prog .precond = true := by
  decide +kernel
/-- N1, third row: 0x8060 is in the page 0x8040 -/
theorem test_updiWriteMemory_samePage : plays (.updiWriteMemory 0xB0 0x8060 2 [7, 8])
    { prog with beforePage := some 0x8040 } .updi
    (waitMoves ++ (cmdMoves 4 ++ (waitMoves ++ (dataMoves 0x60 0x80 [7, 8] ++ (cmdMoves 1 ++ waitMoves)))))
    2 = true := by decide +kernel
/-- T8 -/
theorem test_updiWriteMemory_rejected :
    failsQuietly (.updiWriteMemory 0xB2 0x1280 1 [0xC4]) linked .precond = true := by decide +kernel

/-! ## NVM rows (2.6) -/

theorem test_nvmCtl_cmd : plays (.nvmCtl (.cmd 4)) linked .updi (cmdMoves 4) 1 = true := by decide +kernel
/-- N7: the error bit, not busy -/
theorem test_nvmCtl_wait_error :
    (after (.nvmCtl .wait) (lined .updi (outs [0x55, 0x69, 0x02, 0x10] ++ ins [0x40] ++
      outs [0x55, 0xA0, 0x00, 0x55, 0x24] ++ ins [0x04]) linked)).map (fun t => t.res.cause) = some (some .status) := by
  decide +kernel
/-- N1: 0x8060 & ~63 = 0x8040 -/
theorem test_nvmPage_check :
    (after (.nvmPage (.check 0x8060 64)) { linked with beforePage := some 0x8040 }).map (fun t => t.res) =
      some ⟨0, [0x40, 0x80, 0, 0], none⟩ ∧
    (after (.nvmPage (.check 0x8060 64)) linked).map (fun t => t.res.count) = some 1 := by decide +kernel
theorem test_nvmPage_note :
    (after (.nvmPage (.note 0x8040)) linked).map (fun t => t.beforePage) = some (some 0x8040) := by decide +kernel
theorem test_nvmWriteMethod_plain : plays (.nvmWriteMethod .plain 0xB0 0x8060 [7]) linked .updi
    (dataMoves 0x60 0x80 [7]) 1 = true := by decide +kernel
theorem test_nvmWriteMethod_atomic : plays (.nvmWriteMethod .atomic 0xB0 0x8060 [7]) linked .updi
    (waitMoves ++ (cmdMoves 4 ++ (waitMoves ++ (dataMoves 0x60 0x80 [7] ++ (cmdMoves 3 ++ waitMoves))))) 1 = true := by
  decide +kernel
/-- N1: 32 bytes at 0x8030 span two pages -/
theorem test_nvmV0WriteMemory_spans :
    failsQuietly (.nvmV0WriteMemory 0xB0 0x8030 (List.replicate 32 7)) linked .precond = true := by decide +kernel
/-- N1, first row -/
theorem test_nvmV0WriteMemory : plays (.nvmV0WriteMemory 0xB0 0x8000 [7]) linked .updi
    (waitMoves ++ (dataMoves 0x00 0x80 [0xFF] ++ (cmdMoves 2 ++ (waitMoves ++
      (waitMoves ++ (cmdMoves 4 ++ (waitMoves ++ (dataMoves 0x00 0x80 [7] ++ (cmdMoves 1 ++ waitMoves)))))))))
    1 = true := by decide +kernel
/-- N3 -/
theorem test_nvmV0WriteFuse : plays (.nvmV0WriteFuse 0x1282 0xC4) linked .updi
    (waitMoves ++ (dataMoves 0x08 0x10 [0x82, 0x12] ++ (dataMoves 0x06 0x10 [0xC4] ++ (cmdMoves 7 ++ waitMoves))))
    1 = true := by decide +kernel
/-- N5 -/
theorem test_nvm_stubs :
    plays (.nvmV1WriteMemory 0xB0 0x8000 [7]) linked .updi [] 0 = true ∧
    plays (.nvmStub .progInit) linked .updi [] 0 = true ∧
    plays (.nvmOpaque .v2 (.readMemory 0xB0 0 1)) linked .updi [] 0 = true ∧
    plays .nvmProgInit { linked with ct := .v5 } .updi [] 0 = true := by decide +kernel
/-- `WAIT` and `DATA` with three address bytes. -/
def threeByteWait : List Move :=
  outs [0x55, 0x6A, 0x02, 0x10, 0x00] ++ (ins [0x40] ++ (outs [0x55, 0xA0, 0x00, 0x55, 0x24] ++ ins [0x00]))

def threeByteData (b0 b1 b2 : Byte) (d : List Byte) : List Move :=
  outs [0x55, 0x6A, b0, b1, b2] ++ (ins [0x40] ++
    outs ([0x55, 0xC2, 0x0E, 0x55, 0xA0, BitVec.ofNat 8 (d.length - 1), 0x55, 0x64] ++ (d ++ [0x55, 0xC2, 0x06])))

/-- N4, two bytes -/
theorem test_nvmV3WriteMemory : plays (.nvmV3WriteMemory 0xB0 0x8000 [7, 8]) linked .updi
    (threeByteWait ++ (threeByteData 0x00 0x10 0 [4] ++ (threeByteWait ++ (threeByteData 0x00 0x80 0 [7, 8] ++
      (threeByteData 0x00 0x10 0 [3] ++ threeByteWait))))) 2 = true := by decide +kernel
/-- N2: five bytes of EEPROM in bursts of 2, 2 and 1; here three bytes, 2 and 1 -/
theorem test_nvmV4WriteMemory_eeprom : plays (.nvmV4WriteMemory 0x22 0x1400 [7, 8, 9]) linked .updi
    (threeByteWait ++ (threeByteData 0x00 0x10 0 [4] ++ (threeByteWait ++ (threeByteData 0x00 0x14 0 [7, 8] ++
      (threeByteData 0x00 0x10 0 [1] ++ (threeByteWait ++
      (threeByteWait ++ (threeByteData 0x00 0x10 0 [4] ++ (threeByteWait ++ (threeByteData 0x02 0x14 0 [9] ++
      (threeByteData 0x00 0x10 0 [1] ++ threeByteWait))))))))))) 3 = true := by decide +kernel
/-- The last burst starts at the last address: R188 asks no more of a block (R279, R285). -/
theorem test_nvmV4WriteMemory_last :
    plays (.nvmV4WriteMemory 0x22 0xFFFFFF [7, 8]) linked .updi
      (threeByteWait ++ (threeByteData 0x00 0x10 0 [4] ++ (threeByteWait ++ (threeByteData 0xFF 0xFF 0xFF [7, 8] ++
        (threeByteData 0x00 0x10 0 [1] ++ threeByteWait))))) 2 = true := by decide +kernel
theorem test_nvmReadMemory : plays (.nvmReadMemory 0xB0 0x8000 1) linked .updi
    (outs [0x55, 0x69, 0x00, 0x80] ++ (ins [0x40] ++ (outs [0x55, 0xA0, 0x00, 0x55, 0x24] ++ ins [7]))) 1 = true := by
  decide +kernel
/-- N6; V3 has no page erase and answers 1 -/
theorem test_nvmEraseMemory :
    plays (.nvmEraseMemory 4 0x8010) linked .updi
      (waitMoves ++ (dataMoves 0x00 0x80 [0xFF] ++ (cmdMoves 2 ++ waitMoves))) 1 = true ∧
    plays (.nvmEraseMemory 4 0x8010) { linked with ct := .v3 } .updi [] 1 = true := by decide +kernel
theorem test_nvmProgInit : plays .nvmProgInit linked .updi waitMoves 1 = true := by decide +kernel

/-! ## TPI (2.7, P2) -/

theorem test_tpiLdcs : plays (.tpiLdcs 0xF) tpiProg .tpi (outs [0x8F] ++ ins [0x80]) 1 = true := by decide +kernel
theorem test_tpiStcs : plays (.tpiStcs 2 7) tpiProg .tpi (outs [0xC2, 0x07]) 1 = true := by decide +kernel
/-- R220: a frame starts a stopped clock, sent or received, in TPI's hold. -/
theorem test_tpiStcs_clock :
    (after (.tpiStcs 2 7) { tpiProg with tclk := false }).map (fun t => (t.tclk, t.hist)) =
      some (true, [.tx 7, .tx 0xC2, .clkStart]) ∧
    (after .updiRx (lined .tpi [.into 9] { tpiProg with tclk := false })).map (fun t => (t.tclk, t.hist)) =
      some (true, [.rx 9 RxFlags.clear, .clkStart]) := by decide +kernel
theorem test_tpiKey : plays .tpiKey tpiProg .tpi
    (outs [0xE0, 0xFF, 0x88, 0xD8, 0xCD, 0x45, 0xAB, 0x89, 0x12, 0xA5]) 1 = true := by decide +kernel
theorem test_tpiSetPtr :
    plays (.tpiSetPtrLo 0xC0) tpiProg .tpi (outs [0x68, 0xC0]) 1 = true ∧
    plays (.tpiSetPtrHi 0x3F) tpiProg .tpi (outs [0x69, 0x3F]) 1 = true := by decide +kernel
theorem test_tpiLdInc : plays .tpiLdInc tpiProg .tpi (outs [0x24] ++ ins [0x1E]) 1 = true := by decide +kernel
theorem test_tpiStInc : plays (.tpiStInc 0xFF) tpiProg .tpi (outs [0x64, 0xFF]) 1 = true := by decide +kernel
/-- T-op -/
theorem test_tpiSout : plays (.tpiSout 0x33 0x1D) tpiProg .tpi (outs [0xF3, 0x1D]) 1 = true := by decide +kernel
theorem test_tpiSin : plays (.tpiSin 0x32) tpiProg .tpi (outs [0x72] ++ ins [0]) 1 = true := by decide +kernel

/-- The activation of P2 step 1, and what follows it. -/
def tpiActivate : List Move :=
  [.act (.trst true), .act (.attnHigh 1), .clocks 16] ++ (outs [0xC2, 0x07, 0x8F] ++ ins [0x80])

def unlockFrames : List Move :=
  outs [0xE0, 0xFF, 0x88, 0xD8, 0xCD, 0x45, 0xAB, 0x89, 0x12, 0xA5, 0x80] ++ (ins [0x02] ++
    (outs [0x68, 0xC0, 0x69, 0x3F, 0x24] ++ (ins [0x1E] ++ (outs [0x24] ++ (ins [0x91] ++ (outs [0x24] ++ ins [0x0F]))))))

/-- P2 step 1, whose connect takes the reset line; and R222 in a TPI session, whose connect keeps it, `TRST` unchanged -/
theorem test_tpiConnect :
    plays .tpiConnect fresh .tpi tpiActivate 1 = true ∧ plays .tpiConnect tpiProg .tpi tpiActivate.tail 1 = true := by
  decide +kernel
/-- T-state: a wrong identification -/
theorem test_tpiConnect_wrong :
    (after .tpiConnect (lined .tpi (ins [0x00]) fresh)).map (fun t => (t.res.cause, t.sess, t.trstEng, t.umode)) =
      some (some .status, ⟨false, false, false, false, true⟩, false, .idle) := by decide +kernel
/-- T-chunk -/
theorem test_tpiChunkLookup :
    (after (.tpiChunkLookup 0x1E 0x92 0x0E) fresh).map (fun t => t.tpiChunk) = some .eight ∧
    (after (.tpiChunkLookup 0x1E 0x90 0x03) fresh).map (fun t => t.tpiChunk) = some .two := by decide +kernel
theorem test_tpiEnterProgmode : plays .tpiEnterProgmode fresh .tpi (tpiActivate ++ unlockFrames) 1 = true := by
  decide +kernel
/-- The chunk after a connect; and no connect in another engine's session (R223 step 1). -/
theorem test_tpiEnterProgmode_chunk :
    (after .tpiEnterProgmode (lined .tpi (tpiActivate ++ unlockFrames) fresh)).map (fun t => (t.tpiChunk, t.sess.prog)) =
      some (.four, true) ∧
    (after .tpiEnterProgmode linked).map (fun t => (t.umode, t.sess, t.res.count, t.hist)) =
      some (.updi, linked.sess, 0, []) := by decide +kernel
/-- P2 step 5 -/
theorem test_tpiLeaveProgmode : plays .tpiLeaveProgmode tpiProg .tpi
    (outs [0xC0, 0x00] ++ [.act .clkStop, .act .tdatRelease, .act (.trst false)]) 1 = true := by decide +kernel
/-- P2 step 2 -/
theorem test_tpiErase : plays (.tpiErase 1 0x4000) tpiProg .tpi
    (outs [0xF3, 0x10, 0x68, 0x01, 0x69, 0x40, 0x64, 0xFF, 0x72] ++ (ins [0x00] ++ outs [0xF3, 0x00])) 1 = true := by
  decide +kernel
/-- T-gate -/
theorem test_tpiErase_lowSupply :
    failsQuietly (.tpiErase 1 0x4000) { tpiProg with env := { tpiProg.env with vtg := 4499 } } .precond = true := by
  decide +kernel
/-- P2 step 3 -/
theorem test_tpiWriteMem : plays (.tpiWriteMem 1 0x4001 3 [0x11, 0x22, 0x33])
    { tpiProg with sess := ⟨true, true, true, false, false⟩ } .tpi
    (outs [0xF3, 0x1D, 0x68, 0x00, 0x69, 0x40, 0x64, 0xFF, 0x64, 0x11, 0x72] ++ (ins [0x00] ++
      (outs [0x64, 0x22, 0x64, 0x33, 0x72] ++ (ins [0x00] ++ outs [0xF3, 0x00])))) 3 = true := by decide +kernel
/-- T-pad: the padded end passes 2^16 -/
theorem test_tpiWriteMem_end : failsQuietly (.tpiWriteMem 3 0xFFFF 2 [1, 2]) tpiProg .precond = true := by decide +kernel
/-- P2 step 4 -/
theorem test_tpiReadMem : plays (.tpiReadMem 1 0x4000 2) tpiProg .tpi
    (outs [0x68, 0x00, 0x69, 0x40, 0x24] ++ (ins [0xFF] ++ (outs [0x24] ++ ins [0x11]))) 2 = true := by decide +kernel
theorem test_tpiCrc : failsQuietly .tpiCrc tpiProg .unsupported = true := by decide +kernel
theorem test_tpiSetParam : (after (.tpiSetParam [7, 8]) fresh).map (fun t => (t.tpiParams, t.res.count)) =
    some ([7, 8], 1) := by decide +kernel

/-! ## PDI (2.8) -/

theorem test_pdiLdcs : plays (.pdiLdcs 0) pdiLinked .pdi (outs [0x80] ++ ins [0x02]) 1 = true := by decide +kernel
theorem test_pdiStcs : plays (.pdiStcs 1 0x59) pdiLinked .pdi (outs [0xC1, 0x59]) 1 = true := by decide +kernel
/-- The keys and the erase types are distinct (R107, R120). -/
theorem test_paramsDistinct : keyParamsOk testCfg = true ∧ eraseParamsOk testCfg = true := by decide
theorem test_pdiKey : plays .pdiKey pdiLinked .pdi
    (outs [0xE0, 0xFF, 0x88, 0xD8, 0xCD, 0x45, 0xAB, 0x89, 0x12, 0xA5]) 1 = true := by decide +kernel
theorem test_pdiSts8 : plays (.pdiSts8 0x010001CA 0x43) pdiLinked .pdi (outs [0x4C, 0xCA, 1, 0, 1, 0x43]) 1 = true := by
  decide +kernel
theorem test_pdiLds8 : plays (.pdiLds8 0x010001CF) pdiLinked .pdi (outs [0x0C, 0xCF, 1, 0, 1] ++ ins [0]) 1 = true := by
  decide +kernel
theorem test_pdiSetPtr : plays (.pdiSetPtr 0x01002000) pdiLinked .pdi (outs [0x6B, 0, 0x20, 0, 1]) 1 = true := by
  decide +kernel
theorem test_pdiRepeat : plays (.pdiRepeat 3) pdiLinked .pdi (outs [0xA0, 3]) 1 = true := by decide +kernel
theorem test_pdiLdInc : plays (.pdiLdInc 1) pdiLinked .pdi (outs [0x24] ++ ins [5, 6]) 2 = true := by decide +kernel
theorem test_pdiStInc : plays (.pdiStInc [5, 6]) pdiLinked .pdi (outs [0x64, 5, 6]) 2 = true := by decide +kernel
/-- D3 -/
theorem test_pdiBlock_recv : plays (.pdiBlock 0x01002000 (.recv 3)) pdiLinked .pdi
    (outs [0x6B, 0x00, 0x20, 0x00, 0x01, 0xA0, 0x03, 0x24] ++ ins [1, 2, 3, 4]) 4 = true := by decide +kernel
theorem test_pdiBlock_send : plays (.pdiBlock 0x01002000 (.send [9])) pdiLinked .pdi
    (outs [0x6B, 0x00, 0x20, 0x00, 0x01, 0xA0, 0x00, 0x64, 9]) 1 = true := by decide +kernel
/-- D1 -/
theorem test_pdiSignOn : plays .pdiSignOn { fresh with arch := .pdi } .pdi
    ([.act (.attnHigh 2), .clocks 16] ++ (outs [0xC2, 0x07, 0x80] ++ ins [0x00])) 1 = true := by decide +kernel
/-- An expiry between the attention and the clocks lets `TDAT` go; one before the first step fails the connect as well,
whatever link there was (R86, R252, R309). -/
theorem test_pdiSignOn_expires :
    (after .pdiSignOn { fresh with
      arch := .pdi
      env := { fresh.env with delays := List.replicate 8 0 ++ [801] } }).map
        (fun t => (t.res.cause, t.sess.initFail, t.tdat, t.hist)) =
      some (some .timeout, true, none, [.tdatRelease, .attnHigh 2]) ∧
    (after .pdiSignOn { pdiProg with env := { fresh.env with delays := [801] } }).map
        (fun t => (t.sess, t.umode, t.hist)) =
      some (⟨false, false, false, false, true⟩, .idle, [.tdatRelease, .clkStop]) := by decide +kernel
/-- TPB drives `TDAT` in an attention, which PDI's holds for the clocks, and not after a frame (R170, R251, R252). -/
theorem test_pdi_tdat :
    (match attention .pdi pdiLinked with
      | .ok _ t => decide (t.tdat = some .pushPull)
      | .error _ _ => false) = true ∧
    (after (.pdiStcs 1 0x59) { pdiLinked with tdat := some .pushPull }).map (fun t => t.tdat) = some none ∧
    (after .updiAttention linked).map (fun t => t.tdat) = some none := by decide +kernel
/-- D11 -/
theorem test_pdiSignOff : plays .pdiSignOff pdiLinked .pdi [.act .clkStop, .act .tdatRelease] 1 = true := by
  decide +kernel
/-- D2 -/
theorem test_pdiEnterProgmode : plays .pdiEnterProgmode pdiLinked .pdi
    (outs [0xC1, 0x59, 0xE0, 0xFF, 0x88, 0xD8, 0xCD, 0x45, 0xAB, 0x89, 0x12, 0xA5, 0x80] ++ ins [0x02]) 1 = true := by
  decide +kernel
/-- D10 -/
theorem test_pdiLeaveProgmode : plays .pdiLeaveProgmode pdiProg .pdi (outs [0xC1, 0x00]) 1 = true := by decide +kernel

/-- `pdi_nvm_wait`, answered at once. -/
def pdiWait : List Move := outs [0x80] ++ (ins [0x02] ++ (outs [0x0C, 0xCF, 1, 0, 1] ++ ins [0x00]))

/-- D8 -/
theorem test_pdiEraseMemory : plays (.pdiEraseMemory 0 0) pdiProg .pdi
    (pdiWait ++ (outs [0x4C, 0xCA, 1, 0, 1, 0x40, 0x4C, 0xCB, 1, 0, 1, 1] ++ pdiWait)) 1 = true := by decide +kernel
/-- D9 -/
theorem test_pdiEraseMemory_linked : failsQuietly (.pdiEraseMemory 0 0) pdiLinked .precond = true := by decide +kernel
/-- D4' -/
theorem test_pdiReadMemory_code : plays (.pdiReadMemory 0xB0 0x00800000 2) pdiProg .pdi
    (outs [0x4C, 0xCA, 1, 0, 1, 0x43, 0x6B, 0, 0, 0x80, 0, 0xA0, 1, 0x24] ++ ins [5, 6]) 2 = true := by decide +kernel
/-- D5, D6 -/
theorem test_pdiReadMemory_rejects :
    failsQuietly (.pdiReadMemory 0xB0 0x02000000 1) pdiProg .precond = true ∧
    failsQuietly (.pdiReadMemory 0xD3 0 1) pdiProg .unsupported = true := by decide +kernel
/-- D7 -/
theorem test_pdiWriteMemory : plays (.pdiWriteMemory 0xB2 0x008F0021 1 [0xFE]) pdiProg .pdi
    (pdiWait ++ (outs [0x4C, 0xCA, 1, 0, 1, 0x4C, 0x4C, 0x21, 0, 0x8F, 0, 0xFE] ++ pdiWait)) 1 = true := by
  decide +kernel
theorem test_pdiNvmSequence : plays (.pdiNvmSequence 0xB2 0x008F0021 [0xFE]) pdiProg .pdi
    (pdiWait ++ (outs [0x4C, 0xCA, 1, 0, 1, 0x4C, 0x4C, 0x21, 0, 0x8F, 0, 0xFE] ++ pdiWait)) 1 = true := by
  decide +kernel

/-! ## The supervisor (2.3) -/

/-- W4: five adjustments down to 40 kHz, then the give-up and link loss -/
theorem test_wdRun_gives_up :
    (after (.wdRun .updiRead .updi 800) { prog with cb := ⟨0, .request 0x12 0x21 (.mem 0xB0 0x8000 1 [])⟩ }).map
      (fun t => (t.res.cause, t.clk, t.sess, t.wdArmed)) = some (some .timeout, 40, Sess.zero, false) := by decide +kernel
/-- W8, W9, W10 -/
theorem test_wdRun_refused :
    refusal (.wdRun .tpiLeaveWire .absent 800) { tpiProg with env := { tpiProg.env with ie := false } } =
      some .runInterruptsOff ∧
    refusal (.wdRun .tpiLeaveWire .absent 800) { tpiProg with wdArmed := true } = some .runNested ∧
    refusal (.wdRun .tpiLeaveWire .absent 0) tpiProg = some .runZeroDeadline := by decide +kernel

/-! ## Parameters, the arbiter, events (E2, 2.9, 2.10) -/

theorem test_sysSetParameter :
    (after (.sysSetParameter (.arch 3)) fresh).map (fun t => t.arch) = some .pdi ∧
    (after (.sysSetParameter (.arch 9)) selected).map (fun t => t.arch) = some .unset ∧
    failsQuietly (.sysSetParameter (.arch 3)) linked .precond = true := by decide +kernel
theorem test_sysGetParameter : (after (.sysGetParameter 9) linked).map (fun t => (t.opi, t.sess)) =
    some (1, linked.sess) := by decide +kernel
theorem test_unknown : failsQuietly (.unknown .avr 0x22) linked .unsupported = true := by decide +kernel

/-- 2.9, second and fifth rows -/
theorem test_rsaSample :
    (after (.rsaSample true) { fresh with swPrev := some false }).map (fun t => (t.trstBtn, t.ui.swPress, t.hist)) =
      some (true, false, [.trst true]) ∧
    (after (.rsaSample true) { linked with swPrev := some false }).map (fun t => (t.trstBtn, t.trst)) =
      some (false, false) := by decide +kernel
/-- 2.9, fourth row -/
theorem test_sysSw : (after (.sysSw false) { fresh with swPrev := some true, trstBtn := true }).map
    (fun t => (t.trstBtn, t.swPrev)) = some (false, some false) := by decide +kernel
theorem test_rsaPress : (after .rsaPress { fresh with ui := { fresh.ui with swPress := true } }).map
    (fun t => (t.trstBtn, t.ui.swPress)) = some (true, false) := by decide +kernel
theorem test_rsaRelease :
    (after .rsaRelease { fresh with ui := { fresh.ui with swRelease := true }, trstBtn := true }).map
      (fun t => (t.trstBtn, t.ui.swRelease)) = some (false, false) := by decide +kernel
theorem test_rsaAcquire : (after (.rsaAcquire .updi) { fresh with umode := .vcp }).map (fun t => t.umode) =
    some .updi := by decide +kernel
/-- Both lines are let go, `TDAT` also where no clock runs (R309). -/
theorem test_rsaQuiesce :
    (after .rsaQuiesce pdiLinked).map (fun t => (t.tclk, t.tdat, t.hist)) =
      some (false, none, [.tdatRelease, .clkStop]) ∧
    (after .rsaQuiesce { pdiLinked with tclk := false, tdat := some .pushPull }).map (fun t => (t.tdat, t.hist)) =
      some (none, [.tdatRelease]) := by decide +kernel
theorem test_rsaReleaseUart : (after .rsaReleaseUart { linked with ui := { linked.ui with vcpOpen := true } }).map
    (fun t => t.umode) = some .vcp := by decide +kernel
theorem test_sysVcp :
    (after (.sysVcp true) linked).map (fun t => (t.ui.vcpOpen, t.umode)) = some (true, .updi) ∧
    (after (.sysVcp false) { fresh with umode := .vcp }).map (fun t => t.umode) = some .idle := by decide +kernel
theorem test_sysVtg : (after (.sysVtg 5000) fresh).map (fun t => t.env.vtg) = some 5000 := by decide +kernel
/-- X2 -/
theorem test_sysUsbBusReset :
    (after .sysUsbBusReset { prog with clk := 160, trstBtn := true, swPrev := some true }).map
      (fun t => (t.sess, t.clk, t.arch, t.umode, t.trstBtn)) = some (Sess.zero, 240, .unset, .idle, true) := by decide +kernel
/-- X3, X4 -/
theorem test_sysUsbSuspendResume :
    (after .sysUsbSuspendResume { prog with ui := { prog.ui with usbEnum := true }, trstBtn := true }).map
      (fun t => (t.trstBtn, t.arch)) = some (false, .unset) ∧
    (after .sysUsbSuspendResume { prog with trstBtn := true }).map (fun t => t.trstBtn) = some true := by decide +kernel
theorem test_sysRestart : (after .sysRestart { prog with clk := 160 }).map (fun t => (t.clk, t.sess)) =
    some (240, Sess.zero) := by decide +kernel
/-- P1 steps 1 to 4 -/
theorem test_sessionOpen :
    (after (.sessionOpen .updi testDesc) (lined .updi (attempt 240 ++ (keyMoves 0x08 ++ waitMoves)) fresh)).map
      (fun t => (t.sess, t.dd.valid, t.opi)) = some (⟨true, true, false, false, false⟩, true, 4) := by decide +kernel
/-- P1 steps 9 and 10 -/
theorem test_sessionClose : plays (.sessionClose .updi) prog .updi (applyKey ++ outs [0x55, 0xC3, 0x0C]) 1 = true := by
  decide +kernel

/-! ## The step -/

/-- A record on the stream is decoded and run; X7: with a restart pending it waits. -/
theorem test_step :
    (match step { fresh with env := { fresh.env with stream := [[0x01, 0x12, 7, 0, 1, 5]] } } with
      | .next t => decide (t.arch = .updi ∧ t.cb.seq = 7 ∧ t.env.stream = [])
      | _ => false) = true ∧
    (match step { prog with
        ui := { prog.ui with usbEnum := true }
        env := { prog.env with stream := [[0x01, 0x12, 7, 0, 1, 3]], pend := ⟨none, true, true, none, some true⟩ } } with
      | .next t => decide (t.arch = .unset ∧ t.env.stream.length = 1 ∧ t.env.pend.busReset = true)
      | _ => false) = true := by decide +kernel

/-- The TPI host codes are parameters: another CRC code is CRC, and 0x06 is then unassigned (R104). -/
theorem test_tpiCodes :
    let sc := { Config.defaultScopes with tpiCodes := { Config.defaultTpiCodes with crc := 0x46 } }
    (match decode sc .unset [0x46, 0x14, 0, 0] with
      | .ok i => decide (i = .tpiCrc)
      | .error _ => false) = true ∧
    (match decode sc .unset [0x06, 0x14, 0, 0] with
      | .ok i => decide (i = .unknown .tpi 0x06)
      | .error _ => false) = true := by decide +kernel

/-- `seq` in the byte order of its scope (R73, R105). -/
theorem test_step_seq :
    (match step { fresh with env := { fresh.env with stream := [[0x06, 0x14, 0x01, 0x02]] } } with
      | .next t => decide (t.cb.seq = 0x0102)
      | _ => false) = true ∧
    (match step { fresh with env := { fresh.env with stream := [[0x02, 0x12, 0x01, 0x02, 9]] } } with
      | .next t => decide (t.cb.seq = 0x0201)
      | _ => false) = true := by decide +kernel

/-- Any upload makes the descriptor valid, a byte that names no architecture and an empty one included (R109). -/
theorem test_step_anyDescriptor : ∀ r ∈ [[0x01, 0x12, 0, 0, 2, 7, 9], [0x01, 0x12, 0, 0, 2]],
    (match step { fresh with env := { fresh.env with stream := [r] } } with
      | .next t => t.dd.valid && decide (t.res = Res.ok 1)
      | _ => false) = true := by decide +kernel

/-- A byte of the model's own spaces that stands for no row is answered as an unknown scope is (R113). -/
theorem test_step_noRow : ∀ r ∈ [[0x00, 0xA0, 0, 0], [0x00, 0x55, 0, 0]],
    (match step { linked with env := { linked.env with stream := [r] } } with
      | .next t => decide (t.res = Res.fail .unsupported ∧ t.sess = linked.sess ∧ t.hist = [])
      | _ => false) = true := by decide +kernel

/-- A script's result is what it last received, not what its last step leaves (R116). -/
theorem test_scriptResult :
    (match runScript .tpi [.ldcs 0, .stcs 2 7] (lined .tpi (outs [0x80] ++ (ins [0x02] ++ outs [0xC2, 0x07])) tpiProg) with
      | .ok d _ => decide (d = [0x02])
      | .error _ _ => false) = true := by decide +kernel

/-- F1: the frame of 0x0E, and T9: the padding. -/
theorem test_frame_and_padding :
    frameLevels 0x0E = [false, false, true, true, true, false, false, false, false, true, true, true] ∧
    padBuf 0xFF 2 0x4001 [0x11, 0x22, 0x33] = [0xFF, 0x11, 0x22, 0x33] ∧ padStart 2 0x4001 = 0x4000 := by decide +kernel

/-! ## Witnesses: states and operands that meet the hypotheses of the statements

An honest target answers every read: a poll with the wanted value at once, an NVM status with 0. -/

theorem lined_hears (e : Engine) (ms : List Move) (s : State) : (lined e ms s).hears e ms [] := (List.append_nil _).symm

/-- The exchange of a script step with a target that answers `b` to a read, and a poll at once, with the bytes the step
makes the script's result. -/
def honestStep (c : Params) (e : Engine) (b : Byte) : ScriptStep → List Move × Option (List Byte)
  | .tx bs => (outs bs, none)
  | .rx n => (ins (List.replicate n b), some (List.replicate n b))
  | .expect x => ([.into x], none)
  | .ldcs g => (ldcsMoves c e g b, some [b])
  | .stcs g v => (stcsMoves c e g v, none)
  | .poll g _ want => (ldcsMoves c e g want, some [want])
  | .attn => (attnMoves c e, none)
  | .clocks n => (if e = .updi then [] else [.clocks n], none)

/-- A poll that can end. -/
def stepCanEnd : ScriptStep → Bool
  | .poll _ mask want => want &&& mask == want
  | _ => true

/-- The exchange of a script's steps, `d` being its result before them. -/
def honestSteps (c : Params) (e : Engine) (b : Byte) (d : List Byte) : Script → List Move × List Byte
  | [] => ([], d)
  | st :: rest =>
    let h := honestStep c e b st
    let t := honestSteps c e b (h.2.getD d) rest
    (h.1 ++ t.1, t.2)

def honestScript (c : Params) (e : Engine) (b : Byte) (sc : Script) : List Move × List Byte := honestSteps c e b [] sc

theorem honestStep_runs {c : Params} {e : Engine} {b : Byte} {st : ScriptStep} (h : stepCanEnd st = true) :
    stepRuns c e st (honestStep c e b st).1 (honestStep c e b st).2 := by
  cases st with
  | tx bs => exact ⟨rfl, rfl⟩
  | rx n => exact ⟨_, List.length_replicate, rfl, rfl⟩
  | expect x => exact ⟨rfl, rfl⟩
  | ldcs g => exact ⟨b, rfl, rfl⟩
  | stcs g v => exact ⟨rfl, rfl⟩
  | poll g mask want => exact ⟨[], want, by simp, by simpa [stepCanEnd] using h, rfl, rfl⟩
  | attn => exact ⟨rfl, rfl⟩
  | clocks n => exact ⟨rfl, rfl⟩

theorem honestSteps_run {c : Params} {e : Engine} {b : Byte} : ∀ {sc : Script} {d : List Byte},
    sc.all stepCanEnd = true → stepsRun c e d sc (honestSteps c e b d sc).1 (honestSteps c e b d sc).2
  | [], _, _ => ⟨rfl, rfl⟩
  | st :: rest, d, h => by
    rw [List.all_cons, Bool.and_eq_true] at h
    exact ⟨_, _, _, honestStep_runs h.1, honestSteps_run h.2, rfl⟩

theorem honest_runs {c : Params} {e : Engine} {b : Byte} {sc : Script} (h : sc.all stepCanEnd = true) :
    scriptRuns c e sc (honestScript c e b sc).1 (honestScript c e b sc).2 := honestSteps_run h

/-- The exchange of a variant's script with a target that is never busy and reports no error. -/
def honestNvmStep (c : Params) (r : VariantRec) (w : PtrWidth) (a : Addr) (b : Byte) : NvmStep → List Move
  | .wait => recvBytesMoves c w r.nvmStatus [0]
  | .cmd x => sendBytesMoves c w r.nvmCtrlA [x]
  | .sendBytes p d => sendBytesMoves c w (nvmPlace r a p) (nvmBytes a b d)
  | .sendWords p d => sendWordsMoves c w (nvmPlace r a p) (nvmBytes a b d)
  | .recvBytes p n => recvBytesMoves c w (nvmPlace r a p) (List.replicate n 0)
  | .recvWords p n => recvWordsMoves c w (nvmPlace r a p) (List.replicate (2 * n) 0)

/-- The bounds of a block, as a test. -/
def blockFits (c : Params) (w : PtrWidth) (a : Addr) (n : Nat) : Bool :=
  decide (1 ≤ n) && decide (n ≤ c.blockMaxUnits) && ptrFits w a

theorem blockOk_of {c : Params} {w : PtrWidth} {a : Addr} {n : Nat} (h : blockFits c w a n = true) : blockOk c w a n := by
  simp only [blockFits, Bool.and_eq_true, decide_eq_true_eq] at h
  exact ⟨h.1.1, h.1.2, h.2⟩

/-- Every address and length of a step is within a block's bounds. -/
def nvmStepOk (c : Params) (r : VariantRec) (w : PtrWidth) (a : Addr) : NvmStep → Bool
  | .wait => blockFits c w r.nvmStatus 1
  | .cmd _ => blockFits c w r.nvmCtrlA 1
  | .sendBytes p d => blockFits c w (nvmPlace r a p) (nvmBytes a 0 d).length
  | .sendWords p d => (nvmBytes a 0 d).length % 2 == 0 && blockFits c w (nvmPlace r a p) ((nvmBytes a 0 d).length / 2)
  | .recvBytes p n => blockFits c w (nvmPlace r a p) n
  | .recvWords p n => blockFits c w (nvmPlace r a p) n

theorem nvmBytes_length (a : Addr) (b b' : Byte) (d : NvmBytes) : (nvmBytes a b d).length = (nvmBytes a b' d).length := by
  cases d <;> rfl

theorem honestNvmStep_runs {c : Params} {r : VariantRec} {w : PtrWidth} {a : Addr} {b : Byte} {st : NvmStep}
    (h : nvmStepOk c r w a st = true) : nvmStepRuns c r w a b st (honestNvmStep c r w a b st) := by
  cases st with
  | wait => exact ⟨blockOk_of h, [], 0, by simp, by simp, by simp, rfl⟩
  | cmd x => exact ⟨blockOk_of h, rfl⟩
  | sendBytes p d => exact ⟨by rw [nvmBytes_length a b 0]; exact blockOk_of h, rfl⟩
  | sendWords p d =>
    simp only [nvmStepOk, Bool.and_eq_true, beq_iff_eq] at h
    exact ⟨by rw [nvmBytes_length a b 0]; exact h.1, by rw [nvmBytes_length a b 0]; exact blockOk_of h.2, rfl⟩
  | recvBytes p n => exact ⟨blockOk_of h, _, List.length_replicate, rfl⟩
  | recvWords p n => exact ⟨blockOk_of h, _, List.length_replicate, rfl⟩

def honestNvm (c : Params) (r : VariantRec) (w : PtrWidth) (a : Addr) (b : Byte) (sc : NvmScript) : List Move :=
  sc.flatMap (honestNvmStep c r w a b)

theorem honestNvm_runs {c : Params} {r : VariantRec} {w : PtrWidth} {a : Addr} {b : Byte} : ∀ {sc : NvmScript},
    sc.all (nvmStepOk c r w a) = true → nvmRuns c r w a b sc (honestNvm c r w a b sc)
  | [], _ => rfl
  | st :: rest, h => by
    rw [List.all_cons, Bool.and_eq_true] at h
    exact ⟨_, _, honestNvmStep_runs h.1, honestNvm_runs h.2, rfl⟩

theorem honest_paged {c : Params} {r : VariantRec} {w : PtrWidth} {pre post : NvmScript} {a : Addr} {d : List Byte}
    (h1 : pre.all (nvmStepOk c r w a) = true) (h2 : post.all (nvmStepOk c r w a) = true) :
    pagedRuns c r w pre post a d (honestNvm c r w a 0 pre ++ (transferMoves c w a d ++ honestNvm c r w a 0 post)) :=
  ⟨_, _, honestNvm_runs h1, honestNvm_runs h2, rfl⟩

theorem honest_bytewise {c : Params} {r : VariantRec} {w : PtrWidth} {one : NvmScript} {a : Addr} {b : Byte}
    (h : one.all (nvmStepOk c r w a) = true) :
    bytewiseRuns c r w one a [b] (honestNvm c r w a b one ++ []) :=
  ⟨_, _, honestNvm_runs h, rfl, rfl⟩

theorem honest_burst {c : Params} {r : VariantRec} {w : PtrWidth} {pre post : NvmScript} {a : Addr} {b : Byte}
    (h1 : pre.all (nvmStepOk c r w a) = true) (h : blockOk c w a 1) (h2 : post.all (nvmStepOk c r w a) = true) :
    burstRuns c r w pre post a [b]
      (honestNvm c r w a 0 pre ++ (sendBytesMoves c w a [b] ++ honestNvm c r w a 0 post)) :=
  ⟨_, _, _, honestNvm_runs h1, ⟨h, rfl⟩, honestNvm_runs h2, rfl⟩

theorem honest_bursts {c : Params} {r : VariantRec} {w : PtrWidth} {pre post : NvmScript} {a : Addr} {b0 b1 : Byte}
    (h1 : pre.all (nvmStepOk c r w a) = true) (h : blockOk c w a 2) (h2 : post.all (nvmStepOk c r w a) = true) :
    burstRuns c r w pre post a [b0, b1]
      (honestNvm c r w a 0 pre ++ (sendBytesMoves c w a [b0, b1] ++ (honestNvm c r w a 0 post ++ []))) :=
  ⟨_, _, _, _, honestNvm_runs h1, ⟨h, rfl⟩, honestNvm_runs h2, rfl, rfl⟩

/-- The key poll answered at once. -/
theorem honest_keyPoll {c : Params} {mask : Byte} (h : mask ≠ 0) :
    keyPollRuns c mask (ldcsMoves c .updi c.updi.rKeySt mask) :=
  ⟨[], mask, by simp, by simpa using h, rfl⟩

theorem honest_tpiEnabled : tpiEnabledRuns testCfg (ldcsMoves testCfg .tpi 0 2) :=
  ⟨[], 2, by simp, by decide, rfl⟩

theorem honest_tpiWait : tpiWaitRuns testCfg [.out 0x72, .into 0] :=
  ⟨[], 0, by simp, by decide, rfl⟩

theorem honest_pdiEnabled : pdiEnabledRuns testCfg (ldcsMoves testCfg .pdi 0 2) :=
  ⟨[], 2, by simp, by decide, rfl⟩

theorem honest_pdiWait : ∃ ms, pdiWaitRuns testCfg ms :=
  ⟨_, _, [], 0, honest_pdiEnabled, by simp, by decide, rfl⟩

/-- A connect attempt on the target of P1. -/
theorem honest_attempt : attemptRuns testCfg 240 testSib (attempt 240) :=
  ⟨by decide, _, honest_runs (c := testCfg) (e := .updi) (b := 0x3A) (sc := testCfg.updi.initSeq) (by decide), by decide⟩

/-- The unlock of an unlocked target with V0. -/
theorem honest_unlock : ∃ ms, unlockRuns testCfg .v0 defaultV0 ms :=
  ⟨_, _, _, _, _, 0x08, honest_keyPoll (by decide), honest_runs (b := 0) (by decide), by decide,
    honestNvm_runs (by decide), rfl⟩

theorem honest_chipErase : ∃ ms, chipEraseRuns testCfg ms :=
  ⟨_, _, _, _, honest_keyPoll (by decide), honest_runs (b := 0) (by decide), rfl⟩

theorem honest_userrow (w : PtrWidth) (a : Addr) (d : List Byte) : ∃ ms, userrowRuns testCfg w a d ms :=
  ⟨_, _, _, _, _, _, honest_keyPoll (by decide), honest_runs (b := 0) (by decide), honest_runs (b := 0) (by decide), rfl⟩

/-- An outcome is a next state. -/
def goesOn (o : Host.Outcome State Fault Refusal) : Bool :=
  match o with
  | .next _ => true
  | .fault _ => false
  | .refused _ => false

theorem next_of_goesOn {o : Host.Outcome State Fault Refusal} (h : goesOn o = true) : ∃ t, o = .next t := by
  cases o with
  | next t => exact ⟨t, rfl⟩
  | fault _ => cases h
  | refused _ => cases h

/-! ### The step, decoding, reset -/

/-- A stream with one record, and a table word. -/
theorem witness_StepRunsDecoded :
    (∃ (s : State) (i : Instr) (r : List Byte) (rest : List (List Byte)), s.env.pend = Pending.empty ∧
      s.env.stream = r :: rest ∧ decode s.cfg.scopes s.arch r = .ok i) ∧
    (∃ (s : State) (i : Instr) (nbits w : Nat), decode s.cfg.scopes s.arch (tableRecord nbits w) = .ok i) :=
  ⟨⟨{ fresh with env := { fresh.env with stream := [[0x10, 0x12, 0, 0]] }, arch := .updi }, .updiSignOn, _, _, rfl, rfl, rfl⟩,
    ⟨fresh, .updiSynch, 8, 0x55, rfl⟩⟩

/-- Each pending event alone, and nothing at all, all with the glue's bits pending or not. -/
theorem witness_StepTakesEvents : ∀ g : Option Glue,
    (∃ (s : State) (p : Pending), s.env.pend = p ∧ p.glue = g ∧ p.suspendResume = true) ∧
    (∃ (s : State) (p : Pending), s.env.pend = p ∧ p.glue = g ∧ p.suspendResume = false ∧ p.busReset = true) ∧
    (∃ (s : State) (p : Pending) (v : Bool), s.env.pend = p ∧ p.glue = g ∧ p.suspendResume = false ∧
      p.busReset = false ∧ p.vcp = some v) ∧
    (∃ (s : State) (p : Pending) (v : Bool), s.env.pend = p ∧ p.glue = g ∧ p.suspendResume = false ∧
      p.busReset = false ∧ p.vcp = none ∧ p.sw = some v) ∧
    ∃ (s : State) (p : Pending), s.env.pend = p ∧ p.glue = g ∧ { p with glue := none } = Pending.empty ∧
      s.env.stream = [] :=
  fun g =>
    ⟨⟨fresh.setPend ⟨g, true, true, none, none⟩, _, rfl, rfl, rfl⟩,
      ⟨fresh.setPend ⟨g, false, true, none, none⟩, _, rfl, rfl, rfl, rfl⟩,
      ⟨fresh.setPend ⟨g, false, false, some true, none⟩, _, true, rfl, rfl, rfl, rfl, rfl⟩,
      ⟨fresh.setPend ⟨g, false, false, none, some true⟩, _, true, rfl, rfl, rfl, rfl, rfl, rfl⟩,
      fresh.setPend ⟨g, false, false, none, none⟩, _, rfl, rfl, rfl, rfl⟩

/-- The glue's bits alone: they are the state's after the step. -/
theorem test_step_glue :
    (match step (fresh.setPend ⟨some ⟨true, true, false, false⟩, false, false, none, none⟩) with
      | .next t => decide (t.ui = { fresh.ui with usbEnum := true, vcpBufsel := true }) && !t.env.ie
      | _ => false) = true := by decide +kernel

/-- A record of 540 bytes, the cap. -/
theorem witness_DecodeEncodeRoundTrip : ∃ (sc : Scopes) (i : Instr), sc.ok = true ∧ i.wf sc = true :=
  ⟨Config.defaultScopes, _, by decide, test_wf_record_at_cap⟩

/-! ### Invariants -/

theorem witness_StepKeepsWellBehaved : ∃ s t : State, s.wellBehaved ∧ step s = .next t :=
  have h : goesOn (step (prog.withFetchWord 8 0x22)) = true := by decide +kernel
  let ⟨t, ht⟩ := next_of_goesOn h
  ⟨_, t, ⟨rfl, rfl, rfl, rfl, rfl, fun _ => rfl, rfl, by decide, ⟨by decide, by decide⟩, Bool.noConfusion⟩, ht⟩

theorem witness_DeliveredKeepSession :
    ∃ (i : Instr) (s t : State), delivered i = true ∧ s.wellBehaved ∧ s.sessionOk ∧ exec i s = .next t :=
  have h : goesOn (exec .updiLeaveProgmode (lined .updi applyKey prog)) = true := by decide +kernel
  let ⟨t, ht⟩ := next_of_goesOn h
  ⟨_, _, t, rfl, ⟨rfl, rfl, rfl, rfl, rfl, fun _ => rfl, rfl, by decide, ⟨by decide, by decide⟩, Bool.noConfusion⟩,
    ⟨Bool.noConfusion, by decide⟩, ht⟩

theorem witness_OnlyTheirWriters :
    ∃ (i : Instr) (s t : State), exec i s = .next t ∧ (∀ v, i ≠ .sysSw v) ∧ (∀ v, i ≠ .rsaSample v) ∧
      (∀ p, i ≠ .sysSetParameter p) ∧ i ≠ .sysUsbBusReset ∧ i ≠ .sysRestart ∧ i ≠ .sysUsbSuspendResume ∧
      ∀ a d, i ≠ .sessionOpen a d :=
  ⟨.updiBindVariant, linked, _, rfl, by simp, by simp, by simp, by simp, by simp, by simp, by simp⟩

/-! ### Parameters, wire instructions, line primitives -/

theorem witness_ParameterCommands : (fresh.wdArmed = false ∧ fresh.sess.link = false) ∧
    (linked.wdArmed = false ∧ linked.sess.link = true) := ⟨⟨rfl, rfl⟩, rfl, rfl⟩

/-- One byte, and the empty stream, a word and an odd length. -/
theorem witness_UpdiSends : linked.wdArmed = false ∧ linked.umode = .updi ∧
    (∀ ms, (lined .updi ms linked).wdArmed = false ∧ (lined .updi ms linked).umode = .updi ∧
      (lined .updi ms linked).hears .updi ms []) ∧
    (∃ d : List Byte, d.length % 2 = 0) ∧ ∃ d : List Byte, d.length % 2 = 1 :=
  ⟨rfl, rfl, fun _ => ⟨rfl, rfl, lined_hears _ _ _⟩, ⟨[1, 2], rfl⟩, [1], rfl⟩

/-- Streams of 256 bytes and of one word. -/
theorem witness_UpdiReceives :
    (∀ ms, (lined .updi ms linked).wdArmed = false ∧ (lined .updi ms linked).umode = .updi ∧
      (lined .updi ms linked).hears .updi ms []) ∧
    (∀ v, (lined .pdi [.into v] pdiLinked).wdArmed = false ∧
      (lined .pdi [.into v] pdiLinked).hears pdiLinked.lineEngine [.into v] []) ∧
    (∃ (n : Byte) (d : List Byte), d.length = n.toNat + 1) ∧ ∃ (n : Byte) (d : List Byte), d.length = 2 * (n.toNat + 1) :=
  ⟨fun _ => ⟨rfl, rfl, lined_hears _ _ _⟩, fun _ => ⟨rfl, lined_hears _ _ _⟩, ⟨0xFF, List.replicate 256 0, List.length_replicate⟩, 0, [1, 2], rfl⟩

theorem witness_UpdiSibAndBinding :
    (∃ d rest, (lined .updi (instrMoves testCfg 0xE6 [] ++ ins d) linked).wdArmed = false ∧ linked.umode = .updi ∧
      d.length = Config.sibLen ∧ (lined .updi (instrMoves testCfg 0xE6 [] ++ ins d) linked).hears .updi
        (instrMoves linked.cfg linked.cfg.updi.opSib [] ++ ins d) rest) ∧
    (linked.wdArmed = false ∧ linked.sib.valid = true) ∧ fresh.wdArmed = false ∧ fresh.sib.valid = false :=
  ⟨⟨testSib, [], rfl, rfl, rfl, lined_hears _ _ _⟩, ⟨rfl, rfl⟩, rfl, rfl⟩

/-- The largest address of two bytes, and the first beyond it. -/
theorem witness_UpdiPointerSet :
    (∃ s rest, s.wdArmed = false ∧ s.umode = .updi ∧ ptrFits .two 0xFFFF = true ∧
      State.hears .updi (setPtrMoves s.cfg .two 0xFFFF s.cfg.updi.ptrAck) rest s) ∧
    (∃ s v rest, s.wdArmed = false ∧ s.umode = .updi ∧ ptrFits .two 0xFFFF = true ∧ s.cfg.updi.ptrAck = true ∧
      v ≠ s.cfg.updi.ack ∧ State.hears .updi (setPtrMoves s.cfg .two 0xFFFF false ++ [.into v]) rest s) ∧
    linked.wdArmed = false ∧ linked.umode = .updi ∧ ptrFits .two 0x10000 = false :=
  ⟨⟨lined .updi (setPtrMoves testCfg .two 0xFFFF true) linked, [], rfl, rfl, by decide, lined_hears _ _ _⟩,
    ⟨lined .updi (setPtrMoves testCfg .two 0xFFFF false ++ [.into 0x41]) linked, 0x41, [], rfl, rfl, by decide, rfl,
      by decide, lined_hears _ _ _⟩, rfl, rfl, by decide⟩

/-- A frame; a line at its end and one that is silent for now, with no run, and in a run with interrupts disabled. -/
theorem witness_FramesAreChecked :
    (∃ (s : State) (f : LineFrame) (rest : List LineEvent), s.wdArmed = false ∧ s.umode = .updi ∧
      s.env.line = .frame f :: rest) ∧
    (linked.wdArmed = false ∧ linked.umode = .updi ∧ linked.env.line = []) ∧
    ∃ s : State, s.env.ie = false ∧ s.umode = .updi ∧ s.env.line = .silence :: [] :=
  ⟨⟨lined .updi [.into 7] linked, _, [], rfl, rfl, rfl⟩, ⟨rfl, rfl, rfl⟩,
    { linked with wdArmed := true, env := { linked.env with ie := false, line := [.silence] } }, rfl, rfl, rfl⟩

theorem witness_UpdiLineActions : fresh.wdArmed = false := rfl

theorem witness_UpdiHandshakeAndAttempt :
    (∃ (s : State) (ms : List Move) (rest : List LineEvent) (r : List Byte), s.wdArmed = false ∧ s.umode = .updi ∧
      s.hears .updi ms rest ∧ scriptRuns s.cfg .updi s.cfg.updi.initSeq ms r) ∧
    (∃ (s : State) (ms : List Move) (rest : List LineEvent) (sib : List Byte), s.wdArmed = false ∧ s.umode = .updi ∧
      s.hears .updi ms rest ∧ attemptRuns s.cfg s.clk sib ms) :=
  ⟨⟨lined .updi _ linked, _, [], _, rfl, rfl, lined_hears _ _ _,
      honest_runs (c := testCfg) (b := 0x3A) (sc := testCfg.updi.initSeq) (by decide)⟩,
    ⟨lined .updi _ linked, _, [], _, rfl, rfl, lined_hears _ _ _, honest_attempt⟩⟩

/-- One byte, 256 words, no byte, 257 bytes' worth of words. -/
theorem witness_UpdiBracketedBlocks :
    (∃ s a d rest, s.wdArmed = false ∧ s.umode = .updi ∧ blockOk s.cfg (boundWidth s) a (List.length d) ∧
      State.hears .updi (sendBytesMoves s.cfg (boundWidth s) a d) rest s) ∧
    (∃ s a d rest, s.wdArmed = false ∧ s.umode = .updi ∧ List.length d % 2 = 0 ∧
      blockOk s.cfg (boundWidth s) a (d.length / 2) ∧
      State.hears .updi (sendWordsMoves s.cfg (boundWidth s) a d) rest s) ∧
    (linked.wdArmed = false ∧ linked.umode = .updi ∧
      ¬ blockOk linked.cfg (boundWidth linked) 0x8000 (List.length ([] : List Byte)) ∧
      ¬ blockOk linked.cfg (boundWidth linked) 0x8000 (List.length (List.replicate 257 (0 : Byte))) ∧
      List.length [(1 : Byte)] % 2 = 1) :=
  ⟨⟨lined .updi (sendBytesMoves testCfg .two 0xFFFF [1]) linked, _, _, [], rfl, rfl, blockOk_of (by decide),
      lined_hears _ _ _⟩,
    ⟨lined .updi (sendWordsMoves testCfg .two 0x8000 (List.replicate 512 0)) linked, _, _, [], rfl, rfl, by decide +kernel,
      blockOk_of (by decide +kernel), lined_hears _ _ _⟩,
    rfl, rfl, fun h => absurd h.1 (by decide), fun h => absurd h.2.1 (by decide +kernel), rfl⟩

theorem witness_UpdiFallbackLowersRate :
    (linked.wdArmed = false ∧ ∃ c, clkLower linked.cfg linked.clk = some c) ∧
    ({ linked with clk := 40 } : State).wdArmed = false ∧ clkLower linked.cfg 40 = none :=
  ⟨⟨rfl, 200, by decide⟩, rfl, by decide⟩

/-- 41 kHz lowers to the floor, and 40 is the floor. -/
theorem witness_ClkLowerLaws : clkParamsOk testCfg = true ∧ Config.clkMinKhz ≤ 41 ∧ clkLower testCfg 41 = some 40 ∧
    Config.clkMinKhz ≤ 40 ∧ clkLower testCfg 40 = none := by decide

/-! ### UPDI ceremonies and operations -/

theorem witness_UpdiChipErase :
    (∃ s ms rest, s.wdArmed = false ∧ s.umode = .updi ∧ s.sess.link = true ∧ chipEraseRuns s.cfg ms ∧
      (s.sess.prog && s.cfg.eraseReentersProg) = false ∧ State.hears .updi ms rest s) ∧
    (∃ s ms rest r m2, s.wdArmed = false ∧ s.umode = .updi ∧ s.sess.link = true ∧ chipEraseRuns s.cfg ms ∧
      (s.sess.prog && s.cfg.eraseReentersProg) = true ∧ variantRec s.cfg s.ct = some r ∧
      unlockRuns s.cfg s.ct r m2 ∧ State.hears .updi (ms ++ m2) rest s) :=
  let ⟨ms, h⟩ := honest_chipErase
  let ⟨m2, h2⟩ := honest_unlock
  ⟨⟨lined .updi ms linked, ms, [], rfl, rfl, rfl, h, rfl, lined_hears _ _ _⟩,
    lined .updi (ms ++ m2) prog, ms, [], defaultV0, m2, rfl, rfl, rfl, h, rfl, rfl, h2, lined_hears _ _ _⟩

/-- A block of 256 bytes; no link, and 257 bytes; no byte, and an address beyond two bytes; a signature of three
bytes, and of four. -/
theorem witness_UpdiUserrowAndSignature :
    (∃ s a d ms rest, s.wdArmed = false ∧ s.umode = .updi ∧ s.sess.link = true ∧
      blockOk s.cfg (boundWidth s) a (List.length d) ∧ userrowRuns s.cfg (boundWidth s) a d ms ∧
      State.hears .updi ms rest s) ∧
    (fresh.sess.link = false ∧ linked.cfg.blockMaxUnits < (List.replicate 257 (0 : Byte)).length) ∧
    (∀ (a : Addr) (d : List Byte), (a, d) = (0x1300, []) ∨ (a, d) = (0x10000, [7]) →
      ∃ s m2 m3 r3 rest, s.wdArmed = false ∧ s.umode = .updi ∧ s.sess.link = true ∧ d.length ≤ s.cfg.blockMaxUnits ∧
        (d = [] ∨ ptrFits (boundWidth s) a = false) ∧ keyPollRuns s.cfg s.cfg.updi.keystUrow m2 ∧
        scriptRuns s.cfg .updi s.cfg.updi.urowProceedSeq m3 r3 ∧
        State.hears .updi (outs (keyBytes s.cfg .urow) ++ (m2 ++ m3)) rest s) ∧
    (3 : Addr).toNat ≤ linked.cfg.sigDummy.length ∧ linked.cfg.sigDummy.length < (4 : Addr).toNat :=
  let ⟨ms, h⟩ := honest_userrow .two 0x1300 (List.replicate 256 0)
  ⟨⟨lined .updi ms linked, 0x1300, _, ms, [], rfl, rfl, rfl,
      blockOk_of (c := testCfg) (w := .two) (by decide +kernel), h, lined_hears _ _ _⟩,
    ⟨rfl, by decide +kernel⟩,
    fun a d h => by
      have ⟨m2, h2⟩ : ∃ ms, keyPollRuns testCfg testCfg.updi.keystUrow ms := ⟨_, honest_keyPoll (by decide)⟩
      have ⟨m3, r3, h3⟩ : ∃ ms r, scriptRuns testCfg .updi testCfg.updi.urowProceedSeq ms r :=
        ⟨_, _, honest_runs (b := 0) (by decide)⟩
      refine ⟨lined .updi (outs (keyBytes testCfg .urow) ++ (m2 ++ m3)) linked, m2, m3, r3, [], rfl, rfl, rfl, ?_, ?_, h2,
        h3, lined_hears _ _ _⟩ <;>
        rcases h with h | h <;> cases h <;> first | exact .inl rfl | exact .inr rfl | exact Nat.le_of_ble_eq_true rfl,
    by decide, by decide⟩

theorem ready_of {s : State} {n : Nat} (h1 : s.wdArmed = false) (h2 : s.env.ie = true) (h3 : s.env.delays = [])
    (h4 : 0 < n) : s.ready n := ⟨h1, h2, by rw [h3]; exact h4⟩

/-- Within 15 of the 16 ms. -/
theorem witness_UpdiSignOnConnects : ∃ (s : State) (sib : List Byte) (ms : List Move) (rest : List LineEvent),
    s.ready Config.connectAttemptMs.toNat ∧ s.arch = .updi ∧ attemptRuns s.cfg s.cfg.clkCfgKhz sib ms ∧
      s.hears .updi ms rest :=
  ⟨lined .updi (attempt 240) { selected with env := { selected.env with delays := [15] } }, testSib, attempt 240, [],
    ⟨rfl, rfl, by decide⟩, rfl, honest_attempt, lined_hears _ _ _⟩

theorem witness_UpdiSignOnSilentTarget : selected.wdArmed = false ∧ selected.env.ie = true ∧ selected.arch = .updi ∧
    selected.env.line = [] := ⟨rfl, rfl, rfl, rfl⟩

theorem witness_Disconnects :
    ((selected.wdArmed = false ∧ selected.sess.link = false ∧ selected.arch = .updi) ∧
      ({ selected with arch := .pdi } : State).arch = .pdi) ∧
    (∃ s ms rest, s.wdArmed = false ∧ s.sess.link = true ∧ s.ready Config.wdDefaultMs.toNat ∧ s.arch = .updi ∧
      s.umode = .updi ∧ updiSignOffRuns s.cfg s.sess.prog ms ∧ State.hears .updi ms rest s) ∧
    (pdiLinked.wdArmed = false ∧ pdiLinked.sess.link = true ∧ pdiLinked.ready Config.wdDefaultMs.toNat ∧
      pdiLinked.arch = .pdi ∧ pdiLinked.sess.prog = false) ∧
    (∃ s ms r rest, s.wdArmed = false ∧ s.sess.link = true ∧ s.ready Config.wdDefaultMs.toNat ∧ s.arch = .pdi ∧
      s.sess.prog = true ∧ s.umode = .pdi ∧ scriptRuns s.cfg .pdi s.cfg.pdi.leaveSeq ms r ∧ State.hears .pdi ms rest s) ∧
    (tpiProg.wdArmed = false ∧ tpiProg.sess.link = true ∧ tpiProg.ready Config.wdDefaultMs.toNat ∧
      tpiProg.umode = .tpi) :=
  ⟨⟨⟨rfl, rfl, rfl⟩, rfl⟩,
    ⟨lined .updi _ prog, _, [], rfl, rfl, ready_of rfl rfl rfl (by decide), rfl, rfl,
      ⟨_, _, _, _, honest_runs (c := testCfg) (b := 0) (sc := testCfg.updi.leaveSeq) (by decide),
        honest_runs (c := testCfg) (b := 0) (sc := testCfg.updi.disableSeq) (by decide), rfl⟩, lined_hears _ _ _⟩,
    ⟨rfl, rfl, ready_of rfl rfl rfl (by decide), rfl, rfl⟩,
    ⟨lined .pdi _ pdiProg, _, _, [], rfl, rfl, ready_of rfl rfl rfl (by decide), rfl, rfl, rfl,
      honest_runs (c := testCfg) (b := 0) (sc := testCfg.pdi.leaveSeq) (by decide), lined_hears _ _ _⟩,
    rfl, rfl, ready_of rfl rfl rfl (by decide), rfl⟩

/-- Programming mode granted and not; then the failures: the lock bit set, no record, the controller's error bit. -/
theorem witness_UpdiEnterProgmode :
    (prog.ready Config.wdDefaultMs.toNat ∧ prog.arch = .updi ∧ prog.sess.link = true ∧ prog.sess.prog = true) ∧
    (∃ s r ms rest, s.ready Config.wdDefaultMs.toNat ∧ s.arch = .updi ∧ s.sess.link = true ∧ s.sess.prog = false ∧
      s.umode = .updi ∧ variantRec s.cfg s.ct = some r ∧ unlockRuns s.cfg s.ct r ms ∧ State.hears .updi ms rest s) ∧
    (∃ m2 m3 r3, keyPollRuns testCfg testCfg.updi.keystProg m2 ∧
      scriptRuns testCfg .updi testCfg.updi.applyKeySeq m3 r3 ∧
      (0x09 : Byte) &&& testCfg.updi.sysstLock ≠ 0 ∧ (0x08 : Byte) &&& testCfg.updi.sysstLock = 0 ∧
      (∀ ms, let s := lined .updi ms linked
        s.ready Config.wdDefaultMs.toNat ∧ s.arch = .updi ∧ s.sess.link = true ∧ s.sess.prog = false ∧
        s.umode = .updi ∧ s.cfg.retryOnFailure = false ∧ s.hears .updi ms [])) ∧
    variantRec testCfg .v1 = none ∧
    (variantRec testCfg .v0 = some defaultV0 ∧ defaultV0.initScript = .wait :: [] ∧
      blockOk testCfg .two defaultV0.nvmStatus 1 ∧ (∀ y ∈ [(1 : Byte)], y &&& defaultV0.busyMask ≠ 0) ∧
      (4 : Byte) &&& defaultV0.busyMask = 0 ∧ (4 : Byte) &&& defaultV0.errMask ≠ 0) :=
  let ⟨ms, h⟩ := honest_unlock
  ⟨⟨ready_of rfl rfl rfl (by decide), rfl, rfl, rfl⟩,
    ⟨lined .updi ms linked, defaultV0, ms, [], ready_of rfl rfl rfl (by decide), rfl, rfl, rfl, rfl, rfl, h,
      lined_hears _ _ _⟩,
    ⟨_, _, _, honest_keyPoll (by decide), honest_runs (b := 0) (by decide), by decide, by decide,
      fun _ => ⟨ready_of rfl rfl rfl (by decide), rfl, rfl, rfl, rfl, rfl, lined_hears _ _ _⟩⟩,
    rfl, rfl, rfl, blockOk_of (by decide), by decide, by decide, by decide⟩

theorem witness_LeaveProgmode :
    (linked.ready Config.wdDefaultMs.toNat ∧ linked.sess.link = true ∧ linked.arch = .updi ∧ linked.sess.prog = false) ∧
    (∃ s ms r rest, s.ready Config.wdDefaultMs.toNat ∧ s.sess.link = true ∧ s.arch = .updi ∧ s.sess.prog = true ∧
      s.umode = .updi ∧ scriptRuns s.cfg .updi s.cfg.updi.leaveSeq ms r ∧ State.hears .updi ms rest s) ∧
    (pdiLinked.ready Config.wdDefaultMs.toNat ∧ pdiLinked.sess.link = true ∧ pdiLinked.arch = .pdi ∧
      pdiLinked.sess.prog = false) ∧
    (∃ s ms r rest, s.ready Config.wdDefaultMs.toNat ∧ s.sess.link = true ∧ s.arch = .pdi ∧ s.sess.prog = true ∧
      s.umode = .pdi ∧ scriptRuns s.cfg .pdi s.cfg.pdi.leaveSeq ms r ∧ State.hears .pdi ms rest s) ∧
    (∀ a ∈ [Arch.updi, .pdi], let s : State := { tpiProg with arch := a }
      s.ready Config.wdDefaultMs.toNat ∧ s.sess.link = true ∧ s.sess.prog = true ∧ s.cfg.retryOnFailure = false ∧
      s.arch = a ∧ s.umode ≠ .updi ∧ s.umode ≠ .pdi ∧ (∃ r v more, s.cfg.updi.leaveSeq = .stcs r v :: more) ∧
      ∃ r v more, s.cfg.pdi.leaveSeq = .stcs r v :: more) :=
  ⟨⟨ready_of rfl rfl rfl (by decide), rfl, rfl, rfl⟩,
    ⟨lined .updi _ prog, _, _, [], ready_of rfl rfl rfl (by decide), rfl, rfl, rfl, rfl,
      honest_runs (c := testCfg) (b := 0) (sc := testCfg.updi.leaveSeq) (by decide), lined_hears _ _ _⟩,
    ⟨ready_of rfl rfl rfl (by decide), rfl, rfl, rfl⟩,
    ⟨lined .pdi _ pdiProg, _, _, [], ready_of rfl rfl rfl (by decide), rfl, rfl, rfl, rfl,
      honest_runs (c := testCfg) (b := 0) (sc := testCfg.pdi.leaveSeq) (by decide), lined_hears _ _ _⟩,
    fun _ _ => ⟨ready_of rfl rfl rfl (by decide), rfl, rfl, rfl, rfl, nofun, nofun, ⟨_, _, _, rfl⟩, _, _, _, rfl⟩⟩

/-- A read of 512 bytes, the limit, as 256 words; the whole SIB; a signature of three bytes. -/
theorem witness_UpdiReadMemory :
    (linked.ready Config.wdDefaultMs.toNat ∧ linked.arch = .updi ∧ linked.sess.link = true ∧
      lenOk (32 : Addr).toNat = true ∧ inSpace32 0 (32 : Addr).toNat = true ∧ memKind linked.cfg 0xD3 = some .sib ∧
      linked.sib.valid = true ∧ (0 : Addr).toNat + (32 : Addr).toNat ≤ Config.sibLen) ∧
    (linked.ready Config.wdDefaultMs.toNat ∧ linked.arch = .updi ∧ linked.sess.link = true ∧
      lenOk (3 : Addr).toNat = true ∧ inSpace32 0xFFFFFFFD (3 : Addr).toNat = true ∧
      memKind linked.cfg 0xB4 = some .signature ∧ linked.sess.prog = false ∧
      (3 : Addr).toNat ≤ linked.cfg.sigDummy.length) ∧
    (∃ (s : State) (mt : Byte) (a n : Addr) (k : MemKind) (a' : Addr) (r : VariantRec) (d : List Byte)
      (rest : List LineEvent), s.ready Config.wdDefaultMs.toNat ∧ s.arch = .updi ∧ s.sess.link = true ∧
      lenOk n.toNat = true ∧ inSpace32 a n.toNat = true ∧ memKind s.cfg mt = some k ∧ k ≠ .sib ∧
      s.sess.prog = true ∧ s.umode = .updi ∧ xlate s.cfg s.dd k a = some a' ∧ inSpace32 a' n.toNat = true ∧
      variantRec s.cfg s.ct = some r ∧ d.length = n.toNat ∧ transferOk s.cfg (boundWidth s) a' n.toNat ∧
      State.hears .updi (readMoves s.cfg (boundWidth s) a' d) rest s) :=
  ⟨⟨ready_of rfl rfl rfl (by decide), rfl, rfl, by decide, by decide, by decide, rfl, by decide⟩,
    ⟨ready_of rfl rfl rfl (by decide), rfl, rfl, by decide, by decide, by decide, rfl, by decide⟩,
    lined .updi (readMoves testCfg .two 0x8000 (List.replicate 512 0)) prog, 0xB0, 0x8000, 512, .flashPage, 0x8000,
    defaultV0, List.replicate 512 0, [], ready_of rfl rfl rfl (by decide), rfl, rfl, by decide, by decide, by decide,
    by decide, rfl, rfl, by decide, by decide, rfl, by decide +kernel, ⟨by decide, by decide, by decide⟩, lined_hears _ _ _⟩

/-- The writes of the variants that have a record: for each class of memory type, with the tracker left. One byte at an
address with an `atomic`, `bytewise`, `burst2` or plain method; a page of 64 bytes, and one not erased before. -/
theorem witness_writeRuns :
    (∃ ms tr, writeRuns linked .v0 testCfg.v0 .sram 0x3F00 [7] ms tr) ∧
    (∃ ms tr, writeRuns linked .v0 testCfg.v0 .flashPage 0x8000 (List.replicate 64 7) ms tr) ∧
    (∃ ms tr, writeRuns { linked with beforePage := some 0x8000 } .v0 testCfg.v0 .flashPage 0x8000
      (List.replicate 64 7) ms tr) ∧
    (∃ ms tr, writeRuns linked .v0 testCfg.v0 .fuse 0x1282 [7] ms tr) ∧
    (∃ ms tr, writeRuns linked .v0 testCfg.v0 .eeprom 0x1400 [7] ms tr) ∧
    (∃ ms tr, writeRuns linked .v0 testCfg.v0 .userrow 0x1300 [7] ms tr) ∧
    (∃ ms tr, writeRuns linked .v3 testCfg.v3 .flashPage 0x8000 [7] ms tr) ∧
    (∃ ms tr, writeRuns linked .v3 testCfg.v3 .lock 0x128A [7] ms tr) ∧
    (∃ ms tr, writeRuns linked .v4 testCfg.v4 .bootFlash 0x8000 (List.replicate 512 7) ms tr) ∧
    (∃ ms tr, writeRuns linked .v4 testCfg.v4 .eepromPage 0x1400 [7] ms tr) ∧
    (∃ ms tr, writeRuns linked .v4 testCfg.v4 .fuse 0x1050 [7] ms tr) :=
  have two : ∀ {n : Nat} {a : Addr}, 1 ≤ n → blockable testCfg n = true → ptrFits .two a = true →
      transferOk testCfg .two a n := fun h1 h2 h3 => ⟨h1, h2, h3⟩
  have three : ∀ {n : Nat} {a : Addr}, 1 ≤ n → blockable testCfg n = true → ptrFits .three a = true →
      transferOk testCfg .three a n := fun h1 h2 h3 => ⟨h1, h2, h3⟩
  ⟨⟨_, _, two (by decide +kernel) (by decide +kernel) (by decide +kernel), rfl, rfl⟩,
    ⟨_, _, rfl, two (by decide +kernel) (by decide +kernel) (by decide +kernel), by decide +kernel, rfl, _, _,
      honestNvm_runs (sc := testCfg.v0.pageErase) (by decide +kernel), honest_paged (by decide +kernel) (by decide +kernel), rfl⟩,
    ⟨_, _, rfl, two (by decide +kernel) (by decide +kernel) (by decide +kernel), by decide +kernel, rfl, [], _, by rw [if_pos (by decide +kernel)],
      honest_paged (by decide +kernel) (by decide +kernel), rfl⟩,
    ⟨_, _, ⟨by decide, by decide +kernel, by decide⟩, rfl, honest_bytewise (by decide +kernel)⟩,
    ⟨_, _, two (by decide +kernel) (by decide +kernel) (by decide +kernel), rfl, honest_paged (by decide +kernel) (by decide +kernel)⟩,
    ⟨_, _, two (by decide +kernel) (by decide +kernel) (by decide +kernel), rfl, honest_paged (by decide +kernel) (by decide +kernel)⟩,
    ⟨_, _, three (by decide +kernel) (by decide +kernel) (by decide +kernel), rfl, honest_paged (by decide +kernel) (by decide +kernel)⟩,
    ⟨_, _, three (by decide +kernel) (by decide +kernel) (by decide +kernel), rfl, honest_paged (by decide +kernel) (by decide +kernel)⟩,
    ⟨_, _, three (by decide +kernel) (by decide +kernel) (by decide +kernel), by decide +kernel, rfl, _, _,
      honestNvm_runs (sc := testCfg.v4.pageErase) (by decide +kernel), honest_paged (by decide +kernel) (by decide +kernel), rfl⟩,
    ⟨_, _, ⟨by decide, by decide +kernel, by decide⟩, rfl, honest_burst (by decide +kernel) (blockOk_of (by decide +kernel)) (by decide +kernel)⟩,
    ⟨_, _, ⟨by decide, by decide +kernel, by decide⟩, rfl, honest_burst (by decide +kernel) (blockOk_of (by decide +kernel)) (by decide +kernel)⟩⟩

theorem kinds : memKind testCfg 0x22 = some .eeprom ∧ memKind testCfg 0xB0 = some .flashPage ∧
    memKind testCfg 0xB1 = some .eepromPage ∧ memKind testCfg 0xB2 = some .fuse ∧
    memKind testCfg 0xC5 = some .userrow := by decide

theorem witness_UpdiWriteMemory :
    (∃ (s : State) (mt : Byte) (a n : Addr) (d : List Byte) (ms : List Move) (rest : List LineEvent),
      s.ready Config.wdDefaultMs.toNat ∧ s.arch = .updi ∧ s.sess.link = true ∧ s.umode = .updi ∧
      lenOk n.toNat = true ∧ inSpace32 a n.toNat = true ∧ d.length = n.toNat ∧ s.hears .updi ms rest ∧
      memKind s.cfg mt = some .userrow ∧ s.sess.prog = false ∧ blockOk s.cfg (boundWidth s) a d.length ∧
      userrowRuns s.cfg (boundWidth s) a d ms) ∧
    (∃ (s : State) (mt : Byte) (a n : Addr) (d : List Byte) (ms : List Move) (rest : List LineEvent) (k : MemKind)
      (a' : Addr) (r : VariantRec) (tracker : Option Addr),
      s.ready Config.wdDefaultMs.toNat ∧ s.arch = .updi ∧ s.sess.link = true ∧ s.umode = .updi ∧
      lenOk n.toNat = true ∧ inSpace32 a n.toNat = true ∧ d.length = n.toNat ∧ s.hears .updi ms rest ∧
      memKind s.cfg mt = some k ∧ s.sess.prog = true ∧ xlate s.cfg s.dd k a = some a' ∧ inSpace32 a' n.toNat = true ∧
      variantRec s.cfg s.ct = some r ∧ writeRuns s s.ct r k a' d ms tracker) :=
  let ⟨ms, h⟩ := honest_userrow .two 0x1300 [7]
  have ⟨m2, h2⟩ : ∃ ms, pagedRuns testCfg defaultV0 .two defaultV0.preWrite.eeprom defaultV0.commitEraseWrite.eeprom
    0x1400 [7] ms := ⟨_, honest_paged (by decide +kernel) (by decide +kernel)⟩
  ⟨⟨lined .updi ms linked, 0xC5, 0x1300, 1, [7], ms, [], ready_of rfl rfl rfl (by decide), rfl, rfl, rfl, by decide,
      by decide, rfl, lined_hears _ _ _, kinds.2.2.2.2, rfl, blockOk_of (c := testCfg) (w := .two) (by decide), h⟩,
    lined .updi m2 prog, 0x22, 0x1400, 1, [7], m2, [], .eeprom, 0x1400, defaultV0, none,
    ready_of rfl rfl rfl (by decide), rfl, rfl, rfl, by decide, by decide, rfl, lined_hears _ _ _, kinds.1, rfl, rfl,
    by decide, rfl, ⟨by decide, (by decide : blockable testCfg 1 = true), (by decide : ptrFits .two 0x1400 = true)⟩, rfl, h2⟩

/-- A chip erase, alone and with programming mode to enter again; a page erase at the last byte of a page; another
type. -/
theorem witness_UpdiEraseMemory :
    (∃ (s : State) (ms : List Move) (rest : List LineEvent), s.ready Config.wdDefaultMs.toNat ∧ s.arch = .updi ∧
      s.sess.link = true ∧ s.hears .updi ms rest ∧ s.umode = .updi ∧ (s.sess.prog && s.cfg.eraseReentersProg) = false ∧
      chipEraseRuns s.cfg ms) ∧
    (∃ (s : State) (ms : List Move) (rest : List LineEvent) (r : VariantRec) (m1 m2 : List Move),
      s.ready Config.wdDefaultMs.toNat ∧ s.arch = .updi ∧ s.sess.link = true ∧ s.hears .updi ms rest ∧
      s.umode = .updi ∧ (s.sess.prog && s.cfg.eraseReentersProg) = true ∧ variantRec s.cfg s.ct = some r ∧
      chipEraseRuns s.cfg m1 ∧ unlockRuns s.cfg s.ct r m2 ∧ ms = m1 ++ m2) ∧
    (∃ (s : State) (a : Addr) (ms : List Move) (rest : List LineEvent) (r : VariantRec) (a' : Addr),
      s.ready Config.wdDefaultMs.toNat ∧ s.arch = .updi ∧ s.sess.link = true ∧ s.hears .updi ms rest ∧
      (4 : Byte) ≠ s.cfg.etChip ∧ 4 = s.cfg.etPage ∧ s.umode = .updi ∧ s.sess.prog = true ∧
      xlate s.cfg s.dd .flashPage a = some a' ∧ variantRec s.cfg s.ct = some r ∧ eraseRuns s s.ct r a' ms) ∧
    ((5 : Byte) ≠ linked.cfg.etChip ∧ (5 : Byte) ≠ linked.cfg.etPage ∧ linked.cfg.retryOnFailure = false) :=
  let ⟨ms, h⟩ := honest_chipErase
  have ⟨m2, h2⟩ : ∃ ms, nvmRuns testCfg defaultV0 .two (pageAlign 0x803F 64) 0 defaultV0.pageErase ms :=
    ⟨_, honestNvm_runs (by decide +kernel)⟩
  let ⟨mu, hu⟩ := honest_unlock
  ⟨⟨lined .updi ms linked, ms, [], ready_of rfl rfl rfl (by decide), rfl, rfl, lined_hears _ _ _, rfl, rfl, h⟩,
    ⟨lined .updi (ms ++ mu) prog, _, [], defaultV0, ms, mu, ready_of rfl rfl rfl (by decide), rfl, rfl, lined_hears _ _ _, rfl,
      rfl, rfl, h, hu, rfl⟩,
    ⟨lined .updi m2 prog, 0x803F, m2, [], defaultV0, 0x803F, ready_of rfl rfl rfl (by decide), rfl, rfl,
      lined_hears _ _ _, (by decide : (4 : Byte) ≠ 0), rfl, rfl, rfl, rfl, rfl, rfl,
      (by decide : ptrFits .two (pageAlign 0x803F 64) = true), h2⟩,
    by decide⟩

/-! ### Variants -/

/-- With an error bit, without one, and without a record. -/
theorem witness_NvmHelpers :
    (∃ (s : State) (r : VariantRec) (x : Byte) (ms : List Move) (rest : List LineEvent), s.wdArmed = false ∧
      s.umode = .updi ∧ variantRec s.cfg s.ct = some r ∧ storeRuns s.cfg (boundWidth s) r.nvmCtrlA [x] ms ∧
      s.hears .updi ms rest) ∧
    (∀ v : Byte, v = 0 ∨ v = 4 → ∃ (s : State) (r : VariantRec) (busy : List Byte) (rest : List LineEvent),
      s.wdArmed = false ∧ s.umode = .updi ∧ variantRec s.cfg s.ct = some r ∧
      blockOk s.cfg (boundWidth s) r.nvmStatus 1 ∧ (∀ x ∈ busy, x &&& r.busyMask ≠ 0) ∧ v &&& r.busyMask = 0 ∧
      s.hears .updi (pollMoves (fun x => recvBytesMoves s.cfg (boundWidth s) r.nvmStatus [x]) busy v) rest) ∧
    variantRec fresh.cfg fresh.ct = none ∧ fresh.wdArmed = false := by
  refine ⟨⟨lined .updi (sendBytesMoves testCfg .two 0x1000 [4]) linked, defaultV0, 4, _, [], rfl, rfl, rfl, ⟨blockOk_of (c := testCfg) (w := .two) (by decide),
    rfl⟩, lined_hears _ _ _⟩, fun v h => ⟨lined .updi (pollMoves (fun x => recvBytesMoves testCfg .two 0x1002 [x]) [1] v)
    linked, defaultV0, [1], [], rfl, rfl, rfl, blockOk_of (c := testCfg) (w := .two) (by decide), by decide, ?_,
    lined_hears _ _ _⟩, rfl, rfl⟩
  rcases h with rfl | rfl <;> decide

theorem witness_WriteMethods :
    (∀ ms, (lined .updi ms linked).wdArmed = false ∧ (lined .updi ms linked).umode = .updi ∧
      variantRec (lined .updi ms linked).cfg (lined .updi ms linked).ct = some defaultV0 ∧
      memKind testCfg 0xB0 = some .flashPage ∧ (lined .updi ms linked).hears .updi ms []) ∧
    boundWidth linked = .two ∧
    (transferOk testCfg .two 0xFFFF ([7] : List Byte).length) ∧
    (∃ ms, pagedRuns testCfg defaultV0 .two (defaultV0.preWrite.get .flashPage)
      (defaultV0.commitEraseWrite.get .flashPage) 0xFFFF [7] ms) ∧
    (reaches .two 0xFFFF ([7] : List Byte).length 1 ∧ ∃ ms, bytewiseRuns testCfg defaultV0 .two (defaultV0.writeOne.get .flashPage) 0xFFFF [7] ms) ∧
    (reaches .two 0xFFFF ([7, 8] : List Byte).length 2 ∧ ∃ ms, burstRuns testCfg defaultV0 .two
      (defaultV0.preWrite.get .flashPage) (defaultV0.commit.get .flashPage) 0xFFFF [7, 8] ms) :=
  ⟨fun _ => ⟨rfl, rfl, rfl, by decide, lined_hears _ _ _⟩, rfl, ⟨by decide, by decide, by decide⟩,
    ⟨_, honest_paged (by decide) (by decide)⟩,
    ⟨⟨by decide, by decide, by decide⟩, _, honest_bytewise (by decide)⟩,
    ⟨by decide, by decide, by decide⟩, _, honest_bursts (by decide) (blockOk_of (by decide)) (by decide)⟩

/-- The last byte of a page, the page erased before or not; and two bytes across two pages. -/
theorem witness_ExplicitMethod :
    (∀ b ms, let s : State := lined .updi ms { linked with beforePage := b }
      s.wdArmed = false ∧ s.umode = .updi ∧ variantRec s.cfg s.ct = some defaultV0 ∧ boundWidth s = .two ∧
      s.hears .updi ms []) ∧
    memKind testCfg 0xB0 = some .flashPage ∧
    (onePage 0x803F 1 64 = true ∧ transferOk testCfg .two 0x803F 1 ∧ some 0x8000 = some (pageAlign 0x803F 64) ∧
      none ≠ some (pageAlign 0x803F 64) ∧
      (∃ m1, nvmRuns testCfg defaultV0 .two (pageAlign 0x803F 64) 0 defaultV0.pageErase m1) ∧
      ∃ m2, pagedRuns testCfg defaultV0 .two (defaultV0.preWrite.get .flashPage) (defaultV0.commit.get .flashPage)
        0x803F [7] m2) ∧
    onePage 0x803F 2 64 = false :=
  ⟨fun _ _ => ⟨rfl, rfl, rfl, rfl, lined_hears _ _ _⟩, by decide,
    ⟨by decide, ⟨by decide, by decide, by decide⟩, by decide, by decide, ⟨_, honestNvm_runs (by decide)⟩,
      _, honest_paged (by decide) (by decide)⟩, by decide⟩

/-- The exchanges are `witness_writeRuns`'s; here the states, the types that are none, and a fuse byte. -/
theorem witness_VariantWrites :
    (∀ ms tr, writeRuns linked .v4 testCfg.v4 .eepromPage 0x1400 [7] ms tr →
      (lined .updi ms linked).wdArmed = false ∧ (lined .updi ms linked).umode = .updi ∧
      memKind (lined .updi ms linked).cfg 0xB1 = some .eepromPage ∧ (lined .updi ms linked).hears .updi ms [] ∧
      writeRuns (lined .updi ms linked) .v4 testCfg.v4 .eepromPage 0x1400 [7] ms tr) ∧
    (memKind linked.cfg 0x00 = none ∧ memKind linked.cfg 0xB4 = some .signature ∧
      memKind linked.cfg 0xC6 = some .prodsig ∧ memKind linked.cfg 0xD3 = some .sib) ∧
    (∃ (s : State) (b : Byte) (m : List Move) (r2 : List LineEvent), s.wdArmed = false ∧ s.umode = .updi ∧
      ptrFits (ptrWidth s.cfg .v0) 0x1282 = true ∧
      bytewiseRuns s.cfg s.cfg.v0 (ptrWidth s.cfg .v0) s.cfg.v0.writeOne.fuse 0x1282 [b] m ∧ s.hears .updi m r2) :=
  ⟨fun _ _ h => ⟨rfl, rfl, kinds.2.2.1, lined_hears _ _ _, h⟩, by decide,
    lined .updi _ linked, 0xC4, _, [], rfl, rfl, by decide,
    honest_bytewise (c := testCfg) (r := defaultV0) (w := .two) (one := defaultV0.writeOne.fuse) (by decide),
    lined_hears _ _ _⟩

theorem witness_StubsDoNothing : variantRec fresh.cfg fresh.ct = none ∧ variantRec testCfg .v1 = none ∧
    variantRec testCfg .v2 = none ∧ variantRec testCfg .v5 = none := ⟨rfl, rfl, rfl, rfl⟩

/-- A read of 512 bytes, an erase under V0 and under V3, the initialisation. -/
theorem witness_VariantReadEraseInit :
    (∀ ms, (lined .updi ms linked).wdArmed = false ∧ (lined .updi ms linked).umode = .updi ∧
      variantRec (lined .updi ms linked).cfg (lined .updi ms linked).ct = some defaultV0 ∧
      (lined .updi ms linked).hears .updi ms []) ∧
    (∃ (n : Addr) (d : List Byte), d.length = n.toNat ∧ transferOk testCfg .two 0x8000 n.toNat) ∧
    (∃ ms, eraseRuns linked .v0 defaultV0 0x803F ms) ∧
    (∃ ms, variantRec testCfg .v3 = some threeByteRec ∧ eraseRuns { linked with ct := .v3 } .v3 threeByteRec 0x803F ms) ∧
    ∃ ms, nvmRuns testCfg defaultV0 .two 0 0 defaultV0.initScript ms :=
  ⟨fun _ => ⟨rfl, rfl, rfl, lined_hears _ _ _⟩,
    ⟨512, List.replicate 512 0, List.length_replicate, by decide, by decide, by decide⟩,
    ⟨_, rfl, by decide, honestNvm_runs (c := testCfg) (w := .two) (sc := defaultV0.pageErase) (by decide +kernel)⟩,
    ⟨[], rfl, rfl⟩, _, honestNvm_runs (by decide)⟩

/-! ### TPI -/

theorem witness_TpiWire : ∃ (s : State) (rest : List LineEvent) (v : Byte), s.wdArmed = false ∧ s.umode = .tpi ∧
    s.env.line = cleanFrame v :: rest :=
  ⟨lined .tpi [.into 7] tpiProg, [], 7, rfl, rfl, rfl⟩

/-- The right identification, and a wrong one; a TPI session. -/
theorem witness_TpiConnectAndChunk :
    (∀ b : Byte, ∃ (s : State) (ms : List Move) (r : List Byte) (rest : List LineEvent),
      s.wdArmed = false ∧ scriptRuns s.cfg .tpi s.cfg.tpi.activateSeq ms r ∧ s.hears .tpi ms rest ∧ r = [b]) ∧
    (tpiProg.wdArmed = false ∧ tpiProg.trstEng = true) :=
  ⟨fun b => ⟨lined .tpi _ fresh, _, _, [], rfl,
    honest_runs (c := testCfg) (b := b) (sc := testCfg.tpi.activateSeq) (by decide), lined_hears _ _ _, rfl⟩, rfl, rfl⟩

theorem honest_tpiUnlock : tpiUnlockRuns testCfg [0x1E, 0x91, 0x0F]
    (outs (syncKeyBytes testCfg) ++ (ldcsMoves testCfg .tpi 0 2 ++ tpiReadMoves testCfg 0x3FC0 [0x1E, 0x91, 0x0F])) :=
  ⟨rfl, _, honest_tpiEnabled, rfl⟩

theorem honest_tpiActivate : scriptRuns testCfg .tpi testCfg.tpi.activateSeq
    (honestScript testCfg .tpi 0x80 testCfg.tpi.activateSeq).1 [testCfg.tpi.ident] :=
  honest_runs (b := 0x80) (by decide)

/-- Granted; linked; no link; a link that is UPDI's. -/
theorem witness_TpiEnterProgmode :
    (tpiProg.ready Config.wdDefaultMs.toNat ∧ tpiProg.sess.prog = true) ∧
    (∃ (s : State) (sig : List Byte) (ms : List Move) (rest : List LineEvent), s.ready Config.wdDefaultMs.toNat ∧
      s.sess.prog = false ∧ s.sess.link = true ∧ s.umode = .tpi ∧ tpiUnlockRuns s.cfg sig ms ∧ s.hears .tpi ms rest) ∧
    (∃ (s : State) (m1 : List Move) (sig : List Byte) (m2 : List Move) (rest : List LineEvent),
      s.ready Config.wdDefaultMs.toNat ∧ s.sess.prog = false ∧ s.sess.link = false ∧
      scriptRuns s.cfg .tpi s.cfg.tpi.activateSeq m1 [s.cfg.tpi.ident] ∧ tpiUnlockRuns s.cfg sig m2 ∧
      s.hears .tpi (m1 ++ m2) rest) ∧
    (linked.ready Config.wdDefaultMs.toNat ∧ linked.sess.prog = false ∧ linked.sess.link = true ∧ linked.umode ≠ .tpi ∧
      linked.cfg.retryOnFailure = false) :=
  ⟨⟨ready_of rfl rfl rfl (by decide), rfl⟩,
    ⟨lined .tpi _ { tpiProg with sess := ⟨true, false, false, false, false⟩ }, _, _, [],
      ready_of rfl rfl rfl (by decide), rfl, rfl, rfl, honest_tpiUnlock, lined_hears _ _ _⟩,
    ⟨lined .tpi _ fresh, _, _, _, [], ready_of rfl rfl rfl (by decide), rfl, rfl, honest_tpiActivate, honest_tpiUnlock,
      lined_hears _ _ _⟩,
    ready_of rfl rfl rfl (by decide), rfl, rfl, by decide, rfl⟩

/-- The highest address; the supply at the minimum, and just below. -/
theorem witness_TpiErase :
    (∀ x, ∃ (s : State) (ms : List Move) (rest : List LineEvent), s.ready Config.wdDefaultMs.toNat ∧
      s.sess.prog = true ∧ s.umode = .tpi ∧ s.hears .tpi ms rest ∧ s.cfg.tpi.vminMv ≤ s.env.vtg ∧
      (0xFFFF : Addr).toNat < 2 ^ 16 ∧ tpiEraseRuns s.cfg 0xFFFF x ms) ∧
    ((1 : Byte) = testCfg.tpi.xetChip ∧ (9 : Byte) ≠ testCfg.tpi.xetChip ∧ (9 : Byte) = testCfg.tpi.xetConfig ∧
      (2 : Byte) ≠ testCfg.tpi.xetChip ∧ (2 : Byte) ≠ testCfg.tpi.xetConfig ∧ testCfg.retryOnFailure = false) ∧
    (∃ s : State, s.ready Config.wdDefaultMs.toNat ∧ s.sess.prog = true ∧ s.umode = .tpi ∧
      s.env.vtg < s.cfg.tpi.vminMv ∧ s.cfg.retryOnFailure = false) :=
  ⟨fun x =>
      have ⟨ms, h⟩ : ∃ ms, tpiEraseRuns testCfg 0xFFFF x ms := ⟨_, _, honest_tpiWait, rfl⟩
      ⟨lined .tpi ms { tpiProg with env := { tpiProg.env with vtg := 4500 } }, ms, [],
        ready_of rfl rfl rfl (by decide), rfl, rfl, lined_hears _ _ _, Nat.le_refl 4500, by decide, h⟩,
    by decide,
    { tpiProg with env := { tpiProg.env with vtg := 4499 } }, ready_of rfl rfl rfl (by decide), rfl, rfl, by decide, rfl⟩

/-- Three bytes padded to the end of the space, after a chip erase and before one; one byte at the top. -/
theorem witness_TpiMemory :
    (∃ (s : State) (mt : Byte) (a n : Addr) (d : List Byte) (ms : List Move) (rest : List LineEvent),
      s.ready Config.wdDefaultMs.toNat ∧ s.sess.prog = true ∧ s.umode = .tpi ∧ lenOk n.toNat = true ∧
      d.length = n.toNat ∧ s.cfg.tpi.vminMv ≤ s.env.vtg ∧ padEnd s.tpiChunk.bytes a.toNat n.toNat ≤ 2 ^ 16 ∧
      mt = s.cfg.tpi.xmtAppl ∧ s.sess.eraseDone = false ∧ tpiWriteRuns s mt a d ms ∧ s.hears .tpi ms rest) ∧
    (∃ (s : State) (a n : Addr) (d : List Byte) (rest : List LineEvent), s.ready Config.wdDefaultMs.toNat ∧
      s.sess.prog = true ∧ s.umode = .tpi ∧ lenOk n.toNat = true ∧ d.length = n.toNat ∧
      inSpace16 a n.toNat = true ∧ s.hears .tpi (tpiReadMoves s.cfg a d) rest) :=
  have ⟨m1, h1⟩ : ∃ ms, tpiEraseRuns testCfg 0xFFFC 0x14 ms := ⟨_, _, honest_tpiWait, rfl⟩
  have ⟨m2, h2⟩ : ∃ ms, tpiChunkRuns testCfg 2 2 [0xFF, 1, 2, 3] ms :=
    ⟨_, _, _, honest_tpiWait, ⟨_, _, honest_tpiWait, rfl, rfl⟩, rfl⟩
  have hb : padBuf 0xFF 2 0xFFFD [1, 2, 3] = [0xFF, 1, 2, 3] := by decide
  have hw : tpiBodyRuns testCfg 2 0xFFFD [1, 2, 3] (tpiCmdMoves testCfg 0x1D ++ (tpiPtrMoves testCfg 0xFFFC ++
      (m2 ++ tpiCmdMoves testCfg 0))) := by
    refine ⟨m2, ?_, rfl⟩
    show tpiChunkRuns testCfg 2 ((padBuf 0xFF 2 0xFFFD [1, 2, 3]).length / 2) (padBuf 0xFF 2 0xFFFD [1, 2, 3]) m2
    rw [hb]
    exact h2
  have hp : padStart 2 0xFFFD = 0xFFFC := by decide
  have hx : ∃ ms, tpiWriteRuns tpiProg 1 0xFFFD [1, 2, 3] ms := by
    refine ⟨_, m1, _, ?_, hw, rfl⟩
    rw [if_pos ⟨rfl, rfl⟩]
    show tpiEraseRuns testCfg (BitVec.ofNat 32 (padStart 2 0xFFFD)) 0x14 m1
    rw [hp]
    exact h1
  have ⟨ms, hms⟩ := hx
  ⟨⟨lined .tpi ms tpiProg, 1, 0xFFFD, 3, [1, 2, 3], ms, [], ready_of rfl rfl rfl (by decide), rfl, rfl, by decide, rfl,
      (by decide : 4500 ≤ 5000), (by decide : padEnd 2 0xFFFD 3 ≤ 2 ^ 16), rfl, rfl, hms,
      lined_hears _ _ _⟩,
    lined .tpi (tpiReadMoves testCfg 0xFFFF [7]) tpiProg, 0xFFFF, 1, [7], [], ready_of rfl rfl rfl (by decide), rfl, rfl,
    by decide, rfl, by decide, lined_hears _ _ _⟩

theorem witness_TpiPadding : 1 ≤ ([7] : List Byte).length := by decide

/-! ### PDI -/

theorem witness_PdiWire :
    (∀ ms, (lined .pdi ms pdiLinked).wdArmed = false ∧ (lined .pdi ms pdiLinked).umode = .pdi ∧
      (lined .pdi ms pdiLinked).hears .pdi ms []) ∧ ∃ (n : Byte) (d : List Byte), d.length = n.toNat + 1 :=
  ⟨fun _ => ⟨rfl, rfl, lined_hears _ _ _⟩, 0xFF, List.replicate 256 0, List.length_replicate⟩

/-- 256 bytes received and sent; none and 257 to send; 17 to receive where a block holds 16. -/
theorem witness_PdiBlocks :
    (∃ (s : State) (a : Addr) (rest : List LineEvent) (n : Byte) (d : List Byte), s.wdArmed = false ∧ s.umode = .pdi ∧
      d.length = n.toNat + 1 ∧ d.length ≤ s.cfg.blockMaxUnits ∧ s.hears .pdi (pdiRecvMoves s.cfg a d) rest) ∧
    (pdiLinked.wdArmed = false ∧ pdiLinked.umode = .pdi ∧ 1 ≤ (List.replicate 256 (0 : Byte)).length ∧
      (List.replicate 256 (0 : Byte)).length ≤ pdiLinked.cfg.blockMaxUnits ∧
      pdiLinked.cfg.blockMaxUnits < (List.replicate 257 (0 : Byte)).length) ∧
    (∃ s : State, s.wdArmed = false ∧ s.umode = .pdi ∧ s.cfg.blockMaxUnits < (16 : Byte).toNat + 1) :=
  ⟨⟨lined .pdi (pdiRecvMoves testCfg 0 (List.replicate 256 0)) pdiLinked, 0, [], 0xFF, List.replicate 256 0, rfl, rfl,
      List.length_replicate, by decide +kernel, lined_hears _ _ _⟩, by decide +kernel,
    { pdiLinked with cfg := { testCfg with blockMaxUnits := 16 } }, rfl, rfl, by decide⟩

/-- Flash, USERROW and a fuse; the types that have no sequence. -/
theorem witness_PdiNvmSequence :
    (∀ k, k = .flashPage ∨ k = .userrow ∨ k = .fuse → ∃ (s : State) (mt : Byte) (a : Addr) (d : List Byte)
      (ms : List Move) (rest : List LineEvent), s.wdArmed = false ∧ s.umode = .pdi ∧ 1 ≤ s.cfg.blockMaxUnits ∧
      memKind s.cfg mt = some k ∧ pdiNvmRuns s.cfg k a d ms ∧ s.hears .pdi ms rest) ∧
    (memKind testCfg 0x00 = none ∧ memKind testCfg 0x20 = some .sram ∧ memKind testCfg 0xB4 = some .signature ∧
      memKind testCfg 0xC6 = some .prodsig ∧ memKind testCfg 0xD3 = some .sib) := by
  obtain ⟨w, hw⟩ := honest_pdiWait
  refine ⟨?_, by decide⟩
  rintro k (rfl | rfl | rfl)
  · obtain ⟨ms, h⟩ : ∃ ms, pdiNvmRuns testCfg .flashPage 0x00800000 [7] ms := ⟨_, w, w, w, [], hw, hw, hw, rfl, rfl⟩
    exact ⟨lined .pdi ms pdiProg, 0xB0, _, _, ms, [], rfl, rfl, (by decide : 1 ≤ 256), kinds.2.1, h, lined_hears _ _ _⟩
  · obtain ⟨ms, h⟩ : ∃ ms, pdiNvmRuns testCfg .userrow 0x00800000 [7] ms :=
      ⟨_, w, w, w, _, hw, hw, hw, ⟨w, hw, rfl⟩, rfl⟩
    exact ⟨lined .pdi ms pdiProg, 0xC5, _, _, ms, [], rfl, rfl, (by decide : 1 ≤ 256), kinds.2.2.2.2, h,
      lined_hears _ _ _⟩
  · obtain ⟨ms, h⟩ : ∃ ms, pdiNvmRuns testCfg .fuse 0x008F0021 [7] ms := ⟨_, w, w, hw, hw, rfl⟩
    exact ⟨lined .pdi ms pdiProg, 0xB2, _, _, ms, [], rfl, rfl, (by decide : 1 ≤ 256), kinds.2.2.2.1, h,
      lined_hears _ _ _⟩

theorem honest_pdiActivate : scriptRuns testCfg .pdi testCfg.pdi.activateSeq
    (honestScript testCfg .pdi 0 testCfg.pdi.activateSeq).1 (honestScript testCfg .pdi 0 testCfg.pdi.activateSeq).2 :=
  honest_runs (by decide)

theorem honest_pdiPreKey : scriptRuns testCfg .pdi testCfg.pdi.preKeySeq
    (honestScript testCfg .pdi 0 testCfg.pdi.preKeySeq).1 (honestScript testCfg .pdi 0 testCfg.pdi.preKeySeq).2 :=
  honest_runs (by decide)

theorem witness_PdiSignOn : ∃ (s : State) (m1 : List Move) (r : List Byte) (v : Byte) (rest : List LineEvent),
    s.ready Config.wdDefaultMs.toNat ∧ s.arch = .pdi ∧ scriptRuns s.cfg .pdi s.cfg.pdi.activateSeq m1 r ∧
      s.hears .pdi (m1 ++ ldcsMoves s.cfg .pdi s.cfg.pdi.rStatus v) rest :=
  ⟨lined .pdi _ { fresh with arch := .pdi }, _, _, 0, [], ready_of rfl rfl rfl (by decide), rfl, honest_pdiActivate,
    lined_hears _ _ _⟩

theorem witness_PdiEnterProgmode :
    (pdiProg.ready Config.wdDefaultMs.toNat ∧ pdiProg.arch = .pdi ∧ pdiProg.sess.link = true ∧
      pdiProg.sess.prog = true) ∧
    (∃ (s : State) (m1 : List Move) (r : List Byte) (m3 : List Move) (rest : List LineEvent),
      s.ready Config.wdDefaultMs.toNat ∧ s.arch = .pdi ∧ s.sess.link = true ∧ s.sess.prog = false ∧ s.umode = .pdi ∧
      scriptRuns s.cfg .pdi s.cfg.pdi.preKeySeq m1 r ∧ pdiEnabledRuns s.cfg m3 ∧
      s.hears .pdi (m1 ++ (outs (syncKeyBytes s.cfg) ++ m3)) rest) :=
  ⟨⟨ready_of rfl rfl rfl (by decide), rfl, rfl, rfl⟩,
    lined .pdi _ pdiLinked, _, _, _, [], ready_of rfl rfl rfl (by decide), rfl, rfl, rfl, rfl, honest_pdiPreKey,
    honest_pdiEnabled, lined_hears _ _ _⟩

/-- Code space and data space, read and written; the last byte of data space. -/
theorem witness_PdiMemory :
    (∀ a : Addr, a = 0x00FFFFFF ∨ a = 0x01FFFFFF → ∀ ms, let s : State := lined .pdi ms pdiProg
      s.ready Config.wdDefaultMs.toNat ∧ s.arch = .pdi ∧ s.sess.prog = true ∧ s.umode = .pdi ∧
      1 ≤ s.cfg.blockMaxUnits ∧ lenOk (1 : Addr).toNat = true ∧ inSpace32 a (1 : Addr).toNat = true ∧
      ([7] : List Byte).length = (1 : Addr).toNat ∧ memKind s.cfg 0xB2 = some .fuse ∧
      xlate s.cfg s.dd .fuse a = some a ∧ MemKind.fuse ≠ .sib ∧ memClass .fuse ≠ .readOnly ∧ s.hears .pdi ms []) ∧
    (pdiSpace 0x00FFFFFF = testCfg.pdi.spaceCode ∧ pdiSpace 0x00FFFFFF ≠ testCfg.pdi.spaceData ∧
      pdiSpace 0x01FFFFFF ≠ testCfg.pdi.spaceCode ∧ pdiSpace 0x01FFFFFF = testCfg.pdi.spaceData) ∧
    ∃ ms, pdiNvmRuns testCfg .fuse 0x00FFFFFF [7] ms := by
  obtain ⟨w, hw⟩ := honest_pdiWait
  refine ⟨?_, by decide, _, w, w, hw, hw, rfl⟩
  rintro a (rfl | rfl) ms <;>
    exact ⟨ready_of rfl rfl rfl (by decide), rfl, rfl, rfl, (by decide : 1 ≤ 256), by decide, by decide, rfl,
      kinds.2.2.2.1, rfl, by decide, by decide, lined_hears _ _ _⟩

theorem witness_PdiEraseMemory :
    (∃ m1, pdiWaitRuns testCfg m1) ∧
    (∀ ms, (lined .pdi ms pdiProg).ready Config.wdDefaultMs.toNat ∧ (lined .pdi ms pdiProg).arch = .pdi ∧
      (lined .pdi ms pdiProg).sess.prog = true ∧ (lined .pdi ms pdiProg).umode = .pdi ∧
      (lined .pdi ms pdiProg).hears .pdi ms []) ∧
    ((0 : Byte) = testCfg.etChip ∧ (4 : Byte) ≠ testCfg.etChip ∧ (4 : Byte) = testCfg.etPage ∧
      (5 : Byte) ≠ testCfg.etChip ∧ (5 : Byte) ≠ testCfg.etPage ∧ testCfg.retryOnFailure = false) :=
  ⟨honest_pdiWait, fun _ => ⟨ready_of rfl rfl rfl (by decide), rfl, rfl, rfl, lined_hears _ _ _⟩, by decide⟩

/-! ### The arbiter, events, the supervisor -/

theorem witness_Button : fresh.ui.swPress = false ∧ fresh.ui.swRelease = false := ⟨rfl, rfl⟩

theorem witness_EnvironmentEvents :
    ({ fresh with ui := { fresh.ui with usbEnum := true } } : State).ui.usbEnum = true ∧ fresh.ui.usbEnum = false :=
  ⟨rfl, rfl⟩

/-- A pass ended, within the countdown or outrunning it, with a success and no cause, or failed with another cause
than the expiry's. -/
def endsWell (outrun : Bool) (x : EStateM.Result Stop State Res) : Bool :=
  match x with
  | .ok r t => decide (r.count ≠ 0 ∨ t.cfg.retryOnFailure = false) && decide (r.cause = none) &&
      (t.expiresWaiting == outrun)
  | .error (.raise c) t => !t.cfg.retryOnFailure && decide (c ≠ .timeout) && (t.expiresWaiting == outrun)
  | .error _ _ => false

def isOk (x : EStateM.Result Stop State Res) : Bool :=
  match x with
  | .ok _ _ => true
  | .error _ _ => false

theorem ok_of_endsWell {o : Bool} {x : EStateM.Result Stop State Res} (h : endsWell o x = true) (h2 : isOk x = true) :
    ∃ r t, x = .ok r t ∧ t.expiresWaiting = o ∧ (r.count ≠ 0 ∨ t.cfg.retryOnFailure = false) ∧ r.cause = none := by
  cases x with
  | ok r t =>
    simp only [endsWell, Bool.and_eq_true, decide_eq_true_eq, beq_iff_eq] at h
    exact ⟨r, t, rfl, h.2, h.1⟩
  | error e t => cases h2

theorem raised_of_endsWell {o : Bool} {x : EStateM.Result Stop State Res} (h : endsWell o x = true)
    (h2 : isOk x = false) :
    ∃ c t, x = .error (.raise c) t ∧ t.expiresWaiting = o ∧ t.cfg.retryOnFailure = false ∧ c ≠ .timeout := by
  cases x with
  | ok r t => cases h2
  | error e t =>
    cases e with
    | raise c =>
      simp only [endsWell, Bool.and_eq_true, decide_eq_true_eq, Bool.not_eq_true', beq_iff_eq] at h
      exact ⟨c, t, rfl, h.2, h.1⟩
    | expired => cases h
    | stuck => cases h
    | refused r => cases h

/-- The expiry of a pass, with what the rate can still be lowered to. -/
def expiredAt (x : EStateM.Result Stop State Res) : Option (Option Nat) :=
  match x with
  | .error .expired t => some (clkLower t.cfg t.clk)
  | _ => none

theorem expired_of {x : EStateM.Result Stop State Res} {o : Option Nat} (h : expiredAt x = some o) :
    ∃ t, x = .error .expired t ∧ clkLower t.cfg t.clk = o := by
  cases x with
  | ok r t => cases h
  | error e t =>
    cases e with
    | raise c => cases h
    | expired => exact ⟨t, rfl, Option.some.inj h⟩
    | stuck => cases h
    | refused r => cases h

/-- Leaving programming mode when it is not granted succeeds at once; a wire part of another engine is E_PRECOND. -/
theorem witness_RunReturnsResult :
    (linked.wdArmed = false ∧ linked.env.ie = true ∧ (1 : Half) ≠ 0) ∧
    (∃ r t, runBody .updiLeaveProgmode (linked.started 1) = .ok r t ∧ t.expiresWaiting = false ∧
      (r.count ≠ 0 ∨ t.cfg.retryOnFailure = false) ∧ r.cause = none) ∧
    (∃ c t, runBody .tpiLeaveWire (linked.started 1) = .error (.raise c) t ∧ t.expiresWaiting = false ∧
      t.cfg.retryOnFailure = false ∧ c ≠ .timeout) ∧
    (∃ s : State, s.env.ie = false) ∧ (∃ s : State, s.env.ie = true ∧ s.wdArmed = true) ∧
    ∃ s : State, s.env.ie = true ∧ s.wdArmed = false :=
  have h1 : endsWell false (runBody .updiLeaveProgmode (linked.started 1)) = true := by decide +kernel
  have h2 : isOk (runBody .updiLeaveProgmode (linked.started 1)) = true := by decide +kernel
  have h3 : endsWell false (runBody .tpiLeaveWire (linked.started 1)) = true := by decide +kernel
  have h4 : isOk (runBody .tpiLeaveWire (linked.started 1)) = false := by decide +kernel
  ⟨⟨rfl, rfl, by decide⟩, ok_of_endsWell h1 h2, raised_of_endsWell h3 h4,
    ⟨{ fresh with env := { fresh.env with ie := false } }, rfl⟩, ⟨{ fresh with wdArmed := true }, rfl, rfl⟩, fresh, rfl, rfl⟩

/-- A deadline of 1 ms; and a host operation with a run. -/
theorem witness_RunCompletes :
    (∃ (s : State) (sib : List Byte) (ms : List Move) (rest : List LineEvent), s.ready (1 : Half).toNat ∧
      s.umode = .updi ∧ attemptRuns s.cfg s.clk sib ms ∧ s.hears .updi ms rest) ∧
    (∃ (s : State) (ms : List Move) (rest : List LineEvent), s.ready (1 : Half).toNat ∧ s.umode = .updi ∧
      updiSignOffRuns s.cfg s.sess.prog ms ∧ s.hears .updi ms rest) ∧
    (∃ (s : State) (ms : List Move) (r : List Byte) (rest : List LineEvent), s.ready (1 : Half).toNat ∧
      s.umode = .pdi ∧ s.sess.prog = true ∧ scriptRuns s.cfg .pdi s.cfg.pdi.leaveSeq ms r ∧ s.hears .pdi ms rest) ∧
    (tpiProg.ready (1 : Half).toNat ∧ tpiProg.umode = .tpi) ∧
    (∃ (i : Instr) (op : RunOp) (scope : HostScope) (cmd : Byte) (q : Payload) (s v : State),
      hostRun s.cfg.scopes.tpiCodes i = some (op, scope, cmd, q) ∧ (scope = .avr → s.arch = i.archOf) ∧
      exec (.wdRun op (runFallback op) Config.wdDefaultMs) (s.withRequest scope cmd q) = .next v) :=
  have h : goesOn (exec (.wdRun .updiLeaveProgmode .updi 800) (linked.withRequest .avr 0x16 .none)) = true := by
    decide +kernel
  let ⟨v, hv⟩ := next_of_goesOn h
  ⟨⟨lined .updi (attempt 240) linked, testSib, _, [], ready_of rfl rfl rfl (by decide), rfl, honest_attempt,
      lined_hears _ _ _⟩,
    ⟨lined .updi _ linked, _, [], ready_of rfl rfl rfl (by decide), rfl,
      ⟨[], _, [], _, rfl, honest_runs (c := testCfg) (b := 0) (sc := testCfg.updi.disableSeq) (by decide), rfl⟩,
      lined_hears _ _ _⟩,
    ⟨lined .pdi _ pdiProg, _, _, [], ready_of rfl rfl rfl (by decide), rfl, rfl,
      honest_runs (c := testCfg) (b := 0) (sc := testCfg.pdi.leaveSeq) (by decide), lined_hears _ _ _⟩,
    ⟨ready_of rfl rfl rfl (by decide), rfl⟩,
    .updiLeaveProgmode, .updiLeaveProgmode, .avr, 0x16, .none, linked, v, rfl, fun _ => rfl, hv⟩

/-- A silent target: no fallback, at the floor, and from 240 kHz; a last step that takes 2 ms of a deadline of 1 ms,
after which the operation returns a success, or a failure. -/
theorem witness_RunExpires :
    (∃ t, runBody .updiSignOffWire (prog.started 1) = .error .expired t) ∧
    (∃ t, runBody .updiEnterProgmode (State.started 1 { linked with clk := 40 }) = .error .expired t ∧
      clkLower t.cfg t.clk = none) ∧
    (∃ t, runBody .updiEnterProgmode (linked.started 1) = .error .expired t ∧ clkLower t.cfg t.clk = some 200) ∧
    (∃ (s : State) (r : Res) (u : State), runBody .updiLeaveProgmode (s.started 1) = .ok r u ∧ u.expiresWaiting = true) ∧
    (∃ (s : State) (c : Cause) (u : State), runBody .tpiLeaveWire (s.started 1) = .error (.raise c) u ∧
      u.expiresWaiting = true) ∧
    linked.wdArmed = false ∧ linked.env.ie = true ∧ (1 : Half) ≠ 0 ∧ connects .updiEnterProgmode = false :=
  have h1 : expiredAt (runBody .updiSignOffWire (prog.started 1)) = some (some 200) := by decide +kernel
  have h2 : expiredAt (runBody .updiEnterProgmode (State.started 1 { linked with clk := 40 })) = some none := by
    decide +kernel
  have h3 : expiredAt (runBody .updiEnterProgmode (linked.started 1)) = some (some 200) := by decide +kernel
  let slow : State := { linked with env := { linked.env with delays := [2] } }
  have h4 : endsWell true (runBody .updiLeaveProgmode (slow.started 1)) = true := by decide +kernel
  have h5 : isOk (runBody .updiLeaveProgmode (slow.started 1)) = true := by decide +kernel
  have h6 : endsWell true (runBody .tpiLeaveWire (slow.started 1)) = true := by decide +kernel
  have h7 : isOk (runBody .tpiLeaveWire (slow.started 1)) = false := by decide +kernel
  ⟨let ⟨t, h, _⟩ := expired_of h1; ⟨t, h⟩, expired_of h2, expired_of h3,
    let ⟨r, u, h, hu, _⟩ := ok_of_endsWell h4 h5; ⟨slow, r, u, h, hu⟩,
    let ⟨c, u, h, hu, _⟩ := raised_of_endsWell h6 h7; ⟨slow, c, u, h, hu⟩, rfl, rfl, by decide, rfl⟩

theorem witness_DeliveredOperationsEnd :
    delivered .updiSignOn = true ∧ selected.wdArmed = false ∧ selected.env.ie = true := ⟨rfl, rfl, rfl⟩

/-- An operation of the other engine; without the link; without programming mode; with no byte and with 513; what else
R324's table requires, each at the first value that does not meet it. -/
theorem witness_RequirementsAreChecked :
    (∃ r, hostRun linked.cfg.scopes.tpiCodes .pdiSignOn = some r ∧ r.2.1 = .avr ∧ linked.arch ≠ Instr.pdiSignOn.archOf) ∧
    (hostRun linked.cfg.scopes.tpiCodes .updiEnterProgmode = some (.updiEnterProgmode, .avr, 0x15, .none) ∧
      selected.arch = Instr.updiEnterProgmode.archOf ∧ selected.ready Config.wdDefaultMs.toNat ∧
      selected.cfg.retryOnFailure = false ∧ needsLink .updiEnterProgmode = true ∧ selected.sess.link = false) ∧
    (linked.arch = Instr.archOf (.updiEraseMemory 4 0) ∧ linked.ready Config.wdDefaultMs.toNat ∧
      linked.cfg.retryOnFailure = false ∧ needsProg linked (.updiEraseMemory 4 0) = true ∧ linked.sess.prog = false) ∧
    (badLength (.updiReadMemory 0xB0 0 0) = true ∧ badLength (.pdiReadMemory 0xB0 0 513) = true) ∧
    (selected.arch ≠ .pdi ∧ fresh.arch ≠ .updi) ∧
    (lacks prog (.updiReadMemory 0xB0 0xFFFFFFFF 2) = true ∧ lacks prog (.updiReadMemory 0xD3 1 32) = true ∧
      lacks { prog with sib := ⟨false, testSib⟩ } (.updiReadMemory 0xD3 0 32) = true ∧
      lacks linked (.updiReadMemory 0xB4 0 4) = true) ∧
    (lacks linked (.updiWriteMemory 0xC5 0x1300 257 []) = true ∧ lacks prog (.updiWriteMemory 0xB0 0x803F 2 [1, 2]) = true ∧
      lacks { prog with dd := ⟨false, testDesc⟩ } (.updiWriteMemory 0xB0 0x8000 1 [1]) = true ∧
      lacks { prog with ct := .v4 } (.updiWriteMemory 0xC5 0x11FF 2 [1, 2]) = true ∧
      lacks { prog with dd := ⟨false, testDesc⟩ } (.updiEraseMemory 4 0x8000) = true) ∧
    lacks pdiProg (.pdiReadMemory 0xB0 0xFFFFFFFF 2) = true ∧ lacks pdiProg (.pdiWriteMemory 0xB2 0xFFFFFFFF 2 [1, 2]) = true ∧
    lacks { tpiProg with env := { tpiProg.env with vtg := 4499 } } (.tpiErase 1 0) = true ∧
    lacks tpiProg (.tpiReadMem 1 0xFFFF 2) = true ∧ lacks tpiProg (.tpiWriteMem 3 0xFFFF 2 [1, 2]) = true ∧
    lacks prog (.updiReadMemory 0xB0 0xFFFFFFFF 1) = false ∧ lacks prog (.updiWriteMemory 0xB0 0x803F 1 [1]) = false ∧
    lacks tpiProg (.tpiReadMem 1 0xFFFF 1) = false :=
  ⟨⟨_, rfl, rfl, by decide⟩, ⟨rfl, rfl, ready_of rfl rfl rfl (by decide), rfl, rfl, rfl⟩,
    ⟨rfl, ready_of rfl rfl rfl (by decide), rfl, by decide, rfl⟩, by decide +kernel⟩

/-! ### Sessions -/

theorem witness_SessionOpens :
    (∃ (s : State) (sib : List Byte) (m1 : List Move) (r : VariantRec) (m2 : List Move) (rest : List LineEvent),
      s.sess.link = false ∧ s.ready Config.connectAttemptMs.toNat ∧ attemptRuns s.cfg s.cfg.clkCfgKhz sib m1 ∧
      variantRec s.cfg (sibVariant s.cfg sib) = some r ∧ unlockRuns s.cfg (sibVariant s.cfg sib) r m2 ∧
      s.hears .updi (m1 ++ m2) rest) ∧
    (∃ (s : State) (m1 : List Move) (r : List Byte) (v : Byte) (m2 : List Move) (r2 : List Byte) (m4 : List Move)
      (rest : List LineEvent), s.sess.link = false ∧ s.ready Config.wdDefaultMs.toNat ∧
      s.cfg.archPdi ≠ s.cfg.archUpdi ∧ scriptRuns s.cfg .pdi s.cfg.pdi.activateSeq m1 r ∧
      scriptRuns s.cfg .pdi s.cfg.pdi.preKeySeq m2 r2 ∧ pdiEnabledRuns s.cfg m4 ∧
      s.hears .pdi (m1 ++ ldcsMoves s.cfg .pdi s.cfg.pdi.rStatus v ++ (m2 ++ (outs (syncKeyBytes s.cfg) ++ m4))) rest) :=
  let ⟨m2, h2⟩ := honest_unlock
  ⟨⟨lined .updi (attempt 240 ++ m2) fresh, testSib, _, defaultV0, m2, [], rfl, ready_of rfl rfl rfl (by decide),
      honest_attempt, rfl, h2, lined_hears _ _ _⟩,
    lined .pdi ((honestScript testCfg .pdi 0 testCfg.pdi.activateSeq).1 ++ ldcsMoves testCfg .pdi 0 0 ++
      ((honestScript testCfg .pdi 0 testCfg.pdi.preKeySeq).1 ++ (outs (syncKeyBytes testCfg) ++ ldcsMoves testCfg .pdi 0 2)))
      fresh, _, _, 0, _, _, _, [], rfl, ready_of rfl rfl rfl (by decide), (by decide : (3 : Byte) ≠ 5),
    honest_pdiActivate, honest_pdiPreKey, honest_pdiEnabled, lined_hears _ _ _⟩

/-- In programming mode and without it, for both engines. -/
theorem witness_SessionCloses :
    (∃ (s : State) (m1 : List Move) (r : List Byte) (m2 : List Move) (rest : List LineEvent), s.sess.link = true ∧
      s.ready Config.wdDefaultMs.toNat ∧ s.arch = .updi ∧ s.umode = .updi ∧ s.sess.prog = true ∧
      scriptRuns s.cfg .updi s.cfg.updi.leaveSeq m1 r ∧ updiSignOffRuns s.cfg false m2 ∧
      s.hears .updi (m1 ++ m2) rest) ∧
    (∃ (s : State) (m2 : List Move) (rest : List LineEvent), s.sess.link = true ∧
      s.ready Config.wdDefaultMs.toNat ∧ s.arch = .updi ∧ s.umode = .updi ∧ s.sess.prog = false ∧
      updiSignOffRuns s.cfg false m2 ∧ s.hears .updi m2 rest) ∧
    (∃ (s : State) (m1 : List Move) (r : List Byte) (rest : List LineEvent), s.sess.link = true ∧
      s.ready Config.wdDefaultMs.toNat ∧ s.arch = .pdi ∧ s.umode = .pdi ∧ s.sess.prog = true ∧
      scriptRuns s.cfg .pdi s.cfg.pdi.leaveSeq m1 r ∧ s.hears .pdi m1 rest) ∧
    (pdiLinked.sess.link = true ∧ pdiLinked.ready Config.wdDefaultMs.toNat ∧ pdiLinked.arch = .pdi ∧
      pdiLinked.sess.prog = false) :=
  have ⟨m2, h2⟩ : ∃ ms, updiSignOffRuns testCfg false ms :=
    ⟨_, [], _, [], _, rfl, honest_runs (b := 0) (sc := testCfg.updi.disableSeq) (by decide), rfl⟩
  ⟨⟨lined .updi _ prog, _, _, m2, [], rfl, ready_of rfl rfl rfl (by decide), rfl, rfl, rfl,
      honest_runs (c := testCfg) (b := 0) (sc := testCfg.updi.leaveSeq) (by decide), h2, lined_hears _ _ _⟩,
    ⟨lined .updi m2 linked, m2, [], rfl, ready_of rfl rfl rfl (by decide), rfl, rfl, rfl, h2, lined_hears _ _ _⟩,
    ⟨lined .pdi _ pdiProg, _, _, [], rfl, ready_of rfl rfl rfl (by decide), rfl, rfl, rfl,
      honest_runs (c := testCfg) (b := 0) (sc := testCfg.pdi.leaveSeq) (by decide), lined_hears _ _ _⟩,
    rfl, ready_of rfl rfl rfl (by decide), rfl, rfl⟩

end Sys2Proof.Tests
end

section
/-! SUPPORT. What no piece of an operation writes (R5, R36, R38), and how the pieces between runs and the delivered
operations end (R11, R149, R155). `Retains` is what every primitive keeps; `Spares` is what every instruction but the
listed writers keeps; `Serves` says how a piece ends whose waits are all inside runs, `Responds` the same of what an
instruction answers. -/

namespace Sys2Proof.Machine

/-! ## What no primitive writes -/

/-- What every primitive keeps: all that an operation and its run never write, and the arming. -/
structure Retains (s t : State) : Prop where
  kept : t.kept = s.kept
  armed : t.wdArmed = s.wdArmed

theorem retains_flows : Flows Retains where
  refl _ := ⟨rfl, rfl⟩
  trans h1 h2 := ⟨h2.kept.trans h1.kept, h2.armed.trans h1.armed⟩
  armed h := h.armed
  ie {s t} h := show t.kept.env.ie = s.kept.env.ie from congrArg (fun x => x.env.ie) h.kept

/-- A run may begin: no countdown is armed and interrupts are enabled (R149, R150). -/
def State.runnable (s : State) : Prop := s.wdArmed = false ∧ s.env.ie = true

/-- What all but their own writers keep: the parameters, the button's last level, and, where `k` says so, the
architecture selector; besides, `OPI` does not fall, and where a run may begin before, one may begin after. -/
structure Spares (k : Bool) (s t : State) : Prop where
  cfg : t.cfg = s.cfg
  swPrev : t.swPrev = s.swPrev
  arch : k = true → t.arch = s.arch
  opi : s.opi ≤ t.opi
  runnable : s.runnable → t.runnable

section
variable {k : Bool} {s t u : State} {α β : Type} {m : M α}

theorem spares_refl (s : State) : Spares k s s := ⟨rfl, rfl, fun _ => rfl, Nat.le_refl _, id⟩

theorem Spares.trans (h1 : Spares k s t) (h2 : Spares k t u) : Spares k s u :=
  ⟨h2.cfg.trans h1.cfg, h2.swPrev.trans h1.swPrev, fun hk => (h2.arch hk).trans (h1.arch hk), h1.opi.trans h2.opi,
    h2.runnable ∘ h1.runnable⟩

/-- What keeps the selector also spares where the selector is not asked for. -/
theorem Spares.loose (h : Spares true s t) : Spares k s t := ⟨h.cfg, h.swPrev, fun _ => h.arch rfl, h.opi, h.runnable⟩

theorem Spares.hist (h : Spares k s t) (l : List WireEvent) : Spares k s { t with hist := l } :=
  ⟨h.cfg, h.swPrev, h.arch, h.opi, h.runnable⟩

theorem Spares.write {f : State → State} (h : Spares k s (f s)) : Spares k s (s.write f) := by
  obtain ⟨l, e⟩ := write_hist f s
  rw [e]
  exact h.hist l

theorem spares_of_kept (h : t.kept = s.kept) (ha : s.wdArmed = false → t.wdArmed = false) : Spares k s t where
  cfg := show t.kept.cfg = s.kept.cfg from congrArg State.cfg h
  swPrev := show t.kept.swPrev = s.kept.swPrev from congrArg State.swPrev h
  arch _ := show t.kept.arch = s.kept.arch from congrArg State.arch h
  opi := Nat.le_of_eq (show s.kept.opi = t.kept.opi from congrArg State.opi h.symm)
  runnable hr := ⟨ha hr.1, (show t.kept.env.ie = s.kept.env.ie from congrArg (fun x => x.env.ie) h).trans hr.2⟩

theorem Retains.spares (h : Retains s t) : Spares k s t := spares_of_kept h.kept h.armed.trans

theorem retains_of_fixed (h : t.fixed = s.fixed) : Retains s t :=
  ⟨congrArg State.calm h, show t.fixed.wdArmed = s.fixed.wdArmed from congrArg State.wdArmed h⟩

theorem spares_of_fixed (h : t.fixed = s.fixed) : Spares k s t := (retains_of_fixed h).spares

theorem Joins.retains (h : Joins s t) : Retains s t := retains_of_fixed h.fixed

theorem Quiet.retains (h : Quiet s t) : Retains s t := h.joins.retains

theorem Quiet.spares (h : Quiet s t) : Spares k s t := h.retains.spares

theorem At.retains (h : At Quiet s m) : At Retains s m := h.mono Quiet.retains

theorem at_done {R : State → State → Prop} {m : M Unit} (hR : Flows R) (h : At R s m) : At R s (done m) :=
  at_bind hR h fun _ _ _ => at_pure hR _

theorem at_oneByte {R : State → State → Prop} {m : M Byte} (hR : Flows R) (h : At R s m) : At R s (oneByte m) :=
  at_bind hR h fun _ _ _ => at_pure hR _

theorem at_bindVariant : At Retains s bindVariant :=
  at_upd retains_flows Quiet.retains fun _ _ _ => ⟨rfl, rfl⟩

theorem at_updiFallback : At Retains s updiFallback := by
  refine at_get ?_
  split
  · exact at_pure retains_flows _
  · exact at_bind retains_flows (at_upd retains_flows Quiet.retains fun _ _ _ => ⟨rfl, rfl⟩) fun _ _ _ =>
      at_bind retains_flows (at_attention _).retains fun _ _ _ =>
      at_bind retains_flows at_lineConfig.retains fun _ _ _ => at_pure retains_flows _

/-! ## Pieces whose waits are inside runs -/

/-- How a piece between runs ends: it spares what is not its own to write, and where a run may begin it ends with a
value or a failure cause. -/
def Serves (k : Bool) (s : State) (m : M α) : Prop :=
  match m s with
  | .ok _ t => Spares k s t
  | .error e t => Spares k s t ∧ (s.runnable → ∃ c, e = .raise c)

theorem serves_pure (a : α) : Serves k s (pure a : M α) := spares_refl s

theorem serves_raise (c : Cause) : Serves k s (raise c : M α) := ⟨spares_refl s, fun _ => ⟨c, rfl⟩⟩

theorem serves_bind {f : α → M β} (hm : Serves k s m) (hf : ∀ a t, Spares k s t → Serves k t (f a)) :
    Serves k s (m >>= f) := by
  unfold Serves at *
  rw [m_bind]
  cases hms : m s with
  | error e t => rw [hms] at hm; exact hm
  | ok a t =>
    rw [hms] at hm
    have h2 := hf a t hm
    dsimp only
    cases hfa : f a t with
    | ok b u => rw [hfa] at h2; exact hm.trans h2
    | error e u => rw [hfa] at h2; exact ⟨hm.trans h2.1, h2.2 ∘ hm.runnable⟩

theorem serves_get {f : State → M β} (h : Serves k s (f s)) : Serves k s (get >>= f) := h

theorem serves_modify {f : State → State} (h : Spares k s (f s)) : Serves k s (modify f) := h

theorem serves_phase (n : Nat) : Serves k s (phase n) := serves_modify (Quiet.spares ⟨rfl, id⟩)

theorem serves_require (p : Bool) : Serves k s (require p) := by
  cases p
  · exact serves_raise _
  · exact serves_pure _

theorem serves_ite {p : Prop} [Decidable p] {x y : M α} (hx : Serves k s x) (hy : Serves k s y) :
    Serves k s (if p then x else y) := by
  split
  · exact hx
  · exact hy

theorem serves_boundary : Serves k s boundary := by
  unfold Serves
  rcases boundary_cases s with ⟨hd, e⟩ | ⟨_, e⟩ <;> rw [e]
  · refine ⟨(elapse_quiet s).spares, fun hr => ?_⟩
    have ha : s.wdArmed = true := (elapse_quiet s).retains.armed ▸ (due_mayStop hd).1
    rw [hr.1] at ha
    cases ha
  · exact (elapse_quiet s).spares

theorem serves_regs {f : State → State} (hf : ∀ t, Spares k t (f t)) : Serves k s (regs f) :=
  serves_bind serves_boundary fun _ t _ => serves_modify (hf t)

theorem serves_upd {f : State → State} (hf : ∀ t, Spares k t (f t)) : Serves k s (upd f) :=
  serves_regs (f := State.write f) fun t => (hf t).write

/-- A write of no other registers than those a connect may write. -/
theorem serves_upd_fixed {f : State → State} (hf : ∀ t, (f t).fixed = t.fixed) : Serves k s (upd f) :=
  serves_upd fun t => spares_of_fixed (hf t)

/-! ## Runs -/

/-- Where a run may not begin, and with a deadline of 0, it is refused (R141, R150, R151). -/
theorem supervise_refused {op : M Res} {fb : FallbackSel} {d : Half} (h : ¬s.runnable ∨ d = 0) :
    ∃ r, supervise op fb d s = .error (.refused r) s := by
  unfold supervise
  cases hi : s.env.ie
  · exact ⟨_, if_pos rfl⟩
  · cases ha : s.wdArmed
    · have hd : d = 0 := h.resolve_left (not_not_intro ⟨ha, hi⟩)
      exact ⟨.runZeroDeadline, if_pos hd⟩
    · exact ⟨.runNested, rfl⟩

theorem serves_supervise {op : RunOp} {fb : FallbackSel} {d : Half} (hd : d ≠ 0) :
    Serves k s (supervise (runBody op) fb d) := by
  unfold Serves
  by_cases hr : s.runnable
  · obtain ⟨r, t, e, _, ha, hk, _⟩ := superviseBody_ends (op := op) (fb := fb) hr.2 hr.1 hd
    rw [e]
    exact spares_of_kept hk fun _ => ha
  · obtain ⟨r, e⟩ := supervise_refused (op := runBody op) (fb := fb) (d := d) (.inl hr)
    rw [e]
    exact ⟨spares_refl s, fun h => absurd h hr⟩

theorem serves_runWith {op : RunOp} {fb : FallbackSel} {d : Half} (hd : d ≠ 0) : Serves k s (runWith op fb d) :=
  serves_bind (serves_supervise hd) fun _ _ _ =>
    serves_ite (serves_bind (serves_upd_fixed fun _ => (gaveUp_keeps op).1) fun _ _ _ => serves_pure _) (serves_pure _)

theorem serves_runOp (op : RunOp) : Serves k s (runOp op) := serves_runWith (by decide)

/-! ## Connects and disconnects -/

theorem acquire_fixed (e : Engine) (s : State) : (s.acquire e).fixed = s.fixed := by
  rcases State.acquire_cases e s with ⟨_, h⟩ | ⟨_, h⟩ <;> rw [h]
  · rw [State.quiesce_eq]; rfl
  · rfl

theorem noteRate_fixed (s : State) : s.noteRate.fixed = s.fixed := by
  unfold State.noteRate
  split <;> rfl

theorem clearSession_fixed (s : State) : s.clearSession.fixed = s.fixed := by
  obtain ⟨l, e⟩ := setClk_eq s.cfg.clkCfgKhz { s.dropSession with dd := { s.dd with valid := false } }
  rw [State.clearSession, e]
  rfl

theorem noteTrst_fixed (old : Bool) (s : State) : (s.noteTrst old).fixed = s.fixed := by
  unfold State.noteTrst
  split <;> rfl

theorem serves_connectClear (e : Engine) : Serves k s (connectClear e) := by
  refine serves_bind (serves_upd_fixed fun _ => rfl) fun _ _ _ => serves_bind (serves_upd_fixed fun _ => rfl)
    fun _ _ _ => serves_bind (serves_upd_fixed fun _ => rfl) fun _ _ _ => serves_bind (serves_upd_fixed fun _ => rfl)
    fun _ _ _ => serves_upd_fixed fun t => ?_
  obtain ⟨l, h⟩ := connectRate_eq e
    { t with rxf := RxFlags.clear, trstEng := connectTrst e t.trstEng, tpiChunk := .two }
  rw [h]
  rfl

theorem serves_connectAcquire (e : Engine) : Serves k s (connectAcquire e) :=
  serves_bind (serves_upd_fixed (acquire_fixed e)) fun _ _ _ => serves_upd_fixed fun _ => rfl

theorem serves_signOnLinked : Serves k s signOnLinked :=
  serves_bind (serves_phase _) fun _ _ _ => serves_bind (serves_upd_fixed fun _ => rfl) fun _ _ _ =>
    serves_bind (serves_upd_fixed fun _ => rfl) fun _ _ _ => serves_get (serves_pure _)

theorem serves_signOnGiveUp (r : Res) : Serves k s (signOnGiveUp r) :=
  serves_bind (serves_phase _) fun _ _ _ => serves_bind (serves_upd_fixed connectFailed_fixed) fun _ _ _ =>
    serves_pure _

theorem serves_signOnLoop (n : Nat) : Serves k s (signOnLoop n) := by
  induction n generalizing s with
  | zero => exact serves_signOnGiveUp _
  | succ n ih =>
    refine serves_bind (serves_phase _) fun _ _ _ =>
      serves_bind (serves_supervise (op := .connectAttempt) (by decide)) fun r _ _ => serves_ite serves_signOnLinked ?_
    refine serves_bind (serves_phase _) fun _ _ _ =>
      serves_bind (serves_modify (spares_of_fixed (noteRate_fixed _))) fun _ _ _ =>
      serves_ite (serves_signOnGiveUp _) (serves_get ?_)
    split
    · exact serves_signOnGiveUp _
    · exact serves_bind (serves_upd_fixed fun _ => rfl) fun _ _ _ => ih

theorem serves_updiSignOn : Serves k s updiSignOn :=
  serves_bind (serves_phase _) fun _ _ _ => serves_bind (serves_connectClear _) fun _ _ _ =>
    serves_bind (serves_phase _) fun _ _ _ => serves_bind (serves_connectAcquire _) fun _ _ _ =>
    serves_bind (serves_phase _) fun _ _ _ => serves_bind (serves_upd_fixed fun _ => rfl) fun _ _ _ =>
    serves_signOnLoop _

theorem serves_teardown : Serves k s teardown :=
  serves_bind (serves_phase _) fun _ _ _ => serves_get (serves_bind
    (serves_regs fun t => spares_of_fixed (clearSession_fixed t)) fun _ _ _ => serves_bind (serves_phase _)
    fun _ _ _ => serves_regs fun t => spares_of_fixed ((noteTrst_fixed _ _).trans (releaseUart_fixed t)))

theorem serves_disconnect (wire : RunOp) : Serves k s (disconnect wire) := by
  have hk : ∀ t, Serves k t (do
      teardown
      pure (Res.ok 1)) := fun _ => serves_bind serves_teardown fun _ _ _ => serves_pure _
  exact serves_bind (serves_phase _) fun _ _ _ => serves_get
    (serves_ite (serves_bind (serves_runOp wire) fun _ t _ => hk t) (hk _))

end

section
variable {k : Bool} {s t : State} {m : M Res} {x : Answer}

/-! ## What an instruction answers -/

/-- How an instruction answers: its next state spares what is not its own to write, and where a run may begin there is
one. -/
structure Responds (k : Bool) (s : State) (x : Answer) : Prop where
  spares : ∀ t, x = .next t → Spares k s t
  ends : s.runnable → ∃ t, x = .next t

theorem responds_next (h : Spares k s t) : Responds k s (.next t) where
  spares u e := by cases e; exact h
  ends _ := ⟨t, rfl⟩

/-- What an instruction begun later answers, one begun before answers. -/
theorem Responds.back (h : Spares k s t) (hx : Responds k t x) : Responds k s x where
  spares u e := h.trans (hx.spares u e)
  ends hr := hx.ends (h.runnable hr)

theorem responds_andThen {f : State → Answer} (hx : Responds k s x) (hf : ∀ t, Responds k t (f t)) :
    Responds k s (andThen x f) := by
  cases x with
  | next t => exact (hf t).back (hx.spares t rfl)
  | fault r => exact ⟨fun _ e => (nomatch e), fun hr => hx.ends hr |>.elim fun _ e => (nomatch e)⟩
  | refused r => exact ⟨fun _ e => (nomatch e), fun hr => hx.ends hr |>.elim fun _ e => (nomatch e)⟩

theorem divert_spares (s : State) : Spares k s s.divert := spares_of_kept rfl fun _ => rfl

/-- An outcome's next state is its piece's last state, with the result written (R11, R320). -/
theorem outcome_spares {finish : Res → State → State} (hf : ∀ r t, Spares k t (finish r t))
    (hok : ∀ r t, m s = .ok r t → Spares k s t) (herr : ∀ e t, m s = .error e t → Spares k s t)
    (h : outcome finish m s = .next t) : Spares k s t := by
  unfold outcome at h
  cases hm : m s with
  | ok r u =>
    rw [hm] at h
    cases h
    exact (hok r u hm).trans (hf r u)
  | error e u =>
    rw [hm] at h
    have hu := herr e u hm
    cases e with
    | raise c => cases h; exact hu.trans (hf _ u)
    | expired =>
      cases h
      exact (hu.trans (divert_spares u)).trans (hf _ u.divert)
    | stuck => cases h
    | refused r => cases h

theorem conclude_spares (r : Res) (t : State) : Spares k t (t.conclude r) :=
  ⟨rfl, rfl, fun _ => rfl, Nat.le_refl _, id⟩

theorem deliver_spares (r : Res) (t : State) : Spares k t (t.deliver r) :=
  ⟨rfl, rfl, fun _ => rfl, Nat.le_succ _, id⟩

theorem withRequest_spares (scope : HostScope) (cmd : Byte) (p : Payload) (s : State) :
    Spares k s (s.withRequest scope cmd p) :=
  ⟨rfl, rfl, fun _ => rfl, Nat.le_refl _, id⟩

theorem primOp_spares (hm : At Retains s m) (h : primOp m s = .next t) : Spares k s t :=
  outcome_spares conclude_spares (fun _ _ e => (hm.ok e).spares) (fun _ _ e => (hm.error e).1.spares) h

theorem responds_outcome {finish : Res → State → State} (hf : ∀ r t, Spares k t (finish r t)) (hm : Serves k s m) :
    Responds k s (outcome finish m s) where
  spares _ := by
    unfold Serves at hm
    refine outcome_spares hf (fun r t e => ?_) fun x t e => ?_ <;> rw [e] at hm
    · exact hm
    · exact hm.1
  ends hr := by
    unfold Serves at hm
    unfold outcome
    cases e : m s with
    | ok r t => exact ⟨_, rfl⟩
    | error x t =>
      rw [e] at hm
      obtain ⟨c, rfl⟩ := hm.2 hr
      exact ⟨_, rfl⟩

theorem responds_hostOp {scope : HostScope} {cmd : Byte} {p : Payload} (hm : ∀ t, Serves k t m) :
    Responds k s (hostOp scope cmd p m s) :=
  (responds_outcome deliver_spares (hm _)).back (withRequest_spares scope cmd p s)

theorem responds_avrOp {a : Arch} {cmd : Byte} {p : Payload} (hm : ∀ t, Serves k t m) :
    Responds k s (avrOp a cmd p m s) :=
  responds_hostOp fun _ => serves_get (serves_bind (serves_require _) fun _ t _ => hm t)

/-! ## The writers of the architecture selector -/

/-- The instructions that may write the architecture selector between restarts (R36, R109, R115, R330). -/
def selectsArch : Instr → Bool
  | .sysSetParameter _ | .sessionOpen _ _ | .sysUsbBusReset => true
  | _ => false

theorem selectsArch_cases {i : Instr} (h : selectsArch i = true) :
    (∃ p, i = .sysSetParameter p) ∨ (∃ a d, i = .sessionOpen a d) ∨ i = .sysUsbBusReset := by
  cases i with
  | sysSetParameter p => exact .inl ⟨p, rfl⟩
  | sessionOpen a d => exact .inr (.inl ⟨a, d, rfl⟩)
  | sysUsbBusReset => exact .inr (.inr rfl)
  | _ => cases h

theorem serves_setParameter (p : ParamSet) : Serves false s (setParameter p) := by
  refine serves_get ?_
  cases p with
  | arch v =>
    exact serves_bind (serves_require _) fun _ _ _ => serves_bind
      (serves_upd fun _ => ⟨rfl, rfl, fun h => (nomatch h), Nat.le_refl _, id⟩) fun _ _ _ => serves_pure _
  | deviceDesc d =>
    exact serves_bind (serves_upd fun _ => ⟨rfl, rfl, fun _ => rfl, Nat.le_refl _, id⟩) fun _ _ _ => serves_pure _
  | other w v => exact serves_pure _

theorem busReset_spares (s : State) : Spares false s s.busReset := by
  have h : Spares false s s.clearForBusReset := by
    obtain ⟨hc, hw, _, ho, hr⟩ := spares_of_fixed (k := false) (clearSession_fixed s)
    exact ⟨hc, hw, fun h => (nomatch h), ho, fun hs => ⟨rfl, (hr hs).2⟩⟩
  unfold State.busReset
  split
  · exact h.trans (spares_of_fixed (releaseUart_fixed _))
  · exact h

theorem vcp_spares (v : Bool) (s : State) : Spares k s (s.vcp v) := by
  unfold State.vcp
  dsimp only
  split <;> exact ⟨rfl, rfl, fun _ => rfl, Nat.le_refl _, id⟩

theorem takePress_spares (s : State) : Spares k s s.takePress := by
  unfold State.takePress
  split <;> exact ⟨rfl, rfl, fun _ => rfl, Nat.le_refl _, id⟩

theorem takeRelease_spares (s : State) : Spares k s s.takeRelease := by
  unfold State.takeRelease
  split <;> exact ⟨rfl, rfl, fun _ => rfl, Nat.le_refl _, id⟩

/-- A sample writes the button's last level, and spares the rest (R301). -/
theorem sample_spares (v : Bool) (s : State) : Spares k { s with swPrev := some v } (s.write (State.sample v)) := by
  obtain ⟨l, e⟩ := write_hist (State.sample v) s
  rw [e]
  have h : Spares k { s with swPrev := some v } (s.latchEdges v) := ⟨rfl, rfl, fun _ => rfl, Nat.le_refl _, id⟩
  exact ((h.trans (takePress_spares _)).trans (takeRelease_spares _)).hist l

/-! ## The rows -/

theorem responds_signOn (a : AvrArch) : Responds k s (signOnOf a s) := by
  cases a
  · exact responds_avrOp fun _ => serves_updiSignOn
  · exact responds_avrOp fun _ => serves_runOp _

theorem responds_signOff (a : AvrArch) : Responds k s (signOffOf a s) := by
  cases a <;> exact responds_avrOp fun _ => serves_disconnect _

theorem responds_enter (a : AvrArch) : Responds k s (enterOf a s) := by
  cases a <;> exact responds_avrOp fun _ => serves_runOp _

theorem responds_leave (a : AvrArch) : Responds k s (leaveOf a s) := by
  cases a <;> exact responds_avrOp fun _ => serves_runOp _

theorem responds_setParameter (p : ParamSet) : Responds false s (execSysSetParameter p s) :=
  responds_hostOp fun _ => serves_setParameter p

/-- What the host and the environment deliver ends, and spares what is not its own to write, but for the samples and the
restarts. -/
theorem delivered_cases {i : Instr} (h : delivered i = true) (s : State) :
    Responds (!selectsArch i) s (exec i s) ∨ (∃ v, i = .sysSw v) ∨ i = .sysUsbSuspendResume ∨ i = .sysRestart := by
  cases i with
  | sysSetParameter p => exact .inl (responds_setParameter p)
  | sysGetParameter w => exact .inl (responds_next ⟨rfl, rfl, fun _ => rfl, Nat.le_succ _, id⟩)
  | unknown scope cmd => exact .inl (responds_hostOp fun _ => serves_raise _)
  | updiSignOn => exact .inl (responds_signOn .updi)
  | updiSignOff => exact .inl (responds_signOff .updi)
  | updiEnterProgmode => exact .inl (responds_enter .updi)
  | updiLeaveProgmode => exact .inl (responds_leave .updi)
  | updiEraseMemory et a => exact .inl (responds_avrOp fun _ => serves_runOp _)
  | updiReadMemory mt a n => exact .inl (responds_avrOp fun _ => serves_runOp _)
  | updiWriteMemory mt a n d => exact .inl (responds_avrOp fun _ => serves_runOp _)
  | pdiSignOn => exact .inl (responds_signOn .pdi)
  | pdiSignOff => exact .inl (responds_signOff .pdi)
  | pdiEnterProgmode => exact .inl (responds_enter .pdi)
  | pdiLeaveProgmode => exact .inl (responds_leave .pdi)
  | pdiEraseMemory et a => exact .inl (responds_avrOp fun _ => serves_runOp _)
  | pdiReadMemory mt a n => exact .inl (responds_avrOp fun _ => serves_runOp _)
  | pdiWriteMemory mt a n d => exact .inl (responds_avrOp fun _ => serves_runOp _)
  | tpiEnterProgmode => exact .inl (responds_hostOp fun _ => serves_runOp _)
  | tpiLeaveProgmode => exact .inl (responds_hostOp fun _ => serves_disconnect _)
  | tpiErase et a => exact .inl (responds_hostOp fun _ => serves_runOp _)
  | tpiWriteMem mt a n d => exact .inl (responds_hostOp fun _ => serves_runOp _)
  | tpiReadMem mt a n => exact .inl (responds_hostOp fun _ => serves_runOp _)
  | tpiCrc => exact .inl (responds_hostOp fun _ => serves_raise _)
  | tpiSetParam value =>
    exact .inl (responds_hostOp fun _ => serves_bind
      (serves_upd fun _ => ⟨rfl, rfl, fun _ => rfl, Nat.le_refl _, id⟩) fun _ _ _ => serves_pure _)
  | sysVcp v => exact .inl (responds_next (vcp_spares v s))
  | sysVtg mv => exact .inl (responds_next ⟨rfl, rfl, fun _ => rfl, Nat.le_refl _, id⟩)
  | sysUsbBusReset => exact .inl (responds_next (busReset_spares s).write)
  | sessionOpen a d =>
    exact .inl (responds_andThen (responds_setParameter _) fun _ => responds_andThen (responds_signOn a) fun _ =>
      responds_andThen (responds_setParameter _) fun _ => responds_enter a)
  | sessionClose a => exact .inl (responds_andThen (responds_leave a) fun _ => responds_signOff a)
  | sysSw v => exact .inr (.inl ⟨v, rfl⟩)
  | sysUsbSuspendResume => exact .inr (.inr (.inl rfl))
  | sysRestart => exact .inr (.inr (.inr rfl))
  | _ => cases h

theorem Stays.retains (h : Stays s t) : Retains s t := h.joins.retains

/-- The row is a primitive that keeps what no primitive writes. -/
def PrimRow (i : Instr) (s : State) : Prop := ∃ m, exec i s = primOp m s ∧ At Retains s m

theorem PrimRow.quiet {i : Instr} (e : exec i s = primOp m s) (h : At Quiet s m) : PrimRow i s := ⟨m, e, h.retains⟩

theorem PrimRow.stays {i : Instr} (e : exec i s = primOp m s) (h : At Stays s m) : PrimRow i s :=
  ⟨m, e, h.mono Stays.retains⟩

theorem primRow_cssBracket (u : UnitWidth) (a : Addr) (d : List Byte) : PrimRow (.updiCssBracket u a d) s := by
  cases u
  · exact .quiet rfl (at_bind quiet_flows (at_sendBytesBlock _ _) fun _ _ _ => at_pure quiet_flows _)
  · exact .quiet rfl (at_bind quiet_flows (at_sendWordsBlock _ _) fun _ _ _ => at_pure quiet_flows _)

theorem primRow_pdiBlock (a : Addr) (req : BlockReq) : PrimRow (.pdiBlock a req) s := by
  cases req
  · exact .quiet rfl (at_bind quiet_flows (at_pdiRecvBlock _ _) fun _ _ _ => at_pure quiet_flows _)
  · exact .quiet rfl (at_bind quiet_flows (at_pdiSendBlock _ _) fun _ _ _ => at_pure quiet_flows _)

theorem primRow_pdiNvmSequence (mt : Byte) (a : Addr) (d : List Byte) : PrimRow (.pdiNvmSequence mt a d) s := by
  refine ⟨_, rfl, ?_⟩
  split
  · exact at_raise retains_flows _
  · exact (at_pdiNvmWrite _ _ _).retains

theorem primRow_nvmCtl (req : NvmCtl) : PrimRow (.nvmCtl req) s := by
  refine ⟨_, rfl, ?_⟩
  split
  · exact at_pure retains_flows _
  · cases req
    · exact (at_done quiet_flows (at_nvmCmd _)).retains
    · exact (at_done quiet_flows at_nvmWait).retains

theorem primRow_nvmPage (req : PageReq) : PrimRow (.nvmPage req) s := by
  cases req
  · exact ⟨_, rfl, at_pure retains_flows _⟩
  · exact .stays rfl (at_done stays_flows (at_pageNote _))

theorem primRow_nvmWriteMethod (w : WriteMethod) (mt : Byte) (a : Addr) (d : List Byte) :
    PrimRow (.nvmWriteMethod w mt a d) s := by
  refine ⟨_, rfl, ?_⟩
  split
  · exact at_pure retains_flows _
  · exact at_raise retains_flows _
  · cases w with
    | plain => exact (at_writePlain _ _).retains
    | explicit page => exact (at_writeExplicit _ _ _ _).mono Stays.retains
    | atomic => exact (at_writeAtomic _ _ _).retains
    | bytewise => exact (at_writeBytewise _ _ _).retains
    | burst2 => exact (at_writeBurst2 _ _ _).retains

/-- The rows that nobody delivers are a primitive, a run, a sample of the button, or one change of the registers. -/
theorem undelivered_cases {i : Instr} (h : delivered i = false) (s : State) :
    PrimRow i s ∨ (∃ op fb d, i = .wdRun op fb d) ∨ (∃ v, i = .rsaSample v) ∨
      ∃ t, exec i s = .next t ∧ Spares true s t := by
  cases i with
  | updiSynch => exact .inl (.quiet rfl (at_done quiet_flows (at_tx _)))
  | updiLdcs r => exact .inl (.quiet rfl (at_oneByte quiet_flows (at_ldcs _ _)))
  | updiStcs r v => exact .inl (.quiet rfl (at_done quiet_flows (at_stcs _ _ _)))
  | updiKey key => exact .inl (.quiet rfl (at_done quiet_flows (at_sendKey _)))
  | updiSib => exact .inl (.stays rfl (at_done stays_flows at_readSib))
  | updiStPtr w a => exact .inl (.quiet rfl (at_done quiet_flows (at_require quiet_flows fun _ => at_setPtr _ _)))
  | updiRepeat cnt => exact .inl (.quiet rfl (at_done quiet_flows (at_instr _ _)))
  | updiLdInc8 cnt => exact .inl (.quiet rfl (at_bind quiet_flows (at_instr _ _) fun _ _ _ =>
    at_bind quiet_flows (at_recvN _) fun _ _ _ => at_pure quiet_flows _))
  | updiLdInc16 cnt => exact .inl (.quiet rfl (at_bind quiet_flows (at_instr _ _) fun _ _ _ =>
    at_bind quiet_flows (at_recvN _) fun _ _ _ => at_pure quiet_flows _))
  | updiStInc8 d => exact .inl (.quiet rfl (at_bind quiet_flows (at_instr _ _) fun _ _ _ =>
    at_bind quiet_flows (at_send _ _) fun _ _ _ => at_pure quiet_flows _))
  | updiStInc16 d => exact .inl (.quiet rfl (at_require quiet_flows fun _ =>
    at_bind quiet_flows (at_instr _ _) fun _ _ _ => at_bind quiet_flows (at_send _ _) fun _ _ _ =>
    at_pure quiet_flows _))
  | tpiLdcs r => exact .inl (.quiet rfl (at_oneByte quiet_flows (at_ldcs _ _)))
  | tpiStcs r v => exact .inl (.quiet rfl (at_done quiet_flows (at_stcs _ _ _)))
  | tpiKey => exact .inl (.quiet rfl (at_done quiet_flows (at_sendSyncKey _)))
  | tpiSetPtrLo b => exact .inl (.quiet rfl (at_done quiet_flows (at_send _ _)))
  | tpiSetPtrHi b => exact .inl (.quiet rfl (at_done quiet_flows (at_send _ _)))
  | tpiLdInc => exact .inl (.quiet rfl (at_oneByte quiet_flows at_tpiLdInc))
  | tpiStInc b => exact .inl (.quiet rfl (at_done quiet_flows (at_tpiStInc _)))
  | tpiSout io v => exact .inl (.quiet rfl (at_done quiet_flows (at_tpiOut _ _)))
  | tpiSin io => exact .inl (.quiet rfl (at_oneByte quiet_flows (at_tpiIn _)))
  | pdiLdcs r => exact .inl (.quiet rfl (at_oneByte quiet_flows (at_ldcs _ _)))
  | pdiStcs r v => exact .inl (.quiet rfl (at_done quiet_flows (at_stcs _ _ _)))
  | pdiKey => exact .inl (.quiet rfl (at_done quiet_flows (at_sendSyncKey _)))
  | pdiSts8 a v => exact .inl (.quiet rfl (at_done quiet_flows (at_pdiSts8 _ _)))
  | pdiLds8 a => exact .inl (.quiet rfl (at_oneByte quiet_flows (at_pdiLds8 _)))
  | pdiSetPtr a => exact .inl (.quiet rfl (at_done quiet_flows (at_pdiSetPtr _)))
  | pdiRepeat cnt => exact .inl (.quiet rfl (at_done quiet_flows (at_pdiRepeat _)))
  | pdiLdInc cnt => exact .inl (.quiet rfl (at_bind quiet_flows (at_send _ _) fun _ _ _ =>
    at_bind quiet_flows (at_recvN _) fun _ _ _ => at_pure quiet_flows _))
  | pdiStInc d => exact .inl (.quiet rfl (at_bind quiet_flows (at_send _ _) fun _ _ _ => at_pure quiet_flows _))
  | updiLineConfig => exact .inl (.quiet rfl (at_done quiet_flows at_lineConfig))
  | updiAttention => exact .inl (.quiet rfl (at_done quiet_flows (at_attention _)))
  | updiTx b => exact .inl (.quiet rfl (at_done quiet_flows (at_tx _)))
  | updiRx => exact .inl (.quiet rfl (at_oneByte quiet_flows at_rx))
  | updiHandshake => exact .inl (.quiet rfl (at_done quiet_flows at_handshake))
  | updiConnectAttempt => exact .inl (.stays rfl at_connectAttempt)
  | updiBindVariant => exact .inl ⟨_, rfl, at_require retains_flows fun _ => at_done retains_flows at_bindVariant⟩
  | updiCssBracket w a d => exact .inl (primRow_cssBracket w a d)
  | updiChipErase => exact .inl (.stays rfl at_chipErase)
  | updiUserrowCeremony a d => exact .inl (.quiet rfl (at_userrowCeremony _ _))
  | updiSignatureDummy n => exact .inl (.quiet rfl (at_signatureDummy _))
  | updiFallback => exact .inl ⟨_, rfl, at_bind retains_flows at_updiFallback fun _ _ _ => at_pure retains_flows _⟩
  | tpiConnect => exact .inl ⟨_, rfl, (at_done joins_flows at_tpiConnect).mono Joins.retains⟩
  | tpiChunkLookup b0 b1 b2 => exact .inl (.stays rfl (at_done stays_flows (at_tpiChunkSet _)))
  | pdiBlock a req => exact .inl (primRow_pdiBlock a req)
  | pdiNvmSequence mt a d => exact .inl (primRow_pdiNvmSequence mt a d)
  | nvmCtl req => exact .inl (primRow_nvmCtl req)
  | nvmPage req => exact .inl (primRow_nvmPage req)
  | nvmWriteMethod w mt a d => exact .inl (primRow_nvmWriteMethod w mt a d)
  | nvmV0WriteMemory mt a d => exact .inl (.stays rfl (at_variantFn _ _))
  | nvmV0WriteFuse a b => exact .inl (.quiet rfl (at_writeBytewise _ _ _))
  | nvmV1WriteMemory mt a d => exact .inl (.stays rfl (at_variantFn .v1 (.writeMemory mt a d)))
  | nvmV3WriteMemory mt a d => exact .inl (.stays rfl (at_variantFn _ _))
  | nvmV4WriteMemory mt a d => exact .inl (.stays rfl (at_variantFn _ _))
  | nvmOpaque v f => exact .inl (.stays rfl (at_variantFn _ _))
  | nvmStub f => exact .inl (.stays rfl (at_variantFn _ _))
  | nvmReadMemory mt a n => exact .inl (.stays rfl (at_variantFn _ _))
  | nvmEraseMemory et a => exact .inl (.stays rfl (at_variantFn _ _))
  | nvmProgInit => exact .inl (.stays rfl (at_variantFn _ _))
  | wdRun op fb d => exact .inr (.inl ⟨op, fb, d, rfl⟩)
  | rsaSample v => exact .inr (.inr (.inl ⟨v, rfl⟩))
  | linkLoss => exact .inr (.inr (.inr ⟨_, rfl, (spares_of_fixed (linkLoss_fixed s)).write⟩))
  | rsaPress => exact .inr (.inr (.inr ⟨_, rfl, (takePress_spares s).write⟩))
  | rsaRelease => exact .inr (.inr (.inr ⟨_, rfl, (takeRelease_spares s).write⟩))
  | rsaAcquire e => exact .inr (.inr (.inr ⟨_, rfl, spares_of_fixed (acquire_fixed e s)⟩))
  | rsaQuiesce => exact .inr (.inr (.inr ⟨_, rfl, spares_of_fixed rfl⟩))
  | rsaReleaseUart => exact .inr (.inr (.inr ⟨_, rfl, spares_of_fixed (releaseUart_fixed s)⟩))
  | _ => cases h

/-- A run that is refused has no next state (R141, R150, R151). -/
theorem wdRun_spares {op : RunOp} {fb : FallbackSel} {d : Half} (h : exec (.wdRun op fb d) s = .next t) :
    Spares k s t := by
  by_cases hd : d = 0
  · obtain ⟨r, e⟩ := supervise_refused (s := s) (op := runBody op) (fb := fb) (d := d) (.inr hd)
    have h : outcome State.conclude (runWith op fb d) s = .next t := h
    unfold outcome runWith at h
    rw [m_bind, e] at h
    cases h
  · exact (responds_outcome conclude_spares (serves_runWith hd)).spares t h

/-- What an instruction leaves alone, but for the samples and the restarts (R5, R36, R38). -/
theorem exec_spares {i : Instr} (h : exec i s = .next t) :
    Spares (!selectsArch i) s t ∨ (∃ v, t = s.write (State.sample v) ∧ (i = .sysSw v ∨ i = .rsaSample v)) ∨
      i = .sysUsbSuspendResume ∨ i = .sysRestart := by
  cases hd : delivered i
  · rcases undelivered_cases hd s with ⟨m, e, hm⟩ | ⟨op, fb, d, rfl⟩ | ⟨v, rfl⟩ | ⟨u, e, hu⟩
    · exact .inl (primOp_spares hm (e.symm.trans h))
    · exact .inl (wdRun_spares h)
    · cases h
      exact .inr (.inl ⟨v, rfl, .inr rfl⟩)
    · cases e.symm.trans h
      exact .inl hu.loose
  · rcases delivered_cases hd s with hs | ⟨v, rfl⟩ | hi
    · exact .inl (hs.spares t h)
    · cases h
      exact .inr (.inl ⟨v, rfl, .inl rfl⟩)
    · exact .inr (.inr hi)

end

/-! ## The obligations -/

/-- Settles O9: every row but the samples and the restarts spares the three registers (`exec_spares`), and those write
only what is theirs. -/
theorem onlyTheirWriters : Obligations.OnlyTheirWriters := by
  intro i s t h
  rcases exec_spares h with hs | ⟨v, rfl, hi⟩ | rfl | rfl
  · refine ⟨hs.cfg, fun _ _ _ _ => hs.swPrev, fun hp hb _ _ ho => hs.arch ?_⟩
    cases hsel : selectsArch i
    · rfl
    · rcases selectsArch_cases hsel with ⟨p, rfl⟩ | ⟨a, d, rfl⟩ | rfl
      · exact absurd rfl (hp p)
      · exact absurd rfl (ho a d)
      · exact absurd rfl hb
  · have hs := sample_spares (k := true) v s
    exact ⟨hs.cfg, fun h1 h2 _ _ => (hi.elim (h1 v) (h2 v)).elim, fun _ _ _ _ _ => hs.arch rfl⟩
  · refine ⟨?_, fun _ _ _ h4 => absurd rfl h4, fun _ _ _ h4 => absurd rfl h4⟩
    cases h
    split <;> rfl
  · cases h
    exact ⟨rfl, fun _ _ h3 => absurd rfl h3, fun _ _ h3 => absurd rfl h3⟩

/-- Settles O57: what is delivered waits for the line only inside runs, which the countdown ends (`serves_supervise`),
and takes back no operation's count (`delivered_cases`). -/
theorem deliveredOperationsEnd : Obligations.DeliveredOperationsEnd := by
  intro i s hd ha hi
  have hr : s.runnable := ⟨ha, hi⟩
  rcases delivered_cases hd s with h | ⟨v, rfl⟩ | rfl | rfl
  · obtain ⟨t, e⟩ := h.ends hr
    have hs := h.spares t e
    exact ⟨t, e, (hs.runnable hr).1, fun _ _ => hs.opi⟩
  · have hs := sample_spares (k := true) v s
    exact ⟨_, rfl, (hs.runnable hr).1, fun _ _ => hs.opi⟩
  · refine ⟨_, rfl, ?_, fun _ h2 => absurd rfl h2⟩
    split
    · rfl
    · exact ha
  · exact ⟨_, rfl, rfl, fun h1 => absurd rfl h1⟩

end Sys2Proof.Machine
end

section
/-! SUPPORT. How the invariants between operations are kept (R23, R30, R31, R33, R41, R44, R220, R302, R311). `Sane` is
what every primitive keeps of them; `Lands` says where a piece between runs ends, `Secures` the same of what an
instruction answers. -/

namespace Sys2Proof.Machine

/-! ## The invariants of a piece -/

/-- The invariants between operations but for the phase, which a piece enters. -/
def State.settled (s : State) : Prop :=
  s.wdArmed = false ∧ s.ui.swPress = false ∧ s.ui.swRelease = false ∧ s.sound

/-- What every primitive keeps: what it never writes, and the invariants. -/
structure Sane (s t : State) : Prop where
  retains : Retains s t
  sound : s.sound → t.sound

/-- What an instruction keeps: the invariants, and with them a whole session (R30, R311). -/
structure Secure (s t : State) : Prop where
  settled : t.settled
  session : s.sessionOk → t.sessionOk

section
variable {s t u : State} {α β : Type} {m : M α} {E P Q : State → Prop}

theorem wellBehaved_iff : s.wellBehaved ↔ s.settled ∧ s.ph = 0 :=
  ⟨fun ⟨ha, hp, h1, h2, hs⟩ => ⟨⟨ha, h1, h2, hs⟩, hp⟩, fun ⟨⟨ha, h1, h2, hs⟩, hp⟩ => ⟨ha, hp, h1, h2, hs⟩⟩

theorem sane_flows : Flows Sane where
  refl s := ⟨retains_flows.refl s, id⟩
  trans h1 h2 := ⟨retains_flows.trans h1.retains h2.retains, h2.sound ∘ h1.sound⟩
  armed h := h.retains.armed
  ie h := retains_flows.ie h.retains

theorem Joins.sane (h : Joins s t) : Sane s t := ⟨h.retains, h.sound⟩

theorem Stays.sane (h : Stays s t) : Sane s t := h.joins.sane

theorem Quiet.sane (h : Quiet s t) : Sane s t := h.joins.sane

theorem settled_of_kept (hk : t.kept = s.kept) (ha : t.wdArmed = false) (hs : s.sound → t.sound) (h : s.settled) :
    t.settled := by
  have hu : t.ui = s.ui := show t.kept.ui = s.kept.ui from congrArg State.ui hk
  obtain ⟨_, h1, h2, h3⟩ := h
  exact ⟨ha, hu ▸ h1, hu ▸ h2, hs h3⟩

theorem Sane.settled (h : Sane s t) (hs : s.settled) : t.settled :=
  settled_of_kept h.retains.kept (h.retains.armed.trans hs.1) h.sound hs

theorem settled_of_fixed (hf : t.fixed = s.fixed) (hs : s.sound → t.sound) (h : s.settled) : t.settled :=
  Sane.settled ⟨retains_of_fixed hf, hs⟩ h

theorem settled_write {f : State → State} (h : (f s).settled) : (s.write f).settled := by
  obtain ⟨l, e⟩ := write_hist f s
  rw [e]
  exact h

theorem sessionOk_write {f : State → State} (h : (f s).sessionOk) : (s.write f).sessionOk := by
  obtain ⟨l, e⟩ := write_hist f s
  rw [e]
  exact h

/-- The parameters of the rate are legal (R33, R34). -/
theorem State.settled.params (h : s.settled) : clkParamsOk s.cfg = true := by
  obtain ⟨_, _, _, _, _, _, hp, _⟩ := h
  exact hp

/-! ## Where a piece between runs ends -/

/-- Where a piece ends that no countdown runs for: with a value where `Q` holds, with a failure cause where `E` does,
never by the expiry. A wait that is stuck and a refusal have no next state. -/
def Lands (E Q : State → Prop) (s : State) (m : M α) : Prop :=
  match m s with
  | .ok _ t => Q t
  | .error (.raise _) t => E t
  | .error .expired _ => False
  | .error _ _ => True

theorem lands_raise {c : Cause} (h : E s) : Lands E Q s (raise c : M α) := h

theorem lands_get {f : State → M β} (h : Lands E Q s (f s)) : Lands E Q s (get >>= f) := h

theorem lands_ok {a : α} (e : m s = .ok a t) (h : Q t) : Lands E Q s m := by
  unfold Lands
  rw [e]
  exact h

theorem lands_bind {f : α → M β} (hm : Lands E P s m) (hf : ∀ a t, P t → Lands E Q t (f a)) :
    Lands E Q s (m >>= f) := by
  unfold Lands at hm ⊢
  rw [m_bind]
  cases hms : m s with
  | ok a t => rw [hms] at hm; exact hf a t hm
  | error e t => rw [hms] at hm; cases e <;> exact hm

theorem lands_phase {n : Nat} {f : Unit → M β} (h : Lands E Q { s with ph := n } (f ())) :
    Lands E Q s (phase n >>= f) := h

theorem lands_upd {f : State → State} (ha : s.wdArmed = false) (h : Q (s.elapse.write f)) : Lands E Q s (upd f) :=
  lands_ok (upd_unarmed f ha) h

/-- A piece of a known kind ends where its kind says; the expiry strikes only an armed countdown. -/
theorem lands_at {R : State → State → Prop} (hm : At R s m) (ha : s.wdArmed = false) : Lands (R s) (R s) s m := by
  unfold At at hm
  unfold Lands
  cases hms : m s with
  | ok a t => rw [hms] at hm; exact hm
  | error e t =>
    rw [hms] at hm
    cases e with
    | raise c => exact hm.1
    | expired => exact Bool.false_ne_true (ha.symm.trans hm.2.1)
    | stuck => trivial
    | refused r => trivial

/-- A piece that goes through, of a known kind, ends in its state up to time. -/
theorem lands_goes {R : State → State → Prop} {a : α} (ha : s.wdArmed = false) (hg : ∀ n, Goes true n m s a t)
    (hm : At R s m) (h : ∀ τ, R s (t.stamp τ) → Q (t.stamp τ)) : Lands E Q s m := by
  obtain ⟨τ, e, _⟩ := hg _ (State.within_of_disarmed ha)
  exact lands_ok e (h τ (hm.ok e))

/-- An outcome's next state is its piece's last state, with the result written. -/
theorem outcome_lands {finish : Res → State → State} {m : M Res} (hm : Lands Q Q s m)
    (h : outcome finish m s = .next t) : ∃ r u, Q u ∧ t = finish r u := by
  unfold Lands at hm
  unfold outcome at h
  cases hms : m s with
  | ok r u => rw [hms] at h hm; cases h; exact ⟨r, u, hm, rfl⟩
  | error e u =>
    rw [hms] at h hm
    cases e with
    | raise c => cases h; exact ⟨_, u, hm, rfl⟩
    | expired => exact hm.elim
    | stuck => cases h
    | refused r => cases h

theorem Lands.mono {E' Q' : State → Prop} (h : Lands E Q s m) (hE : ∀ t, E t → E' t) (hQ : ∀ t, Q t → Q' t) :
    Lands E' Q' s m := by
  unfold Lands at *
  cases hms : m s with
  | ok a t => rw [hms] at h; exact hQ t h
  | error e t =>
    rw [hms] at h
    cases e with
    | raise c => exact hE t h
    | expired => exact h
    | stuck => trivial
    | refused r => trivial

/-! ## Runs -/

/-- A run that may not begin is refused. -/
theorem lands_refused {r : Refusal} (h : m s = .error (.refused r) t) : Lands E Q s m := by
  unfold Lands
  rw [h]
  trivial

theorem lands_runWith {op : RunOp} {fb : FallbackSel} {d : Half} (hs : s.settled) :
    Lands E (Secure s) s (runWith op fb d) := by
  by_cases hr : ¬s.runnable ∨ d = 0
  · obtain ⟨r, e⟩ := supervise_refused (op := runBody op) (fb := fb) hr
    exact lands_refused (by unfold runWith; rw [m_bind, e])
  · simp only [not_or, not_not] at hr
    obtain ⟨⟨ha, hi⟩, hd⟩ := hr
    obtain ⟨r, t, e, ht, _, hk, h⟩ := runWith_ends (op := op) (fb := fb) hi ha hd
    obtain ⟨hts, hto⟩ := h hs.2.2.2
    exact lands_ok e ⟨settled_of_kept hk ht (fun _ => hts) hs, hto⟩

theorem lands_runOp (op : RunOp) (hs : s.settled) : Lands E (Secure s) s (runOp op) := lands_runWith hs

/-- Who holds what: the link, the bound variant, the UART's owner. -/
def State.holders (s : State) : Bool × Variant × Umode := (s.sess.link, s.ct, s.umode)

theorem Stays.holders (h : Stays s t) : t.holders = s.holders := by
  unfold State.holders
  rw [h.link, h.ct, h.umode]

theorem Mild.holders (h : Mild s t) : t.holders = s.holders := by
  have e : ∀ x : State, x.holders = x.calm.holders := fun _ => rfl
  rw [e t, e s, h.calm]

/-- The run of an operation within a session changes no holder. -/
theorem lands_supervise {op : RunOp} {fb : FallbackSel} {d : Half} (hc : connects op = false) (hs : s.settled) :
    Lands E (fun t => t.settled ∧ t.holders = s.holders) s (supervise (runBody op) fb d) := by
  by_cases hr : ¬s.runnable ∨ d = 0
  · obtain ⟨r, e⟩ := supervise_refused (op := runBody op) (fb := fb) hr
    exact lands_refused e
  · simp only [not_or, not_not] at hr
    obtain ⟨⟨ha, hi⟩, hd⟩ := hr
    obtain ⟨r, t, e, _, hta, h⟩ := supervise_keeps (op := runBody op) (fb := fb) (d := d)
      (P := fun t => t.kept = s.kept ∧ t.sound ∧ t.holders = s.holders)
      (Q := fun t => t.kept = s.kept ∧ t.sound ∧ t.holders = s.holders) (fun _ h => h)
      (fun _ _ ⟨h1, h2, h3⟩ hm => ⟨hm.kept.trans h1, hm.sound h2, hm.holders.trans h3⟩)
      (fun _ _ ⟨h1, h2, h3⟩ hm => ⟨hm.kept.trans h1, hm.sound h2, hm.holders.trans h3⟩)
      (fun t ⟨h1, h2, h3⟩ hta hti => by
        have hk : ∀ u, Stays t u → (u.kept = s.kept ∧ u.sound ∧ u.holders = s.holders) ∧ u.env.ie = true :=
          fun u hu => ⟨⟨hu.joins.kept.trans h1, hu.sound h2, hu.holders.trans h3⟩, (stays_flows.ie hu).trans hti⟩
        rcases at_armed (runBody_stays (s := t) hc) hta hti with ⟨r, u, e, hu⟩ | ⟨c, u, e, hu⟩ | ⟨u, e, hu⟩
        · exact .inl ⟨r, u, e, hk u hu⟩
        · exact .inr (.inl ⟨c, u, e, hk u hu⟩)
        · exact .inr (.inr ⟨u, e, hk u hu⟩))
      ⟨rfl, hs.2.2.2, rfl⟩ hi ha hd
    have ht : t.kept = s.kept ∧ t.sound ∧ t.holders = s.holders := h.elim id fun h => h.2
    exact lands_ok e ⟨settled_of_kept ht.1 hta (fun _ => ht.2.1) hs, ht.2.2⟩

/-! ## SIGN_ON of UPDI and the disconnects -/

/-- Between a connect's step 2 and its end: the engine holds the UART, and there is no link yet (R181). -/
def State.attempting (s : State) : Prop := s.settled ∧ s.holders = (false, .stub, .updi)

theorem attempting_elapse (h : s.attempting) : s.elapse.attempting :=
  ⟨(elapse_quiet s).sane.settled h.1, (elapse_quiet s).stays.holders.trans h.2⟩

/-- A change of the rate to a legal one, in an attempt (R33, R181). -/
theorem attempting_clk {c : Nat} (h : s.attempting) (hc : Config.clkMinKhz ≤ c ∧ c ≤ Config.clkMaxKhz) :
    ({ s with clk := c } : State).attempting := by
  obtain ⟨⟨ha, h1, h2, hv, hl, hsib, hp, _, hk⟩, hh⟩ := h
  exact ⟨⟨ha, h1, h2, hv, hl, hsib, hp, hc, hk⟩, hh⟩

/-- Binding the variant and then setting the link makes a whole session of an attempt (R181 step 6, R183). -/
theorem lands_signOnLinked (h : s.attempting) :
    Lands E (fun t => t.settled ∧ t.sessionOk) s signOnLinked := by
  have hq := fun u : State => elapse_quiet u
  refine lands_phase (lands_bind (P := fun t => t.settled ∧ t.umode = .updi) (lands_upd h.1.1 ?_) fun _ t ht => ?_)
  · obtain ⟨hs, hh⟩ := attempting_elapse (s := { s with ph := 6 }) h
    exact ⟨settled_write hs, (write_field State.umode (fun _ _ => rfl) _ _).trans (congrArg (·.2.2) hh)⟩
  · refine lands_bind (P := fun t => t.settled ∧ t.sessionOk) (lands_upd ht.1.1 ?_) fun _ t ht => lands_get ht
    obtain ⟨ha, h1, h2, hv, _, hs⟩ := (hq t).sane.settled ht.1
    exact ⟨settled_write ⟨ha, h1, h2, hv, fun _ => rfl, hs⟩, sessionOk_write
      ⟨fun hl => (Bool.noConfusion hl), fun _ => congrArg Umode.isEngine ((hq t).umode.trans ht.2), fun _ => rfl⟩⟩

theorem lands_signOnGiveUp (r : Res) (h : s.settled) :
    Lands E (fun t => t.settled ∧ t.sessionOk) s (signOnGiveUp r) := by
  refine lands_phase (lands_bind (P := fun t => t.settled ∧ t.sessionOk) (lands_upd h.1 ?_) fun _ _ ht => ht)
  have he : State.settled { s with ph := 5 }.elapse := (elapse_quiet _).sane.settled h
  exact ⟨settled_write (settled_of_fixed (connectFailed_fixed _) connectFailed_sound he),
    sessionOk_write (connectFailed_sessionOk _)⟩

theorem noteRate_attempting (h : s.attempting) : s.noteRate.attempting := by
  unfold State.noteRate
  split <;> exact h

/-- However its attempts end, SIGN_ON leaves a whole session or none (R181). -/
theorem lands_signOnLoop (n : Nat) (h : s.attempting) :
    Lands E (fun t => t.settled ∧ t.sessionOk) s (signOnLoop n) := by
  induction n generalizing s with
  | zero => exact lands_signOnGiveUp _ h.1
  | succ n ih =>
    refine lands_phase (lands_bind (lands_supervise (op := .connectAttempt) rfl h.1) fun r t ht => ?_)
    have ha : t.attempting := ⟨ht.1, ht.2.trans h.2⟩
    split
    · exact lands_signOnLinked ha
    · have hn : State.attempting (State.noteRate { t with ph := 4 }) := noteRate_attempting ha
      refine lands_phase (lands_bind (P := State.attempting) (m := modify State.noteRate) hn fun _ u hu => ?_)
      split
      · exact lands_signOnGiveUp _ hu.1
      · refine lands_get ?_
        split
        · exact lands_signOnGiveUp _ hu.1
        · next c hc =>
          refine lands_bind (P := State.attempting) (lands_upd hu.1.1 ?_) fun _ _ hv => ih hv
          rw [State.write_quiet rfl]
          exact attempting_clk (attempting_elapse hu) (clkLower_legal hu.1.params hc)

/-- Steps 1 and 2 of a connect leave the engine with the UART and no link (R181, R252). -/
theorem lands_connectStart (hs : s.settled) :
    Lands E State.attempting s (do
      phase 1
      connectClear .updi
      phase 2
      connectAcquire .updi) := by
  refine lands_goes (R := Joins) (a := ()) (t := s.connectStart .updi) hs.1 (fun n => ?_) ?_
    fun τ h => ⟨h.sane.settled hs, ?_⟩
  · simpa only [bind_pure] using goes_connectStart_phases (k := true) (n := n) (e := .updi) (p := 1) (q := 2)
      (g := pure) (s := s) fun τ => goes_pure.upto τ rfl
  · have hp : ∀ {u : State} n, At Joins u (phase n) := fun n => (at_phase n).mono Quiet.joins
    exact at_bind joins_flows (hp 1) fun _ _ _ => at_bind joins_flows (at_connectClear _) fun _ _ _ =>
      at_bind joins_flows (hp 2) fun _ _ _ => at_connectAcquire _
  · unfold State.holders
    simp [State.stamp, engineMode, Sess.zero]

theorem updiSignOn_eq : updiSignOn = (do
    (do
      phase 1
      connectClear .updi
      phase 2
      connectAcquire .updi)
    phase 3
    upd fun s => { s with clk := s.cfg.clkCfgKhz }
    signOnLoop Config.connectAttempts : M Res) := by
  unfold updiSignOn
  simp only [bind_assoc]

theorem lands_updiSignOn (hs : s.settled) : Lands E (Secure s) s updiSignOn := by
  rw [updiSignOn_eq]
  refine lands_bind (lands_connectStart hs) fun _ t ht => lands_phase (lands_bind (P := State.attempting)
    (lands_upd ht.1.1 ?_) fun _ u hu => (lands_signOnLoop _ hu).mono (fun _ => id) fun _ hv => ⟨hv.1, fun _ => hv.2⟩)
  have he : State.attempting (State.elapse { t with ph := 3 }) := attempting_elapse ht
  rw [State.write_quiet rfl]
  exact attempting_clk he (clkCfg_legal he.1.params)

theorem secure_refl (hs : s.settled) : Secure s s := ⟨hs, id⟩

theorem Secure.trans (h1 : Secure s t) (h2 : Secure t u) : Secure s u := ⟨h2.settled, h2.session ∘ h1.session⟩

theorem teardown_secure (hs : s.settled) : Secure s s.teardown :=
  ⟨settled_of_fixed (teardown_fixed s) teardown_sound hs, fun _ => teardown_sessionOk s⟩

theorem lands_disconnect (wire : RunOp) (hs : s.settled) : Lands E (Secure s) s (disconnect wire) := by
  have hk : ∀ t : State, Secure s t → Lands E (Secure s) t (do
      teardown
      pure (Res.ok 1)) := fun t ht => by
    obtain ⟨τ, e, _⟩ := goes_teardown (k := true) (State.within_of_disarmed ht.settled.1)
    have hd := ht.trans (teardown_secure ht.settled)
    exact lands_ok e ⟨hd.settled, hd.session⟩
  refine lands_phase (lands_get ?_)
  have h1 : Secure s { s with ph := 1 } := ⟨hs, id⟩
  split
  · exact lands_bind (lands_runOp wire h1.settled) fun _ t ht => hk t (h1.trans ht)
  · exact hk _ h1

/-! ## What an instruction answers -/

/-- The next state, where there is one, has the invariants the state before had, and a whole session where it had. -/
def Secures (s : State) (x : Answer) : Prop :=
  ∀ t, x = .next t → s.wellBehaved → t.wellBehaved ∧ (s.sessionOk → t.sessionOk)

theorem secures_next (h : s.settled → Secure s t) (hp : s.ph = 0 → t.ph = 0) : Secures s (.next t) := by
  intro u e hs
  cases e
  obtain ⟨h1, h2⟩ := wellBehaved_iff.1 hs
  exact ⟨wellBehaved_iff.2 ⟨(h h1).settled, hp h2⟩, (h h1).session⟩

theorem secures_andThen {x : Answer} {f : State → Answer} (hx : Secures s x) (hf : ∀ t, Secures t (f t)) :
    Secures s (andThen x f) := by
  intro t e hs
  cases x with
  | next u =>
    obtain ⟨h1, h2⟩ := hx u rfl hs
    obtain ⟨h3, h4⟩ := hf u t e h1
    exact ⟨h3, h4 ∘ h2⟩
  | fault r => cases e
  | refused r => cases e

theorem secures_deliver {m : M Res} {b : CmdBuf} (hm : ∀ t : State, t.settled → Lands (Secure t) (Secure t) t m) :
    Secures s (outcome State.deliver m { s with cb := b }) := by
  intro t e hs
  obtain ⟨r, u, hu, rfl⟩ := outcome_lands (hm { s with cb := b } (wellBehaved_iff.1 hs).1) e
  exact ⟨wellBehaved_iff.2 ⟨hu.settled, rfl⟩, hu.session⟩

theorem secures_avrOp {a : Arch} {cmd : Byte} {p : Payload} {m : M Res}
    (hm : ∀ t : State, t.settled → Lands (Secure t) (Secure t) t m) : Secures s (avrOp a cmd p m s) := by
  refine secures_deliver fun t ht => lands_get ?_
  cases t.arch == a
  · exact lands_raise (secure_refl ht)
  · exact hm t ht

theorem lands_raising {c : Cause} (hs : s.settled) : Lands (Secure s) (Secure s) s (raise c : M Res) :=
  lands_raise (secure_refl hs)

/-- A write that keeps the invariants and the holders. -/
theorem lands_upd_secure {f : State → State} {r : Res} (hs : s.settled) (h : ∀ t : State, t.settled → Secure t (f t)) :
    Lands E (Secure s) s (do upd f; pure r : M Res) := by
  refine lands_bind (P := Secure s) (lands_upd hs.1 ?_) fun _ _ ht => ht
  have he : Secure s s.elapse := ⟨(elapse_quiet s).sane.settled hs, (elapse_quiet s).stays.sessionOk⟩
  have hf := h _ he.settled
  exact he.trans ⟨settled_write hf.settled, fun hk => sessionOk_write (hf.session hk)⟩

theorem lands_setParameter (p : ParamSet) (hs : s.settled) : Lands (Secure s) (Secure s) s (setParameter p) := by
  refine lands_get ?_
  cases p with
  | arch v =>
    dsimp only
    cases s.sess.link
    · exact lands_upd_secure hs fun _ ht => ⟨ht, id⟩
    · exact lands_raising hs
  | deviceDesc d => exact lands_upd_secure hs fun _ ht => ⟨ht, id⟩
  | other w v => exact secure_refl hs

/-! ## Events -/

theorem clearSession_sound (h : s.sound) : s.clearSession.sound := by
  obtain ⟨l, e⟩ := setClk_eq s.cfg.clkCfgKhz { s.dropSession with dd := { s.dd with valid := false } }
  obtain ⟨hv, hl, hsib, hp, _, hk⟩ := dropSession_sound h
  rw [State.clearSession, e]
  exact ⟨hv, hl, hsib, hp, clkCfg_legal hp, hk⟩

/-- What a bus reset clears leaves no session, and the UART's owner alone (R330). -/
theorem clearForBusReset_holders (s : State) : s.clearForBusReset.holders = (false, .stub, s.umode) := by
  obtain ⟨l, e⟩ := setClk_eq s.cfg.clkCfgKhz { s.dropSession with dd := { s.dd with valid := false } }
  unfold State.clearForBusReset State.clearSession
  rw [e]
  rfl

theorem busReset_secure (hs : s.settled) : Secure s s.busReset := by
  have hc : s.clearSession.settled := settled_of_fixed (clearSession_fixed s) clearSession_sound hs
  have hb : s.clearForBusReset.settled := ⟨rfl, hc.2⟩
  have hh := clearForBusReset_holders s
  have hl : s.clearForBusReset.sess.link = false := congrArg (·.1) hh
  have hct : s.clearForBusReset.ct = .stub := congrArg (·.2.1) hh
  have hu : s.clearForBusReset.umode = s.umode := congrArg (·.2.2) hh
  unfold State.busReset
  split
  · exact ⟨settled_of_fixed (releaseUart_fixed _) releaseUart_sound hb, fun _ => releaseUart_sessionOk hl hct⟩
  · next hn => exact ⟨hb, fun _ => ⟨fun _ => hct, by rw [hl, hu]; simpa using hn⟩⟩

theorem busReset_ph (s : State) : s.busReset.ph = 0 := by
  unfold State.busReset
  split <;> rfl

theorem vcp_ph (v : Bool) (s : State) : (s.vcp v).ph = s.ph := by
  unfold State.vcp
  dsimp only
  split <;> rfl

/-- A port that opens or closes changes the owner where no engine holds the UART (R310). -/
theorem vcp_secure (v : Bool) (hs : s.settled) : Secure s (s.vcp v) := by
  obtain ⟨ha, h1, h2, hv, hl, hsib, hp, hr, hk⟩ := hs
  unfold State.vcp
  dsimp only
  split
  · next hu =>
    refine ⟨⟨ha, h1, h2, hv, hl, hsib, hp, hr, fun ht => ?_⟩, fun hk => ⟨hk.1, ?_⟩⟩
    · have := hk ht
      simp [hu] at this
    · simpa [hu, Umode.isEngine] using hk.2
  · next hu =>
    exact ⟨⟨ha, h1, h2, hv, hl, hsib, hp, hr, fun ht => nomatch ht⟩,
      fun hk => ⟨hk.1, by simpa [hu, Umode.isEngine] using hk.2⟩⟩
  · exact ⟨⟨ha, h1, h2, hv, hl, hsib, hp, hr, hk⟩, id⟩

/-- What the button's steps write: the edge flags, the button's reset request, the last level (R301 to R305). -/
theorem button_secure {p : Bool} {l : Option Bool} (hs : s.settled) (ui : UiBits) (hp : ui.swPress = false)
    (hr : ui.swRelease = false) : Secure s { s with ui := ui, trstBtn := p, swPrev := l } :=
  ⟨⟨hs.1, hp, hr, hs.2.2.2⟩, id⟩

/-- The press edge consumed writes its flag and the reset request (R303). -/
theorem takePress_eq (s : State) :
    ∃ b, s.takePress = { s with ui := { s.ui with swPress := false }, trstBtn := b } := by
  unfold State.takePress
  split
  · exact ⟨_, rfl⟩
  · next h => exact ⟨s.trstBtn, by rw [← Bool.eq_false_iff.2 h]⟩

/-- The release edge consumed writes its flag and the reset request (R304). -/
theorem takeRelease_eq (s : State) :
    ∃ b, s.takeRelease = { s with ui := { s.ui with swRelease := false }, trstBtn := b } := by
  unfold State.takeRelease
  split
  · exact ⟨_, rfl⟩
  · next h => exact ⟨s.trstBtn, by rw [← Bool.eq_false_iff.2 h]⟩

/-- A sample consumes the edges it latches (R302). -/
theorem sample_eq (v : Bool) (s : State) : ∃ b, s.sample v =
    { s with ui := { s.ui with swPress := false, swRelease := false }, trstBtn := b, swPrev := some v } := by
  obtain ⟨b, e⟩ := takePress_eq (s.latchEdges v)
  obtain ⟨b', e'⟩ := takeRelease_eq (s.latchEdges v).takePress
  exact ⟨b', by rw [State.sample, e', e]; rfl⟩

theorem sample_ph (v : Bool) (s : State) : (s.sample v).ph = s.ph := by
  obtain ⟨b, e⟩ := sample_eq v s
  rw [e]

theorem takePress_ph (s : State) : s.takePress.ph = s.ph := by
  obtain ⟨b, e⟩ := takePress_eq s
  rw [e]

theorem takeRelease_ph (s : State) : s.takeRelease.ph = s.ph := by
  obtain ⟨b, e⟩ := takeRelease_eq s
  rw [e]

theorem takePress_secure (hs : s.settled) : Secure s s.takePress := by
  obtain ⟨b, e⟩ := takePress_eq s
  rw [e]
  exact button_secure hs _ rfl hs.2.2.1

theorem takeRelease_secure (hs : s.settled) : Secure s s.takeRelease := by
  obtain ⟨b, e⟩ := takeRelease_eq s
  rw [e]
  exact button_secure hs _ hs.2.1 rfl

theorem sample_secure (v : Bool) (hs : s.settled) : Secure s (s.sample v) := by
  obtain ⟨b, e⟩ := sample_eq v s
  rw [e]
  exact button_secure hs _ rfl rfl

/-- A restart makes the invariants, and no session (R46, R361). -/
theorem restarted_settled {c : Params} (env : Env) (hc : clkParamsOk c = true) : (State.restarted env c).settled :=
  ⟨rfl, rfl, rfl, rfl, Bool.noConfusion, List.length_replicate, hc, clkCfg_legal hc, Bool.noConfusion⟩

theorem restarted_sessionOk (env : Env) (c : Params) : (State.restarted env c).sessionOk :=
  ⟨fun _ => rfl, Bool.noConfusion, Bool.noConfusion⟩

theorem restart_secure (hs : s.settled) : Secure s s.restart :=
  ⟨restarted_settled s.env hs.params, fun _ => restarted_sessionOk s.env s.cfg⟩

/-! ## The rows -/

theorem secures_write {f : State → State} (h : s.settled → Secure s (f s)) (hp : s.ph = 0 → (f s).ph = 0) :
    Secures s (.next (s.write f)) :=
  secures_next (fun hs => ⟨settled_write (h hs).settled, fun hk => sessionOk_write ((h hs).session hk)⟩) fun h0 =>
    (write_field State.ph (fun _ _ => rfl) f s).trans (hp h0)

theorem secures_runOp {op : RunOp} {scope : HostScope} {cmd : Byte} {p : Payload} :
    Secures s (hostOp scope cmd p (runOp op) s) := secures_deliver fun _ => lands_runOp op

theorem secures_avrRun {a : Arch} {op : RunOp} {cmd : Byte} {p : Payload} : Secures s (avrOp a cmd p (runOp op) s) :=
  secures_avrOp fun _ => lands_runOp op

theorem secures_signOn (a : AvrArch) : Secures s (signOnOf a s) := by
  cases a
  · exact secures_avrOp fun _ => lands_updiSignOn
  · exact secures_avrRun

theorem secures_signOff (a : AvrArch) : Secures s (signOffOf a s) := by
  cases a <;> exact secures_avrOp fun _ => lands_disconnect _

theorem secures_enter (a : AvrArch) : Secures s (enterOf a s) := by
  cases a <;> exact secures_avrRun

theorem secures_leave (a : AvrArch) : Secures s (leaveOf a s) := by
  cases a <;> exact secures_avrRun

theorem secures_setParameter (p : ParamSet) : Secures s (execSysSetParameter p s) :=
  secures_deliver fun _ => lands_setParameter p

theorem secures_raising {b : CmdBuf} {c : Cause} : Secures s (outcome State.deliver (raise c) { s with cb := b }) :=
  secures_deliver fun _ => lands_raising

/-- What is delivered keeps the invariants and a whole session (R30, R311). -/
theorem delivered_secures {i : Instr} (h : delivered i = true) (s : State) : Secures s (exec i s) := by
  cases i with
  | sysSetParameter p => exact secures_setParameter p
  | sysGetParameter w => exact secures_next (fun hs => ⟨hs, id⟩) fun _ => rfl
  | unknown scope cmd => exact secures_raising
  | tpiCrc => exact secures_raising
  | tpiSetParam value => exact secures_deliver fun _ ht => lands_upd_secure ht fun _ hu => ⟨hu, id⟩
  | updiSignOn => exact secures_signOn .updi
  | pdiSignOn => exact secures_signOn .pdi
  | updiSignOff => exact secures_signOff .updi
  | pdiSignOff => exact secures_signOff .pdi
  | tpiLeaveProgmode => exact secures_deliver fun _ => lands_disconnect _
  | updiEnterProgmode | updiLeaveProgmode | pdiEnterProgmode | pdiLeaveProgmode => exact secures_avrRun
  | updiEraseMemory et a | pdiEraseMemory et a => exact secures_avrRun
  | updiReadMemory mt a n | pdiReadMemory mt a n => exact secures_avrRun
  | updiWriteMemory mt a n d | pdiWriteMemory mt a n d => exact secures_avrRun
  | tpiEnterProgmode => exact secures_runOp
  | tpiErase et a => exact secures_runOp
  | tpiReadMem mt a n => exact secures_runOp
  | tpiWriteMem mt a n d => exact secures_runOp
  | sysVcp v => exact secures_next (vcp_secure v) (vcp_ph v s).trans
  | sysSw v => exact secures_write (sample_secure v) (sample_ph v s).trans
  | sysVtg mv => exact secures_next (fun hs => ⟨hs, id⟩) id
  | sysUsbBusReset => exact secures_write busReset_secure fun _ => busReset_ph s
  | sysUsbSuspendResume =>
    show Secures s (.next (if s.ui.usbEnum = true then s.restart else s))
    split
    · exact secures_next restart_secure fun _ => rfl
    · exact secures_next secure_refl id
  | sysRestart => exact secures_next restart_secure fun _ => rfl
  | sessionOpen a d =>
    exact secures_andThen (secures_setParameter _) fun _ => secures_andThen (secures_signOn a) fun _ =>
      secures_andThen (secures_setParameter _) fun _ => secures_enter a
  | sessionClose a => exact secures_andThen (secures_leave a) fun _ => secures_signOff a
  | _ => cases h

/-- The next state, where there is one, has the invariants the state before had. -/
def Guards (s : State) (x : Answer) : Prop := ∀ t, x = .next t → s.wellBehaved → t.wellBehaved

theorem Secures.guards {x : Answer} (h : Secures s x) : Guards s x := fun t e hs => (h t e hs).1

theorem guards_primOp {m : M Res} (h : s.settled → Lands State.settled State.settled s m) : Guards s (primOp m s) := by
  intro t e hs
  obtain ⟨r, u, hu, rfl⟩ := outcome_lands (h (wellBehaved_iff.1 hs).1) e
  exact wellBehaved_iff.2 ⟨hu, rfl⟩

theorem guards_next (h : s.settled → t.settled) (hp : t.ph = s.ph) : Guards s (.next t) := by
  intro u e hs
  cases e
  obtain ⟨h1, h2⟩ := wellBehaved_iff.1 hs
  exact wellBehaved_iff.2 ⟨h h1, hp.trans h2⟩

/-- A primitive keeps what its piece keeps. -/
theorem guards_sane {m : M Res} (hm : At Sane s m) : Guards s (primOp m s) :=
  guards_primOp fun hs => (lands_at hm hs.1).mono (fun _ h => h.settled hs) fun _ h => h.settled hs

theorem guards_joins {m : M Res} (hm : At Joins s m) : Guards s (primOp m s) := guards_sane (hm.mono Joins.sane)

theorem guards_stays {m : M Res} (hm : At Stays s m) : Guards s (primOp m s) := guards_sane (hm.mono Stays.sane)

theorem guards_quiet {m : M Res} (hm : At Quiet s m) : Guards s (primOp m s) := guards_sane (hm.mono Quiet.sane)

theorem guards_done {m : M Unit} (hm : At Quiet s m) : Guards s (primOp (done m) s) :=
  guards_quiet (at_done quiet_flows hm)

theorem guards_oneByte {m : M Byte} (hm : At Quiet s m) : Guards s (primOp (oneByte m) s) :=
  guards_quiet (at_oneByte quiet_flows hm)

/-- An exchange, then its result. -/
theorem guards_then {m : M α} {f : α → Res} (hm : At Quiet s m) :
    Guards s (primOp (do
      let a ← m
      pure (f a)) s) :=
  guards_quiet (at_bind quiet_flows hm fun _ _ _ => at_pure quiet_flows _)

theorem at_bindVariant_sane : At Sane s bindVariant :=
  at_upd sane_flows Quiet.sane fun _ _ _ => ⟨⟨rfl, rfl⟩, id⟩

/-- The fallback lowers the rate to a legal one (R33, R201). -/
theorem at_updiFallback_sane : At Sane s updiFallback := by
  refine at_get ?_
  split
  · exact at_pure sane_flows _
  · next c hc =>
    refine at_bind sane_flows (at_upd sane_flows Quiet.sane fun t ht _ => ⟨⟨rfl, rfl⟩, ?_⟩) fun _ _ _ =>
      at_bind sane_flows ((at_attention _).mono Quiet.sane) fun _ _ _ =>
      at_bind sane_flows (at_lineConfig.mono Quiet.sane) fun _ _ _ => at_pure sane_flows _
    intro ⟨hv, hl, hsib, hp, _, hk⟩
    exact ⟨hv, hl, hsib, hp, clkLower_legal (ht.stays.cfg ▸ hp) hc, hk⟩

theorem guards_wdRun {op : RunOp} {fb : FallbackSel} {d : Half} : Guards s (primOp (runWith op fb d) s) :=
  guards_primOp fun hs => (lands_runWith (E := State.settled) hs).mono (fun _ => id) fun _ h => h.settled

theorem guards_write {f : State → State} (h : s.settled → (f s).settled) (hp : (f s).ph = s.ph) :
    Guards s (.next (s.write f)) :=
  guards_next (fun hs => settled_write (h hs)) ((write_field State.ph (fun _ _ => rfl) f s).trans hp)

theorem guards_nvmCtl (req : NvmCtl) : Guards s (execNvmCtl req s) := by
  unfold execNvmCtl
  refine guards_quiet ?_
  split
  · exact at_pure quiet_flows _
  · cases req
    · exact at_done quiet_flows (at_nvmCmd _)
    · exact at_done quiet_flows at_nvmWait

theorem guards_nvmWriteMethod (w : WriteMethod) (mt : Byte) (a : Addr) (d : List Byte) :
    Guards s (execNvmWriteMethod w mt a d s) := by
  unfold execNvmWriteMethod
  refine guards_stays ?_
  split
  · exact at_pure stays_flows _
  · exact at_raise stays_flows _
  · cases w with
    | plain => exact (at_writePlain _ _).stays
    | explicit page => exact at_writeExplicit _ _ _ _
    | atomic => exact (at_writeAtomic _ _ _).stays
    | bytewise => exact (at_writeBytewise _ _ _).stays
    | burst2 => exact (at_writeBurst2 _ _ _).stays

theorem acquire_sound (e : Engine) (h : s.sound) : (s.acquire e).sound := by
  obtain ⟨hv, hl, hsib, hp, hr, hk⟩ := h
  have hc := acquire_clock e hk
  rcases State.acquire_cases e s with ⟨_, ha⟩ | ⟨_, ha⟩
  · rw [ha, State.quiesce_eq] at hc ⊢
    exact ⟨hv, hl, hsib, hp, hr, hc⟩
  · rw [ha] at hc ⊢
    exact ⟨hv, hl, hsib, hp, hr, hc⟩

theorem acquire_ph (e : Engine) (s : State) : (s.acquire e).ph = s.ph :=
  State.acquire_field State.ph e s (fun _ _ => rfl) fun _ _ _ _ => rfl

theorem quiesce_sound (h : s.sound) : s.quiesce.sound := by
  obtain ⟨hv, hl, hsib, hp, hr, _⟩ := h
  rw [State.quiesce_eq]
  exact ⟨hv, hl, hsib, hp, hr, Bool.noConfusion⟩

theorem guards_pdiNvmSequence (mt : Byte) (a : Addr) (d : List Byte) : Guards s (execPdiNvmSequence mt a d s) := by
  unfold execPdiNvmSequence
  refine guards_quiet ?_
  split
  · exact at_raise quiet_flows _
  · exact at_pdiNvmWrite _ _ _

/-- Every row keeps the invariants between operations. -/
theorem exec_guards (i : Instr) (s : State) : Guards s (exec i s) := by
  cases hd : delivered i
  · cases i with
    | updiSynch => exact guards_done (at_tx _)
    | updiTx b => exact guards_done (at_tx _)
    | updiRx => exact guards_oneByte at_rx
    | updiLdcs r | tpiLdcs r | pdiLdcs r => exact guards_oneByte (at_ldcs _ _)
    | updiStcs r v | tpiStcs r v | pdiStcs r v => exact guards_done (at_stcs _ _ _)
    | updiKey key => exact guards_done (at_sendKey _)
    | tpiKey | pdiKey => exact guards_done (at_sendSyncKey _)
    | updiSib => exact guards_stays (at_done stays_flows at_readSib)
    | updiStPtr w a => exact guards_done (at_require quiet_flows fun _ => at_setPtr _ _)
    | updiRepeat cnt => exact guards_done (at_instr _ _)
    | updiLdInc8 cnt | updiLdInc16 cnt =>
      exact guards_quiet (at_bind quiet_flows (at_instr _ _) fun _ _ _ =>
        at_bind quiet_flows (at_recvN _) fun _ _ _ => at_pure quiet_flows _)
    | updiStInc8 d =>
      exact guards_quiet (at_bind quiet_flows (at_instr _ _) fun _ _ _ =>
        at_bind quiet_flows (at_send _ _) fun _ _ _ => at_pure quiet_flows _)
    | updiStInc16 d =>
      exact guards_quiet (at_require quiet_flows fun _ => at_bind quiet_flows (at_instr _ _) fun _ _ _ =>
        at_bind quiet_flows (at_send _ _) fun _ _ _ => at_pure quiet_flows _)
    | tpiSetPtrLo b | tpiSetPtrHi b => exact guards_done (at_send _ _)
    | tpiLdInc => exact guards_oneByte at_tpiLdInc
    | tpiStInc b => exact guards_done (at_tpiStInc _)
    | tpiSout io v => exact guards_done (at_tpiOut _ _)
    | tpiSin io => exact guards_oneByte (at_tpiIn _)
    | pdiSts8 a v => exact guards_done (at_pdiSts8 _ _)
    | pdiLds8 a => exact guards_oneByte (at_pdiLds8 _)
    | pdiSetPtr a => exact guards_done (at_pdiSetPtr _)
    | pdiRepeat cnt => exact guards_done (at_pdiRepeat _)
    | pdiLdInc cnt =>
      exact guards_quiet (at_bind quiet_flows (at_send _ _) fun _ _ _ =>
        at_bind quiet_flows (at_recvN _) fun _ _ _ => at_pure quiet_flows _)
    | pdiStInc d => exact guards_then (at_send _ _)
    | wdRun op fb d => exact guards_wdRun
    | updiLineConfig => exact guards_done at_lineConfig
    | updiAttention => exact guards_done (at_attention _)
    | updiHandshake => exact guards_done at_handshake
    | updiConnectAttempt => exact guards_stays at_connectAttempt
    | updiBindVariant =>
      exact guards_sane (at_require sane_flows fun _ => at_done sane_flows at_bindVariant_sane)
    | updiCssBracket w a d =>
      cases w
      · exact guards_then (at_sendBytesBlock _ _)
      · exact guards_then (at_sendWordsBlock _ _)
    | updiChipErase => exact guards_stays at_chipErase
    | updiUserrowCeremony a d => exact guards_quiet (at_userrowCeremony _ _)
    | updiSignatureDummy n => exact guards_quiet (at_signatureDummy _)
    | updiFallback =>
      exact guards_sane (at_bind sane_flows at_updiFallback_sane fun _ _ _ => at_pure sane_flows _)
    | tpiConnect => exact guards_joins (at_done joins_flows at_tpiConnect)
    | tpiChunkLookup b0 b1 b2 => exact guards_stays (at_done stays_flows (at_tpiChunkSet _))
    | pdiBlock a req =>
      cases req
      · exact guards_then (at_pdiRecvBlock _ _)
      · exact guards_then (at_pdiSendBlock _ _)
    | pdiNvmSequence mt a d => exact guards_pdiNvmSequence mt a d
    | nvmCtl req => exact guards_nvmCtl req
    | nvmPage req =>
      cases req
      · exact guards_quiet (at_pure quiet_flows _)
      · exact guards_stays (at_done stays_flows (at_pageNote _))
    | nvmWriteMethod w mt a d => exact guards_nvmWriteMethod w mt a d
    | nvmV0WriteFuse a b => exact guards_quiet (at_writeBytewise _ _ _)
    | nvmV1WriteMemory mt a d => exact guards_stays (at_variantFn .v1 (.writeMemory mt a d))
    | nvmV0WriteMemory mt a d | nvmV3WriteMemory mt a d | nvmV4WriteMemory mt a d =>
      exact guards_stays (at_variantFn _ _)
    | nvmOpaque v f => exact guards_stays (at_variantFn _ _)
    | nvmStub f => exact guards_stays (at_variantFn _ _)
    | nvmReadMemory mt a n => exact guards_stays (at_variantFn _ _)
    | nvmEraseMemory et a => exact guards_stays (at_variantFn _ _)
    | nvmProgInit => exact guards_stays (at_variantFn _ _)
    | linkLoss => exact guards_write (settled_of_fixed (linkLoss_fixed s) linkLoss_sound) rfl
    | rsaSample v => exact guards_write (fun hs => (sample_secure v hs).settled) (sample_ph v s)
    | rsaPress => exact guards_write (fun hs => (takePress_secure hs).settled) (takePress_ph s)
    | rsaRelease => exact guards_write (fun hs => (takeRelease_secure hs).settled) (takeRelease_ph s)
    | rsaAcquire e => exact guards_next (settled_of_fixed (acquire_fixed e s) (acquire_sound e)) (acquire_ph e s)
    | rsaQuiesce => exact guards_next (settled_of_fixed rfl quiesce_sound) rfl
    | rsaReleaseUart => exact guards_next (settled_of_fixed (releaseUart_fixed s) releaseUart_sound) rfl
    | _ => cases hd
  · exact (delivered_secures hd s).guards

/-! ## The step -/

/-- The state a turn of the main loop goes on with. -/
def Turn.state : Turn → State
  | .run _ s => s
  | .undecoded _ _ s => s
  | .idle s => s

/-- The main loop itself writes the environment, the glue's bits and the sequence number (R328, R334). -/
theorem applyGlue_wellBehaved (h : s.wellBehaved) : s.applyGlue.wellBehaved := by
  unfold State.applyGlue
  split <;> exact h

theorem fetchRecord_wellBehaved (h : s.wellBehaved) : (fetchRecord s).state.wellBehaved := by
  unfold fetchRecord
  split
  · exact h
  · split <;> exact h

theorem nextTurn_wellBehaved (h : s.wellBehaved) : (nextTurn s).state.wellBehaved := by
  have hg := applyGlue_wellBehaved h
  unfold nextTurn
  dsimp only
  split
  · exact hg
  · split
    · exact hg
    · split
      · exact hg
      · split
        · exact hg
        · exact fetchRecord_wellBehaved hg

/-- A record that is no instruction is answered, and keeps the invariants (R112, R113). -/
theorem guards_undecoded (e : DecodeError) (r : List Byte) : Guards s (answerUndecoded e r s) := by
  cases e
  case foreignScope => exact fun _ h => nomatch h
  all_goals exact secures_raising.guards

end

/-! ## The obligations -/

/-- Settles O7: the main loop's turn, then the row it runs, keep the invariants (`exec_guards`). -/
theorem stepKeepsWellBehaved : Obligations.StepKeepsWellBehaved := by
  intro s t hs h
  have hn := nextTurn_wellBehaved hs
  unfold step at h
  revert hn h
  cases nextTurn s with
  | run i u => exact fun h hn => exec_guards i u t h hn
  | undecoded e r u => exact fun h hn => guards_undecoded e r t h hn
  | idle u => exact fun h hn => by cases h; exact hn

/-- Settles O8: each delivered row lands with its session whole or ended (`delivered_secures`). -/
theorem deliveredKeepSession : Obligations.DeliveredKeepSession := by
  intro i s t hd hs hk h
  exact (delivered_secures hd s t h hs).2 hk

end Sys2Proof.Machine
end

section
/-! SUPPORT. The lowered rate (R34), and what the events of the environment write (R43, R203, R328, R330, R331,
R334). -/

namespace Sys2Proof.Machine

/-! ## The lowered rate -/

/-- A table entry below the bound replaces a smaller rate found so far (R34). -/
theorem betterRate_eq (c : Nat) (b : Option Nat) (t : Nat) :
    betterRate c b t = if t < c then some (max (b.getD 0) t) else b := by
  unfold betterRate
  split
  · cases b with
    | none => simp
    | some x =>
      by_cases hx : x < t
      · simp [hx, Nat.max_eq_right (Nat.le_of_lt hx)]
      · simp [hx, Nat.max_eq_left (Nat.le_of_not_lt hx)]
  · rfl

/-- The search finds nothing where nothing was found before and no entry is below the bound. -/
theorem foldl_betterRate_none {c : Nat} {l : List Nat} : ∀ {b : Option Nat},
    l.foldl (betterRate c) b = none ↔ b = none ∧ ∀ t ∈ l, c ≤ t := by
  induction l with
  | nil => simp
  | cons x l ih =>
    intro b
    rw [List.foldl_cons, ih, betterRate_eq]
    by_cases hx : x < c <;> simp [hx]; omega

/-- What the search finds is at least what was found before, and at least every entry below the bound. -/
theorem foldl_betterRate_ge {c k : Nat} {l : List Nat} : ∀ {b : Option Nat}, l.foldl (betterRate c) b = some k →
    b.getD 0 ≤ k ∧ ∀ t ∈ l, t < c → t ≤ k := by
  induction l with
  | nil => intro b h; cases (show b = some k from h); simp
  | cons x l ih =>
    intro b h
    obtain ⟨h1, h2⟩ := ih (b := betterRate c b x) h
    rw [betterRate_eq] at h1
    refine ⟨?_, fun t ht hc => ?_⟩
    · split at h1
      · simp at h1; omega
      · exact h1
    · rcases List.mem_cons.1 ht with rfl | ht
      · rw [if_pos hc] at h1
        simp at h1
        omega
      · exact h2 t ht hc

theorem clkLower_ge {c : Params} {clk k : Nat} (h : clkLower c clk = some k) : ∀ t ∈ c.clkTable, t < clk → t ≤ k :=
  (foldl_betterRate_ge h).2

theorem clkLower_mem {c : Params} {clk k : Nat} (h : clkLower c clk = some k) : k ∈ c.clkTable := by
  rcases betterRate_mem h with h | h
  · cases h
  · exact h.1

/-- The floor is in the table, and no entry is below it (R33, R34). -/
theorem clkParamsOk_table {c : Params} (hc : clkParamsOk c = true) :
    Config.clkMinKhz ∈ c.clkTable ∧ ∀ t ∈ c.clkTable, Config.clkMinKhz ≤ t := by
  unfold clkParamsOk at hc
  simp only [Bool.and_eq_true, List.all_eq_true, decide_eq_true_eq, List.contains_iff_mem] at hc
  obtain ⟨⟨_, hall⟩, hmem⟩ := hc
  exact ⟨hmem, fun t ht => (hall t ht).1⟩

/-- Only the floor has no lower rate. -/
theorem clkLower_none {c : Params} {clk : Nat} (hc : clkParamsOk c = true) (h : Config.clkMinKhz ≤ clk) :
    clkLower c clk = none ↔ clk = 40 := by
  obtain ⟨hmem, hall⟩ := clkParamsOk_table hc
  unfold clkLower
  rw [foldl_betterRate_none]
  refine ⟨fun ⟨_, hle⟩ => Nat.le_antisymm (hle _ hmem) h, ?_⟩
  rintro rfl
  exact ⟨rfl, hall⟩

/-- Settles O21, by induction on the table (`foldl_betterRate_ge`, `foldl_betterRate_none`). -/
theorem clkLowerLaws : Obligations.ClkLowerLaws := by
  refine ⟨fun c clk hc h => ⟨fun k hk => ?_, clkLower_none hc h⟩, rfl, by decide⟩
  exact ⟨clkLower_mem hk, (clkLower_legal hc hk).1, clkLower_lt hk, clkLower_ge hk⟩

/-! ## The step, restart and reset -/

theorem nextTurn_restart {s : State} (h : s.applyGlue.env.pend.suspendResume = true) : nextTurn s =
    .run .sysUsbSuspendResume (s.applyGlue.setPend { s.applyGlue.env.pend with suspendResume := false }) := if_pos h

theorem nextTurn_busReset {s : State} (h1 : s.applyGlue.env.pend.suspendResume = false)
    (h2 : s.applyGlue.env.pend.busReset = true) : nextTurn s =
    .run .sysUsbBusReset (s.applyGlue.setPend { s.applyGlue.env.pend with busReset := false }) := by
  unfold nextTurn
  simp [h1, h2]

theorem nextTurn_vcp {s : State} {v : Bool} (h1 : s.applyGlue.env.pend.suspendResume = false)
    (h2 : s.applyGlue.env.pend.busReset = false) (h3 : s.applyGlue.env.pend.vcp = some v) : nextTurn s =
    .run (.sysVcp v) (s.applyGlue.setPend { s.applyGlue.env.pend with vcp := none }) := by
  unfold nextTurn
  simp [h1, h2, h3]

theorem nextTurn_sw {s : State} {v : Bool} (h1 : s.applyGlue.env.pend.suspendResume = false)
    (h2 : s.applyGlue.env.pend.busReset = false) (h3 : s.applyGlue.env.pend.vcp = none)
    (h4 : s.applyGlue.env.pend.sw = some v) : nextTurn s =
    .run (.sysSw v) (s.applyGlue.setPend { s.applyGlue.env.pend with sw := none }) := by
  unfold nextTurn
  simp [h1, h2, h3, h4]

theorem nextTurn_idle {s : State} (h1 : s.applyGlue.env.pend = Pending.empty)
    (h2 : s.env.stream = []) : nextTurn s = .idle s.applyGlue := by
  have hs : s.applyGlue.env.stream = [] := by
    unfold State.applyGlue
    split <;> exact h2
  unfold nextTurn fetchRecord
  simp [h1, Pending.empty, hs]

/-- Settles O2: the turn of the main loop, event by event. -/
theorem stepTakesEvents : Obligations.StepTakesEvents := by
  intro s
  have hstep : ∀ {i u}, nextTurn s = .run i u → step s = exec i u := fun h => by unfold step; rw [h]
  refine ⟨fun h => hstep (nextTurn_restart h), fun h1 h2 => hstep (nextTurn_busReset h1 h2),
    fun v h1 h2 h3 => hstep (nextTurn_vcp h1 h2 h3), fun v h1 h2 h3 h4 => hstep (nextTurn_sw h1 h2 h3 h4),
    fun h1 h2 => ?_⟩
  unfold step
  rw [nextTurn_idle h1 h2]
  rfl

/-- Settles O5: the restart writes every register. -/
theorem restartValues : Obligations.RestartValues := fun s =>
  ⟨s.restart, rfl, rfl, rfl, rfl, rfl, rfl, rfl, rfl, rfl, rfl, rfl, rfl, rfl, rfl, rfl, rfl, rfl, rfl, rfl, rfl,
    rfl, rfl, rfl, rfl, rfl, rfl⟩

/-- The two default keys of 10 bytes differ in their first byte. -/
theorem defaultKeys_distinct : defaultParams.tpiPdiKey ≠ defaultParams.updi.keyProg := fun e =>
  absurd (congrArg (fun v => v[0]) e) (by decide)

theorem keyParamsOk_default : keyParamsOk defaultParams = true := by
  unfold keyParamsOk
  rw [decide_eq_true defaultKeys_distinct]
  decide

/-- Settles O6, as of every restart, with the default parameters. -/
theorem resetWellBehaved : Obligations.ResetWellBehaved :=
  ⟨wellBehaved_iff.2 ⟨restarted_settled _ (by decide), rfl⟩, restarted_sessionOk _ _, keyParamsOk_default, by decide⟩

/-! ## The parameter commands -/

/-- A host operation that fails, and leaves the countdown alone. -/
theorem hostOp_fails_still {scope : HostScope} {cmd : Byte} {p : Payload} {m : M Res} {n : Nat} {s t : State}
    {c : Cause} (hw : s.within n) (ha : s.wdArmed = false) (h : Fails true n m (s.withRequest scope cmd p) c t) :
    ∃ ds, hostOp scope cmd p m s = .next (t.answered (Res.fail c) s.wdCnt ds) := by
  obtain ⟨τ, e, l⟩ := h hw
  refine ⟨τ.delays, ?_⟩
  rw [show s.wdCnt = τ.cnt from (l.2 rfl ha).2.symm]
  unfold hostOp outcome
  rw [e]
  rfl

theorem setParameter_answers {p : ParamSet} {s t : State} (ha : s.wdArmed = false)
    (h : ∀ n, Goes true n (setParameter p) (s.withRequest .avr 0x01 (.setParam p)) (Res.ok 1) t) :
    ∃ ds, exec (.sysSetParameter p) s = .next (t.answered (Res.ok 1) s.wdCnt ds) := by
  obtain ⟨ds, e, _⟩ := hostOp_goes_still (State.within_of_disarmed ha) ha (h _)
  exact ⟨ds, e⟩

theorem goes_tpiParams {k : Bool} {n : Nat} {s : State} (v : List Byte) :
    Goes k n (done (upd fun s => { s with tpiParams := v })) s (Res.ok 1) { s with tpiParams := v } :=
  goes_quiet_bind (plain_of (fun _ _ => rfl) (fun _ => rfl) (fun _ => rfl) fun _ => rfl) rfl fun τ =>
    goes_pure.upto τ rfl

/-- Settles O10, command by command. -/
theorem parameterCommands : Obligations.ParameterCommands := by
  intro s ha
  have hw := State.within_of_disarmed ha
  refine ⟨fun v hl => setParameter_answers ha fun n => goes_setArch hl, fun v hl => ?_,
    fun d => setParameter_answers ha fun n => goes_setDesc,
    fun w v => setParameter_answers ha fun n => goes_get goes_pure, fun w => ⟨_, rfl, rfl, rfl, rfl, rfl⟩, fun v => ?_⟩
  · exact hostOp_fails_still hw ha (fails_get (fails_require (by simp [hl, State.withRequest, State.withBody])))
  · obtain ⟨ds, e, _⟩ := hostOp_goes_still hw ha (goes_tpiParams v)
    exact ⟨ds, e⟩

/-! ## The environment's events -/

theorem State.noteTrst_eq (old : Bool) (s : State) :
    s.noteTrst old = { s with hist := if s.trst = old then s.hist else .trst s.trst :: s.hist } := by
  unfold State.noteTrst
  split <;> rfl

theorem State.setClk_eq_hist (c : Nat) (s : State) :
    s.setClk c = { s with clk := c, hist := if s.clk = c then s.hist else .rateSet c :: s.hist } := by
  unfold State.setClk
  split
  · next h => rw [← h]
  · rfl

theorem quiesceEvents_append (s : State) (h : List WireEvent) : s.quiesceEvents ++ h = quiesced s h := by
  unfold State.quiesceEvents quiesced
  cases s.tclk <;> cases s.tdat <;> rfl

theorem isEngine_iff (m : Umode) : m.isEngine = true ↔ m = .updi ∨ m = .tpi ∨ m = .pdi := by
  cases m <;> decide

/-- What a release leaves (R309, R310). -/
theorem State.releaseUart_eq (s : State) : s.releaseUart = { s with
    umode := if s.ui.vcpOpen then .vcp else .idle, tclk := false, tdat := none, hist := quiesced s s.hist } := by
  rw [← quiesceEvents_append]
  rfl

theorem State.linkLoss_eq (s : State) : s.linkLoss = { s.dropSession with
    umode := if s.ui.vcpOpen then .vcp else .idle, tclk := false, tdat := none, hist := quiesced s s.hist } :=
  s.dropSession.releaseUart_eq

theorem State.clearForBusReset_eq (s : State) : s.clearForBusReset = { s.dropSession with
    dd := { s.dd with valid := false }, clk := s.cfg.clkCfgKhz, arch := .unset, rxf := RxFlags.clear
    wdArmed := false, wdCnt := 0, wdDeadline := 0, ph := 0
    hist := if s.clk = s.cfg.clkCfgKhz then s.hist else .rateSet s.cfg.clkCfgKhz :: s.hist } := by
  unfold State.clearForBusReset State.clearSession
  rw [State.setClk_eq_hist]
  rfl

/-- Without a link and without the engine's reset request the button alone holds the target in reset (R306). -/
theorem trst_of_button {s : State} (h1 : s.trstEng = false) (h2 : s.sess.link = false) : s.trst = s.trstBtn := by
  simp [State.trst, h1, h2]

/-- Settles O53: each event is one change of registers, with the changes of `TRST` it makes. -/
theorem environmentEvents : Obligations.EnvironmentEvents := by
  intro s
  refine ⟨fun h => congrArg Host.Outcome.next (if_pos h), fun h => congrArg Host.Outcome.next (if_neg (by simp [h])),
    fun mv => rfl, congrArg Host.Outcome.next ?_, congrArg Host.Outcome.next ?_⟩
  · rw [State.write, State.busReset]
    by_cases h : s.umode.isEngine = true
    · rw [if_pos h, State.releaseUart_eq, State.clearForBusReset_eq, State.noteTrst_eq, trst_of_button rfl rfl]
      simp only [if_pos ((isEngine_iff _).1 h)]
      rfl
    · rw [if_neg h, State.clearForBusReset_eq, State.noteTrst_eq, trst_of_button rfl rfl]
      simp only [if_neg (mt (isEngine_iff _).2 h)]
      rfl
  · rw [State.write, State.linkLoss_eq, State.noteTrst_eq, trst_of_button rfl rfl]
    rfl

end Sys2Proof.Machine
end

section
/-! SUPPORT. The SIB and the binding (R31, R178, R183), and what a frame leaves as it was sampled: `RXF`, the history,
and the failure of a flagged frame and of a wrong echo (R40, R117, R172, R173, R333). -/

namespace Sys2Proof.Machine

variable {k : Bool} {n : Nat}

/-! ## The SIB and the variant -/

theorem goes_bindVariant {s : State} : Goes k n bindVariant s () { s with ct := sibVariant s.cfg s.sib.bytes } := by
  have h := goes_upd (k := k) (n := n) (s := s) (f := fun s => { s with ct := sibVariant s.cfg s.sib.bytes })
    (plain_of (fun _ _ => rfl) (fun _ => rfl) (fun _ => rfl) fun _ => rfl)
  rwa [State.write_quiet rfl] at h

theorem goes_done {m : M Unit} {s t : State} (h : Goes k n m s () t) : Goes k n (done m) s (Res.ok 1) t :=
  goes_bind h fun τ => goes_pure.upto τ rfl

theorem fails_done {m : M Unit} {s t : State} {x : Cause} (h : Fails k n m s x t) : Fails k n (done m) s x t :=
  fails_bind_left h

/-- Settles O14: the SIB's exchange with its write, and the write of the binding. -/
theorem updiSibAndBinding : Obligations.UpdiSibAndBinding := by
  intro s ha
  refine ⟨fun d rest hu hd hl => ?_, fun hv => ?_, fun hv => ?_⟩
  · exact primOp_goes ha (fun n => goes_done (acts_readSib s.cfg hd true n s rest hu rfl hl)) rfl
  · exact primOp_goes ha (fun n => goes_require hv (goes_done goes_bindVariant)) rfl
  · exact primOp_raises (by rw [hv]; rfl)

/-! ## A frame as it is sampled -/

/-- What a reception leaves, whatever the frame (R40, R86, R173). -/
def State.sampled (f : LineFrame) (rest : List LineEvent) (e : WireEvent) (s : State) : State :=
  { s.listen with hist := e :: s.listen.hist, rxf := RxFlags.ofFrame f, env := { s.env with line := rest } }

/-- `TCLK` runs for the bits of a synchronous engine that holds the UART, and for none of another owner (R220). -/
theorem isSync_lineEngine (s : State) : s.umode.isSync = (s.lineEngine != .updi) := by
  unfold State.lineEngine
  cases s.umode <;> rfl

theorem State.listen_eq (s : State) : s.listen =
    { s with tclk := s.tclk || s.lineEngine != .updi, tdat := none, hist := clocked s s.hist } := by
  unfold State.listen State.runTclk State.freeTdat clocked
  rw [isSync_lineEngine]
  cases s.tclk <;> cases s.lineEngine <;> rfl

theorem goes_recvFrame_sampled {s : State} (mk : Byte → RxFlags → WireEvent) {f : LineFrame} {rest : List LineEvent}
    (hl : s.env.line = .frame f :: rest) : Goes k n (recvFrame mk) s (f.data, RxFlags.ofFrame f)
      (s.sampled f rest (mk f.data (RxFlags.ofFrame f))) := by
  intro hw
  obtain ⟨t, ht, hl'⟩ := State.elapse_lasts (k := k) (s := s.listen) hw
  refine ⟨t, ?_, hl'⟩
  unfold recvFrame awaitFrame
  rw [State.within_not_due hw, show s.listen.env.line = _ from hl]
  simp only [State.within_not_waiting (s := s.listen) hw, Bool.false_eq_true, if_false, State.received, ht]
  rfl

/-- Where no condition fails, the rest goes on. -/
theorem goes_skip {α : Type} {p : Prop} [Decidable p] {x : Cause} {m : M α} {s t : State} {a : α} (hp : ¬p)
    (h : Goes k n m s a t) : Goes k n (if p then (do let _ ← (raise x : M Unit); m) else m) s a t := by
  rw [if_neg hp]
  exact h

theorem fails_pass {α : Type} {p : Prop} [Decidable p] {x c : Cause} {m : M α} {s t : State} (hp : ¬p)
    (h : Fails k n m s c t) : Fails k n (if p then (do let _ ← (raise x : M Unit); m) else m) s c t := by
  rw [if_neg hp]
  exact h

theorem fails_skip {α : Type} {p : Prop} [Decidable p] {x : Cause} {m : M α} {s : State} (hp : p) :
    Fails k n (if p then (do let _ ← (raise x : M Unit); m) else m) s x s := by
  rw [if_pos hp]
  exact fails_bind_left fails_raise

section
variable {s : State} {f : LineFrame} {rest : List LineEvent} {b : Byte}

theorem goes_rx_sampled (hl : s.env.line = .frame f :: rest) (hf : RxFlags.ofFrame f = RxFlags.clear) :
    Goes k n rx s f.data (s.sampled f rest (.rx f.data (RxFlags.ofFrame f))) :=
  goes_bind (goes_recvFrame_sampled .rx hl) fun τ => goes_skip (not_not_intro hf) (goes_pure.upto τ rfl)

theorem fails_rx_sampled (hl : s.env.line = .frame f :: rest) (hf : RxFlags.ofFrame f ≠ RxFlags.clear) :
    Fails k n rx s (.flags (RxFlags.ofFrame f)) (s.sampled f rest (.rx f.data (RxFlags.ofFrame f))) :=
  fails_bind (goes_recvFrame_sampled .rx hl) fun τ => fails_stamp_of (fails_skip hf) τ rfl

/-- A byte of UPDI and its echo, as the exchange leaves them (R172). -/
def State.echoed (b : Byte) (f : LineFrame) (rest : List LineEvent) (s : State) : State :=
  (s.listen.record (.tx b)).sampled f rest (.echo f.data (RxFlags.ofFrame f))

theorem goes_sendFrame_updi (hu : s.umode = .updi) : Goes k n (sendFrame .updi b) s () (s.listen.record (.tx b)) :=
  goes_owner hu goes_frame

theorem goes_tx_echoed (hu : s.umode = .updi) (hl : s.env.line = .frame f :: rest)
    (hf : RxFlags.ofFrame f = RxFlags.clear) (hb : f.data = b) : Goes k n (tx b) s () (s.echoed b f rest) := by
  refine goes_bind (goes_sendFrame_updi hu) fun τ => goes_bind (goes_recvFrame_sampled .echo hl) fun τ2 => ?_
  refine goes_skip (not_not_intro hf) ?_
  rw [if_neg (not_not_intro hb)]
  exact goes_pure.upto τ2 rfl

/-- The flags of an echo are looked at before its value (R172). -/
theorem fails_tx_flags (hu : s.umode = .updi) (hl : s.env.line = .frame f :: rest)
    (hf : RxFlags.ofFrame f ≠ RxFlags.clear) :
    Fails k n (tx b) s (.flags (RxFlags.ofFrame f)) (s.echoed b f rest) :=
  fails_bind (goes_sendFrame_updi hu) fun _ => fails_bind (goes_recvFrame_sampled .echo hl) fun τ2 =>
    fails_stamp_of (fails_skip hf) τ2 rfl

theorem fails_tx_echo (hu : s.umode = .updi) (hl : s.env.line = .frame f :: rest)
    (hf : RxFlags.ofFrame f = RxFlags.clear) (hb : f.data ≠ b) :
    Fails k n (tx b) s (.echo b f.data) (s.echoed b f rest) := by
  refine fails_bind (goes_sendFrame_updi hu) fun τ => fails_bind (goes_recvFrame_sampled .echo hl) fun τ2 => ?_
  refine fails_pass (not_not_intro hf) ?_
  rw [if_pos hb]
  exact fails_stamp_of fails_raise τ2 rfl

/-! ## A silent line -/

/-- No expiry can strike: no countdown is armed, or interrupts are disabled (R145, R150). -/
def State.deaf (s : State) : Prop := s.wdArmed = false ∨ s.env.ie = false

/-- The line brings nothing (R333). -/
def State.mute (s : State) : Prop := s.env.line = [] ∨ ∃ rest, s.env.line = .silence :: rest

theorem deaf_not_due (h : s.deaf) : s.expiryDue = false := by
  unfold State.expiryDue
  rcases h with h | h <;> simp [h]

theorem elapse_deaf (h : s.deaf) : s.elapse.deaf := by
  have hq := elapse_quiet s
  exact h.imp (quiet_flows.armed hq).trans (quiet_flows.ie hq).trans

theorem elapse_mute (h : s.mute) : s.elapse.mute := by
  obtain ⟨τ, e⟩ := s.elapse_eq_stamp
  rw [e]
  exact h

theorem boundary_deaf (h : s.deaf) : boundary s = .ok () s.elapse := by
  rcases boundary_cases s with ⟨hd, _⟩ | ⟨_, e⟩
  · rw [deaf_not_due (elapse_deaf h)] at hd
    cases hd
  · exact e

theorem blockedWait_deaf {α : Type} (h : s.deaf) : (blockedWait : M α) s = .error .stuck s := by
  rcases blockedWait_cases (α := α) s with ⟨h1, h2, _⟩ | ⟨_, e⟩
  · rcases h with h | h
    · exact absurd (h1.symm.trans h) (by decide)
    · exact absurd (h2.symm.trans h) (by decide)
  · exact e

/-- A reception that nothing ends is stuck (R333). -/
theorem recvFrame_stuck (mk : Byte → RxFlags → WireEvent) (h : s.deaf) (hm : s.mute) :
    ∃ t, recvFrame mk s = .error .stuck t := by
  rcases recvFrame_cases mk s with ⟨hd, _⟩ | ⟨_, e⟩
  · rw [deaf_not_due h] at hd
    cases hd
  · rw [e]
    unfold awaitFrame
    rcases hm with hl | ⟨rest, hl⟩ <;> rw [show s.listen.env.line = _ from hl]
    · exact ⟨_, blockedWait_deaf (s := s.listen) h⟩
    · exact ⟨_, blockedWait_deaf (s := { s.listen with env := { s.env with line := rest } }) h⟩

theorem rx_stuck (h : s.deaf) (hm : s.mute) : ∃ t, rx s = .error .stuck t := by
  obtain ⟨t, e⟩ := recvFrame_stuck .rx h hm
  exact ⟨t, by unfold rx; rw [m_bind, e]⟩

theorem sendFrame_deaf (h : s.deaf) (hu : s.umode = .updi) :
    sendFrame .updi b s = .ok () (s.elapse.listen.record (.tx b)) := by
  unfold sendFrame regs
  rcases requireOwner_cases .updi s with ⟨_, e⟩ | ⟨hn, _⟩
  · rw [m_bind, e]
    dsimp only
    rw [m_bind, m_bind, boundary_deaf h]
    rfl
  · exact absurd hu hn

theorem tx_stuck (h : s.deaf) (hm : s.mute) (hu : s.umode = .updi) : ∃ t, tx b s = .error .stuck t := by
  have hd : (s.elapse.listen.record (.tx b)).deaf := (elapse_deaf h).imp (fun e => e) fun e => e
  have hs : (s.elapse.listen.record (.tx b)).mute := (elapse_mute hm).imp (fun e => e) fun e => e
  obtain ⟨t, e⟩ := recvFrame_stuck .echo hd hs
  exact ⟨t, by unfold tx; rw [m_bind, sendFrame_deaf h hu]; dsimp only; rw [m_bind, e]⟩

theorem primOp_stuck {α : Type} {m : M α} {r : α → M Res} {t : State} (h : m s = .error .stuck t) :
    primOp (m >>= r) s = .fault .blocked := by
  unfold primOp outcome
  rw [m_bind, h]

/-! ## The obligation -/

theorem sampled_wdCnt (f : LineFrame) (rest : List LineEvent) (e : WireEvent) (s : State) :
    (s.sampled f rest e).wdCnt = s.wdCnt := rfl

theorem echoed_wdCnt (b : Byte) (f : LineFrame) (rest : List LineEvent) (s : State) :
    (s.echoed b f rest).wdCnt = s.wdCnt := (sampled_wdCnt f rest _ _).trans rfl

/-- The flags of a sampled frame, and how a reception and an echo end with them. -/
theorem exec_tx_sampled (ha : s.wdArmed = false) (hu : s.umode = .updi) (hl : s.env.line = .frame f :: rest) :
    ∃ ds, exec (.updiTx b) s = .next (State.ended (if RxFlags.ofFrame f ≠ RxFlags.clear then
      Res.fail (.flags (RxFlags.ofFrame f)) else if f.data ≠ b then Res.fail (.echo b f.data) else Res.ok 1) ds
        (s.echoed b f rest)) := by
  by_cases hf : RxFlags.ofFrame f = RxFlags.clear
  · rw [if_neg (not_not_intro hf)]
    by_cases hb : f.data = b
    · rw [if_neg (not_not_intro hb)]
      exact primOp_goes ha (fun n => goes_done (goes_tx_echoed hu hl hf hb)) (echoed_wdCnt b f rest s)
    · rw [if_pos hb]
      exact primOp_fails ha (fun n => fails_done (fails_tx_echo hu hl hf hb)) (echoed_wdCnt b f rest s)
  · rw [if_pos hf]
    exact primOp_fails ha (fun n => fails_done (fails_tx_flags hu hl hf)) (echoed_wdCnt b f rest s)

theorem exec_rx_sampled (ha : s.wdArmed = false) (hl : s.env.line = .frame f :: rest) :
    ∃ ds, exec .updiRx s = .next (State.ended (if RxFlags.ofFrame f = RxFlags.clear then Res.read [f.data] else
      Res.fail (.flags (RxFlags.ofFrame f))) ds (s.sampled f rest (.rx f.data (RxFlags.ofFrame f)))) := by
  by_cases hf : RxFlags.ofFrame f = RxFlags.clear
  · rw [if_pos hf]
    exact primOp_goes ha (fun n => goes_bind (goes_rx_sampled hl hf) fun τ => goes_pure.upto τ rfl)
      (sampled_wdCnt f rest _ s)
  · rw [if_neg hf]
    exact primOp_fails ha (fun n => fails_bind_left (fails_rx_sampled hl hf)) (sampled_wdCnt f rest _ s)

end

/-- Settles O16: the frame as it is sampled (`exec_tx_sampled`, `exec_rx_sampled`), and a line that brings none
(`recvFrame_stuck`). -/
theorem framesAreChecked : Obligations.FramesAreChecked := by
  intro s rest
  refine ⟨fun f ha hl => ⟨fun b hu => ?_, ?_⟩, fun hd hl => ?_⟩
  · obtain ⟨ds, e⟩ := exec_tx_sampled (b := b) ha hu hl
    refine ⟨ds, e.trans ?_⟩
    unfold State.echoed State.sampled
    rw [listen_updi hu, listen_updi (s := s.freeTdat.record (.tx b)) hu]
    rfl
  · obtain ⟨ds, e⟩ := exec_rx_sampled ha hl
    refine ⟨ds, e.trans ?_⟩
    unfold State.sampled
    rw [State.listen_eq]
    rfl
  · have hm : s.mute := hl.imp id fun h => ⟨rest, h⟩
    refine ⟨fun b hu => ?_, ?_⟩
    · obtain ⟨t, e⟩ := tx_stuck (b := b) hd hm hu
      exact primOp_stuck e
    · obtain ⟨t, e⟩ := rx_stuck hd hm
      exact primOp_stuck e

end Sys2Proof.Machine
end

section
/-! SUPPORT. The connects and the disconnects as the host's operations answer them (R181, R185, R222, R223, R224,
R233, R252, R260). -/

namespace Sys2Proof.Machine

variable {k : Bool} {n : Nat}

/-! ## UPDI -/

/-- What a SIGN_ON whose first attempt succeeds leaves (R181, R183). -/
def State.signedOn (c : Params) (sib : List Byte) (s : State) : State :=
  { s with sib := ⟨true, sib⟩, ct := sibVariant c sib, sess := { s.sess with link := true } }

/-- After a connect's start the rate is the configured one. -/
theorem connectStart_setRate (e : Engine) (s : State) :
    ({ s.connectStart e with clk := (s.connectStart e).cfg.clkCfgKhz } : State) = s.connectStart e := by
  have h : (s.connectStart e).cfg.clkCfgKhz = (s.connectStart e).clk := by simp
  rw [h]

theorem goes_updiSignOn {s : State} {sib : List Byte} {ms : List Move} {rest : List LineEvent} (h1 : s.wdArmed = false)
    (h2 : s.env.ie = true) (h3 : attemptRuns s.cfg s.cfg.clkCfgKhz sib ms) (hl : s.hears .updi ms rest) :
    Goes false Config.connectAttemptMs.toNat updiSignOn s ⟨4, (sib.drop s.cfg.sibIdOffset).take 4, none⟩
      ((((s.connectStart .updi).ran Config.connectAttemptMs).moved .updi ms rest).signedOn s.cfg sib) := by
  unfold updiSignOn
  refine goes_connectStart_phases fun τ => goes_phase_bind fun τ2 =>
    goes_quiet_bind (plain_of (fun _ _ => rfl) (fun _ => rfl) (fun _ => rfl) fun _ => rfl) rfl fun τ3 => ?_
  have hs := connectStart_setRate .updi s
  have hc := connectStart_cfg .updi s
  have he := connectStart_env .updi s
  have ha := connectStart_wdArmed .updi s
  have hu := connectStart_umode .updi s
  have hb := connectStart_trstBtn .updi s
  have hk := connectStart_clk .updi s
  generalize s.connectStart .updi = q at *
  rw [← hc] at h3 ⊢
  have hq : ({ q with clk := q.cfg.clkCfgKhz } : State).stamp τ3 = q.stamp τ3 := congrArg (State.stamp τ3) hs
  show Goes _ _ _ (({ q with clk := q.cfg.clkCfgKhz } : State).stamp τ3) _ _
  rw [hq]
  exact (goes_signOnLoop (s := q.stamp τ3) (ha.trans h1) ((congrArg Env.ie he).trans h2) hu
    ((congrArg Env.line he).trans hl) hb (show attemptRuns q.cfg q.clk sib ms from hk ▸ hc ▸ h3)).upto τ3 rfl

/-- Settles O24: the connect's start, then the attempt that succeeds (`goes_updiSignOn`). -/
theorem updiSignOnConnects : Obligations.UpdiSignOnConnects := by
  intro s sib ms rest hr harch hm hl
  obtain ⟨cnt, ds, h, _⟩ := hostOp_goes (scope := .avr) (cmd := 0x10) (p := .none) (State.within_of_ready hr) hr.1
    (goes_updiSignOn (s := s.withRequest .avr 0x10 .none) hr.1 hr.2.1 hm hl)
  exact ⟨_, cnt, ds, rfl, (avrOp_eq harch).trans h⟩

/-! ## The disconnects -/

/-- A state inside a run of `WD.RUN`, up to the count (R141). -/
def State.running (d : Half) (s : State) : State := { s.ran d with wdArmed := true }

section
variable {s t : State} {scope : HostScope} {cmd : Byte} {p : Payload} {w : RunOp} {f : State → State}

/-- Without a link a disconnect is its teardown, and the countdown stays as it was. -/
theorem hostOp_disconnect_unlinked (ha : s.wdArmed = false) (hl : s.sess.link = false) :
    ∃ ds, hostOp scope cmd p (disconnect w) s =
      .next ((s.withRequest scope cmd p).teardown.answered (Res.ok 1) s.wdCnt ds) := by
  obtain ⟨ds, e, _⟩ := hostOp_goes_still (scope := scope) (cmd := cmd) (p := p) (State.within_of_disarmed ha) ha
    (goes_disconnect_unlinked (w := w) hl)
  exact ⟨ds, e⟩

/-- With a link a disconnect is a run of its wire part, an exchange, then the teardown. -/
theorem hostOp_disconnect {e : Engine} {ms : List Move} {rest : List LineEvent}
    (hr : s.ready Config.wdDefaultMs.toNat) (hl : s.sess.link = true)
    (hm : ∀ τ, Goes true Config.wdDefaultMs.toNat (runBody w)
      (((s.withRequest scope cmd p).stamp τ).started Config.wdDefaultMs) (Res.ok 1)
      ((((s.withRequest scope cmd p).stamp τ).started Config.wdDefaultMs).moved e ms rest)) :
    ∃ cnt ds, hostOp scope cmd p (disconnect w) s = .next
      ((((s.withRequest scope cmd p).ran Config.wdDefaultMs).moved e ms rest).teardown.answered (Res.ok 1) cnt ds) := by
  obtain ⟨cnt, ds, e, _⟩ := hostOp_goes (scope := scope) (cmd := cmd) (p := p) (State.within_of_ready hr) hr.1
    (goes_disconnect (w := w) (s := s.withRequest scope cmd p) (r := Res.ok 1)
      (t := ((s.withRequest scope cmd p).running Config.wdDefaultMs).moved e ms rest) hl hr.1 hr.2.1 (Nat.le_refl _)
      (fun τ => (hm τ).upto (((s.withRequest scope cmd p).stamp τ).started Config.wdDefaultMs).time rfl) (by decide)
      (by decide))
  exact ⟨cnt, ds, e⟩

/-- Without `PROG` the wire part of PDI's SIGN_OFF sends nothing (R260). -/
theorem goes_pdiSignOffWire_idle (hp : s.sess.prog = false) :
    Goes k n pdiSignOffWire s (Res.ok 1) (s.moved .pdi [] s.env.line) := by
  rw [State.moved_nil]
  refine goes_get ?_
  rw [if_neg (by simp [hp])]
  exact goes_pure

theorem goes_pdiSignOffWire {ms : List Move} {r : List Byte} {rest : List LineEvent} (hp : s.sess.prog = true)
    (hu : s.umode = .pdi) (h : scriptRuns s.cfg .pdi s.cfg.pdi.leaveSeq ms r) (hl : s.hears .pdi ms rest) :
    Goes k n pdiSignOffWire s (Res.ok 1) (s.moved .pdi ms rest) := by
  refine goes_get ?_
  rw [if_pos hp]
  exact plays_pdiLeaveScript h k n s rest hu rfl hl

end

/-- An exchange of nothing leaves the line and the state (R86). -/
theorem ran_moved_nil (d : Half) (s : State) : (s.ran d).moved .pdi [] s.env.line = s.ran d :=
  State.moved_nil _ (s.ran d)

section
variable {s : State} {ms : List Move} {r : List Byte} {rest : List LineEvent}

/-- SIGN_OFF of UPDI with a link (R185). -/
theorem updiSignOff_answers (harch : s.arch = .updi) (hl : s.sess.link = true)
    (hr : s.ready Config.wdDefaultMs.toNat) (hu : s.umode = .updi) (hm : updiSignOffRuns s.cfg s.sess.prog ms)
    (hh : s.hears .updi ms rest) : ∃ cnt ds, exec .updiSignOff s = .next
      ((((s.withRequest .avr 0x11 .none).ran Config.wdDefaultMs).moved .updi ms rest).teardown.answered
        (Res.ok 1) cnt ds) := by
  obtain ⟨cnt, ds, e⟩ := hostOp_disconnect (scope := .avr) (cmd := 0x11) (p := .none) (w := .updiSignOffWire) hr hl
    fun τ => goes_updiSignOffWire (s := ((s.withRequest .avr 0x11 .none).stamp τ).started Config.wdDefaultMs) hu hm hh
  exact ⟨cnt, ds, (avrOp_eq harch).trans e⟩

/-- SIGN_OFF of PDI with a link and without `PROG` (R260). -/
theorem pdiSignOff_answers_idle (harch : s.arch = .pdi) (hl : s.sess.link = true)
    (hr : s.ready Config.wdDefaultMs.toNat) (hp : s.sess.prog = false) : ∃ cnt ds, exec .pdiSignOff s = .next
      (((s.withRequest .avr 0x11 .none).ran Config.wdDefaultMs).teardown.answered (Res.ok 1) cnt ds) := by
  obtain ⟨cnt, ds, e⟩ := hostOp_disconnect (scope := .avr) (cmd := 0x11) (p := .none) (w := .pdiSignOffWire) hr hl
    fun τ => goes_pdiSignOffWire_idle (s := ((s.withRequest .avr 0x11 .none).stamp τ).started Config.wdDefaultMs) hp
  rw [ran_moved_nil] at e
  exact ⟨cnt, ds, (avrOp_eq harch).trans e⟩

/-- SIGN_OFF of PDI with a link and `PROG` (R260). -/
theorem pdiSignOff_answers (harch : s.arch = .pdi) (hl : s.sess.link = true)
    (hr : s.ready Config.wdDefaultMs.toNat) (hp : s.sess.prog = true) (hu : s.umode = .pdi)
    (hm : scriptRuns s.cfg .pdi s.cfg.pdi.leaveSeq ms r) (hh : s.hears .pdi ms rest) : ∃ cnt ds,
    exec .pdiSignOff s = .next
      ((((s.withRequest .avr 0x11 .none).ran Config.wdDefaultMs).moved .pdi ms rest).teardown.answered
        (Res.ok 1) cnt ds) := by
  obtain ⟨cnt, ds, e⟩ := hostOp_disconnect (scope := .avr) (cmd := 0x11) (p := .none) (w := .pdiSignOffWire) hr hl
    fun τ => goes_pdiSignOffWire (s := ((s.withRequest .avr 0x11 .none).stamp τ).started Config.wdDefaultMs) hp hu hm hh
  exact ⟨cnt, ds, (avrOp_eq harch).trans e⟩

end

/-- Settles O26: each disconnect's wire part is its exchange, and the teardown follows (`hostOp_disconnect`). -/
theorem disconnects : Obligations.Disconnects := by
  intro s ha u v
  refine ⟨fun hl => ⟨fun harch => ?_, fun harch => ?_, hostOp_disconnect_unlinked ha hl⟩, fun hl hr =>
    ⟨fun ms rest harch hu hm hh => updiSignOff_answers harch hl hr hu hm hh,
      fun harch hp => pdiSignOff_answers_idle harch hl hr hp,
      fun ms r rest harch hp hu hm hh => pdiSignOff_answers harch hl hr hp hu hm hh, fun hu => ?_⟩⟩
  · obtain ⟨ds, e⟩ :=
      hostOp_disconnect_unlinked (scope := .avr) (cmd := 0x11) (p := .none) (w := .updiSignOffWire) ha hl
    exact ⟨ds, (avrOp_eq harch).trans e⟩
  · obtain ⟨ds, e⟩ :=
      hostOp_disconnect_unlinked (scope := .avr) (cmd := 0x11) (p := .none) (w := .pdiSignOffWire) ha hl
    exact ⟨ds, (avrOp_eq harch).trans e⟩
  · exact hostOp_disconnect hr hl fun τ =>
      plays_tpiLeaveWire s.cfg true _ ((v.stamp τ).started Config.wdDefaultMs) s.env.line hu rfl rfl

/-! ## TPI -/

theorem tpiConnectStart_wdCnt (s : State) : s.tpiConnectStart.wdCnt = s.wdCnt :=
  (tpiConnectStart_field State.wdCnt s (fun _ _ => rfl) fun _ _ => rfl).trans
    (State.connectStart_field State.wdCnt .tpi s (fun _ _ => rfl) (fun _ _ _ _ => rfl) (fun _ => rfl) (fun _ => rfl)
      fun _ _ => rfl)

theorem goes_tpiChunkSet {s : State} (sig : List Byte) : Goes k n (tpiChunkSet sig) s () (s.setChunk sig) := by
  have h := goes_upd (k := k) (n := n) (s := s) (effect_setChunk .tpi sig).plain
  rwa [State.write_quiet rfl] at h

/-- The engine holds the reset line, and the history grows by events that are no change of `TRST` (R306). -/
structure Holds (s t : State) : Prop where
  held : t.trstEng = true
  grows : ∃ evs, t.hist = evs ++ s.hist ∧ ∀ v, .trst v ∉ evs

section
variable {s t : State} {f : State → State}

theorem Holds.trst (h : Holds s t) : t.trst = true := by
  unfold State.trst
  rw [h.held]
  rfl

theorem holds_refl (h : s.trstEng = true) : Holds s s := ⟨h, [], rfl, by simp⟩

/-- Changes of registers that record none of `TRST` and keep the line held, written, record none either. -/
theorem Holds.write (h : Holds s t) (hf : Holds s (f t)) : Holds s (t.write f) := by
  rw [State.write_quiet (hf.trst.trans h.trst.symm)]
  exact hf

theorem Holds.setClk (c : Nat) (h : Holds s t) : Holds s (t.setClk c) := by
  obtain ⟨hh, evs, he, hv⟩ := h
  unfold State.setClk
  split
  · exact ⟨hh, evs, he, hv⟩
  · exact ⟨hh, .rateSet c :: evs, by simp [he], by simpa using hv⟩

theorem Holds.acquire (e : Engine) (h : Holds s t) : Holds s (t.acquire e) := by
  obtain ⟨hh, evs, he, hv⟩ := h
  rcases State.acquire_cases e t with ⟨_, ha⟩ | ⟨_, ha⟩ <;> rw [ha]
  · refine ⟨hh, t.quiesceEvents ++ evs, by simp [State.quiesce_eq, he], fun v hm => ?_⟩
    rcases List.mem_append.1 hm with hm | hm
    · unfold State.quiesceEvents at hm
      split at hm <;> split at hm <;> simp at hm
    · exact hv v hm
  · exact ⟨hh, evs, he, hv⟩

/-- In a TPI session a connect keeps the reset line held (R46, R222). -/
theorem holds_tpiConnectStart (h : s.trstEng = true) : Holds s s.tpiConnectStart := by
  have h1 : Holds s (s.write fun s => { s with sess := Sess.zero, ct := .stub }) := (holds_refl h).write
    (f := fun s => { s with sess := Sess.zero, ct := .stub }) ⟨h, (holds_refl h).grows⟩
  have h2 := h1.write (f := State.connectDrop .tpi) (Holds.setClk _ ⟨h1.held, h1.grows⟩)
  have h3 := h2.write (h2.acquire .tpi)
  have h4 := h3.write (f := fun s => { s with trstBtn := false }) ⟨h3.held, h3.grows⟩
  exact h4.write (f := fun s => { s with trstEng := true }) ⟨rfl, h4.grows⟩

end

/-- Settles O39: the connect with either identification, the reset line held, the chunk's table. -/
theorem tpiConnectAndChunk : Obligations.TpiConnectAndChunk := by
  intro s ha
  refine ⟨fun ms r rest hm hl => ?_, fun h => (holds_tpiConnectStart h).grows, fun b0 b1 b2 =>
    primOp_goes ha (fun n => goes_done (goes_tpiChunkSet _)) rfl⟩
  have hc := tpiConnectStart_wdCnt s
  by_cases hr : r = [s.cfg.tpi.ident]
  · simp only [if_pos hr]
    obtain ⟨ds, e⟩ := primOp_goes ha (fun n => goes_done (goes_tpiConnect (hr ▸ hm) hl)) hc
    exact ⟨_, ds, rfl, e⟩
  · simp only [if_neg hr]
    obtain ⟨ds, e⟩ := primOp_fails ha (fun n => fails_done (fails_tpiConnect hm hr hl))
      ((plain_connectFailed.write.cnt _).trans hc)
    exact ⟨_, ds, rfl, e⟩

theorem tpiEnter_answers {s t : State} (hr : s.ready Config.wdDefaultMs.toNat)
    (h : ∀ n, Goes true n tpiEnter ((s.withRequest .tpi s.cfg.scopes.tpiCodes.enterProgmode .none).started
      Config.wdDefaultMs) (Res.ok 1) t) :
    ∃ cnt ds, exec .tpiEnterProgmode s = .next (t.disarm.answered (Res.ok 1) cnt ds) :=
  hostRun_goes (op := .tpiEnterProgmode) hr h (.inl (by decide)) (by decide)

/-- With `PROG` there is nothing to do (R223). -/
theorem goes_tpiEnter_granted {s : State} (hp : s.sess.prog = true) : Goes k n tpiEnter s (Res.ok 1) s := by
  refine goes_get ?_
  rw [if_pos hp]
  exact goes_pure

/-- Settles O40: already granted, linked, connecting first, and in another engine's session. -/
theorem tpiEnterProgmode : Obligations.TpiEnterProgmode := by
  intro s hr u
  refine ⟨fun hp => ?_, fun sig ms rest hp hl hu hm hh => ?_, fun m1 sig m2 rest hp hl h1 h2 hh => ?_,
    fun hp hl hu hf => ?_⟩
  · exact tpiEnter_answers hr fun n => goes_tpiEnter_granted hp
  · exact tpiEnter_answers hr fun n => goes_tpiEnter_linked hp hl hu hm hh
  · obtain ⟨cnt, ds, e⟩ := tpiEnter_answers hr fun n => goes_tpiEnter_connect hp hl h1 h2 hh
    refine ⟨cnt, ds, e.trans ?_⟩
    rw [tpiConnectStart_started]
    show _ = Host.Outcome.next (State.answered _ _ _ { (State.tpiConnectStart u).moved .tpi (m1 ++ m2) rest with
      sess := _, tpiChunk := _ })
    rw [tpiConnectStart_ran]
    generalize (s.withRequest .tpi s.cfg.scopes.tpiCodes.enterProgmode .none).tpiConnectStart = q
    rfl
  · exact hostRun_fails (op := .tpiEnterProgmode) (k := true) hr (fun n => fails_tpiEnter_elsewhere hp hl hu) hf
      (by decide)

end Sys2Proof.Machine
end

section
/-! SUPPORT. Sessions: PDI's SIGN_ON, and the pseudo-operations as the host operations they are made of, each with the
time it leaves for the next (R115, R252). -/

namespace Sys2Proof.Machine

variable {k : Bool} {n : Nat}

/-! ## Host operations with the time they leave -/

section
variable {s t : State} {op : RunOp} {cmd : Byte} {p : Payload} {r : Res}

/-- After a host operation the next one is ready in the time that is left. -/
theorem answered_ready {cnt : Half} {ds : List Nat} {n : Nat} (ha : s.wdArmed = false) (hi : s.env.ie = true)
    (hd : ds.sum < n) : (s.answered r cnt ds).ready n := ⟨ha, hi, hd⟩

/-- A run of an AVR-core operation that goes through, with the time it leaves (R142, R153). -/
theorem avrRun_goes {a : Arch} (harch : s.arch = a) (hr : s.ready Config.wdDefaultMs.toNat)
    (hm : ∀ n, Goes true n (runBody op) ((s.withRequest .avr cmd p).started Config.wdDefaultMs) r t)
    (hc : r.count ≠ 0) (hn : r.cause ≠ some .timeout) : ∃ cnt ds,
    avrOp a cmd p (runOp op) s = .next (t.disarm.answered r cnt ds) ∧ ds.sum < Config.wdDefaultMs.toNat := by
  rw [avrOp_eq harch]
  exact hostOp_goes_within (State.within_of_ready hr) (goes_runOp (s := s.withRequest .avr cmd p) hr.1 hr.2.1 hm hc hn)

/-- A session of an engine that is open and ready for its next operation, with the line's coming behaviour. -/
structure Opened (e : Engine) (a : Arch) (c : Params) (line : List LineEvent) (s : State) : Prop where
  ready : s.ready Config.wdDefaultMs.toNat
  cfg : s.cfg = c
  arch : s.arch = a
  link : s.sess.link = true
  prog : s.sess.prog = false
  umode : s.umode = engineMode e
  line : s.env.line = line

theorem connectStart_arch (e : Engine) (s : State) : (s.connectStart e).arch = s.arch :=
  State.connectStart_field State.arch e s (fun _ _ => rfl) (fun _ _ _ _ => rfl) (fun _ => rfl) (fun _ => rfl)
    fun _ _ => rfl

/-- A connect's start, an exchange and the link open a session (R181, R252). -/
theorem opened_connectStart {e : Engine} {ms : List Move} {rest : List LineEvent} {cnt : Half} {ds : List Nat}
    (ha : s.wdArmed = false) (hi : s.env.ie = true) (hd : ds.sum < Config.wdDefaultMs.toNat) :
    Opened e s.arch s.cfg rest (State.answered r cnt ds (let t := (s.connectStart e).moved e ms rest
      { t with sess := { t.sess with link := true } })) := by
  have hc := connectStart_cfg e s
  have he := connectStart_env e s
  have hs := connectStart_sess e s
  have hu := connectStart_umode e s
  have hw := connectStart_wdArmed e s
  have hr := connectStart_arch e s
  generalize s.connectStart e = q at *
  exact ⟨⟨hw.trans ha, (congrArg Env.ie he).trans hi, hd⟩, hc, hr, rfl, congrArg Sess.prog hs, hu, rfl⟩

/-- The SIB and the bound variant are no part of it. -/
theorem Opened.signedOn {e : Engine} {a : Arch} {c c' : Params} {line : List LineEvent} {cnt : Half} {ds : List Nat}
    {sib : List Byte} {r' : Res}
    (h : Opened e a c line (State.answered r cnt ds { t with sess := { t.sess with link := true } })) :
    Opened e a c line (State.answered r' cnt ds (t.signedOn c' sib)) := by
  obtain ⟨hr, hc, ha, hl, hp, hu, hn⟩ := h
  exact ⟨hr, hc, ha, hl, hp, hu, hn⟩

/-! ## PDI -/

/-- What a SIGN_ON of PDI with this exchange leaves (R252). -/
def State.pdiSignedOn (ms : List Move) (rest : List LineEvent) (s : State) : State :=
  let t := (((s.withRequest .avr 0x10 .none).ran Config.wdDefaultMs).connectStart .pdi).moved .pdi ms rest
  { t with sess := { t.sess with link := true } }

/-- A SIGN_ON of PDI that succeeds, and the session it opens (R252). -/
theorem pdiSignOn_answers {c : Params} {m1 : List Move} {b : List Byte} {v : Byte} {rest : List LineEvent}
    (hr : s.ready Config.wdDefaultMs.toNat) (harch : s.arch = .pdi) (hc : s.cfg = c)
    (hm : scriptRuns c .pdi c.pdi.activateSeq m1 b) (hl : s.hears .pdi (m1 ++ ldcsMoves c .pdi c.pdi.rStatus v) rest) :
    ∃ cnt ds,
    let t := State.answered (Res.ok 1) cnt ds (s.pdiSignedOn (m1 ++ ldcsMoves c .pdi c.pdi.rStatus v) rest)
    exec .pdiSignOn s = .next t ∧ Opened .pdi .pdi c rest t := by
  subst hc
  obtain ⟨cnt, ds, e, hd⟩ := avrRun_goes (op := .pdiSignOn) (cmd := 0x10) (p := .none) harch hr
    (fun n => goes_pdiSignOn hm hl) (by decide) (by decide)
  refine ⟨cnt, ds, e.trans ?_, ?_⟩
  · unfold State.pdiSignedOn
    rw [connectStart_started, connectStart_ran]
    generalize (s.withRequest .avr 0x10 .none).connectStart .pdi = q
    rfl
  · rw [← harch]
    exact opened_connectStart (s := (s.withRequest .avr 0x10 .none).ran Config.wdDefaultMs) rfl hr.2.1 hd

end

/-! ## The pseudo-operations -/

/-- A session's opening is SET_PARAMETER, SIGN_ON, the descriptor's upload and ENTER_PROGMODE, in a row (R115). -/
theorem sessionOpen_updi {d : DevDesc} {s t1 t2 t3 t4 : State}
    (h1 : exec (.sysSetParameter (.arch s.cfg.archUpdi)) s = .next t1) (h2 : exec .updiSignOn t1 = .next t2)
    (h3 : exec (.sysSetParameter (.deviceDesc d)) t2 = .next t3) (h4 : exec .updiEnterProgmode t3 = .next t4) :
    exec (.sessionOpen .updi d) s = .next t4 := by
  show andThen (exec (.sysSetParameter (.arch s.cfg.archUpdi)) s) (fun s => andThen (exec .updiSignOn s) fun s =>
    andThen (exec (.sysSetParameter (.deviceDesc d)) s) (exec .updiEnterProgmode)) = _
  rw [h1, andThen, h2, andThen, h3, andThen, h4]

theorem sessionOpen_pdi {d : DevDesc} {s t1 t2 t3 t4 : State}
    (h1 : exec (.sysSetParameter (.arch s.cfg.archPdi)) s = .next t1) (h2 : exec .pdiSignOn t1 = .next t2)
    (h3 : exec (.sysSetParameter (.deviceDesc d)) t2 = .next t3) (h4 : exec .pdiEnterProgmode t3 = .next t4) :
    exec (.sessionOpen .pdi d) s = .next t4 := by
  show andThen (exec (.sysSetParameter (.arch s.cfg.archPdi)) s) (fun s => andThen (exec .pdiSignOn s) fun s =>
    andThen (exec (.sysSetParameter (.deviceDesc d)) s) (exec .pdiEnterProgmode)) = _
  rw [h1, andThen, h2, andThen, h3, andThen, h4]

theorem decodeArch_updi (c : Params) : decodeArch c c.archUpdi = .updi := if_pos rfl

theorem decodeArch_pdi {c : Params} (h : c.archPdi ≠ c.archUpdi) : decodeArch c c.archPdi = .pdi := by
  unfold decodeArch
  rw [if_neg h, if_pos rfl]

section
variable {s : State}

/-- The selection of an architecture, with the time it leaves (R109). -/
theorem setArch_answers {v : Byte} {a : Arch} (hr : s.ready n) (hl : s.sess.link = false)
    (hv : decodeArch s.cfg v = a) :
    ∃ ds, exec (.sysSetParameter (.arch v)) s = .next (State.answered (Res.ok 1) s.wdCnt ds
      { s.withRequest .avr 0x01 (.setParam (.arch v)) with arch := a }) ∧ ds.sum < n := by
  subst hv
  exact hostOp_goes_still (State.within_of_ready hr) hr.1 (goes_setArch hl)

/-- The descriptor's upload, with the time it leaves (R109). -/
theorem setDesc_answers (d : DevDesc) (hr : s.ready n) :
    ∃ ds, exec (.sysSetParameter (.deviceDesc d)) s = .next (State.answered (Res.ok 1) s.wdCnt ds
      { s.withRequest .avr 0x01 (.setParam (.deviceDesc d)) with dd := ⟨true, d⟩ }) ∧ ds.sum < n :=
  hostOp_goes_still (State.within_of_ready hr) hr.1 goes_setDesc

/-- What a SIGN_ON of UPDI whose first attempt succeeds with this exchange leaves (R181). -/
def State.updiSignedOn (c : Params) (sib : List Byte) (ms : List Move) (rest : List LineEvent) (s : State) : State :=
  ((((s.withRequest .avr 0x10 .none).connectStart .updi).ran Config.connectAttemptMs).moved .updi ms rest).signedOn
    c sib

theorem updiSignedOn_ct (c : Params) (sib : List Byte) (ms : List Move) (rest : List LineEvent) (s : State) :
    (s.updiSignedOn c sib ms rest).ct = sibVariant c sib := rfl

/-- A SIGN_ON of UPDI whose first attempt succeeds, and the session it opens (R181). -/
theorem updiSignOn_answers {c : Params} {sib : List Byte} {ms : List Move} {rest : List LineEvent}
    (hr : s.ready Config.connectAttemptMs.toNat) (harch : s.arch = .updi) (hc : s.cfg = c)
    (hm : attemptRuns c c.clkCfgKhz sib ms) (hl : s.hears .updi ms rest) : ∃ cnt ds,
    let t := State.answered ⟨4, (sib.drop c.sibIdOffset).take 4, none⟩ cnt ds (s.updiSignedOn c sib ms rest)
    exec .updiSignOn s = .next t ∧ Opened .updi .updi c rest t ∧ t.ct = sibVariant c sib := by
  subst hc
  obtain ⟨cnt, ds, e, hd⟩ := hostOp_goes_within (scope := .avr) (cmd := 0x10) (p := .none) (State.within_of_ready hr)
    (goes_updiSignOn (s := s.withRequest .avr 0x10 .none) hr.1 hr.2.1 hm hl)
  refine ⟨cnt, ds, (avrOp_eq harch).trans e, ?_, updiSignedOn_ct s.cfg sib ms rest s⟩
  unfold State.updiSignedOn
  rw [← harch, ← connectStart_ran]
  exact (opened_connectStart (r := Res.ok 1) (s := (s.withRequest .avr 0x10 .none).ran Config.connectAttemptMs) rfl
    hr.2.1 (Nat.lt_of_lt_of_le hd (by decide))).signedOn

/-- UPDI's ENTER_PROGMODE of a linked target whose variant has a record (R186). -/
theorem goes_updiEnter {r : VariantRec} {ms : List Move} {rest : List LineEvent} (hk : s.sess.link = true)
    (hp : s.sess.prog = false) (hu : s.umode = .updi) (hv : variantRec s.cfg s.ct = some r)
    (hm : unlockRuns s.cfg s.ct r ms) (hl : s.hears .updi ms rest) :
    Goes k n updiEnter s (Res.ok 1) ((s.moved .updi ms rest).setProg true) := by
  refine goes_get (goes_require hk ?_)
  rw [if_neg (by simp [hp])]
  exact acts_updiUnlock hv hm k n s rest hu ⟨rfl, rfl⟩ hl

theorem updiEnter_answers {r : VariantRec} {ms : List Move} {rest : List LineEvent}
    (hr : s.ready Config.wdDefaultMs.toNat) (harch : s.arch = .updi) (hk : s.sess.link = true)
    (hp : s.sess.prog = false) (hu : s.umode = .updi) (hv : variantRec s.cfg s.ct = some r)
    (hm : unlockRuns s.cfg s.ct r ms) (hl : s.hears .updi ms rest) : ∃ cnt ds,
    exec .updiEnterProgmode s = .next (State.answered (Res.ok 1) cnt ds
      { ((s.withRequest .avr 0x15 .none).ran Config.wdDefaultMs).moved .updi ms rest with
        sess := { s.sess with prog := true } }) := by
  obtain ⟨cnt, ds, e, _⟩ := avrRun_goes (op := .updiEnterProgmode) (cmd := 0x15) (p := .none) harch hr
    (fun n => goes_updiEnter hk hp hu hv hm hl) (by decide) (by decide)
  exact ⟨cnt, ds, e⟩

theorem pdiEnter_answers {m1 m3 : List Move} {r : List Byte} {rest : List LineEvent}
    (hr : s.ready Config.wdDefaultMs.toNat) (harch : s.arch = .pdi) (hk : s.sess.link = true)
    (hp : s.sess.prog = false) (hu : s.umode = .pdi) (h1 : scriptRuns s.cfg .pdi s.cfg.pdi.preKeySeq m1 r)
    (h3 : pdiEnabledRuns s.cfg m3) (hl : s.hears .pdi (m1 ++ (outs (syncKeyBytes s.cfg) ++ m3)) rest) : ∃ cnt ds,
    exec .pdiEnterProgmode s = .next (State.answered (Res.ok 1) cnt ds
      { ((s.withRequest .avr 0x15 .none).ran Config.wdDefaultMs).moved .pdi
          (m1 ++ (outs (syncKeyBytes s.cfg) ++ m3)) rest with sess := { s.sess with prog := true } }) := by
  obtain ⟨cnt, ds, e, _⟩ := avrRun_goes (op := .pdiEnterProgmode) (cmd := 0x15) (p := .none) harch hr
    (fun n => goes_pdiEnter hk hp hu h1 h3 hl) (by decide) (by decide)
  exact ⟨cnt, ds, e⟩

/-- A session's opening after its SIGN_ON of UPDI: the descriptor, then ENTER_PROGMODE (R115). -/
theorem updi_loads_enters {c : Params} {v : Variant} {r : VariantRec} {ms : List Move} {rest : List LineEvent}
    (d : DevDesc) (h : Opened .updi .updi c (lineOf .updi ms ++ rest) s) (hct : s.ct = v)
    (hv : variantRec c v = some r) (hm : unlockRuns c v r ms) : ∃ d3 c4 d4,
    let t := State.answered (Res.ok 1) s.wdCnt d3
      { s.withRequest .avr 0x01 (.setParam (.deviceDesc d)) with dd := ⟨true, d⟩ }
    exec (.sysSetParameter (.deviceDesc d)) s = .next t ∧
      exec .updiEnterProgmode t = .next (State.answered (Res.ok 1) c4 d4
        { ((t.withRequest .avr 0x15 .none).ran Config.wdDefaultMs).moved .updi ms rest with
          sess := { t.sess with prog := true } }) := by
  obtain ⟨hr, rfl, harch, hk, hp, hu, hl⟩ := h
  subst hct
  obtain ⟨d3, e3, w3⟩ := setDesc_answers d hr
  obtain ⟨c4, d4, e4⟩ := updiEnter_answers (s := State.answered (Res.ok 1) s.wdCnt d3
    { s.withRequest .avr 0x01 (.setParam (.deviceDesc d)) with dd := ⟨true, d⟩ }) (answered_ready hr.1 hr.2.1 w3) harch
    hk hp hu hv hm hl
  exact ⟨d3, c4, d4, e3, e4⟩

/-- The same of PDI. -/
theorem pdi_loads_enters {c : Params} {m1 m3 : List Move} {r : List Byte} {rest : List LineEvent} (d : DevDesc)
    (h : Opened .pdi .pdi c (lineOf .pdi (m1 ++ (outs (syncKeyBytes c) ++ m3)) ++ rest) s)
    (h1 : scriptRuns c .pdi c.pdi.preKeySeq m1 r) (h3 : pdiEnabledRuns c m3) : ∃ d3 c4 d4,
    let t := State.answered (Res.ok 1) s.wdCnt d3
      { s.withRequest .avr 0x01 (.setParam (.deviceDesc d)) with dd := ⟨true, d⟩ }
    exec (.sysSetParameter (.deviceDesc d)) s = .next t ∧
      exec .pdiEnterProgmode t = .next (State.answered (Res.ok 1) c4 d4
        { ((t.withRequest .avr 0x15 .none).ran Config.wdDefaultMs).moved .pdi
            (m1 ++ (outs (syncKeyBytes c) ++ m3)) rest with sess := { t.sess with prog := true } }) := by
  obtain ⟨hr, rfl, harch, hk, hp, hu, hl⟩ := h
  obtain ⟨d3, e3, w3⟩ := setDesc_answers d hr
  obtain ⟨c4, d4, e4⟩ := pdiEnter_answers (s := State.answered (Res.ok 1) s.wdCnt d3
    { s.withRequest .avr 0x01 (.setParam (.deviceDesc d)) with dd := ⟨true, d⟩ }) (answered_ready hr.1 hr.2.1 w3) harch
    hk hp hu h1 h3 hl
  exact ⟨d3, c4, d4, e3, e4⟩

end

/-- Settles O59: the four operations, each ready in the time the one before leaves. -/
theorem sessionOpens : Obligations.SessionOpens := by
  intro s dd rest hl opened loaded
  constructor
  · intro sib m1 r m2 hr hm hv hk hh
    obtain ⟨hl1, _⟩ := State.hears_moved hh
    obtain ⟨d1, e1, w1⟩ := setArch_answers hr hl (decodeArch_updi s.cfg)
    have r1 : (opened .updi s.cfg.archUpdi d1).ready Config.connectAttemptMs.toNat := ⟨hr.1, hr.2.1, w1⟩
    obtain ⟨c2, d2, e2, ho, hct⟩ := updiSignOn_answers (c := s.cfg) (s := opened .updi s.cfg.archUpdi d1) r1 rfl rfl hm
      hl1
    obtain ⟨d3, c4, d4, e3, e4⟩ := updi_loads_enters dd ho hct hv hk
    exact ⟨d1, c2, d2, d3, c4, d4, sessionOpen_updi e1 e2 e3 e4⟩
  · intro m1 r v m2 r2 m4 hr hne h1 h2 h4 f1 f2 hh
    obtain ⟨hl1, _⟩ := State.hears_moved hh
    obtain ⟨d1, e1, w1⟩ := setArch_answers hr hl (decodeArch_pdi hne)
    have r1 : (opened .pdi s.cfg.archPdi d1).ready Config.wdDefaultMs.toNat := ⟨hr.1, hr.2.1, w1⟩
    obtain ⟨c2, d2, e2, ho⟩ := pdiSignOn_answers (c := s.cfg) (s := opened .pdi s.cfg.archPdi d1) r1 rfl rfl h1 hl1
    obtain ⟨d3, c4, d4, e3, e4⟩ := pdi_loads_enters dd ho h2 h4
    exact ⟨d1, c2, d2, d3, c4, d4, sessionOpen_pdi e1 e2 e3 e4⟩

end Sys2Proof.Machine

namespace Sys2Proof

/-- Settles O47: the connect's start, the activation, the status, the link. -/
theorem pdiSignOn : Obligations.PdiSignOn := by
  intro s m1 r v rest hr harch hm hl
  obtain ⟨cnt, ds, e, _⟩ := Machine.pdiSignOn_answers hr harch rfl hm hl
  exact ⟨_, cnt, ds, rfl, e⟩

end Sys2Proof
end

section
/-! SUPPORT. SESSION_CLOSE of UPDI and of PDI: LEAVE_PROGMODE with and without `PROG`, then SIGN_OFF (R115, R187,
R260). -/

namespace Sys2Proof.Machine

variable {k : Bool} {n : Nat}

section
variable {s : State} {m1 m2 : List Move} {r : List Byte} {rest : List LineEvent}

/-! ## LEAVE_PROGMODE -/

/-- With `PROG`: the bit is cleared, then the script runs (R187, R260). -/
theorem goes_clearProg_script {e : Engine} {sc : Script} (hu : s.umode = engineMode e)
    (hm : scriptRuns s.cfg e sc m1 r) (hh : s.hears e m1 rest) :
    Goes k n (do
      upd (State.setProg false)
      let _ ← runScript e sc
      pure (Res.ok 1)) s (Res.ok 1) ((s.moved e m1 rest).setProg false) := by
  have h : Plays e s.cfg (do let _ ← runScript e sc; pure (Res.ok 1)) m1 (Res.ok 1) :=
    plays_bind_nil (plays_runScript hm) plays_pure
  exact goes_quiet_bind (effect_setProg e false).plain (setProg_trst false s) fun τ =>
    (h.goes (s := (s.setProg false).stamp τ) hu hh).upto τ rfl

theorem goes_updiLeave (hl : s.sess.link = true) (hp : s.sess.prog = true) (hu : s.umode = .updi)
    (hm : scriptRuns s.cfg .updi s.cfg.updi.leaveSeq m1 r) (hh : s.hears .updi m1 rest) :
    Goes k n updiLeave s (Res.ok 1) ((s.moved .updi m1 rest).setProg false) := by
  refine goes_get (goes_require hl ?_)
  rw [if_pos hp]
  exact goes_clearProg_script hu hm hh

theorem goes_pdiLeave (hl : s.sess.link = true) (hp : s.sess.prog = true) (hu : s.umode = .pdi)
    (hm : scriptRuns s.cfg .pdi s.cfg.pdi.leaveSeq m1 r) (hh : s.hears .pdi m1 rest) :
    Goes k n pdiLeave s (Res.ok 1) ((s.moved .pdi m1 rest).setProg false) := by
  refine goes_get (goes_require hl ?_)
  rw [if_pos hp]
  exact goes_clearProg_script hu hm hh

/-- Without `PROG` there is nothing to do (R187, R260). -/
theorem goes_updiLeave_idle (hl : s.sess.link = true) (hp : s.sess.prog = false) :
    Goes k n updiLeave s (Res.ok 1) s := by
  refine goes_get (goes_require hl ?_)
  rw [if_neg (by simp [hp])]
  exact goes_pure

theorem goes_pdiLeave_idle (hl : s.sess.link = true) (hp : s.sess.prog = false) :
    Goes k n pdiLeave s (Res.ok 1) s := by
  refine goes_get (goes_require hl ?_)
  rw [if_neg (by simp [hp])]
  exact goes_pure

/-! ## SESSION_CLOSE -/

theorem sessionClose_updi {t1 : State} (h : exec .updiLeaveProgmode s = .next t1) :
    exec (.sessionClose .updi) s = exec .updiSignOff t1 := by
  show andThen (exec .updiLeaveProgmode s) (exec .updiSignOff) = _
  rw [h, andThen]

theorem sessionClose_pdi {t1 : State} (h : exec .pdiLeaveProgmode s = .next t1) :
    exec (.sessionClose .pdi) s = exec .pdiSignOff t1 := by
  show andThen (exec .pdiLeaveProgmode s) (exec .pdiSignOff) = _
  rw [h, andThen]

end

/-- Settles O60: LEAVE_PROGMODE, with `PROG` its exchange and without it nothing, then SIGN_OFF in the time it
leaves. -/
theorem sessionCloses : Obligations.SessionCloses := by
  intro s rest hl hr left off
  refine ⟨fun m1 r m2 harch hu hp h1 h2 hh => ?_, fun m2 harch hu hp h2 hh => ?_,
    fun m1 r harch hu hp h1 hh => ?_, fun harch hp => ?_⟩
  · obtain ⟨hh1, _⟩ := State.hears_moved hh
    obtain ⟨c1, d1, e1, w1⟩ := avrRun_goes (op := .updiLeaveProgmode) (cmd := 0x16) (p := .none) harch hr
      (fun n => goes_updiLeave hl hp hu h1 hh1) (by decide) (by decide)
    obtain ⟨c2, d2, e2⟩ := updiSignOff_answers (s := State.answered (Res.ok 1) c1 d1
      { left.moved .updi m1 (lineOf .updi m2 ++ rest) with sess := { s.sess with prog := false } }) (rest := rest)
      harch hl (answered_ready rfl hr.2.1 w1) hu h2 rfl
    exact ⟨c1, d1, c2, d2, (sessionClose_updi e1).trans e2⟩
  · obtain ⟨c1, d1, e1, w1⟩ := avrRun_goes (op := .updiLeaveProgmode) (cmd := 0x16) (p := .none) harch hr
      (fun n => goes_updiLeave_idle hl hp) (by decide) (by decide)
    obtain ⟨c2, d2, e2⟩ := updiSignOff_answers (s := State.answered (Res.ok 1) c1 d1 left) (rest := rest) harch hl
      (answered_ready rfl hr.2.1 w1) hu (show updiSignOffRuns s.cfg s.sess.prog m2 from hp ▸ h2) hh
    exact ⟨c1, d1, c2, d2, (sessionClose_updi e1).trans e2⟩
  · obtain ⟨c1, d1, e1, w1⟩ := avrRun_goes (op := .pdiLeaveProgmode) (cmd := 0x16) (p := .none) harch hr
      (fun n => goes_pdiLeave hl hp hu h1 hh) (by decide) (by decide)
    obtain ⟨c2, d2, e2⟩ := pdiSignOff_answers_idle (s := State.answered (Res.ok 1) c1 d1
      { left.moved .pdi m1 rest with sess := { s.sess with prog := false } }) harch hl
      (answered_ready rfl hr.2.1 w1) rfl
    exact ⟨c1, d1, c2, d2, (sessionClose_pdi e1).trans e2⟩
  · obtain ⟨c1, d1, e1, w1⟩ := avrRun_goes (op := .pdiLeaveProgmode) (cmd := 0x16) (p := .none) harch hr
      (fun n => goes_pdiLeave_idle hl hp) (by decide) (by decide)
    obtain ⟨c2, d2, e2⟩ := pdiSignOff_answers_idle (s := State.answered (Res.ok 1) c1 d1 left) harch hl
      (answered_ready rfl hr.2.1 w1) hp
    exact ⟨c1, d1, c2, d2, (sessionClose_pdi e1).trans e2⟩

end Sys2Proof.Machine
end

section
/-! SUPPORT. An expiry inside a run: the give-up, and the fallback with the retry, which is a run begun at that moment
(R144 to R148, R201, R203). -/

namespace Sys2Proof.Machine

/-! ## Steps outside a run -/

/-- A state with other time left on the tape. -/
def State.spent (ds : List Nat) (s : State) : State := { s with env := { s.env with delays := ds } }

/-- Without a countdown a piece goes through, and takes only the tape's time (R141). -/
def Takes {α : Type} (m : M α) (s : State) (a : α) (t : State) : Prop := ∃ ds, m s = .ok a (t.spent ds)

section
variable {s t u : State} {α β : Type} {m : M α} {k : α → M β} {a : α} {b : β}

theorem takes_bind (h1 : Takes m s a t) (h2 : ∀ ds, Takes (k a) (t.spent ds) b u) : Takes (m >>= k) s b u := by
  obtain ⟨d1, e1⟩ := h1
  obtain ⟨d2, e2⟩ := h2 d1
  exact ⟨d2, by rw [m_bind, e1]; exact e2⟩

theorem takes_get {f : State → M β} (h : Takes (f s) s b u) : Takes (get >>= f) s b u := h

theorem elapse_unarmed (h : s.wdArmed = false) : ∃ ds, s.elapse = s.spent ds := by
  unfold State.elapse
  split
  · exact ⟨s.env.delays, rfl⟩
  · next d ds _ =>
    refine ⟨ds, ?_⟩
    rw [if_neg (by simp [h])]
    rfl

theorem takes_regs {f : State → State} (ha : s.wdArmed = false) (hf : ∀ ds, f (s.spent ds) = (f s).spent ds) :
    Takes (regs f) s () (f s) := by
  obtain ⟨ds, e⟩ := elapse_unarmed ha
  refine ⟨ds, ?_⟩
  unfold regs
  rw [m_bind, boundary_unarmed ha, e, ← hf]
  rfl

/-! ## The fallback -/

/-- The attention pulse, whose line is let go again (R171, R201). -/
def State.attended (s : State) : State :=
  { s with
    tdat := none
    hist := .attnHigh s.cfg.updi.attnHighUs :: .attnLow s.cfg.updi.attnLowUs :: s.hist }

theorem takes_drive (ev : WireEvent) (ha : s.wdArmed = false) :
    Takes (drive .updi ev) s () ((s.driveTdat .updi).record ev) := takes_regs ha fun _ => rfl

/-- Of the pulse's steps only the last one's time is seen. -/
theorem spent_resumed (d1 d2 : List Nat) (ev1 ev2 : WireEvent) (s : State) :
    ((((((s.driveTdat .updi).record ev1).spent d1).driveTdat .updi).record ev2).spent d2).freeTdat =
      ({ s with tdat := none, hist := ev2 :: ev1 :: s.hist } : State).spent d2 := by
  unfold State.spent State.freeTdat State.record State.driveTdat
  rfl

theorem takes_attention (ha : s.wdArmed = false) : Takes (attention .updi) s () s.attended :=
  takes_get (takes_bind (takes_drive (.attnLow s.cfg.updi.attnLowUs) ha) fun d1 =>
    takes_bind (takes_drive (.attnHigh s.cfg.updi.attnHighUs) ha) fun d2 =>
      ⟨d2, congrArg (EStateM.Result.ok ()) (spent_resumed d1 d2 _ _ s)⟩)

theorem takes_setRate (c : Nat) (ha : s.wdArmed = false) :
    Takes (upd fun s => { s with clk := c }) s () { s with clk := c } := by
  have h := takes_regs (f := State.write fun s => { s with clk := c }) ha fun ds => by
    rw [State.write_quiet rfl, State.write_quiet rfl]
    rfl
  rwa [State.write_quiet rfl] at h

/-- The rate lowered and the line resynchronised (R201). -/
def State.lowered (c : Nat) (s : State) : State := State.record (.rateSet c) (State.attended { s with clk := c })

theorem takes_lineConfig (ha : s.wdArmed = false) : Takes lineConfig s () (s.record (.rateSet s.clk)) :=
  takes_get (takes_regs ha fun _ => rfl)

/-- Above the floor the fallback lowers the rate and resynchronises the line (R201). -/
theorem takes_updiFallback {c : Nat} (ha : s.wdArmed = false) (hc : clkLower s.cfg s.clk = some c) :
    Takes updiFallback s 1 (s.lowered c) := by
  refine takes_get ?_
  rw [hc]
  exact takes_bind (takes_setRate c ha) fun _ => takes_bind (takes_attention ha) fun _ =>
    takes_bind (takes_lineConfig ha) fun _ => ⟨_, rfl⟩

end

/-! ## The recovery point -/

section
variable {s t u : State} {op : M Res} {fb : FallbackSel} {again again' : M Res}

/-- With no fallback, or at the floor, a run gives up (R146, R148). -/
theorem recovery_gives_up (h : fb = .absent ∨ clkLower t.cfg t.clk = none) :
    recovery fb again t = .ok (Res.fail .timeout) t.divert := by
  have e : fallbackRun fb t.divert = .ok 0 t.divert := by
    cases fb with
    | absent => rfl
    | updi =>
      have hc : clkLower t.divert.cfg t.divert.clk = none := h.resolve_left (by decide)
      show updiFallback t.divert = _
      unfold updiFallback
      rw [m_bind, m_get]
      dsimp only
      rw [hc]
      rfl
  unfold recovery
  rw [e]
  rfl

/-- Above the floor it retries at the lower rate, with the tape further on (R147, R201). -/
theorem recovery_retries {c : Nat} (hc : clkLower t.cfg t.clk = some c) : ∃ ds, ∀ again,
    recovery .updi again t =
      again ((t.divert.lowered c).spent ds) := by
  obtain ⟨ds, e⟩ := takes_updiFallback (s := t.divert) rfl hc
  refine ⟨ds, fun again => ?_⟩
  unfold recovery
  rw [show fallbackRun .updi t.divert = _ from e]
  rfl

/-- What a recovery does is known from what a retry does at lower rates (R155). -/
theorem recovery_congr (h : ∀ v, v.clk < t.clk → again v = again' v) : recovery fb again t = recovery fb again' t := by
  by_cases hg : fb = .absent ∨ clkLower t.cfg t.clk = none
  · rw [recovery_gives_up hg, recovery_gives_up hg]
  · obtain ⟨hf, hn⟩ := not_or.1 hg
    obtain ⟨c, hc⟩ := Option.ne_none_iff_exists'.1 hn
    cases fb with
    | absent => exact absurd rfl hf
    | updi =>
      obtain ⟨ds, e⟩ := recovery_retries hc
      rw [e, e]
      exact h _ (clkLower_lt hc)

/-! ## The loop of a run -/

/-- How a pass ends in an expiry: at a boundary, or with its last step (R10, R144). -/
def Expires (op : M Res) (s t : State) : Prop :=
  op s = .error .expired t ∨
    ∃ u, ((∃ r, op s = .ok r u) ∨ ∃ c, op s = .error (.raise c) u) ∧ u.expiresWaiting = true ∧ t = u.elapse

section
variable {n : Nat} {r : Res} {c : Cause}

theorem runLoop_ok (e : op s.arm = .ok r u) : runLoop op fb (n + 1) s =
    if u.expiresWaiting = true ∨ (r.count = 0 ∧ u.cfg.retryOnFailure = true) then
      recovery fb (runLoop op fb n) u.elapse
    else .ok r u.elapse.disarm := by
  simp only [runLoop, e]

theorem runLoop_raise (e : op s.arm = .error (.raise c) u) : runLoop op fb (n + 1) s =
    if u.expiresWaiting = true ∨ u.cfg.retryOnFailure = true then recovery fb (runLoop op fb n) u.elapse
    else .ok (Res.fail c) u.elapse.disarm := by
  simp only [runLoop, e]

theorem runLoop_expired (e : op s.arm = .error .expired u) :
    runLoop op fb (n + 1) s = recovery fb (runLoop op fb n) u := by
  simp only [runLoop, e]

theorem runLoop_expires (h : Expires op s.arm t) : runLoop op fb (n + 1) s = recovery fb (runLoop op fb n) t := by
  rcases h with e | ⟨u, ⟨r, e⟩ | ⟨c, e⟩, hw, rfl⟩
  · exact runLoop_expired e
  · rw [runLoop_ok e, if_pos (.inl hw)]
  · rw [runLoop_raise e, if_pos (.inl hw)]

end

/-- An operation within a session expires with the registers such an operation keeps. -/
theorem Expires.stays (h : Expires op s t) (hop : At Stays s op) : Stays s t := by
  rcases h with e | ⟨u, ⟨r, e⟩ | ⟨c, e⟩, _, rfl⟩
  · exact (hop.error e).1
  · exact stays_flows.trans (hop.ok e) (elapse_quiet u).stays
  · exact stays_flows.trans (hop.error e).1 (elapse_quiet u).stays

/-- More passes than the rate can be lowered change nothing (R155). -/
theorem runLoop_fuel (hop : ∀ s, At Stays s op) : ∀ n m s, s.clk < n → s.clk < m →
    runLoop op fb n s = runLoop op fb m s
  | 0, _, _, h, _ => absurd h (Nat.not_lt_zero _)
  | _ + 1, 0, _, _, h => absurd h (Nat.not_lt_zero _)
  | n + 1, m + 1, s, hn, hm => by
    have hrec : ∀ t, Stays s.arm t → recovery fb (runLoop op fb n) t = recovery fb (runLoop op fb m) t :=
      fun t ht => recovery_congr fun v hv => by
        have hc : t.clk = s.clk := ht.clk
        exact runLoop_fuel hop n m v (by omega) (by omega)
    have helapse : ∀ t, Stays s.arm t →
        recovery fb (runLoop op fb n) t.elapse = recovery fb (runLoop op fb m) t.elapse := fun t ht =>
      hrec _ (stays_flows.trans ht (elapse_quiet t).stays)
    cases e : op s.arm with
    | ok r t => rw [runLoop_ok e, runLoop_ok e, helapse t ((hop _).ok e)]
    | error x t =>
      have ht := ((hop _).error e).1
      cases x with
      | raise c => rw [runLoop_raise e, runLoop_raise e, helapse t ht]
      | expired => rw [runLoop_expired e, runLoop_expired e, hrec t ht]
      | stuck => simp only [runLoop, e]
      | refused r => simp only [runLoop, e]

/-- A run begins with its loop (R140, R141). -/
theorem supervise_begins {d : Half} (ha : s.wdArmed = false) (hi : s.env.ie = true) (hd : d ≠ 0) :
    supervise op fb d s = runLoop op fb (s.clk + 1) { s with wdDeadline := d } := by
  unfold supervise
  rw [if_neg (by simp [hi]), if_neg (by simp [ha]), if_neg hd]

end

/-! ## Giving up -/

section
variable {s t : State} {op : RunOp} {fb : FallbackSel} {d : Half}

theorem plain_gaveUp (op : RunOp) : Plain (State.gaveUp op) where
  timeless s τ := by
    have hf : failsConnect op (s.stamp τ) = failsConnect op s := by cases op <;> rfl
    have hc : (s.stamp τ).cfg = s.cfg := rfl
    unfold State.gaveUp
    rw [hf, hc, plain_linkLoss.timeless]
    split_ifs <;> rfl
  armed s := by
    unfold State.gaveUp
    split <;> split <;> simp only [plain_linkLoss.armed, plain_connectFailed.armed]
  env s := by
    unfold State.gaveUp
    split <;> split <;> simp only [plain_linkLoss.env, plain_connectFailed.env]
  cnt s := by
    unfold State.gaveUp
    split <;> split <;> simp only [plain_linkLoss.cnt, plain_connectFailed.cnt]

/-- A give-up outside a run, with what it does to the session (R148, R203). -/
theorem gaveUp_ends (t : State) : ∃ ds,
    (upd (State.gaveUp op) >>= fun _ => pure (Res.fail .timeout) : M Res) t.divert =
      .ok (Res.fail .timeout) (State.late t.wdCnt ds ({ t with wdArmed := false }.write (State.gaveUp op))) := by
  obtain ⟨ds, e⟩ := elapse_unarmed (s := t.divert) rfl
  refine ⟨ds, ?_⟩
  rw [m_bind, upd_unarmed _ rfl, e]
  show EStateM.Result.ok _ (State.write _ (({ t with wdArmed := false } : State).stamp ⟨t.wdCnt, 0, ds⟩)) = _
  rw [write_stamp (plain_gaveUp op)]
  rfl

theorem wdRun_gives_up (ha : s.wdArmed = false) (hi : s.env.ie = true) (hd : d ≠ 0)
    (h : Expires (runBody op) (s.started d) t) (hf : fb = .absent ∨ clkLower t.cfg t.clk = none) :
    ∃ ds, exec (.wdRun op fb d) s =
      .next (State.ended (Res.fail .timeout) ds ({ t with wdArmed := false }.write (State.gaveUp op))) := by
  obtain ⟨ds, e⟩ := gaveUp_ends (op := op) t
  refine ⟨ds, ?_⟩
  have hs : supervise (runBody op) fb d s = .ok (Res.fail .timeout) t.divert := by
    rw [supervise_begins ha hi hd, runLoop_expires (s := { s with wdDeadline := d }) h, recovery_gives_up hf]
  have hr : runWith op fb d s =
      .ok (Res.fail .timeout) (State.late t.wdCnt ds ({ t with wdArmed := false }.write (State.gaveUp op))) := by
    unfold runWith
    rw [m_bind, hs]
    exact e
  show primOp (runWith op fb d) s = _
  unfold primOp outcome
  rw [hr]
  have hc := (plain_gaveUp op).write.cnt { t with wdArmed := false }
  generalize State.write (State.gaveUp op) { t with wdArmed := false } = u at *
  rw [State.ended, hc]
  rfl

/-! ## Retrying -/

/-- A retry at a lower rate is a run begun with what the fallback leaves (R147, R201). -/
theorem supervise_retries {c : Nat} (hop : connects op = false) (ha : s.wdArmed = false) (hi : s.env.ie = true)
    (hd : d ≠ 0) (h : Expires (runBody op) (s.started d) t) (hc : clkLower t.cfg t.clk = some c) : ∃ ds,
    supervise (runBody op) .updi d s = supervise (runBody op) .updi d ((t.divert.lowered c).spent ds) := by
  obtain ⟨ds, e⟩ := recovery_retries hc
  refine ⟨ds, ?_⟩
  have hv : ((t.divert.lowered c).spent ds).clk = c := rfl
  have hw : ((t.divert.lowered c).spent ds).wdArmed = false := rfl
  have hx : ((t.divert.lowered c).spent ds).env.ie = t.env.ie := rfl
  have hy : ((t.divert.lowered c).spent ds).wdDeadline = t.wdDeadline := rfl
  generalize (t.divert.lowered c).spent ds = v at *
  have hs : Stays (s.started d) t := h.stays (runBody_stays hop)
  have hk : t.clk = s.clk := hs.clk
  have hl := clkLower_lt hc
  have hdl : t.wdDeadline = d := hs.deadline
  have hvd : ({ v with wdDeadline := d } : State) = v := by rw [← hdl, ← hy]
  rw [supervise_begins ha hi hd, runLoop_expires (s := { s with wdDeadline := d }) h, e,
    supervise_begins hw (hx.trans ((stays_flows.ie hs).trans hi)) hd, hvd, hv]
  exact runLoop_fuel (fun _ => runBody_stays hop) _ _ _ (by omega) (by omega)

/-- `WD.RUN` answers as its supervisor's loop does. -/
theorem wdRun_congr (h : supervise (runBody op) fb d s = supervise (runBody op) fb d t) :
    exec (.wdRun op fb d) s = exec (.wdRun op fb d) t := by
  show primOp (runWith op fb d) s = primOp (runWith op fb d) t
  unfold primOp outcome runWith
  rw [m_bind, m_bind, h]

end

/-- Settles O56: the pass that expires hands over to the recovery point (`runLoop_expires`), which gives up or
retries. -/
theorem runExpires : Obligations.RunExpires := by
  intro s t op fb d ha hi hd h
  refine ⟨wdRun_gives_up ha hi hd h, fun c hf hc hop => ?_⟩
  subst hf
  obtain ⟨ds, e⟩ := supervise_retries hop ha hi hd h hc
  exact ⟨ds, wdRun_congr e⟩

end Sys2Proof.Machine
end

section
/-! SUPPORT. What is refused before anything happens (R7, R320, R324), and R324's table of requirements. `Refuses m s`
says that from `s` the piece fails with `E_PRECOND` at once: no time passes, no frame goes out, no register changes. -/

namespace Sys2Proof.Machine

/-- The piece fails with `E_PRECOND` and leaves the state as it was (R324). -/
def Refuses {α : Type} (m : M α) (s : State) : Prop := m s = .error (.raise .precond) s

section
variable {α β : Type} {m : M α} {s : State}

theorem Refuses.fails {w : Bool} {n : Nat} (h : Refuses m s) : Fails w n m s .precond s := fun hw =>
  ⟨s.time, h, lasts_refl hw⟩

theorem refuses_bind {k : α → M β} (h : Refuses m s) : Refuses (m >>= k) s := by
  unfold Refuses at *
  rw [m_bind, h]

theorem refuses_get {k : State → M β} (h : Refuses (k s) s) : Refuses (get >>= k) s := h

/-- A requirement that is not met refuses by itself, so what follows may take it as met. -/
theorem refuses_require {p : Bool} {k : Unit → M β} (h : p = true → Refuses (k ()) s) :
    Refuses (require p >>= k) s := by
  cases p
  · exact rfl
  · exact h rfl

theorem refuses_cbMem {sc cmd mt : Byte} {a l : Addr} {d : List Byte} {f : Byte × Addr × Addr × List Byte → M β}
    (hc : s.cb.body = .request sc cmd (.mem mt a l d)) (h : Refuses (f (mt, a, l, d)) s) : Refuses (cbMem >>= f) s := by
  unfold cbMem
  rw [bind_assoc]
  refine refuses_get ?_
  rw [hc]
  exact h

theorem refuses_cbErase {sc cmd et : Byte} {a : Addr} {f : Byte × Addr → M β}
    (hc : s.cb.body = .request sc cmd (.erase et a)) (h : Refuses (f (et, a)) s) : Refuses (cbErase >>= f) s := by
  unfold cbErase
  rw [bind_assoc]
  refine refuses_get ?_
  rw [hc]
  exact h

/-- A translation that fails refuses by itself (R72, R84). -/
theorem refuses_translate {q : MemKind} {a : Addr} {l : Nat} {f : Addr → M β}
    (h : ∀ a', xlate s.cfg s.dd q a = some a' → Refuses (f a') s) : Refuses (Machine.translate q a l >>= f) s := by
  unfold Machine.translate
  rw [bind_assoc]
  refine refuses_get ?_
  cases hx : xlate s.cfg s.dd q a with
  | none => exact rfl
  | some a' =>
    show Refuses ((require (inSpace32 a' l) >>= fun _ => pure a') >>= f) s
    rw [bind_assoc]
    exact refuses_require fun _ => h a' hx

theorem refuses_ite {p : Prop} [Decidable p] {x y : M α} (hx : p → Refuses x s) (hy : ¬p → Refuses y s) :
    Refuses (if p then x else y) s := by
  split
  · exact hx ‹_›
  · exact hy ‹_›

end

/-! ## R324's table -/

/-- A requirement of R324's table that the state does not meet. -/
def Unmet (s : State) (i : Instr) : Prop :=
  needsLink i = true ∧ s.sess.link = false ∨ needsProg s i = true ∧ s.sess.prog = false ∨ badLength i = true ∨
    lacks s i = true

section
variable {s : State} {sc cmd mt et : Byte} {a l : Addr} {d : List Byte}

theorem unlinked_of_unmet {i : Instr} (hp : needsProg s i = false) (hb : badLength i = false)
    (hr : lacks s i = false) (h : Unmet s i) : s.sess.link = false := by
  simp only [Unmet, hp, hb, hr, Bool.false_eq_true, false_and, or_false] at h
  exact h.2

/-- An operation that only needs the link (R186, R187, R253, R260). -/
theorem refuses_unlinked {α : Type} {k : State → M α} (h : s.sess.link = false) :
    Refuses (get >>= fun t => require t.sess.link >>= fun _ => k t) s :=
  refuses_get (refuses_require fun hl => absurd (hl.symm.trans h) (by decide))

theorem refuses_writeExplicit {r : VariantRec} {w : PtrWidth} {k : MemKind} {page : Addr}
    (h : onePage a d.length page = false) : Refuses (writeExplicit r w k a d page) s :=
  refuses_require fun hp => absurd (hp.symm.trans h) (by decide)

/-- A page erase of a variant that takes the page's size from the descriptor (R275, R282). -/
theorem refuses_ctErase (h : s.dd.valid = false) : Refuses (ctErase .v0 a) s :=
  refuses_get (refuses_require fun hv => absurd (hv.symm.trans h) (by decide))

theorem refuses_updiErase (hb : s.cb.body = .request sc cmd (.erase et a)) (h : Unmet s (.updiEraseMemory et a)) :
    Refuses updiErase s := by
  refine refuses_cbErase hb (refuses_get (refuses_require fun hl => refuses_ite (fun hc => ?_) fun hc =>
    refuses_ite (fun he => refuses_require fun hp => refuses_translate fun a' _ => ?_) fun he => ?_))
  · exact absurd h (by simp [Unmet, needsLink, needsProg, badLength, lacks, hl, hc])
  · obtain ⟨_, hv, hd⟩ : et ≠ s.cfg.etChip ∧ s.ct = .v0 ∧ s.dd.valid = false := by
      simpa [Unmet, needsLink, needsProg, badLength, lacks, hl, hc, he, hp, and_assoc] using h
    rw [hv]
    exact refuses_ctErase hd
  · exact absurd h (by simp [Unmet, needsLink, needsProg, badLength, lacks, hl, hc, he])

theorem refuses_updiRead (hb : s.cb.body = .request sc cmd (.mem mt a l d)) (h : Unmet s (.updiReadMemory mt a l)) :
    Refuses updiRead s := by
  refine refuses_cbMem hb (refuses_get (refuses_require fun hn => refuses_require fun hl =>
    refuses_ite (fun hk => refuses_require fun hs => ?_) fun hk => refuses_ite (fun hg => ?_) fun hg =>
      refuses_require fun hp => ?_))
  all_goals obtain ⟨hn, hi⟩ := Bool.and_eq_true_iff.1 hn
  · exact absurd h (by simp [Unmet, needsLink, needsProg, badLength, lacks, hl, hn, hi, hk, hs])
  · refine refuses_get (refuses_require fun hd => absurd h ?_)
    simp [Unmet, needsLink, needsProg, badLength, lacks, hl, hn, hi, hg.1, hg.2, of_decide_eq_true hd]
  · exact absurd h (by simp [Unmet, needsLink, needsProg, badLength, lacks, hl, hn, hi, hk, hp])

/-- A write that would span two pages, or lacks the descriptor its pages need (R273, R275, R279). -/
theorem refuses_ctWrite {k : MemKind} {a' : Addr} (hd : d.length = l.toNat) (hx : xlate s.cfg s.dd k a = some a')
    (h : (memClass k = .flash ∧ s.ct = .v0) ∧
        (s.dd.valid = false ∨ lacks.crosses s k a l s.dd.desc.page.flash = true) ∨
      ((memClass k = .flash ∨ memClass k = .userrow) ∧ s.ct = .v4) ∧ lacks.crosses s k a l Config.v4FlashPage = true) :
    Refuses (ctWrite s.ct k a' d) s := by
  have hc : ∀ page, lacks.crosses s k a l page = true → onePage a' d.length page = false := fun page hp => by
    simpa [lacks.crosses, hx, hd] using hp
  rcases h with ⟨⟨hk, hv⟩, hr⟩ | ⟨⟨hk, hv⟩, hr⟩
  · rw [hv]
    refine refuses_get ?_
    simp only [hk]
    exact refuses_require fun hv => refuses_writeExplicit (hc _ (hr.resolve_left (by simp [hv])))
  · rw [hv]
    refine refuses_get ?_
    rcases hk with hk | hk <;> simp only [hk] <;> exact refuses_writeExplicit (hc _ hr)

theorem refuses_updiWrite (hb : s.cb.body = .request sc cmd (.mem mt a l d)) (h : Unmet s (.updiWriteMemory mt a l d)) :
    Refuses updiWrite s := by
  refine refuses_cbMem hb (refuses_get (refuses_require fun hn => refuses_require fun hl =>
    refuses_ite (fun hk => ?_) fun hk => refuses_require fun hp => ?_))
  all_goals
    simp only [Bool.and_eq_true, beq_iff_eq] at hn
    obtain ⟨⟨hn, hi⟩, hd⟩ := hn
  · refine refuses_get (refuses_require fun _ => refuses_require fun hm => absurd h ?_)
    have hm : l.toNat ≤ s.cfg.blockMaxUnits := hd ▸ of_decide_eq_true hm
    simp [Unmet, needsLink, needsProg, badLength, lacks, hl, hn, hi, hd, hk.1, hk.2, hm]
  · cases hk : memKind s.cfg mt with
    | none => exact absurd h (by simp [Unmet, needsLink, needsProg, badLength, lacks, hl, hn, hi, hd, hk, hp])
    | some k =>
      refine refuses_ite (fun hr => absurd h ?_) fun _ => refuses_translate fun a' hx => refuses_ctWrite hd hx ?_
      · simp [Unmet, needsLink, needsProg, badLength, lacks, hl, hn, hi, hd, hk, hp, hr]
      · simpa [Unmet, needsLink, needsProg, badLength, lacks, hl, hn, hi, hd, hk, hp] using h

theorem refuses_pdiErase (hb : s.cb.body = .request sc cmd (.erase et a)) (h : Unmet s (.pdiEraseMemory et a)) :
    Refuses pdiErase s := by
  refine refuses_cbErase hb (refuses_get (refuses_require fun hp => absurd h ?_))
  simp [Unmet, needsLink, needsProg, badLength, lacks, hp]

theorem refuses_pdiRead (hb : s.cb.body = .request sc cmd (.mem mt a l d)) (h : Unmet s (.pdiReadMemory mt a l)) :
    Refuses pdiRead s := by
  refine refuses_cbMem hb (refuses_get (refuses_require fun hn => refuses_require fun hp => absurd h ?_))
  obtain ⟨hn, hi⟩ := Bool.and_eq_true_iff.1 hn
  simp [Unmet, needsLink, needsProg, badLength, lacks, hn, hi, hp]

theorem refuses_pdiWrite (hb : s.cb.body = .request sc cmd (.mem mt a l d)) (h : Unmet s (.pdiWriteMemory mt a l d)) :
    Refuses pdiWrite s := by
  refine refuses_cbMem hb (refuses_get (refuses_require fun hn => refuses_require fun hp => absurd h ?_))
  simp only [Bool.and_eq_true, beq_iff_eq] at hn
  obtain ⟨⟨hn, hi⟩, hd⟩ := hn
  simp [Unmet, needsLink, needsProg, badLength, lacks, hn, hi, hd, hp]

theorem refuses_tpiErase (hb : s.cb.body = .request sc cmd (.erase et a)) (h : Unmet s (.tpiErase et a)) :
    Refuses tpiErase s := by
  refine refuses_cbErase hb (refuses_get (refuses_require fun hp => refuses_require fun hv => absurd h ?_))
  simp [Unmet, needsLink, needsProg, badLength, lacks, hp, hv]

theorem refuses_tpiRead (hb : s.cb.body = .request sc cmd (.mem mt a l d)) (h : Unmet s (.tpiReadMem mt a l)) :
    Refuses tpiRead s := by
  refine refuses_cbMem hb (refuses_get (refuses_require fun hn => refuses_require fun hp => absurd h ?_))
  obtain ⟨hn, hi⟩ := Bool.and_eq_true_iff.1 hn
  simp [Unmet, needsLink, needsProg, badLength, lacks, hn, hi, hp]

theorem refuses_tpiWrite (hb : s.cb.body = .request sc cmd (.mem mt a l d)) (h : Unmet s (.tpiWriteMem mt a l d)) :
    Refuses tpiWrite s := by
  refine refuses_cbMem hb (refuses_get (refuses_require fun hn => refuses_require fun hp => refuses_require fun hv =>
    refuses_require fun he => absurd h ?_))
  simp only [Bool.and_eq_true, beq_iff_eq] at hn
  simpa [Unmet, needsLink, needsProg, badLength, lacks, hn, hp, hv] using he

/-- A run's operation whose requirements of R324's table are not met fails at once. -/
theorem runBody_refuses {t : TpiCodes} {i : Instr} {op : RunOp} {scope : HostScope} {q : Payload}
    (hi : hostRun t i = some (op, scope, cmd, q)) (hb : s.cb.body = .request sc cmd q) (h : Unmet s i) :
    Refuses (runBody op) s := by
  cases i
  case updiEraseMemory => cases hi; exact refuses_updiErase hb h
  case updiReadMemory => cases hi; exact refuses_updiRead hb h
  case updiWriteMemory => cases hi; exact refuses_updiWrite hb h
  case pdiEraseMemory => cases hi; exact refuses_pdiErase hb h
  case pdiReadMemory => cases hi; exact refuses_pdiRead hb h
  case pdiWriteMemory => cases hi; exact refuses_pdiWrite hb h
  case tpiErase => cases hi; exact refuses_tpiErase hb h
  case tpiReadMem => cases hi; exact refuses_tpiRead hb h
  case tpiWriteMem => cases hi; exact refuses_tpiWrite hb h
  case updiEnterProgmode => cases hi; exact refuses_unlinked (unlinked_of_unmet rfl rfl rfl h)
  case updiLeaveProgmode => cases hi; exact refuses_unlinked (unlinked_of_unmet rfl rfl rfl h)
  case pdiEnterProgmode => cases hi; exact refuses_unlinked (unlinked_of_unmet rfl rfl rfl h)
  case pdiLeaveProgmode => cases hi; exact refuses_unlinked (unlinked_of_unmet rfl rfl rfl h)
  case pdiSignOn => exact absurd h (by simp [Unmet, needsLink, needsProg, badLength, lacks])
  case tpiEnterProgmode => exact absurd h (by simp [Unmet, needsLink, needsProg, badLength, lacks])
  all_goals cases hi

/-- An AVR-core operation under another `ARCH` than its engine's fails, and no time passes (R103, R324; log 13). -/
theorem avrOp_elsewhere {e : Arch} {p : Payload} {m : M Res} (h : s.arch ≠ e) : avrOp e cmd p m s =
    .next ((s.withRequest .avr cmd p).answered (Res.fail .precond) s.wdCnt s.env.delays) := by
  have hr : Refuses (get >>= fun t : State => require (t.arch == e) >>= fun _ => m) (s.withRequest .avr cmd p) :=
    refuses_get (refuses_require fun he => absurd (eq_of_beq he) h)
  unfold avrOp hostOp outcome
  rw [hr]
  rfl

/-- The AVR-core operations that are runs (R103, R153). -/
theorem exec_avrRun {i : Instr} {op : RunOp} {q : Payload} {t : TpiCodes}
    (hi : hostRun t i = some (op, .avr, cmd, q)) : exec i s = avrOp i.archOf cmd q (runOp op) s := by
  cases i <;> cases hi <;> rfl

end

/-- Settles O58: the body of an operation with an unmet requirement refuses (`runBody_refuses`), and its run fails with
that. -/
theorem requirementsAreChecked : Obligations.RequirementsAreChecked := by
  intro s
  refine ⟨fun i op scope cmd q hi => ⟨?_, fun ha hr hc h => ?_⟩, fun ha => ⟨avrOp_elsewhere ha, avrOp_elsewhere ha⟩,
    fun ha => avrOp_elsewhere ha⟩
  · rintro rfl ha
    exact (exec_avrRun hi).trans (avrOp_elsewhere ha)
  · rw [exec_hostRun hi ha]
    have hf : Refuses (runBody op) ((s.withRequest scope cmd q).started Config.wdDefaultMs) := runBody_refuses hi rfl h
    exact hostRun_fails (k := true) hr (fun _ => hf.fails) hc (by decide)

end Sys2Proof.Machine
end

section
/-! SUPPORT. The sending UPDI rows, the pointer-set and the bracketed blocks as their exchanges, and what each refuses
(R71, R74, R76, R174, R188, R190, R192, R193). -/

namespace Sys2Proof.Machine

section
variable {s : State} {c : Params} {w : PtrWidth} {a : Addr} {d : List Byte} {m : M Res}

/-- A primitive that refuses ends where it began, in no time (R11, R324). -/
theorem Refuses.primOp (h : Refuses m s) : primOp m s = .next (s.ended (Res.fail .precond) s.env.delays) :=
  primOp_raises h

theorem refuses_done {m : M Unit} (h : Refuses m s) : Refuses (done m) s := refuses_bind h

/-! ## Streams -/

/-- A stream instruction that carries its data is one instruction with the data as operands (R190, R192; log 28). -/
theorem plays_stream (c : Params) (op : Byte) (d : List Byte) : Plays .updi c (do
    instr op []
    send .updi d
    pure (Res.ok d.length)) (instrMoves c op d) (Res.ok d.length) :=
  plays_bind (plays_instr c op []) (plays_bind_nil (plays_send .updi c d) plays_pure)

/-! ## The pointer-set (R188) -/

/-- A wrong acknowledgement fails after its frame. -/
theorem breaks_setPtr {v : Byte} (hv : v ≠ c.updi.ack) :
    Breaks .updi (IsCfg c) (setPtr w a true) (setPtrMoves c w a false ++ [.into v]) (fun s => s) .status := by
  have hc : ∀ s, IsCfg c s → s.cfg = c := fun _ h => h
  have st := steady_isCfg .updi c
  have ef := effect_id .updi
  have moves : setPtrMoves c w a false ++ [.into v] =
      instrMoves c (opStPtr c w) (ptrBytes w a) ++ ([.into v] ++ []) := by simp [setPtrMoves]
  unfold setPtr
  refine breaks_get fun s hs _ => ?_
  rw [hc s hs, moves]
  refine breaks_plays_bind hc st (plays_instr c _ _) (breaks_plays_bind hc st (plays_rx .updi c v) ?_ ef) ef
  rw [if_pos hv]
  exact breaks_raise

/-! ## Blocks (R76, R188) -/

/-- A block that its bounds forbid is refused at its header. -/
theorem refuses_blockHeader {n : Nat} {op : Byte} {css : Bool} (h : ¬ blockOk s.cfg w a n) :
    Refuses (blockHeader w a n op css) s := by
  refine refuses_get (refuses_require fun hn => refuses_require fun hp => absurd ?_ h)
  simp only [Bool.and_eq_true, decide_eq_true_eq] at hn
  exact ⟨hn.1, hn.2, hp⟩

theorem refuses_sendBytesBlock (h : ¬ blockOk s.cfg w a d.length) : Refuses (sendBytesBlock w a d) s :=
  refuses_get (refuses_bind (refuses_blockHeader h))

theorem refuses_sendWordsBlock (h : d.length % 2 = 1 ∨ ¬ blockOk s.cfg w a (d.length / 2)) :
    Refuses (sendWordsBlock w a d) s :=
  refuses_get (refuses_require fun he => refuses_bind (refuses_blockHeader
    (h.resolve_left (by rw [of_decide_eq_true he]; decide))))

end

/-! ## The obligations -/

/-- Settles O12: each row is its exchange, and an odd word stream is refused. -/
theorem updiSends : Obligations.UpdiSends := by
  intro s rest ha hu
  refine ⟨fun hl => primOp_plays ha hu hl (plays_done (plays_tx _ _)),
    fun r v hl => primOp_plays ha hu hl (plays_done (plays_stcs _ _ r v)), keyBytes_length s.cfg,
    fun k hl => primOp_plays ha hu hl (plays_done (plays_sendKey _ k)),
    fun n hl => primOp_plays ha hu hl (plays_done (plays_instr _ _ _)),
    fun d hl => primOp_plays ha hu hl (plays_stream _ _ d),
    fun d hd hl => primOp_plays ha hu hl (plays_require (decide_eq_true hd) (plays_stream _ _ d)), fun d hd => ?_⟩
  exact Refuses.primOp (refuses_require fun he => absurd (of_decide_eq_true he) (by rw [hd]; decide))

/-- Settles O15: the exchange with the right acknowledgement, a wrong one (`breaks_setPtr`), the width. -/
theorem updiPointerSet : Obligations.UpdiPointerSet := by
  intro s w a rest ha hu
  refine ⟨fun hf hl => primOp_plays ha hu hl (plays_done (plays_require hf (plays_setPtr _ w a _))),
    fun v hf hk hv hl => ?_, fun hf => ?_⟩
  · refine primOp_fails ha (fun n => fails_done (fails_require_pass hf ?_)) rfl
    rw [hk]
    exact breaks_setPtr hv true n s rest hu rfl hl
  · exact Refuses.primOp (refuses_done (refuses_require fun hp => absurd (hp.symm.trans hf) (by decide)))

/-- Settles O19: the blocks' exchanges, and the refusal at their headers (`refuses_blockHeader`). -/
theorem updiBracketedBlocks : Obligations.UpdiBracketedBlocks := by
  intro s a d rest ha hu
  refine ⟨fun hb hl => primOp_plays ha hu hl (plays_bind_nil (plays_sendBytesBlock hb) plays_pure),
    fun he hb hl => primOp_plays ha hu hl (plays_bind_nil (plays_sendWordsBlock hb he) plays_pure),
    fun hb => Refuses.primOp (refuses_bind (refuses_sendBytesBlock hb)),
    fun hb => Refuses.primOp (refuses_bind (refuses_sendWordsBlock hb))⟩

/-! ## The explicit write method (R273, R285) -/

/-- The row, of a bound variant with a record and a known memory type, is the method's piece. -/
theorem exec_explicit {s : State} {r : VariantRec} {mt : Byte} {k : MemKind} {page a : Addr} {d : List Byte}
    (hr : variantRec s.cfg s.ct = some r) (hk : memKind s.cfg mt = some k) :
    exec (.nvmWriteMethod (.explicit page) mt a d) s = primOp (writeExplicit r (boundWidth s) k a d page) s := by
  show execNvmWriteMethod (.explicit page) mt a d s = _
  unfold execNvmWriteMethod
  rw [hr, hk]

theorem setTracker_same {s : State} {p : Option Addr} (h : s.beforePage = p) : s.setTracker p = s := by
  subst h
  rfl

/-- Settles O34: the method's exchange with the tracker it leaves (`acts_writeExplicit`), and the page's bounds. -/
theorem explicitMethod : Obligations.ExplicitMethod := by
  intro s r mt k a d page ha hu hr hk w p
  rw [exec_explicit hr hk]
  refine ⟨fun m2 rest ho ht hp h2 hl => ?_, fun m1 m2 rest ho ht hp h1 h2 hl => ?_, fun ho => ?_⟩
  · refine primOp_goes ha (fun n => ?_) rfl
    rw [← setTracker_same (s := s.moved .updi m2 rest) hp]
    exact acts_writeExplicit (m1 := []) ho ht (by rw [if_pos rfl]) h2 true n s rest hu ⟨rfl, hp⟩ hl
  · exact primOp_goes ha (fun n => acts_writeExplicit ho ht (if_neg hp ▸ h1) h2 true n s rest hu ⟨rfl, rfl⟩ hl) rfl
  · exact Refuses.primOp (refuses_writeExplicit ho)

end Sys2Proof.Machine
end

section
/-! SUPPORT. The PDI blocks with their bounds (R76, R255), and the UART's owners (R86, R308, R309, R310). -/

namespace Sys2Proof.Machine

/-! ## The PDI blocks -/

section
variable {s : State} {a : Addr}

/-- What PDI sends it takes nothing from the line for (R251). -/
theorem lineOf_pdi_outs (bs : List Byte) : lineOf .pdi (outs bs) = [] := by simp [lineOf, outs, moveLine]

theorem lineOf_pdiSend (c : Params) (a : Addr) (d : List Byte) : lineOf .pdi (pdiSendMoves c a d) = [] := by
  simp [pdiSendMoves, pdiHeadMoves, lineOf_pdi_outs]

theorem refuses_requireUnits {n : Nat} (h : n = 0 ∨ s.cfg.blockMaxUnits < n) : Refuses (requireUnits n) s := by
  have hp : (decide (1 ≤ n) && decide (n ≤ s.cfg.blockMaxUnits)) = false := by
    simp only [Bool.and_eq_false_iff, decide_eq_false_iff_not]
    omega
  refine refuses_get ?_
  rw [hp]
  exact rfl

theorem refuses_pdiRecvBlock {n : Nat} (h : n = 0 ∨ s.cfg.blockMaxUnits < n) : Refuses (pdiRecvBlock a n) s :=
  refuses_get (refuses_bind (refuses_requireUnits h))

theorem refuses_pdiSendBlock {d : List Byte} (h : d = [] ∨ s.cfg.blockMaxUnits < d.length) :
    Refuses (pdiSendBlock a d) s :=
  refuses_get (refuses_bind (refuses_requireUnits (h.imp_left List.length_eq_zero_iff.2)))

end

/-- Settles O45: the blocks' exchanges, and a count out of bounds (`refuses_requireUnits`). -/
theorem pdiBlocks : Obligations.PdiBlocks := by
  intro s a rest ha hu
  refine ⟨fun n d hn hd hl => primOp_plays ha hu hl ?_, fun d h1 hd hl => ?_,
    fun d hd => Refuses.primOp (refuses_bind (refuses_pdiSendBlock hd)),
    fun n hn => Refuses.primOp (refuses_bind (refuses_pdiRecvBlock (.inr hn)))⟩
  · show Plays .pdi s.cfg (do let d ← pdiRecvBlock a (n.toNat + 1); pure (Res.read d)) _ _
    rw [← hn]
    exact plays_bind_nil (plays_pdiRecvBlock (by omega) hd) plays_pure
  · have hh : s.hears .pdi (pdiSendMoves s.cfg a d) rest := by rw [State.hears, lineOf_pdiSend, hl]; rfl
    exact primOp_plays ha hu hh (plays_bind_nil (plays_pdiSendBlock h1 hd) plays_pure)

/-! ## The UART's owners -/

/-- What a quiesce leaves (R309). -/
theorem State.quiesce_eq_quiesced (s : State) :
    s.quiesce = { s with tclk := false, tdat := none, hist := quiesced s s.hist } := by
  rw [State.quiesce_eq, quiesceEvents_append]

/-- Another owner than the engine holds the UART (R308). -/
theorem heldElsewhere_iff (m : Umode) (e : Engine) :
    m = .vcp ∨ (m.isEngine ∧ m ≠ engineMode e) ↔ ¬(m = .idle ∨ m = engineMode e) := by
  cases m <;> cases e <;> decide

/-- What an acquire leaves (R308). -/
theorem State.acquire_eq (e : Engine) (s : State) : s.acquire e =
    if s.umode = .idle ∨ s.umode = engineMode e then { s with umode := engineMode e }
    else { s with umode := engineMode e, tclk := false, tdat := none, hist := quiesced s s.hist } := by
  rcases State.acquire_cases e s with ⟨h, ha⟩ | ⟨h, ha⟩ <;> rw [ha]
  · rw [if_neg ((heldElsewhere_iff _ e).1 h), State.quiesce_eq_quiesced]
  · rw [if_pos (not_not.1 (mt (heldElsewhere_iff _ e).2 h))]

/-- What the virtual port's opening and closing leave (R310). -/
theorem State.vcp_eq (v : Bool) (s : State) : s.vcp v =
    if s.umode = .idle ∧ v = true then { s with ui := { s.ui with vcpOpen := v }, umode := .vcp }
    else if s.umode = .vcp ∧ v = false then
      { s with
        ui := { s.ui with vcpOpen := v }, umode := .idle, tclk := false, tdat := none, hist := quiesced s s.hist }
    else { s with ui := { s.ui with vcpOpen := v } } := by
  unfold State.vcp
  simp only [State.quiesce_eq_quiesced]
  cases s.umode <;> cases v <;> rfl

/-- Settles O52: each row is one change of registers. -/
theorem uartOwners : Obligations.UartOwners := by
  intro s q
  exact ⟨congrArg Host.Outcome.next s.quiesce_eq_quiesced, fun e => congrArg Host.Outcome.next (s.acquire_eq e),
    congrArg Host.Outcome.next s.releaseUart_eq, fun v => congrArg Host.Outcome.next (s.vcp_eq v)⟩

end Sys2Proof.Machine
end

section
/-! SUPPORT. The decoder reads back what the encoder writes (R100 to R105, R111, R119, R121, R221): each reader its
field's bytes, each space's decoder its rows. -/

namespace Sys2Proof

/-! ## Readers -/

/-- A reader that has read goes on with what it read and the bytes after it. -/
@[simp] theorem read_ok_bind {α β : Type} (x : α) (f : α → Except DecodeError β) : (Except.ok x >>= f) = f x := rfl

@[simp] theorem ofBytes4_byteOf (a : Addr) : ofBytes4 (byteOf a 0) (byteOf a 1) (byteOf a 2) (byteOf a 3) = a := by
  ext i hi
  grind [ofBytes4, byteOf]

@[simp] theorem u8_cons (b : Byte) (rest : List Byte) : u8 (b :: rest) = .ok (b, rest) := rfl

@[simp] theorem u16le_le16 (h : Half) : u16le (le16 h) = .ok (h, []) := by
  have hh : h.extractLsb' 8 8 ++ h.extractLsb' 0 8 = h := BitVec.extractLsb'_append_extractLsb'
  rw [le16, u16le, hh]

@[simp] theorem u32le_append (a : Addr) (rest : List Byte) : u32le (le32 a ++ rest) = .ok (a, rest) :=
  congrArg (fun x => Except.ok (x, rest)) (ofBytes4_byteOf a)

@[simp] theorem u32be_append (a : Addr) (rest : List Byte) : u32be (be32 a ++ rest) = .ok (a, rest) :=
  congrArg (fun x => Except.ok (x, rest)) (ofBytes4_byteOf a)

@[simp] theorem u32le_le32 (a : Addr) : u32le (le32 a) = .ok (a, []) := u32le_append a []

@[simp] theorem u32be_be32 (a : Addr) : u32be (be32 a) = .ok (a, []) := u32be_append a []

section
variable (rest : List Byte)

@[simp] theorem ubool_boolByte (b : Bool) : ubool (boolByte b :: rest) = .ok (b, rest) := by
  cases b <;> rfl

@[simp] theorem ubool_zero : ubool (0#8 :: rest) = .ok (false, rest) := rfl

@[simp] theorem ubool_one : ubool (1#8 :: rest) = .ok (true, rest) := rfl

@[simp] theorem readRunOp_code (op : RunOp) : readRunOp (op.code :: rest) = .ok (op, rest) := by
  cases op <;> rfl

@[simp] theorem readFallback_code (f : FallbackSel) : readFallback (f.code :: rest) = .ok (f, rest) := by
  cases f <;> rfl

@[simp] theorem readKey_code (k : UpdiKey) : readKey (k.code :: rest) = .ok (k, rest) := by
  cases k <;> rfl

@[simp] theorem readEngine_code (e : Engine) : readEngine (e.code :: rest) = .ok (e, rest) := by
  cases e <;> rfl

@[simp] theorem readAvrArch_code (a : AvrArch) : readAvrArch (a.code :: rest) = .ok (a, rest) := by
  cases a <;> rfl

@[simp] theorem readUnit_code (w : UnitWidth) : readUnit (w.code :: rest) = .ok (w, rest) := by
  cases w <;> rfl

@[simp] theorem readDdKind_code (k : DdKind) : readDdKind (k.code :: rest) = .ok (k, rest) := by
  cases k <;> rfl

@[simp] theorem readMethod_bytes (m : WriteMethod) : readMethod (m.bytes ++ rest) = .ok (m, rest) := by
  cases m with
  | explicit page => simp [readMethod, WriteMethod.bytes]
  | plain | atomic | bytewise | burst2 => rfl

@[simp] theorem readAreas_bytes (t : AreaTable) : readAreas (t.bytes ++ rest) = .ok (t, rest) := by
  simp [readAreas, AreaTable.bytes]

end

@[simp] theorem readVariantFn_bytes (f : VariantFn) : readVariantFn f.bytes = .ok f := by
  cases f with
  | progInit => rfl
  | readMemory mt a n | eraseMemory et a | writeMemory mt a d => simp [readVariantFn, VariantFn.bytes]

@[simp] theorem readDevDesc_bytes (d : DevDesc) : readDevDesc d.bytes = .ok (d, []) := by
  simp [readDevDesc, DevDesc.bytes]

@[simp] theorem parseDevDesc_bytes (d : DevDesc) : parseDevDesc d.bytes = d := by
  rw [parseDevDesc, readDevDesc_bytes]

/-- An unnamed parameter is neither of the two TPB knows (R109). -/
theorem readParam_bytes {p : ParamSet} (h : p.wf = true) : readParam p.bytes = .ok p := by
  cases p with
  | arch v => rfl
  | deviceDesc d =>
    have hd : Config.paramDeviceDesc ≠ Config.paramArch := by decide
    simp [readParam, ParamSet.bytes, hd]
  | other which value =>
    simp only [ParamSet.wf, Bool.and_eq_true, bne_iff_ne] at h
    obtain ⟨⟨ha, hd⟩, -⟩ := h
    simp [readParam, ParamSet.bytes, ha, hd]

/-- A write keeps the data its length announces (R100). -/
theorem wfWrite_take {n : Addr} {d : List Byte} (h : wfWrite n d = true) : d.take n.toNat = d := by
  simp only [wfWrite, Bool.and_eq_true, decide_eq_true_eq] at h
  exact List.take_of_length_le h.1

@[simp] theorem readErase_le32 (mk : Byte → Addr → Instr) (et : Byte) (a : Addr) :
    readErase u32le mk (et :: le32 a) = .ok (mk et a) := by simp [readErase]

@[simp] theorem readErase_be32 (mk : Byte → Addr → Instr) (et : Byte) (a : Addr) :
    readErase u32be mk (et :: be32 a) = .ok (mk et a) := by simp [readErase]

@[simp] theorem readRead_le32 (mk : Byte → Addr → Addr → Instr) (mt : Byte) (a n : Addr) :
    readRead u32le mk (mt :: (le32 a ++ le32 n)) = .ok (mk mt a n) := by simp [readRead]

@[simp] theorem readRead_be32 (mk : Byte → Addr → Addr → Instr) (mt : Byte) (a n : Addr) :
    readRead u32be mk (mt :: (be32 a ++ be32 n)) = .ok (mk mt a n) := by simp [readRead]

theorem readWrite_le32 (mk : Byte → Addr → Addr → List Byte → Instr) (mt : Byte) (a : Addr) {n : Addr} {d : List Byte}
    (h : wfWrite n d = true) : readWrite u32le mk (mt :: (le32 a ++ (le32 n ++ d))) = .ok (mk mt a n d) := by
  simp [readWrite, wfWrite_take h]

theorem readWrite_be32 (mk : Byte → Addr → Addr → List Byte → Instr) (mt : Byte) (a : Addr) {n : Addr} {d : List Byte}
    (h : wfWrite n d = true) : readWrite u32be mk (mt :: (be32 a ++ (be32 n ++ d))) = .ok (mk mt a n d) := by
  simp [readWrite, wfWrite_take h]

@[simp] theorem readAddrData_le32 (mk : Addr → List Byte → Instr) (a : Addr) (d : List Byte) :
    readAddrData mk (le32 a ++ d) = .ok (mk a d) := by simp [readAddrData]

@[simp] theorem readMtAddrData_le32 (mk : Byte → Addr → List Byte → Instr) (mt : Byte) (a : Addr) (d : List Byte) :
    readMtAddrData mk (mt :: (le32 a ++ d)) = .ok (mk mt a d) := by simp [readMtAddrData]

/-! ## Selectors -/

section
variable {sc : Scopes} (h : sc.ok = true) (arch : Arch) (code : Byte) (d : List Byte)
include h

theorem Scopes.nodup_codes : sc.tpiCodes.all.Nodup := by
  simp only [Scopes.ok, Bool.and_eq_true, decide_eq_true_eq] at h
  exact h.2

theorem Scopes.nodup_selectors :
    [sc.avr, sc.tpi, sc.general, sc.edbg, selBare, selUpdiWire, selTpiWire, selPdiWire, selInternal].Nodup := by
  simp only [Scopes.ok, Bool.and_eq_true, decide_eq_true_eq] at h
  exact h.1

theorem Scopes.tpi_ne_avr : sc.tpi ≠ sc.avr := by
  have hs := sc.nodup_selectors h
  simp only [List.nodup_cons, List.mem_cons, not_or] at hs
  exact Ne.symm hs.1.1

/-- A selector of the model's own spaces is neither of TPB's scopes (R101). -/
theorem Scopes.own_ne {sel : Byte} (hm : sel ∈ [selUpdiWire, selTpiWire, selPdiWire, selInternal]) :
    sel ≠ sc.avr ∧ sel ≠ sc.tpi := by
  have hs : ([sc.avr, sc.tpi] ++ ([sc.general, sc.edbg, selBare] ++
    [selUpdiWire, selTpiWire, selPdiWire, selInternal])).Nodup := sc.nodup_selectors h
  have hd := (List.nodup_append'.1 hs).2.2
  have hm' := List.mem_append_right [sc.general, sc.edbg, selBare] hm
  exact ⟨fun e => hd (by simp) (e ▸ hm'), fun e => hd (by simp) (e ▸ hm')⟩

theorem decode_tpiRec : decode sc arch (hostRec sc .tpi code d) = decodeTpi sc.tpiCodes code d := by
  simp [hostRec, mkRecord, decode, HostScope.byte, sc.tpi_ne_avr h]

theorem decode_updiRec : decode sc arch (updiRec code d) = decodeUpdiWire code d := by
  obtain ⟨ha, ht⟩ := sc.own_ne h (sel := selUpdiWire) (by decide)
  simp [updiRec, mkRecord, decode, ha, ht]

theorem decode_tpiWireRec : decode sc arch (tpiWireRec code d) = decodeTpiWire code d := by
  obtain ⟨ha, ht⟩ := sc.own_ne h (sel := selTpiWire) (by decide)
  simp [tpiWireRec, mkRecord, decode, ha, ht, show selTpiWire ≠ selUpdiWire by decide]

theorem decode_pdiRec : decode sc arch (pdiRec code d) = decodePdiWire code d := by
  obtain ⟨ha, ht⟩ := sc.own_ne h (sel := selPdiWire) (by decide)
  simp [pdiRec, mkRecord, decode, ha, ht, show selPdiWire ≠ selUpdiWire by decide,
    show selPdiWire ≠ selTpiWire by decide]

theorem decode_intRec : decode sc arch (intRec code d) = decodeInternal code d := by
  obtain ⟨ha, ht⟩ := sc.own_ne h (sel := selInternal) (by decide)
  simp [intRec, mkRecord, decode, ha, ht, show selInternal ≠ selUpdiWire by decide,
    show selInternal ≠ selTpiWire by decide, show selInternal ≠ selPdiWire by decide]

end

theorem decode_avrRec (sc : Scopes) (arch : Arch) (code : Byte) (d : List Byte) :
    decode sc arch (hostRec sc .avr code d) = decodeAvr arch code d := if_pos rfl

/-! ## Host codes -/

/-- A code the AVR-core scope does not assign is an unknown command (R102, R113). -/
theorem decodeAvr_unassigned (arch : Arch) {code : Byte} (h : code ∉ avrCodes) (d : List Byte) :
    decodeAvr arch code d = .ok (.unknown .avr code) := by
  have assigned {n : Nat} (hc : code.toNat = n) (hn : BitVec.ofNat 8 n ∈ avrCodes) : False :=
    h (by rwa [← hc, BitVec.ofNat_toNat, BitVec.setWidth_eq] at hn)
  unfold decodeAvr
  split
  case h_10 => rfl
  all_goals exact (assigned ‹_› (by decide)).elim

/-! In the TPI scope the codes differ, so each is reached past the ones before it (R104). -/

section
variable {t : TpiCodes} (h : t.all.Nodup) (d : List Byte)
include h

theorem decodeTpi_leaveProgmode : decodeTpi t t.leaveProgmode d = .ok .tpiLeaveProgmode := by
  grind [decodeTpi, TpiCodes.all]

theorem decodeTpi_erase : decodeTpi t t.erase d = readErase u32be .tpiErase d := by
  grind [decodeTpi, TpiCodes.all]

theorem decodeTpi_writeMem : decodeTpi t t.writeMem d = readWrite u32be .tpiWriteMem d := by
  grind [decodeTpi, TpiCodes.all]

theorem decodeTpi_readMem : decodeTpi t t.readMem d = readRead u32be .tpiReadMem d := by
  grind [decodeTpi, TpiCodes.all]

theorem decodeTpi_crc : decodeTpi t t.crc d = .ok .tpiCrc := by
  grind [decodeTpi, TpiCodes.all]

theorem decodeTpi_setParam : decodeTpi t t.setParam d = .ok (.tpiSetParam d) := by
  grind [decodeTpi, TpiCodes.all]

end

/-- A code the TPI scope does not assign is an unknown command (R104, R113). -/
theorem decodeTpi_unassigned {t : TpiCodes} {code : Byte} (h : code ∉ t.all) (d : List Byte) :
    decodeTpi t code d = .ok (.unknown .tpi code) := by
  simp only [TpiCodes.all, List.mem_cons, List.not_mem_nil, or_false, not_or] at h
  simp [decodeTpi, h]

/-! ## Wire opcodes -/

theorem toNat_ldcsCode (r : RegIx) : (ldcsCode r).toNat = 0x80 + r.toNat := by
  revert r
  decide

theorem toNat_stcsCode (r : RegIx) : (stcsCode r).toNat = 0xC0 + r.toNat := by
  revert r
  decide

theorem highNibble_ldcsCode (r : RegIx) : highNibble (ldcsCode r) = 0x8 := by
  revert r
  decide

theorem highNibble_stcsCode (r : RegIx) : highNibble (stcsCode r) = 0xC := by
  revert r
  decide

theorem regOf_ldcsCode (r : RegIx) : regOf (ldcsCode r) = r := by
  revert r
  decide

theorem regOf_stcsCode (r : RegIx) : regOf (stcsCode r) = r := by
  revert r
  decide

section
variable (r : RegIx) (v : Byte) (d : List Byte)

theorem decodeUpdiWire_ldcs : decodeUpdiWire (ldcsCode r) d = .ok (.updiLdcs r) := by
  have hr := toNat_ldcsCode r
  unfold decodeUpdiWire
  split
  case h_11 => simp [highNibble_ldcsCode, regOf_ldcsCode]
  all_goals omega

theorem decodeUpdiWire_stcs : decodeUpdiWire (stcsCode r) (v :: d) = .ok (.updiStcs r v) := by
  have hr := toNat_stcsCode r
  unfold decodeUpdiWire
  split
  case h_11 => simp [highNibble_stcsCode, regOf_stcsCode]
  all_goals omega

theorem decodeTpiWire_ldcs : decodeTpiWire (ldcsCode r) d = .ok (.tpiLdcs r) := by
  have hr := toNat_ldcsCode r
  unfold decodeTpiWire
  split
  case h_6 => simp [highNibble_ldcsCode, regOf_ldcsCode]
  all_goals omega

theorem decodeTpiWire_stcs : decodeTpiWire (stcsCode r) (v :: d) = .ok (.tpiStcs r v) := by
  have hr := toNat_stcsCode r
  unfold decodeTpiWire
  split
  case h_6 => simp [highNibble_stcsCode, regOf_stcsCode]
  all_goals omega

theorem decodePdiWire_ldcs : decodePdiWire (ldcsCode r) d = .ok (.pdiLdcs r) := by
  have hr := toNat_ldcsCode r
  unfold decodePdiWire
  split
  case h_8 => simp [highNibble_ldcsCode, regOf_ldcsCode]
  all_goals omega

theorem decodePdiWire_stcs : decodePdiWire (stcsCode r) (v :: d) = .ok (.pdiStcs r v) := by
  have hr := toNat_stcsCode r
  unfold decodePdiWire
  split
  case h_8 => simp [highNibble_stcsCode, regOf_stcsCode]
  all_goals omega

end

/-- Bit 4 of a TPI opcode is set in SOUT and SIN alone, bit 7 in SOUT of the two (R221). -/
theorem bits_soutCode (io : IoIx) :
    (0x90#8 ||| ioBits io).getLsbD 4 = true ∧ (0x90#8 ||| ioBits io).getLsbD 7 = true := by
  revert io
  decide

theorem bits_sinCode (io : IoIx) :
    (0x10#8 ||| ioBits io).getLsbD 4 = true ∧ (0x10#8 ||| ioBits io).getLsbD 7 = false := by
  revert io
  decide

theorem ioOf_soutCode (io : IoIx) : ioOf (0x90#8 ||| ioBits io) = io := by
  revert io
  decide

theorem ioOf_sinCode (io : IoIx) : ioOf (0x10#8 ||| ioBits io) = io := by
  revert io
  decide

section
variable {code : Byte} (h4 : code.getLsbD 4 = true)
include h4

theorem toNat_of_bit4 : code.toNat / 16 % 2 = 1 := by
  rw [← BitVec.testBit_toNat, Nat.testBit_eq_decide_div_mod_eq] at h4
  exact of_decide_eq_true h4

theorem highNibble_ne_of_bit4 : highNibble code ≠ 0x8 ∧ highNibble code ≠ 0xC := by
  have h : (highNibble code).getLsbD 0 = true := by simpa [highNibble] using h4
  exact ⟨fun e => absurd (e ▸ h) (by decide), fun e => absurd (e ▸ h) (by decide)⟩

/-- An opcode with bit 4 set is SOUT or SIN, by its bit 7 (R221). -/
theorem decodeTpiWire_sout (h7 : code.getLsbD 7 = true) (v : Byte) (d : List Byte) :
    decodeTpiWire code (v :: d) = .ok (.tpiSout (ioOf code) v) := by
  have hc := toNat_of_bit4 h4
  obtain ⟨h8, hC⟩ := highNibble_ne_of_bit4 h4
  unfold decodeTpiWire
  split
  case h_6 => rw [if_neg h8, if_neg hC, if_pos h4, if_pos h7, u8_cons, read_ok_bind]
  all_goals omega

theorem decodeTpiWire_sin (h7 : code.getLsbD 7 = false) (d : List Byte) :
    decodeTpiWire code d = .ok (.tpiSin (ioOf code)) := by
  have hc := toNat_of_bit4 h4
  obtain ⟨h8, hC⟩ := highNibble_ne_of_bit4 h4
  unfold decodeTpiWire
  split
  case h_6 => rw [if_neg h8, if_neg hC, if_pos h4, h7, if_neg Bool.false_ne_true]
  all_goals omega

end

/-! ## The obligations -/

/-- Settles O3: an instruction's record goes to the decoder of its space, which reads its row's fields back. -/
theorem decodeEncodeRoundTrip : Obligations.DecodeEncodeRoundTrip := by
  intro sc i hs hw
  have hn := sc.nodup_codes hs
  cases i
  -- the AVR-core scope, `ARCH` selecting the engine
  case sysSetParameter p => simp [encode, decode_avrRec, decodeAvr, readParam_bytes hw]
  case updiWriteMemory mt a n d | pdiWriteMemory mt a n d =>
    simp [encode, decode_avrRec, decodeAvr, Instr.archOf, readWrite_le32 _ mt a hw]
  case sysGetParameter | updiSignOn | updiSignOff | updiEnterProgmode | updiLeaveProgmode | updiEraseMemory |
      updiReadMemory | pdiSignOn | pdiSignOff | pdiEnterProgmode | pdiLeaveProgmode | pdiEraseMemory | pdiReadMemory =>
    simp [encode, decode_avrRec, decodeAvr, Instr.archOf]
  case unknown scope cmd =>
    have hc : cmd ∉ scope.codes sc := by simpa [Instr.wf] using hw
    cases scope with
    | avr => exact (decode_avrRec _ _ _ _).trans (decodeAvr_unassigned _ hc _)
    | tpi => exact (decode_tpiRec hs _ _ _).trans (decodeTpi_unassigned hc _)
  -- the TPI scope
  case tpiWriteMem mt a n d => simp [encode, decode_tpiRec hs, decodeTpi_writeMem hn, readWrite_be32 _ mt a hw]
  case tpiEnterProgmode => exact (decode_tpiRec hs _ _ _).trans (if_pos rfl)
  case tpiLeaveProgmode | tpiErase | tpiReadMem | tpiCrc | tpiSetParam =>
    simp [encode, decode_tpiRec hs, decodeTpi_leaveProgmode hn, decodeTpi_erase hn, decodeTpi_readMem hn,
      decodeTpi_crc hn, decodeTpi_setParam hn]
  -- the wire instructions of the three engines
  case updiLdcs | updiStcs => simp [encode, decode_updiRec hs, decodeUpdiWire_ldcs, decodeUpdiWire_stcs]
  case updiStPtr w a => cases w <;> simp [encode, decode_updiRec hs, decodeUpdiWire]
  case updiSynch | updiKey | updiSib | updiRepeat | updiLdInc8 | updiLdInc16 | updiStInc8 | updiStInc16 =>
    simp [encode, decode_updiRec hs, decodeUpdiWire]
  case tpiLdcs | tpiStcs => simp [encode, decode_tpiWireRec hs, decodeTpiWire_ldcs, decodeTpiWire_stcs]
  case tpiSout io v =>
    obtain ⟨h4, h7⟩ := bits_soutCode io
    rw [encode, decode_tpiWireRec hs, decodeTpiWire_sout h4 h7, ioOf_soutCode]
  case tpiSin io =>
    obtain ⟨h4, h7⟩ := bits_sinCode io
    rw [encode, decode_tpiWireRec hs, decodeTpiWire_sin h4 h7, ioOf_sinCode]
  case tpiKey | tpiSetPtrLo | tpiSetPtrHi | tpiLdInc | tpiStInc =>
    simp [encode, decode_tpiWireRec hs, decodeTpiWire]
  case pdiLdcs | pdiStcs => simp [encode, decode_pdiRec hs, decodePdiWire_ldcs, decodePdiWire_stcs]
  case pdiKey | pdiSts8 | pdiLds8 | pdiSetPtr | pdiRepeat | pdiLdInc | pdiStInc =>
    simp [encode, decode_pdiRec hs, decodePdiWire]
  -- the internal primitives and events: first the rows whose record depends on an operand's form
  case pdiBlock a req => cases req <;> simp [encode, decode_intRec hs, decodeInternal]
  case nvmCtl req => cases req <;> simp [encode, decode_intRec hs, decodeInternal]
  case nvmPage req => cases req <;> simp [encode, decode_intRec hs, decodeInternal]
  case nvmOpaque v f => cases v <;> simp [encode, decode_intRec hs, decodeInternal]
  all_goals simp [encode, decode_intRec hs, decodeInternal]

/-- Settles O4: the words as the decoder reads them, field by field. -/
theorem wordsDecode : Obligations.WordsDecode := ⟨rfl, rfl, rfl, rfl, rfl, rfl, rfl⟩

end Sys2Proof
end

section
/-! SUPPORT. The fetch (R111, R334), the commands without an engine (R104, R113), and the TPI wire rows as their
exchanges (R220, R221, R223). -/

namespace Sys2Proof.Machine

/-! ## The step and the commands without an engine -/

/-- With nothing pending, the main loop's turn is the host's next record (R111, R334). -/
theorem nextTurn_fetch {s : State} (hp : s.env.pend = Pending.empty) : nextTurn s = fetchRecord s := by
  have hg : s.applyGlue = s := by
    unfold State.applyGlue
    rw [hp]
    rfl
  unfold nextTurn
  rw [hg]
  dsimp only
  rw [hp]
  rfl

theorem fetchRecord_decoded {s : State} {r : List Byte} {rest : List (List Byte)} {i : Instr}
    (hr : s.env.stream = r :: rest) (hd : decode s.cfg.scopes s.arch r = .ok i) :
    fetchRecord s = .run i (s.takeRecord r rest) := by
  unfold fetchRecord
  rw [hr]
  dsimp only
  rw [hd]

theorem step_decoded {s : State} {r : List Byte} {rest : List (List Byte)} {i : Instr}
    (hp : s.env.pend = Pending.empty) (hr : s.env.stream = r :: rest) (hd : decode s.cfg.scopes s.arch r = .ok i) :
    step s = exec i (s.takeRecord r rest) := by
  unfold step
  rw [nextTurn_fetch hp, fetchRecord_decoded hr hd]

/-- Settles O1: a table's word is the next record, with nothing pending before it. -/
theorem stepRunsDecoded : Obligations.StepRunsDecoded := fun _ _ =>
  ⟨fun _ _ hp hr hd => step_decoded hp hr hd, fun _ _ hd => step_decoded rfl rfl hd⟩

theorem respond_ok (c : Params) {n : Nat} (h : n ≠ 0) : respond c (Res.ok n) = ⟨c.rspOk, n, []⟩ := if_neg h

theorem respond_read (c : Params) {d : List Byte} (h : d ≠ []) : respond c (Res.read d) = ⟨c.rspData, d.length, d⟩ := by
  simp [respond, Res.read, h]

/-- Settles O11: both commands fail at once, and the response by the result's count and data. -/
theorem unsupportedCommandsFail : Obligations.UnsupportedCommandsFail := fun s =>
  ⟨fun _ _ => rfl, rfl, fun _ => rfl, rfl, fun _ h => respond_ok s.cfg h, fun _ h => respond_read s.cfg h⟩

/-! ## Exchanges of a synchronous engine -/

/-- TPB lets `TDAT` go after every frame it sends (R170, R221, R251). -/
theorem tdat_outs (e : Engine) (bs : List Byte) : (outs bs).foldl (tdatAfter e) none = none := by
  induction bs with
  | nil => rfl
  | cons b bs ih => exact ih

section
variable {e : Engine} (he : e ≠ .updi) {s : State} (b v : Byte) (bs : List Byte)
include he

theorem moveStartsClock_out_sync : moveStartsClock e (.out b) = true := bne_iff_ne.2 he

theorem moveEvents_out_sync (k : Bool) : moveEvents e k (.out b) = moveEvents.clockStart k ++ [.tx b] := by
  cases e with
  | updi => exact absurd rfl he
  | tpi | pdi => rfl

theorem moveEvents_into_running : moveEvents e true (.into v) = [.rx v RxFlags.clear] := by
  cases e with
  | updi => exact absurd rfl he
  | tpi | pdi => rfl

/-- What a synchronous engine sends it takes nothing from the line for (R221, R251). -/
theorem lineOf_outs_sync : lineOf e (outs bs) = [] := by
  cases e with
  | updi => exact absurd rfl he
  | tpi | pdi => simp [lineOf, outs, moveLine]

/-- What sent frames leave where `TCLK` runs already (R86). -/
theorem eventsOf_outs_running : eventsOf e true (outs bs) = bs.map WireEvent.tx := by
  induction bs with
  | nil => rfl
  | cons b bs ih =>
    simp only [outs] at ih
    simp [eventsOf, outs, moveEvents_out_sync he, moveEvents.clockStart, ih]

/-- `TCLK` starts for the first frame, where it did not run already (R220, R250). -/
theorem eventsOf_out_cons (k : Bool) (ms : List Move) :
    eventsOf e k (.out b :: ms) = moveEvents.clockStart k ++ .tx b :: eventsOf e true ms := by
  simp [eventsOf, moveEvents_out_sync he, moveStartsClock_out_sync he]

theorem clocked_sync (hu : s.umode = engineMode e) :
    clocked s s.hist = (moveEvents.clockStart s.tclk).reverse ++ s.hist := by
  have hl : s.lineEngine = e := by
    unfold State.lineEngine
    rw [hu]
    cases e <;> rfl
  unfold clocked
  rw [hl]
  cases s.tclk <;> simp [he, moveEvents.clockStart]

/-- What the frames that a synchronous engine sends leave. -/
theorem State.moved_outs_sync (hu : s.umode = engineMode e) : s.moved e (outs bs) s.env.line =
    if bs = [] then s else { s with
      hist := (bs.map WireEvent.tx).reverse ++ clocked s s.hist
      tclk := true
      tdat := none } := by
  cases bs with
  | nil => exact State.moved_nil e s
  | cons b bs =>
    have hev : eventsOf e s.tclk (outs (b :: bs)) = moveEvents.clockStart s.tclk ++ (b :: bs).map WireEvent.tx := by
      rw [List.map_cons, ← eventsOf_outs_running he]
      exact eventsOf_out_cons he b s.tclk (outs bs)
    have hclk : (outs (b :: bs)).any (moveStartsClock e) = true := by
      simp [outs, moveStartsClock_out_sync he]
    have htd : (outs (b :: bs)).foldl (tdatAfter e) s.tdat = none := tdat_outs e bs
    simp [State.moved, hev, hclk, htd, lineOf_outs_sync he, clocked_sync he hu]

/-- What an opcode and the byte it brings leave. -/
theorem State.moved_out_into_sync (hu : s.umode = engineMode e) (rest : List LineEvent) :
    s.moved e [.out b, .into v] rest =
      { s with
        hist := .rx v RxFlags.clear :: .tx b :: clocked s s.hist
        rxf := RxFlags.clear
        tclk := true
        tdat := none
        env := { s.env with line := rest } } := by
  have hev : eventsOf e s.tclk [.out b, .into v] = moveEvents.clockStart s.tclk ++ [.tx b, .rx v RxFlags.clear] := by
    rw [eventsOf_out_cons he, eventsOf, moveEvents_into_running he]
    rfl
  have hline : lineOf e [.out b, .into v] = [cleanFrame v] := by
    show lineOf e (outs [b] ++ [.into v]) = _
    rw [lineOf_append, lineOf_outs_sync he]
    rfl
  simp [State.moved, hev, hline, moveStartsClock_out_sync he, clocked_sync he hu]

/-- A row of a synchronous engine that sends bytes (R11, R221, R251). -/
theorem primOp_sends {m : M Res} {r : Res} (ha : s.wdArmed = false) (hu : s.umode = engineMode e)
    (h : Plays e s.cfg m (outs bs) r) : ∃ ds, primOp m s = .next (State.ended r ds (if bs = [] then s else { s with
      hist := (bs.map WireEvent.tx).reverse ++ clocked s s.hist
      tclk := true
      tdat := none })) := by
  have hl : s.hears e (outs bs) s.env.line := by rw [State.hears, lineOf_outs_sync he, List.nil_append]
  rw [← State.moved_outs_sync he bs hu]
  exact primOp_plays ha hu hl h

/-- A row of a synchronous engine that sends its opcode and brings a byte (R11, R221, R251). -/
theorem primOp_brings {m : M Byte} {rest : List LineEvent} (ha : s.wdArmed = false) (hu : s.umode = engineMode e)
    (hl : s.env.line = cleanFrame v :: rest) (h : Plays e s.cfg m [.out b, .into v] v) :
    ∃ ds, primOp (oneByte m) s = .next (State.ended (Res.read [v]) ds { s with
      hist := .rx v RxFlags.clear :: .tx b :: clocked s s.hist
      rxf := RxFlags.clear
      tclk := true
      tdat := none
      env := { s.env with line := rest } }) := by
  have hh : s.hears e [.out b, .into v] rest := by
    show s.env.line = lineOf e (outs [b] ++ [.into v]) ++ rest
    rw [lineOf_append, lineOf_outs_sync he, hl]
    rfl
  rw [← State.moved_out_into_sync he b v hu rest]
  exact primOp_plays ha hu hh (plays_oneByte h)

end

/-- Settles O38: each row is its exchange: its own bytes out, and what the reads bring. -/
theorem tpiWire : Obligations.TpiWire := by
  intro s rest ha hu
  have he : Engine.tpi ≠ .updi := by decide
  have sends {m : M Unit} {bs : List Byte} (h : Plays .tpi s.cfg m (outs bs) ()) :=
    primOp_sends he bs ha hu (plays_done h)
  refine ⟨fun r v => sends (plays_stcs _ _ r v), syncKeyBytes_length s.cfg, sends (plays_sendSyncKey _ _),
    fun b => sends (plays_send _ _ _), fun b => sends (plays_send _ _ _), fun b => sends (plays_tpiStInc _ b),
    fun io v => sends (plays_tpiOut _ io v), fun v hl => ?_⟩
  have brings {m : M Byte} {b : Byte} (h : Plays .tpi s.cfg m [.out b, .into v] v) :=
    primOp_brings he b v ha hu hl h
  exact ⟨fun r => brings (plays_ldcs _ _ r v), brings (plays_tpiLdInc _ v), fun io => brings (plays_tpiIn _ io v)⟩

end Sys2Proof.Machine
end

section
/-! SUPPORT. A run whose operation returns before the expiry (R140, R142, R334), the runs that may not begin (R141, R150,
R151), and the host operations as runs of their bodies (R147, R153). -/

namespace Sys2Proof.Machine

/-! ## The loop of a run that is not cut -/

section
variable {s t : State} {m : M Res} {fb : FallbackSel} {d : Half} {r : Res} {c : Cause}

/-- A pass that returns in time ends the run with its result, unless failures are retried (R142). -/
theorem supervise_returns (ha : s.wdArmed = false) (hi : s.env.ie = true) (hd : d ≠ 0)
    (e : m (s.started d) = .ok r t) (hw : t.expiresWaiting = false)
    (hr : r.count ≠ 0 ∨ t.cfg.retryOnFailure = false) : supervise m fb d s = .ok r t.elapse.disarm := by
  rw [supervise_begins ha hi hd, runLoop_ok (s := { s with wdDeadline := d }) e, if_neg]
  rintro (h | ⟨h0, h1⟩)
  · exact absurd (hw.symm.trans h) (by decide)
  · exact hr.elim (absurd h0) fun h => absurd (h.symm.trans h1) (by decide)

/-- Likewise a pass that fails in time, where failures are not retried (R142, R143). -/
theorem supervise_fails (ha : s.wdArmed = false) (hi : s.env.ie = true) (hd : d ≠ 0)
    (e : m (s.started d) = .error (.raise c) t) (hw : t.expiresWaiting = false)
    (hr : t.cfg.retryOnFailure = false) : supervise m fb d s = .ok (Res.fail c) t.elapse.disarm := by
  rw [supervise_begins ha hi hd, runLoop_raise (s := { s with wdDeadline := d }) e, if_neg]
  rintro (h | h)
  · exact absurd (hw.symm.trans h) (by decide)
  · exact absurd (hr.symm.trans h) (by decide)

end

/-! ## What `WD.RUN` answers -/

section
variable {s t : State} {op : RunOp} {fb : FallbackSel} {d : Half} {r : Res}

/-- A run that did not give up answers its result (R142). -/
theorem wdRun_ok (h : supervise (runBody op) fb d s = .ok r t) (hc : r.cause ≠ some .timeout) :
    exec (.wdRun op fb d) s = .next (t.conclude r) := by
  show primOp (runWith op fb d) s = _
  unfold primOp outcome runWith
  rw [m_bind, h]
  dsimp only
  rw [if_neg hc]
  rfl

/-- A run that may not begin is refused, whatever it was invoked on. -/
theorem wdRun_refused {x : Refusal} (h : supervise (runBody op) fb d s = .error (.refused x) s) :
    exec (.wdRun op fb d) s = .refused x := by
  show primOp (runWith op fb d) s = _
  unfold primOp outcome runWith
  rw [m_bind, h]

end

/-- Settles O54: the pass that returns in time ends the loop (`supervise_returns`, `supervise_fails`), and a run that
does not give up answers its result (`wdRun_ok`). -/
theorem runReturnsResult : Obligations.RunReturnsResult := by
  intro s op fb d
  refine ⟨fun ha hi hd => ⟨fun r t e hw hr hc => ?_, fun c t e hw hr hc => ?_⟩, fun hi => wdRun_refused ?_,
    fun hi ha => wdRun_refused ?_, fun hi ha hd => wdRun_refused ?_⟩
  · exact wdRun_ok (supervise_returns ha hi hd e hw hr) (by simp [hc])
  · exact wdRun_ok (supervise_fails ha hi hd e hw hr) (by simpa [Res.fail] using hc)
  · simp only [supervise, hi, if_true]
  · simp only [supervise, hi, ha, if_true, Bool.true_eq_false, if_false]
  · simp only [supervise, hi, ha, hd, if_true, Bool.true_eq_false, Bool.false_eq_true, if_false]

/-! ## Host operations as runs -/

/-- A piece that ends in a next state by itself ends a host operation in the same state, its result delivered (R21,
R108). -/
theorem outcome_deliver {m : M Res} {s v : State} (h : primOp m s = .next v) :
    outcome State.deliver m s = .next (v.deliver v.res) := by
  unfold primOp outcome at h
  unfold outcome
  cases e : m s with
  | ok r t => rw [e] at h; cases h; rfl
  | error x t =>
    rw [e] at h
    cases x with
    | raise c => cases h; rfl
    | expired => cases h; rfl
    | stuck => cases h
    | refused r => cases h

/-- The host operations that are runs, by what `WD.RUN` of their body on the request answers (R147, R153). -/
theorem exec_hostRun_of_wdRun {i : Instr} {op : RunOp} {scope : HostScope} {cmd : Byte} {q : Payload} {s v : State}
    (hi : hostRun s.cfg.scopes.tpiCodes i = some (op, scope, cmd, q)) (ha : scope = .avr → s.arch = i.archOf)
    (h : exec (.wdRun op (runFallback op) Config.wdDefaultMs) (s.withRequest scope cmd q) = .next v) :
    exec i s = .next (v.deliver v.res) := by
  rw [exec_hostRun hi ha]
  exact outcome_deliver (m := runOp op) h

/-! ## The wire parts and a connect attempt as runs -/

/-- `WD.RUN` of an operation that succeeds in time with no value (R11, R142). -/
theorem wdRun_succeeds {s t : State} (op : RunOp) {fb : FallbackSel} {d : Half} (hr : s.ready d.toNat)
    (hm : ∀ n, Goes true n (runBody op) (s.started d) (Res.ok 1) t) :
    ∃ cnt ds, exec (.wdRun op fb d) s = .next ((t.disarm.conclude (Res.ok 1)).late cnt ds) :=
  wdRun_goes hr hm (.inl (by decide)) (by decide)

/-- Settles O55: each body goes through as its exchange (`acts_connectAttempt`, `goes_updiSignOffWire`,
`goes_pdiSignOffWire`, `plays_tpiLeaveWire`), so its run does (`wdRun_succeeds`); the host operations are
`exec_hostRun_of_wdRun`. -/
theorem runCompletes : Obligations.RunCompletes := by
  intro s fb d ms rest u p
  refine ⟨fun hr => ⟨fun sib hu hm hh => ?_, fun hu hm hh => ?_, fun r hu hp hm hh => ?_, fun hu => ?_⟩,
    fun i op scope cmd q v => exec_hostRun_of_wdRun⟩
  · exact wdRun_succeeds .connectAttempt hr fun n =>
      acts_connectAttempt hm true n (s.started d) rest hu ⟨rfl, rfl⟩ hh
  · exact wdRun_succeeds .updiSignOffWire hr fun _ => goes_updiSignOffWire (s := s.started d) hu hm hh
  · exact wdRun_succeeds .pdiSignOffWire hr fun _ => goes_pdiSignOffWire (s := s.started d) hp hu hm hh
  · exact wdRun_succeeds .tpiLeaveWire hr fun n =>
      plays_tpiLeaveWire s.cfg true n (s.started d) s.env.line hu rfl rfl

end Sys2Proof.Machine
end

section
/-! SUPPORT. The receiving UPDI rows, the line primitives and the fallback, the handshake and a connect attempt (R34,
R170, R171, R173, R175, R179, R180, R189, R191, R201). -/

namespace Sys2Proof.Machine

section
variable {s t : State} {c : Params} {ms : List Move} {r : List Byte} {m : M Res} {x : Res} {v : Byte}
  {rest : List LineEvent}

/-! ## Streams and a byte in -/

/-- A stream instruction that brings its data (R189, R191; log 28). -/
theorem plays_streamIn (c : Params) (op : Byte) {n : Nat} {d : List Byte} (hd : d.length = n) : Plays .updi c (do
    instr op []
    let d ← recvN n
    pure (Res.read d)) (instrMoves c op [] ++ ins d) (Res.read d) :=
  plays_bind (plays_instr c op []) (plays_bind_nil (hd ▸ plays_recvN .updi c d) plays_pure)

theorem ofFrame_clean (v : Byte) : RxFlags.ofFrame (LineFrame.clean v) = RxFlags.clear := by
  simp [RxFlags.ofFrame, LineFrame.clean, RxFlags.clear]

/-- A clean frame is received as the exchange of one byte in, whoever owns the UART (R173, R221, R251). -/
theorem sampled_clean (s : State) (v : Byte) (rest : List LineEvent) :
    s.sampled (LineFrame.clean v) rest (.rx v RxFlags.clear) = s.moved s.lineEngine [.into v] rest := by
  have hl : (lineOf s.lineEngine [.into v]).isEmpty = false := rfl
  unfold State.sampled State.moved
  rw [State.listen_eq, ofFrame_clean, hl]
  cases he : s.lineEngine <;> cases ht : s.tclk <;>
    simp [clocked, he, ht, eventsOf, moveEvents, moveEvents.clockStart, moveStartsClock]

/-! ## The handshake (R179) -/

theorem breaks_handshake (h : scriptRuns c .updi c.updi.initSeq ms r) (hr : r ≠ [c.updi.initAck]) :
    Breaks .updi (IsCfg c) handshake ms (fun s => s) .status := by
  have hc : ∀ s, IsCfg c s → s.cfg = c := fun _ h => h
  unfold handshake
  refine breaks_get fun s hs _ => ?_
  rw [hc s hs, ← List.append_nil ms]
  refine breaks_plays_bind hc (steady_isCfg .updi c) (plays_runScript h) ?_ (effect_id .updi)
  rw [if_pos hr]
  exact breaks_raise

/-! ## Primitives outside a run -/

/-- A primitive that takes only the tape's time ends in its result's next state (R11). -/
theorem primOp_takes (h : Takes m s x t) : ∃ ds, primOp m s = .next (t.ended x ds) := by
  obtain ⟨ds, e⟩ := h
  refine ⟨ds, ?_⟩
  unfold primOp outcome
  rw [e]
  rfl

theorem takes_done {m : M Unit} (h : Takes m s () t) : Takes (done m) s (Res.ok 1) t :=
  takes_bind h fun ds => ⟨ds, rfl⟩

/-- At the floor the fallback answers 0 and does nothing (R34, R201). -/
theorem updiFallback_floor (h : clkLower s.cfg s.clk = none) : updiFallback s = .ok 0 s := by
  unfold updiFallback
  rw [m_bind, m_get]
  dsimp only
  rw [h]
  rfl

end

/-! ## The obligations -/

/-- Settles O13: each row is its exchange; `rx` is the reception of a clean frame (`sampled_clean`). -/
theorem updiReceives : Obligations.UpdiReceives := by
  intro s rest ha
  refine ⟨fun v hl => ?_, fun hu => ⟨fun r v hl => primOp_plays ha hu hl (plays_oneByte (plays_ldcs _ _ r v)),
    fun n d hd hl => primOp_plays ha hu hl (plays_streamIn _ _ hd),
    fun n d hd hl => primOp_plays ha hu hl (plays_streamIn _ _ hd)⟩⟩
  obtain ⟨ds, e⟩ := exec_rx_sampled (f := LineFrame.clean v) (rest := rest) ha hl
  rw [ofFrame_clean, if_pos rfl] at e
  exact ⟨ds, e.trans (congrArg _ (congrArg _ (sampled_clean s v rest)))⟩

/-- Settles O17: both go through outside a run (`takes_lineConfig`, `takes_attention`), whatever the line brings. -/
theorem updiLineActions : Obligations.UpdiLineActions := fun _ ha =>
  ⟨primOp_takes (takes_done (takes_lineConfig ha)), primOp_takes (takes_done (takes_attention ha))⟩

/-- Settles O18: the handshake's exchange with the comparison after it, and the attempt's (`acts_connectAttempt`). -/
theorem updiHandshakeAndAttempt : Obligations.UpdiHandshakeAndAttempt := by
  intro s ms rest ha hu hl
  refine ⟨fun r hr => ?_, fun sib hm =>
    primOp_goes ha (fun n => acts_connectAttempt hm true n s rest hu ⟨rfl, rfl⟩ hl) rfl⟩
  by_cases hk : r = [s.cfg.updi.initAck]
  · rw [if_pos hk]
    exact primOp_plays ha hu hl (plays_done (plays_handshake (hk ▸ hr)))
  · rw [if_neg hk]
    exact primOp_fails ha (fun n => fails_done (breaks_handshake hr hk true n s rest hu rfl hl)) rfl

/-- Settles O20: above the floor `takes_updiFallback`, at the floor `updiFallback_floor`. -/
theorem updiFallbackLowersRate : Obligations.UpdiFallbackLowersRate := by
  intro s ha
  refine ⟨fun c hc => primOp_takes (takes_bind (takes_updiFallback ha hc) fun ds => ⟨ds, rfl⟩), fun hc => ?_⟩
  show primOp (updiFallback >>= fun n => pure (Res.ok n)) s = _
  unfold primOp outcome
  rw [m_bind, updiFallback_floor hc]
  rfl

end Sys2Proof.Machine
end

section
/-! SUPPORT. The UPDI ceremonies, programming mode and the memory operations as the exchanges they are, with their
failures after frames (R186, R187, R188, R194 to R199, R260, R272, R281 to R283). -/

namespace Sys2Proof.Machine

variable {k : Bool} {n : Nat}

section
variable {s : State} {c : Params} {v : Variant} {rv : VariantRec} {a a' l : Addr} {d : List Byte} {ms m1 m2 : List Move}
  {rest : List LineEvent} {sc cmd mt et : Byte}

/-! ## The chip erase (R196) -/

/-- Without programming mode to enter again (R196). -/
theorem goes_chipErase (hl : s.sess.link = true) (hp : (s.sess.prog && s.cfg.eraseReentersProg) = false)
    (hu : s.umode = .updi) (hm : chipEraseRuns s.cfg ms) (hh : s.hears .updi ms rest) :
    Goes k n chipErase s (Res.ok 1) (((s.moved .updi ms rest).setProg false).setErased) := by
  rw [← List.append_nil ms] at hh ⊢
  exact acts_chipErase (g := fun s => s) hm (effect_id .updi) (by rw [hp]; exact acts_pure) k n s rest hu
    ⟨rfl, rfl, hl, rfl⟩ hh

/-- With it: the unlock follows (R186, R196). -/
theorem goes_chipErase_reenters (hl : s.sess.link = true) (hp : (s.sess.prog && s.cfg.eraseReentersProg) = true)
    (hu : s.umode = .updi) (hv : variantRec s.cfg s.ct = some rv) (h1 : chipEraseRuns s.cfg m1)
    (h2 : unlockRuns s.cfg s.ct rv m2) (hh : s.hears .updi (m1 ++ m2) rest) :
    Goes k n chipErase s (Res.ok 1) ((((s.moved .updi (m1 ++ m2) rest).setProg false).setErased).setProg true) :=
  acts_chipErase h1 (effect_setProg .updi true) (by rw [hp]; exact acts_updiUnlock hv h2) k n s rest hu
    ⟨rfl, rfl, hl, rfl⟩ hh

/-! ## The USERROW ceremony and the synthesized signature (R197, R198) -/

theorem refuses_userrow (h : s.sess.link = false ∨ s.cfg.blockMaxUnits < d.length) :
    Refuses (userrowCeremony a d) s :=
  refuses_get (refuses_require fun hl => refuses_require fun hd =>
    absurd (of_decide_eq_true hd) (Nat.not_le_of_lt (h.resolve_left (by simp [hl]))))

theorem signatureDummy_ok {j : Nat} (h : j ≤ s.cfg.sigDummy.length) :
    signatureDummy j s = .ok ⟨j, s.cfg.sigDummy.take j, none⟩ s := by
  unfold signatureDummy
  rw [m_bind, m_get]
  dsimp only
  rw [m_bind, decide_eq_true h, require_true]
  rfl

theorem goes_signatureDummy {j : Nat} (h : j ≤ s.cfg.sigDummy.length) :
    Goes k n (signatureDummy j) s ⟨j, s.cfg.sigDummy.take j, none⟩ s :=
  goes_congr (m' := pure _) (signatureDummy_ok h) goes_pure

theorem refuses_signatureDummy {j : Nat} (h : s.cfg.sigDummy.length < j) : Refuses (signatureDummy j) s :=
  refuses_get (refuses_require fun hd => absurd (of_decide_eq_true hd) (Nat.not_le_of_lt h))

/-! ## Programming mode (R186, R187, R260) -/

/-- Already granted there is nothing to do. -/
theorem goes_updiEnter_granted (hl : s.sess.link = true) (hp : s.sess.prog = true) :
    Goes k n updiEnter s (Res.ok 1) s := by
  refine goes_get (goes_require hl ?_)
  rw [if_pos hp]
  exact goes_pure

/-- A linked target's unlock that breaks off is the operation's failure. -/
theorem fails_updiEnter {f : State → State} {x : Cause} (hl : s.sess.link = true) (hp : s.sess.prog = false)
    (hu : s.umode = .updi) (hh : s.hears .updi ms rest)
    (h : Breaks .updi (IsBound s.cfg s.ct) updiUnlock ms f x) :
    Fails k n updiEnter s x (f (s.moved .updi ms rest)) := by
  refine fails_get (fails_require_pass hl ?_)
  rw [if_neg (by simp [hp])]
  exact h k n s rest hu ⟨rfl, rfl⟩ hh

/-- `prog_init` whose script waits for the controller first, and finds its error bit (R270, R283). -/
theorem acts_progInit_error {more : NvmScript} {busy : List Byte} {b : Byte} (hv : variantRec c v = some rv)
    (hi : rv.initScript = .wait :: more) (hb : blockOk c (ptrWidth c v) rv.nvmStatus 1)
    (hu : ∀ y ∈ busy, y &&& rv.busyMask ≠ 0) (h0 : b &&& rv.busyMask = 0) (he : b &&& rv.errMask ≠ 0) :
    Acts .updi (IsBound c v) (progInit v)
      (pollMoves (fun y => recvBytesMoves c (ptrWidth c v) rv.nvmStatus [y]) busy b) (fun s => s) 0 :=
  acts_progInit_breaks hv (by rw [hi]; exact breaks_left (breaks_nvmWait hb hu h0 he))

/-- A leave script that begins with a register write fails on another engine's UART, `PROG` cleared before (R187, R260,
R311; log 12). -/
theorem fails_clearProg_script {e : Engine} {g : RegIx} {b : Byte} {more : Script} (hu : s.umode ≠ engineMode e) :
    Fails k n (do
      upd (State.setProg false)
      let _ ← runScript e (.stcs g b :: more)
      pure (Res.ok 1)) s .status (s.setProg false) := by
  have hw := goes_upd (k := k) (n := n) (s := s) (effect_setProg e false).plain
  rw [State.write_quiet (setProg_trst false s)] at hw
  exact fails_bind hw fun τ => fails_stamp_of (fails_bind_left (fails_runScript hu)) τ rfl

theorem fails_updiLeave {g : RegIx} {b : Byte} {more : Script} (hl : s.sess.link = true) (hp : s.sess.prog = true)
    (hu : s.umode ≠ .updi) (hs : s.cfg.updi.leaveSeq = .stcs g b :: more) :
    Fails k n updiLeave s .status (s.setProg false) := by
  refine fails_get (fails_require_pass hl ?_)
  rw [if_pos hp, hs]
  exact fails_clearProg_script hu

theorem fails_pdiLeave {g : RegIx} {b : Byte} {more : Script} (hl : s.sess.link = true) (hp : s.sess.prog = true)
    (hu : s.umode ≠ .pdi) (hs : s.cfg.pdi.leaveSeq = .stcs g b :: more) :
    Fails k n pdiLeave s .status (s.setProg false) := by
  refine fails_get (fails_require_pass hl ?_)
  rw [if_pos hp, hs]
  exact fails_clearProg_script hu

/-! ## Memory operations (R194, R195, R199) -/

theorem goes_updiRead_sib (hb : s.cb.body = .request sc cmd (.mem mt a l d)) (hn : lenOk l.toNat = true)
    (hi : inSpace32 a l.toNat = true) (hl : s.sess.link = true) (hk : memKind s.cfg mt = some .sib)
    (hv : s.sib.valid = true) (ha : a.toNat + l.toNat ≤ Config.sibLen) :
    Goes k n updiRead s ⟨l.toNat, (s.sib.bytes.drop a.toNat).take l.toNat, none⟩ s := by
  refine goes_cbMem hb (goes_get (goes_require (by simp [hn, hi]) (goes_require hl ?_)))
  rw [if_pos hk]
  exact goes_require (by simp [hv, ha]) goes_pure

theorem goes_updiRead_signature (hb : s.cb.body = .request sc cmd (.mem mt a l d)) (hn : lenOk l.toNat = true)
    (hi : inSpace32 a l.toNat = true) (hl : s.sess.link = true) (hk : memKind s.cfg mt = some .signature)
    (hp : s.sess.prog = false) (hd : l.toNat ≤ s.cfg.sigDummy.length) :
    Goes k n updiRead s ⟨l.toNat, s.cfg.sigDummy.take l.toNat, none⟩ s := by
  refine goes_cbMem hb (goes_get (goes_require (by simp [hn, hi]) (goes_require hl ?_)))
  rw [if_neg (by simp [hk]), if_pos ⟨hk, hp⟩]
  exact goes_signatureDummy hd

/-- In programming mode a read is the bound variant's, at the translated address (R194, R281). -/
theorem goes_updiRead_memory {q : MemKind} {e : List Byte} (hb : s.cb.body = .request sc cmd (.mem mt a l d))
    (hn : lenOk l.toNat = true) (hi : inSpace32 a l.toNat = true) (hl : s.sess.link = true)
    (hk : memKind s.cfg mt = some q) (hq : q ≠ .sib) (hp : s.sess.prog = true) (hu : s.umode = .updi)
    (hx : xlate s.cfg s.dd q a = some a') (hi' : inSpace32 a' l.toNat = true) (hv : variantRec s.cfg s.ct = some rv)
    (hd : e.length = l.toNat) (ht : transferOk s.cfg (boundWidth s) a' l.toNat)
    (hh : s.hears .updi (readMoves s.cfg (boundWidth s) a' e) rest) :
    Goes k n updiRead s (Res.read e) (s.moved .updi (readMoves s.cfg (boundWidth s) a' e) rest) := by
  refine goes_cbMem hb (goes_get (goes_require (by simp [hn, hi]) (goes_require hl ?_)))
  rw [if_neg (by simpa [hk] using hq), if_neg (by simp [hp])]
  refine goes_require hp ?_
  rw [hk]
  refine goes_translate hx hi' ?_
  rw [← hd] at ht ⊢
  exact plays_ctRead hv ht k n s rest hu rfl hh

theorem goes_updiWrite_userrow (hb : s.cb.body = .request sc cmd (.mem mt a l d)) (hn : lenOk l.toNat = true)
    (hi : inSpace32 a l.toNat = true) (hd : d.length = l.toNat) (hl : s.sess.link = true) (hu : s.umode = .updi)
    (hk : memKind s.cfg mt = some .userrow) (hp : s.sess.prog = false) (ho : blockOk s.cfg (boundWidth s) a d.length)
    (hm : userrowRuns s.cfg (boundWidth s) a d ms) (hh : s.hears .updi ms rest) :
    Goes k n updiWrite s (Res.ok l.toNat) (s.moved .updi ms rest) := by
  refine goes_cbMem hb (goes_get (goes_require (by simp [hn, hi, hd]) (goes_require hl ?_)))
  rw [if_pos ⟨hk, hp⟩, ← hd]
  exact goes_userrow hl rfl ho hm hu hh

/-- A variant writes no memory type of the read-only class (R106). -/
theorem writeRuns_not_readOnly {q : MemKind} {tracker : Option Addr} (h : writeRuns s v rv q a d ms tracker) :
    memClass q ≠ .readOnly := by
  intro hr
  unfold writeRuns at h
  rw [hr] at h
  exact h

/-- In programming mode a write is the bound variant's, at the translated address (R195, R275, R278, R279). -/
theorem goes_updiWrite_memory {q : MemKind} {tracker : Option Addr}
    (hb : s.cb.body = .request sc cmd (.mem mt a l d)) (hn : lenOk l.toNat = true)
    (hi : inSpace32 a l.toNat = true) (hd : d.length = l.toNat) (hl : s.sess.link = true) (hu : s.umode = .updi)
    (hk : memKind s.cfg mt = some q) (hp : s.sess.prog = true) (hx : xlate s.cfg s.dd q a = some a')
    (hi' : inSpace32 a' l.toNat = true) (hv : variantRec s.cfg s.ct = some rv)
    (hm : writeRuns s s.ct rv q a' d ms tracker) (hh : s.hears .updi ms rest) :
    Goes k n updiWrite s (Res.ok l.toNat) ((s.moved .updi ms rest).setTracker tracker) := by
  refine goes_cbMem hb (goes_get (goes_require (by simp [hn, hi, hd]) (goes_require hl ?_)))
  rw [if_neg (by simp [hp])]
  refine goes_require hp ?_
  rw [hk]
  dsimp only
  rw [if_neg (writeRuns_not_readOnly hm)]
  refine goes_translate hx hi' ?_
  rw [← hd]
  exact goes_ctWrite hv hm hu hh

/-- The erase of the whole chip is the ceremony (R199). -/
theorem goes_updiErase_chip {t : State} {r : Res} (hb : s.cb.body = .request sc cmd (.erase s.cfg.etChip a))
    (hl : s.sess.link = true) (h : Goes k n chipErase s r t) : Goes k n updiErase s r t := by
  refine goes_cbErase hb (goes_get (goes_require hl ?_))
  rw [if_pos rfl]
  exact h

theorem inSpace32_zero (a : Addr) : inSpace32 a 0 = true := decide_eq_true (Nat.le_of_lt a.isLt)

theorem goes_updiErase_page (hb : s.cb.body = .request sc cmd (.erase s.cfg.etPage a))
    (hc : s.cfg.etPage ≠ s.cfg.etChip) (hl : s.sess.link = true) (hu : s.umode = .updi) (hp : s.sess.prog = true)
    (hx : xlate s.cfg s.dd .flashPage a = some a') (hv : variantRec s.cfg s.ct = some rv)
    (hm : eraseRuns s s.ct rv a' ms) (hh : s.hears .updi ms rest) :
    Goes k n updiErase s (Res.ok 1) (s.moved .updi ms rest) := by
  refine goes_cbErase hb (goes_get (goes_require hl ?_))
  rw [if_neg hc, if_pos rfl]
  exact goes_require hp (goes_translate hx (inSpace32_zero a') (goes_ctErase hv hm hu hh))

/-- Any other erase type does nothing (R199; log 43). -/
theorem goes_updiErase_unhonored (hb : s.cb.body = .request sc cmd (.erase et a)) (hc : et ≠ s.cfg.etChip)
    (he : et ≠ s.cfg.etPage) (hl : s.sess.link = true) :
    Goes k n updiErase s ⟨s.cfg.eraseUnhonored, [], none⟩ s := by
  refine goes_cbErase hb (goes_get (goes_require hl ?_))
  rw [if_neg hc, if_neg he]
  exact goes_pure

/-! ## AVR-core operations as runs -/

/-- A length in bounds is not 0. -/
theorem count_ne_zero {n : Nat} (h : lenOk n = true) : n ≠ 0 := by
  unfold lenOk at h
  simp only [Bool.and_eq_true, decide_eq_true_eq] at h
  omega

end

section
variable {s t : State} {op : RunOp} {cmd : Byte} {p : Payload} {r : Res} {x : Cause} {a : Arch}

/-- An AVR-core operation that is a run and goes through (R103, R142, R153). -/
theorem avrRun_answers (harch : s.arch = a) (hr : s.ready Config.wdDefaultMs.toNat)
    (hm : ∀ n, Goes true n (runBody op) ((s.withRequest .avr cmd p).started Config.wdDefaultMs) r t)
    (hc : r.count ≠ 0 ∨ t.cfg.retryOnFailure = false) (hn : r.cause ≠ some .timeout) :
    ∃ cnt ds, avrOp a cmd p (runOp op) s = .next (t.disarm.answered r cnt ds) := by
  rw [avrOp_eq harch]
  exact hostRun_goes hr hm hc hn

/-- Likewise one that fails, where failures are not retried (R142, R143). -/
theorem avrRun_fails (harch : s.arch = a) (hr : s.ready Config.wdDefaultMs.toNat)
    (hm : ∀ n, Fails true n (runBody op) ((s.withRequest .avr cmd p).started Config.wdDefaultMs) x t)
    (hc : t.cfg.retryOnFailure = false) (hx : x ≠ .timeout) :
    ∃ cnt ds, avrOp a cmd p (runOp op) s = .next (t.disarm.answered (Res.fail x) cnt ds) := by
  rw [avrOp_eq harch]
  exact hostRun_fails hr hm hc hx

end

/-! ## The obligations -/

/-- Settles O22: the ceremony, alone and with the unlock after it. -/
theorem updiChipErase : Obligations.UpdiChipErase := by
  intro s ms rest ha hu hl hm
  refine ⟨fun hp hh => ?_, fun r m2 hp hv h2 hh => ?_⟩
  · exact primOp_goes ha (fun n => goes_chipErase hl hp hu hm hh) rfl
  · exact primOp_goes ha (fun n => goes_chipErase_reenters hl hp hu hv hm h2 hh) rfl

/-- Settles O23: the ceremony's exchange, its refusal, its failure at the block (`breaks_userrow`); the signature. -/
theorem updiUserrowAndSignature : Obligations.UpdiUserrowAndSignature := by
  intro s
  refine ⟨fun a d ms rest ha hu hl hb hm hh => primOp_goes ha (fun n => goes_userrow hl rfl hb hm hu hh) rfl,
    fun a d h => Refuses.primOp (refuses_userrow h), fun a d m2 m3 r3 rest ha hu hl hd hw h2 h3 hh => ?_,
    fun n hn => ?_, fun n hn => Refuses.primOp (refuses_signatureDummy hn)⟩
  · have hb : ¬ blockOk s.cfg (ptrWidth s.cfg s.ct) a d.length := by
      rintro ⟨h1, _, h3⟩
      rcases hw with rfl | hw
      · exact absurd h1 (by decide)
      · exact absurd (hw.symm.trans h3) (by decide)
    exact primOp_fails ha (fun n => breaks_userrow hd hb h2 h3 true n s rest hu ⟨⟨rfl, rfl⟩, hl⟩ hh) rfl
  · show primOp (signatureDummy n.toNat) s = _
    unfold primOp outcome
    rw [signatureDummy_ok hn]
    rfl

/-- Settles O27: granted, the six steps, and the three failures of the unlock (`breaks_updiUnlock_locked`,
`breaks_updiUnlock_init`). -/
theorem updiEnterProgmode : Obligations.UpdiEnterProgmode := by
  intro s hr harch hl
  refine ⟨fun hp => ?_, fun r ms rest hp hu hv hm hh => updiEnter_answers hr harch hl hp hu hv hm hh,
    fun m2 m3 r3 x rest hp hu hf h2 h3 => ⟨fun hx hh => ?_, fun hx hv hh => ?_,
      fun r more busy v hx hv hi hb hy h0 he hh => ?_⟩⟩
  · exact avrRun_answers (op := .updiEnterProgmode) harch hr (fun n => goes_updiEnter_granted hl hp)
      (.inl (by decide)) (by decide)
  · exact avrRun_fails (op := .updiEnterProgmode) harch hr
      (fun n => fails_updiEnter hl hp hu hh (breaks_updiUnlock_locked h2 h3 hx)) hf (by decide)
  · have hb := breaks_updiUnlock_init h2 h3 hx (acts_progInit_stub hv)
    rw [List.append_nil] at hb
    exact avrRun_fails (op := .updiEnterProgmode) harch hr (fun n => fails_updiEnter hl hp hu hh hb) hf (by decide)
  · exact avrRun_fails (op := .updiEnterProgmode) harch hr (fun n => fails_updiEnter hl hp hu hh
      (breaks_updiUnlock_init h2 h3 hx (acts_progInit_error hv hi hb hy h0 he))) hf (by decide)

/-- Settles O28: with `PROG` the script after the clearing, without it nothing, and the script another engine's UART
stops (`fails_clearProg_script`). -/
theorem leaveProgmode : Obligations.LeaveProgmode := by
  intro s hr hl
  refine ⟨fun harch hp => ?_, fun ms r rest harch hp hu hm hh => ?_, fun harch hp => ?_,
    fun ms r rest harch hp hu hm hh => ?_, fun hp hf => ⟨fun r v more harch hu hs => ?_, fun r v more harch hu hs => ?_⟩⟩
  · exact avrRun_answers (op := .updiLeaveProgmode) harch hr (fun n => goes_updiLeave_idle hl hp) (.inl (by decide))
      (by decide)
  · exact avrRun_answers (op := .updiLeaveProgmode) harch hr (fun n => goes_updiLeave hl hp hu hm hh)
      (.inl (by decide)) (by decide)
  · exact avrRun_answers (op := .pdiLeaveProgmode) harch hr (fun n => goes_pdiLeave_idle hl hp) (.inl (by decide))
      (by decide)
  · exact avrRun_answers (op := .pdiLeaveProgmode) harch hr (fun n => goes_pdiLeave hl hp hu hm hh) (.inl (by decide))
      (by decide)
  · obtain ⟨cnt, ds, e⟩ := avrRun_fails (op := .updiLeaveProgmode) (cmd := 0x16) (p := .none) harch hr
      (fun n => fails_updiLeave hl hp hu hs) hf (by decide)
    exact ⟨_, e, rfl, rfl⟩
  · obtain ⟨cnt, ds, e⟩ := avrRun_fails (op := .pdiLeaveProgmode) (cmd := 0x16) (p := .none) harch hr
      (fun n => fails_pdiLeave hl hp hu hs) hf (by decide)
    exact ⟨_, e, rfl, rfl⟩

/-- Settles O29: the three ways of `updiRead`. -/
theorem updiReadMemory : Obligations.UpdiReadMemory := by
  intro s mt a n hr harch hl hn hi t
  have h0 := count_ne_zero hn
  refine ⟨fun hk hv ha => ?_, fun hk hp hd => ?_, fun q a' r d rest hk hq hp hu hx hi' hv hd ht hh => ?_⟩
  · exact avrRun_answers (op := .updiRead) harch hr (fun _ => goes_updiRead_sib rfl hn hi hl hk hv ha) (.inl h0) nofun
  · exact avrRun_answers (op := .updiRead) harch hr (fun _ => goes_updiRead_signature rfl hn hi hl hk hp hd) (.inl h0)
      nofun
  · exact avrRun_answers (op := .updiRead) harch hr
      (fun _ => goes_updiRead_memory rfl hn hi hl hk hq hp hu hx hi' hv hd ht hh) (.inl (hd.trans_ne h0)) nofun

/-- Settles O30: the two ways of `updiWrite`. -/
theorem updiWriteMemory : Obligations.UpdiWriteMemory := by
  intro s mt a n d ms rest hr harch hl hu hn hi hd hh t
  have h0 := count_ne_zero hn
  refine ⟨fun hk hp hb hm => ?_, fun q a' r tracker hk hp hx hi' hv hm => ?_⟩
  · exact avrRun_answers (op := .updiWrite) harch hr
      (fun _ => goes_updiWrite_userrow rfl hn hi hd hl hu hk hp hb hm hh) (.inl h0) nofun
  · exact avrRun_answers (op := .updiWrite) harch hr
      (fun _ => goes_updiWrite_memory rfl hn hi hd hl hu hk hp hx hi' hv hm hh) (.inl h0) nofun

/-- Settles O31: the ceremony, alone and with the unlock; the page erase; a type that is not honored. -/
theorem updiEraseMemory : Obligations.UpdiEraseMemory := by
  intro s et a ms rest hr harch hl hh t
  refine ⟨fun he hu hp hm => ?_, fun r m1 m2 he hu hp hv h1 h2 hm => ?_, fun r a' hc he hu hp hx hv hm => ?_,
    fun hc he hf => ?_⟩
  · subst he
    exact avrRun_answers (op := .updiErase) harch hr
      (fun _ => goes_updiErase_chip rfl hl (goes_chipErase hl hp hu hm hh)) (.inl (by decide)) nofun
  · subst he hm
    exact avrRun_answers (op := .updiErase) harch hr
      (fun _ => goes_updiErase_chip rfl hl (goes_chipErase_reenters hl hp hu hv h1 h2 hh)) (.inl (by decide)) nofun
  · subst he
    exact avrRun_answers (op := .updiErase) harch hr
      (fun _ => goes_updiErase_page rfl hc hl hu hp hx hv hm hh) (.inl (by decide)) nofun
  · exact avrRun_answers (op := .updiErase) harch hr (fun _ => goes_updiErase_unhonored rfl hc he hl) (.inr hf) nofun

end Sys2Proof.Machine
end

section
/-! SUPPORT. SIGN_ON of UPDI on a line that brings nothing (R181, R309, R310, R333). `Drains` is what an exchange does
to the line's coming behaviour: it takes from it and adds nothing, so a silent line stays silent. `Fruitless` says that
a piece ends without a value, after an exchange at most. -/

namespace Sys2Proof.Machine

/-! ## An exchange takes from the line -/

/-- What an exchange keeps, with the line as it was or further on. -/
structure Drains (s t : State) : Prop where
  quiet : Quiet s t
  line : t.env.line <:+ s.env.line

theorem drains_flows : Flows Drains where
  refl s := ⟨quiet_flows.refl s, List.suffix_refl _⟩
  trans h1 h2 := ⟨quiet_flows.trans h1.quiet h2.quiet, h2.line.trans h1.line⟩
  armed h := quiet_flows.armed h.quiet
  ie h := quiet_flows.ie h.quiet

section
variable {s t : State} {α : Type}

/-- A change that an exchange may make and that leaves the line alone. -/
theorem Quiet.drains (h : Quiet s t) (hl : t.env.line = s.env.line) : Drains s t := ⟨h, hl ▸ List.suffix_refl _⟩

/-- A silent line stays silent. -/
theorem Drains.silent (h : Drains s t) (hl : s.env.line = []) : t.env.line = [] := List.suffix_nil.1 (hl ▸ h.line)

theorem elapse_line (s : State) : s.elapse.env.line = s.env.line := by
  obtain ⟨τ, e⟩ := s.elapse_eq_stamp
  rw [e]
  rfl

theorem drains_elapse (s : State) : Drains s s.elapse := (elapse_quiet s).drains (elapse_line s)

theorem drains_boundary : At Drains s boundary := by
  unfold At
  rcases boundary_cases s with ⟨h, e⟩ | ⟨_, e⟩ <;> rw [e]
  · exact ⟨drains_elapse s, mayStop_back drains_flows (drains_elapse s) (due_mayStop h)⟩
  · exact drains_elapse s

theorem drains_regs {f : State → State} (hf : ∀ t, Drains t (f t)) : At Drains s (regs f) :=
  at_bind drains_flows drains_boundary fun _ t _ => hf t

theorem drains_blockedWait : At Drains s (blockedWait : M α) := by
  unfold At
  rcases blockedWait_cases (α := α) s with ⟨h1, h2, e⟩ | ⟨h, e⟩ <;> rw [e]
  · exact ⟨Quiet.drains ⟨rfl, id⟩ rfl, h1, h2⟩
  · exact ⟨drains_flows.refl s, h⟩

theorem drains_awaitFrame (mk : Byte → RxFlags → WireEvent) : At Drains s (awaitFrame mk) := by
  unfold At
  rcases awaitFrame_cases mk s with ⟨f, rest, _, h, e⟩ | ⟨f, rest, hl, e⟩ | ⟨rest, hl, e⟩ | ⟨_, e⟩ <;> rw [e]
  · unfold State.expiresWaiting at h
    simp only [Bool.and_eq_true] at h
    exact ⟨drains_elapse s, h.1⟩
  · exact ⟨quiet_flows.trans (elapse_quiet s) ⟨rfl, id⟩, hl ▸ List.suffix_cons _ _⟩
  · have hd : Drains s { s with env := { s.env with line := rest } } := ⟨⟨rfl, id⟩, hl ▸ List.suffix_cons _ _⟩
    exact ends_back drains_flows hd drains_blockedWait
  · exact drains_blockedWait

theorem drains_listen (s : State) : Drains s s.listen := Quiet.drains ⟨rfl, runTclk_clock⟩ rfl

theorem drains_recvFrame (mk : Byte → RxFlags → WireEvent) : At Drains s (recvFrame mk) := by
  unfold At
  rcases recvFrame_cases mk s with ⟨h, e⟩ | ⟨_, e⟩ <;> rw [e]
  · exact ⟨drains_flows.refl s, due_mayStop h⟩
  · exact ends_back drains_flows (drains_listen s) (drains_awaitFrame mk)

theorem drains_owner (e : Engine) : At Drains s (requireOwner e) := by
  unfold At
  rcases requireOwner_cases e s with ⟨_, h⟩ | ⟨_, h⟩ <;> rw [h]
  · exact drains_flows.refl s
  · exact ⟨drains_flows.refl s, trivial⟩

theorem drains_sendFrame (e : Engine) (b : Byte) : At Drains s (sendFrame e b) :=
  at_bind drains_flows (drains_owner e) fun _ _ _ =>
    at_bind drains_flows (drains_regs fun _ => Quiet.drains ⟨rfl, runTclk_clock⟩ rfl) fun _ _ _ =>
      Quiet.drains ⟨rfl, id⟩ rfl

theorem drains_rx : At Drains s rx :=
  at_bind drains_flows (drains_recvFrame _) fun a t _ => by exact at_skip drains_flows (at_pure drains_flows _)

theorem drains_tx (b : Byte) : At Drains s (tx b) :=
  at_bind drains_flows (drains_sendFrame _ _) fun _ _ _ => at_bind drains_flows (drains_recvFrame _) fun a t _ => by
    exact at_skip drains_flows (at_ite (fun _ => at_raise drains_flows _) fun _ => at_pure drains_flows _)

theorem drains_send (bs : List Byte) : At Drains s (send .updi bs) := by
  induction bs generalizing s with
  | nil => exact at_pure drains_flows _
  | cons b bs ih => exact at_bind drains_flows (drains_tx b) fun _ _ _ => ih

theorem drains_recvN (n : Nat) : At Drains s (recvN n) := by
  induction n generalizing s with
  | zero => exact at_pure drains_flows _
  | succ n ih =>
    exact at_bind drains_flows drains_rx fun _ _ _ => at_bind drains_flows ih fun _ _ _ => at_pure drains_flows _

theorem drains_ldcs (r : RegIx) : At Drains s (ldcs .updi r) :=
  at_get (at_bind drains_flows (drains_send _) fun _ _ _ => drains_rx)

theorem drains_pollLoop {read : M Byte} (h : ∀ s, At Drains s read) (ok : Byte → Bool) (n : Nat) :
    At Drains s (pollLoop read ok n) := by
  induction n generalizing s with
  | zero => exact drains_blockedWait
  | succ n ih =>
    exact at_bind drains_flows (h s) fun v t _ => at_ite (fun _ => at_pure drains_flows v) fun _ => ih

theorem drains_drive (ev : WireEvent) : At Drains s (drive .updi ev) :=
  drains_regs fun _ => Quiet.drains ⟨rfl, id⟩ rfl

theorem drains_attention : At Drains s (attention .updi) :=
  at_get (at_bind drains_flows (drains_drive _) fun _ _ _ => at_bind drains_flows (drains_drive _) fun _ _ _ =>
    Quiet.drains ⟨rfl, id⟩ rfl)

theorem drains_lineConfig : At Drains s lineConfig :=
  at_get (drains_regs fun _ => Quiet.drains ⟨rfl, id⟩ rfl)

theorem drains_scriptStep (st : ScriptStep) : At Drains s (scriptStep .updi st) := by
  cases st with
  | tx bs => exact at_bind drains_flows (drains_send _) fun _ _ _ => at_pure drains_flows _
  | rx n => exact at_bind drains_flows (drains_recvN _) fun _ _ _ => at_pure drains_flows _
  | expect b => exact at_bind drains_flows drains_rx fun _ _ _ => at_skip drains_flows (at_pure drains_flows _)
  | ldcs r => exact at_bind drains_flows (drains_ldcs _) fun _ _ _ => at_pure drains_flows _
  | stcs r v => exact at_bind drains_flows (at_get (drains_send _)) fun _ _ _ => at_pure drains_flows _
  | poll r mask want =>
    exact at_bind drains_flows (drains_pollLoop (fun _ => drains_ldcs _) _ _) fun _ _ _ => at_pure drains_flows _
  | attn => exact at_bind drains_flows drains_attention fun _ _ _ => at_pure drains_flows _
  | clocks n => exact at_bind drains_flows (at_pure drains_flows ()) fun _ _ _ => at_pure drains_flows _

theorem drains_runSteps (d : List Byte) (sc : Script) : At Drains s (runSteps .updi d sc) := by
  induction sc generalizing s d with
  | nil => exact at_pure drains_flows _
  | cons st rest ih => exact at_bind drains_flows (drains_scriptStep st) fun _ _ _ => ih _

theorem drains_handshake : At Drains s handshake :=
  at_get (at_bind drains_flows (drains_runSteps _ _) fun _ _ _ =>
    at_ite (fun _ => at_raise drains_flows _) fun _ => at_pure drains_flows _)

end

/-! ## Pieces that a silent line ends -/

/-- The piece ends without a value, after an exchange at most. -/
def Fruitless {α : Type} (s : State) (m : M α) : Prop := ∃ e t, m s = .error e t ∧ Drains s t ∧ mayStop s e

section
variable {s : State} {α β : Type} {m : M α} {k : α → M β}

theorem fruitless_left (h : Fruitless s m) : Fruitless s (m >>= k) := by
  obtain ⟨e, t, he, ht⟩ := h
  exact ⟨e, t, by rw [m_bind, he], ht⟩

theorem fruitless_bind (h1 : At Drains s m) (h2 : ∀ a t, Drains s t → Fruitless t (k a)) : Fruitless s (m >>= k) := by
  unfold At at h1
  cases hm : m s with
  | error e t =>
    rw [hm] at h1
    exact ⟨e, t, by rw [m_bind, hm], h1⟩
  | ok a t =>
    rw [hm] at h1
    obtain ⟨e, u, he, hu, hs⟩ := h2 a t h1
    exact ⟨e, u, by rw [m_bind, hm]; exact he, drains_flows.trans h1 hu, mayStop_back drains_flows h1 hs⟩

/-- A reception on a silent line is cut by the expiry or stuck (R145, R333). -/
theorem fruitless_recvFrame (mk : Byte → RxFlags → WireEvent) (hl : s.env.line = []) : Fruitless s (recvFrame mk) := by
  have h := drains_recvFrame (s := s) mk
  unfold At at h
  rcases recvFrame_cases mk s with ⟨_, e⟩ | ⟨_, e⟩
  · rw [e] at h
    exact ⟨_, _, e, h⟩
  · have ha : awaitFrame mk s.listen = blockedWait s.listen := by
      unfold awaitFrame
      rw [show s.listen.env.line = [] from hl]
    rw [ha] at e
    rcases blockedWait_cases (α := Byte × RxFlags) s.listen with ⟨_, _, e2⟩ | ⟨_, e2⟩ <;> rw [e2] at e <;> rw [e] at h <;>
      exact ⟨_, _, e, h⟩

/-- No echo comes (R172). -/
theorem fruitless_tx (b : Byte) (hl : s.env.line = []) : Fruitless s (tx b) :=
  fruitless_bind (drains_sendFrame _ _) fun _ _ hd => fruitless_left (fruitless_recvFrame _ (hd.silent hl))

theorem fruitless_instr (op : Byte) (args : List Byte) (hl : s.env.line = []) : Fruitless s (instr op args) :=
  fruitless_left (k := fun _ => send .updi (op :: args)) (fruitless_tx s.cfg.updi.synch hl)

/-- A connect attempt ends at the SIB's instruction at the latest (R178, R180). -/
theorem fruitless_connectAttempt (hl : s.env.line = []) : Fruitless s connectAttempt :=
  fruitless_bind drains_attention fun _ _ h1 => fruitless_bind drains_lineConfig fun _ _ h2 =>
    fruitless_bind drains_handshake fun _ t h3 =>
      fruitless_left (fruitless_left (m := instr t.cfg.updi.opSib [])
        (fruitless_instr _ _ (h3.silent (h2.silent (h1.silent hl)))))

end

/-! ## SIGN_ON -/

section
variable {s t u : State}

/-- A run of a fruitless operation without a fallback ends in failure, whatever cuts it (R142, R143, R148). -/
theorem supervise_fruitless {m : M Res} {d : Half} (ha : s.wdArmed = false) (hi : s.env.ie = true) (hd : d ≠ 0)
    (h : Fruitless (s.started d) m) : ∃ r t, supervise m .absent d s = .ok r t ∧ r.count = 0 ∧
      t.wdArmed = false ∧ t.env.line <:+ s.env.line ∧ t.calm = s.calm := by
  obtain ⟨e, u, he, ⟨hq, hline⟩, hstop⟩ := h
  have hc : u.calm = s.calm := hq.mild.calm
  have hce : u.elapse.calm = s.calm := (elapse_quiet u).mild.calm.trans hc
  have hle : u.elapse.env.line <:+ s.env.line := (elapse_line u).symm ▸ hline
  rw [supervise_begins ha hi hd]
  cases e with
  | raise c =>
    rw [runLoop_raise (s := { s with wdDeadline := d }) he, recovery_gives_up (.inl rfl)]
    split
    · exact ⟨_, _, rfl, rfl, rfl, hle, hce⟩
    · exact ⟨_, _, rfl, rfl, rfl, hle, hce⟩
  | expired =>
    rw [runLoop_expired (s := { s with wdDeadline := d }) he, recovery_gives_up (.inl rfl)]
    exact ⟨_, _, rfl, rfl, rfl, hline, hc⟩
  | stuck =>
    obtain hoff | hie : (s.started d).wdArmed = false ∨ (s.started d).env.ie = false := hstop
    · cases hoff
    · cases hi.symm.trans hie
  | refused r => exact hstop.elim

/-- A connect that began in `s` has come to `t` without an answer: no run is active, the line is silent, and step 1's
clearing stands (R181). -/
structure Unanswered (s t : State) : Prop where
  armed : t.wdArmed = false
  ie : t.env.ie = true
  line : t.env.line = []
  ui : t.ui = s.ui
  cfg : t.cfg = s.cfg
  sib : t.sib.valid = false
  tracker : t.beforePage = none
  button : t.trstBtn = false

/-- What the supervisor and an exchange write is no part of it. -/
theorem Unanswered.calm (h : Unanswered s t) (hc : u.calm = t.calm) (ha : u.wdArmed = false) (hl : u.env.line = []) :
    Unanswered s u where
  armed := ha
  ie := (show u.calm.env.ie = t.calm.env.ie from congrArg (fun x => x.env.ie) hc).trans h.ie
  line := hl
  ui := (show u.calm.ui = t.calm.ui from congrArg State.ui hc).trans h.ui
  cfg := (show u.calm.cfg = t.calm.cfg from congrArg State.cfg hc).trans h.cfg
  sib := (show u.calm.sib.valid = t.calm.sib.valid from congrArg (fun x => x.sib.valid) hc).trans h.sib
  tracker := (show u.calm.beforePage = t.calm.beforePage from congrArg State.beforePage hc).trans h.tracker
  button := (show u.calm.trstBtn = t.calm.trstBtn from congrArg State.trstBtn hc).trans h.button

theorem Unanswered.phase (h : Unanswered s t) (p : Nat) : Unanswered s { t with ph := p } := h.calm rfl h.armed h.line

theorem Unanswered.noteRate (h : Unanswered s t) : Unanswered s t.noteRate := by
  unfold State.noteRate
  split
  · exact h
  · exact h.calm rfl h.armed h.line

/-- The rate lowered between two attempts, a step of the sequencer. -/
theorem Unanswered.setRate (h : Unanswered s t) (c : Nat) : Unanswered s { t.elapse with clk := c } :=
  h.calm (elapse_quiet t).mild.calm ((quiet_flows.armed (elapse_quiet t)).trans h.armed) ((elapse_line t).trans h.line)

/-- The end of a SIGN_ON of which nothing came: no session but `INIT_FAIL`, the UART released (R181, R310). -/
structure GivenUp (s t : State) : Prop where
  sess : t.sess = ⟨false, false, false, false, true⟩
  ct : t.ct = .stub
  sib : t.sib.valid = false
  tracker : t.beforePage = none
  button : t.trstBtn = false
  armed : t.wdArmed = false
  umode : t.umode = if s.ui.vcpOpen then .vcp else .idle
  tdat : t.tdat = none
  cfg : t.cfg = s.cfg

/-- The failure of a connect takes an unanswered state to its end, whatever the lines' record then holds. -/
theorem Unanswered.connectFailed (h : Unanswered s t) (l : List WireEvent) :
    GivenUp s { t.connectFailed with hist := l } :=
  ⟨rfl, rfl, h.sib, h.tracker, h.button, h.armed, h.ui ▸ rfl, rfl, h.cfg⟩

theorem signOnGiveUp_ends (r : Res) (h : Unanswered s t) :
    ∃ u, signOnGiveUp r t = .ok ⟨0, [], r.cause⟩ u ∧ GivenUp s u := by
  have h5 := h.phase 5
  obtain ⟨l, hw⟩ := write_hist State.connectFailed ({ t with ph := 5 } : State).elapse
  have he : Unanswered s ({ t with ph := 5 } : State).elapse :=
    h5.calm (elapse_quiet _).mild.calm ((quiet_flows.armed (elapse_quiet _)).trans h5.armed)
      ((elapse_line _).trans h5.line)
  refine ⟨_, ?_, he.connectFailed l⟩
  rw [← hw]
  show (upd State.connectFailed >>= fun _ => pure ⟨0, [], r.cause⟩ : M Res) { t with ph := 5 } = _
  rw [m_bind, upd_unarmed _ h5.armed]
  rfl

/-- The attempts of SIGN_ON on a silent line all fail (R181 steps 4 and 5). -/
theorem signOnLoop_ends (n : Nat) (h : Unanswered s t) :
    ∃ r u, signOnLoop n t = .ok r u ∧ r.count = 0 ∧ GivenUp s u := by
  have giveUp : ∀ {v : State} (r : Res), Unanswered s v → ∃ r' u, signOnGiveUp r v = .ok r' u ∧ r'.count = 0 ∧
      GivenUp s u := fun r hv =>
    let ⟨u, e, hu⟩ := signOnGiveUp_ends r hv
    ⟨_, u, e, rfl, hu⟩
  induction n generalizing t with
  | zero => exact giveUp _ h
  | succ n ih =>
    have h4 := h.phase 4
    obtain ⟨r, v, e, hr, hva, hvl, hvc⟩ := supervise_fruitless (d := Config.connectAttemptMs) h4.armed h4.ie (by decide)
      (fruitless_connectAttempt (s := State.started _ { t with ph := 4 }) h4.line)
    have hv : Unanswered s (State.noteRate { v with ph := 4 }) :=
      ((h4.calm hvc hva (List.suffix_nil.1 (h4.line ▸ hvl))).phase 4).noteRate
    have key : signOnLoop (n + 1) t = (if n = 0 then signOnGiveUp r else do
        let s ← get
        match clkLower s.cfg s.clk with
        | none => signOnGiveUp r
        | some c => do
          upd fun s => { s with clk := c }
          signOnLoop n) (State.noteRate { v with ph := 4 }) := by
      show (supervise connectAttempt .absent Config.connectAttemptMs >>= fun r => _) { t with ph := 4 } = _
      rw [m_bind, e]
      dsimp only
      rw [if_neg (not_not_intro hr)]
      rfl
    rw [key]
    generalize State.noteRate { v with ph := 4 } = w at hv
    split
    · exact giveUp r hv
    · rw [m_bind, m_get]
      cases hc : clkLower w.cfg w.clk with
      | none => simpa only [hc] using giveUp r hv
      | some c =>
        simp only [hc]
        rw [m_bind, upd_unarmed _ hv.armed, State.write_quiet rfl]
        exact ih (hv.setRate c)

/-- Steps 1 to 3 of SIGN_ON (R181). -/
def updiSignOnStart : M Unit := do
  phase 1
  connectClear .updi
  phase 2
  connectAcquire .updi
  phase 3
  upd fun s => { s with clk := s.cfg.clkCfgKhz }

theorem updiSignOn_eq_start_bind : updiSignOn = updiSignOnStart >>= fun _ => signOnLoop Config.connectAttempts := by
  rw [updiSignOn_eq, updiSignOnStart]
  simp only [bind_assoc]

theorem goes_updiSignOnStart {k : Bool} {n : Nat} : Goes k n updiSignOnStart s () (s.connectStart .updi) := by
  refine goes_connectStart_phases fun τ => goes_phase_bind fun τ2 => ?_
  have hu := goes_upd (k := k) (n := n) (s := (s.connectStart .updi).stamp τ2)
    (f := fun s => { s with clk := s.cfg.clkCfgKhz })
    (plain_of (fun _ _ => rfl) (fun _ => rfl) (fun _ => rfl) fun _ => rfl)
  rw [State.write_quiet rfl] at hu
  exact hu.upto τ2 (congrArg (State.stamp τ2) (connectStart_setRate .updi s))

theorem connectStart_sibValid (s : State) : (s.connectStart .updi).sib.valid = false := by
  unfold State.connectStart
  simp only [State.write_field (fun s => s.sib.valid) (fun _ _ => rfl)]
  rw [State.acquire_field (fun s => s.sib.valid) .updi _ (fun _ _ => rfl) fun _ _ _ _ => rfl]
  simp only [State.write_field (fun s => s.sib.valid) (fun _ _ => rfl)]
  rfl

theorem connectStart_beforePage (s : State) : (s.connectStart .updi).beforePage = none := by
  unfold State.connectStart
  simp only [State.write_field (fun s => s.beforePage) (fun _ _ => rfl)]
  rw [State.acquire_field (fun s => s.beforePage) .updi _ (fun _ _ => rfl) fun _ _ _ _ => rfl]
  simp only [State.write_field (fun s => s.beforePage) (fun _ _ => rfl)]
  rfl

theorem connectStart_ui (e : Engine) (s : State) : (s.connectStart e).ui = s.ui :=
  State.connectStart_field State.ui e s (fun _ _ => rfl) (fun _ _ _ _ => rfl) (fun _ => rfl) (fun _ => rfl)
    fun _ _ => rfl

theorem unanswered_connectStart (ha : s.wdArmed = false) (hi : s.env.ie = true) (hl : s.env.line = []) :
    Unanswered s (s.connectStart .updi) where
  armed := (connectStart_wdArmed .updi s).trans ha
  ie := (congrArg Env.ie (connectStart_env .updi s)).trans hi
  line := (congrArg Env.line (connectStart_env .updi s)).trans hl
  ui := connectStart_ui .updi s
  cfg := connectStart_cfg .updi s
  sib := connectStart_sibValid s
  tracker := connectStart_beforePage s
  button := connectStart_trstBtn .updi s

/-- SIGN_ON on a silent line ends with count 0, whatever time its steps take (R181). -/
theorem updiSignOn_silent (ha : s.wdArmed = false) (hi : s.env.ie = true) (hl : s.env.line = []) :
    ∃ r t, updiSignOn s = .ok r t ∧ r.count = 0 ∧ GivenUp s t := by
  obtain ⟨τ, e, _, _⟩ := goes_updiSignOnStart (k := true) (State.within_of_disarmed ha)
  have h := unanswered_connectStart ha hi hl
  rw [updiSignOn_eq_start_bind, m_bind, e]
  exact signOnLoop_ends _ (h.calm (u := (s.connectStart .updi).stamp τ) rfl h.armed h.line)

end

/-- Settles O25: the connect's start, the attempts that all fail (`signOnLoop_ends`), the failure delivered. -/
theorem updiSignOnSilentTarget : Obligations.UpdiSignOnSilentTarget := by
  intro s ha hi harch hl
  obtain ⟨r, t, e, hr, h⟩ := updiSignOn_silent (s := s.withRequest .avr 0x10 .none) ha hi hl
  refine ⟨t.deliver r, (avrOp_eq harch).trans ?_, h.sess, h.ct, h.sib, h.tracker, h.button, h.armed, hr, h.umode,
    h.tdat, ?_⟩
  · unfold hostOp outcome
    rw [e]
  · show CmdBody.response (respond t.cfg r) = _
    rw [h.cfg, respond, if_pos hr]
    rfl

end Sys2Proof.Machine
end

section
/-! SUPPORT. TPI.ERASE, TPI.WRITE_MEM and TPI.READ_MEM as the exchanges they are, and the arithmetic of the padding
(R227 to R232). -/

namespace Sys2Proof.Machine

variable {k : Bool} {n : Nat}

/-! ## The padding (R227) -/

theorem chunk_bytes_pos (k : Chunk) : 0 < k.bytes := by cases k <;> decide

section
variable (a c len : Nat)

theorem padStart_mod : padStart c a % c = 0 := Nat.mod_eq_zero_of_dvd (Nat.dvd_sub_mod a)

theorem padStart_le : padStart c a ≤ a := Nat.sub_le a _

theorem lt_padStart_add (hc : 0 < c) : a < padStart c a + c := by
  have hr := Nat.mod_lt a hc
  unfold padStart
  omega

/-- Rounding up to a chunk boundary is rounding down from `c - 1` bytes further on. -/
theorem padEnd_eq : padEnd c a len = padStart c (a + len + c - 1) := rfl

theorem le_padEnd (hc : 0 < c) : a + len ≤ padEnd c a len := by
  have h := lt_padStart_add (a + len + c - 1) c hc
  rw [padEnd_eq]
  omega

theorem padEnd_lt (hc : 0 < c) : padEnd c a len < a + len + c := by
  have h := padStart_le (a + len + c - 1) c
  rw [padEnd_eq]
  omega

end

section
variable (fill : Byte) (p q : Nat) (d : List Byte)

/-- Behind the bytes before it stands the data. -/
theorem padded_data : ((List.replicate p fill ++ d ++ List.replicate q fill).drop p).take d.length = d := by
  rw [List.append_assoc, List.drop_left' List.length_replicate, List.take_left]

/-- Before and after the data stands the fill byte. -/
theorem padded_fill {i : Nat} (hi : i < p + d.length + q) (h : i < p ∨ p + d.length ≤ i) :
    (List.replicate p fill ++ d ++ List.replicate q fill)[i]? = some fill := by
  rcases h with hp | hd
  · rw [List.append_assoc, List.getElem?_append_left (by simpa using hp), List.getElem?_replicate_of_lt hp]
  · rw [List.getElem?_append_right (by simpa using hd), List.getElem?_replicate_of_lt (by simp; omega)]

end

/-- What is before the data, the data, and what is after it. -/
theorem padBuf_length (fill : Byte) (c a : Nat) (d : List Byte) :
    (padBuf fill c a d).length = a - padStart c a + d.length + (padEnd c a d.length - (a + d.length)) := by
  simp [padBuf, Nat.add_assoc]

/-- Settles O43: the range by the two roundings (`padEnd_eq`), the buffer by its three parts. -/
theorem tpiPadding : Obligations.TpiPadding := by
  intro fill k a d _ c
  have hc : 0 < c := chunk_bytes_pos k
  have hs := padStart_le a c
  have he := le_padEnd a c d.length hc
  have hlen := padBuf_length fill c a d
  refine ⟨padStart_mod a c, hs, lt_padStart_add a c hc, padStart_mod _ c, he, padEnd_lt a c d.length hc, by omega,
    padded_data fill _ _ d, fun i hi h => padded_fill fill _ _ d (hlen ▸ hi) h⟩

/-! ## TPI.ERASE (R229, R231) -/

section
variable {s : State} {sc cmd et : Byte} {a : Addr} {ms : List Move} {rest : List LineEvent}

/-- An address of the wire's 16 bits (R71). -/
theorem inSpace16_one (h : a.toNat < 2 ^ 16) : inSpace16 a 1 = true := decide_eq_true h

theorem vtgOk_of_le (h : s.cfg.tpi.vminMv ≤ s.env.vtg) : vtgOk s = true := decide_eq_true h

/-- The chip erase, which sets `ERASE_DONE` (R231). -/
theorem goes_tpiErase_chip (hb : s.cb.body = .request sc cmd (.erase s.cfg.tpi.xetChip a)) (hp : s.sess.prog = true)
    (hu : s.umode = .tpi) (hv : s.cfg.tpi.vminMv ≤ s.env.vtg) (ha : a.toNat < 2 ^ 16)
    (hm : tpiEraseRuns s.cfg a s.cfg.tpi.cmdChipErase ms) (hh : s.hears .tpi ms rest) :
    Goes k n tpiErase s (Res.ok 1) (s.moved .tpi ms rest).setErased := by
  refine goes_cbErase hb (goes_get (goes_require hp (goes_require (vtgOk_of_le hv) ?_)))
  rw [if_pos rfl]
  exact goes_require (inSpace16_one ha) (acts_tpiErase_chip hm k n s rest hu rfl hh)

/-- The configuration erase (R231). -/
theorem goes_tpiErase_config (hb : s.cb.body = .request sc cmd (.erase s.cfg.tpi.xetConfig a))
    (hc : s.cfg.tpi.xetConfig ≠ s.cfg.tpi.xetChip) (hp : s.sess.prog = true) (hu : s.umode = .tpi)
    (hv : s.cfg.tpi.vminMv ≤ s.env.vtg) (ha : a.toNat < 2 ^ 16)
    (hm : tpiEraseRuns s.cfg a s.cfg.tpi.cmdSectionErase ms) (hh : s.hears .tpi ms rest) :
    Goes k n tpiErase s (Res.ok 1) (s.moved .tpi ms rest) := by
  refine goes_cbErase hb (goes_get (goes_require hp (goes_require (vtgOk_of_le hv) ?_)))
  rw [if_neg hc, if_pos rfl]
  have erases := plays_bind_nil (k := fun _ => pure (Res.ok 1)) (plays_tpiEraseAt hm) plays_pure
  exact goes_require (inSpace16_one ha) (erases k n s rest hu rfl hh)

/-- Any other erase type does nothing (R231). -/
theorem goes_tpiErase_unhonored (hb : s.cb.body = .request sc cmd (.erase et a)) (hc : et ≠ s.cfg.tpi.xetChip)
    (hx : et ≠ s.cfg.tpi.xetConfig) (hp : s.sess.prog = true) (hv : s.cfg.tpi.vminMv ≤ s.env.vtg) :
    Goes k n tpiErase s ⟨s.cfg.eraseUnhonored, [], none⟩ s := by
  refine goes_cbErase hb (goes_get (goes_require hp (goes_require (vtgOk_of_le hv) ?_)))
  rw [if_neg hc, if_neg hx]
  exact goes_pure

end

/-! ## TPI.WRITE_MEM and TPI.READ_MEM (R228, R230, R232) -/

/-- Settles O42: the padded write (`goes_tpiWrite`) and the loads (`goes_tpiRead`), each a run. -/
theorem tpiMemory : Obligations.TpiMemory := by
  intro s mt a n d rest hr hp hu hn hd u
  have h0 := count_ne_zero hn
  refine ⟨fun ms hv he hm hh => ?_, fun hi hh => ?_⟩
  · exact hostRun_goes (op := .tpiWrite) (k := true) hr (fun _ => goes_tpiWrite rfl hu hp hn hd hv he hm hh) (.inl h0)
      nofun
  · exact hostRun_goes (op := .tpiRead) (k := true) hr (fun _ => goes_tpiRead rfl hu hp hn hi hd hh)
      (.inl (hd.trans_ne h0)) nofun

end Sys2Proof.Machine

namespace Sys2Proof

open Machine

/-! ## TPI.ERASE as a run (R153, R229, R231) -/

/-- Settles O41: the two erases with their exchanges, a type that is not honored, and the gate as a row of
R324's table (`requirementsAreChecked`). -/
theorem tpiErase : Obligations.TpiErase := by
  intro s et a ms rest hr hp hu hh u
  refine ⟨fun hv ha => ⟨fun he hm => ?_, fun hc he hm => ?_⟩, fun hv hc hx hf => ?_, fun hv hf => ?_⟩
  · subst he
    exact hostRun_goes (op := .tpiErase) (k := true) hr (fun _ => goes_tpiErase_chip rfl hp hu hv ha hm hh)
      (.inl (by decide)) nofun
  · subst he
    exact hostRun_goes (op := .tpiErase) (k := true) hr (fun _ => goes_tpiErase_config rfl hc hp hu hv ha hm hh)
      (.inl (by decide)) nofun
  · exact hostRun_goes (op := .tpiErase) (k := true) hr (fun _ => goes_tpiErase_unhonored rfl hc hx hp hv) (.inr hf)
      nofun
  · obtain ⟨_, hfail⟩ := (requirementsAreChecked s).1 (.tpiErase et a) _ _ _ _ rfl
    exact hfail nofun hr hf (.inr (.inr (.inr (by simp [lacks, vtgOk, hv]))))

end Sys2Proof
end

section
/-! SUPPORT. The PDI wire rows and the fixed NVM sequencing run by themselves (R250, R251, R255, R258), and
ENTER_PROGMODE and the memory operations of PDI as runs (R253, R254 to R259). -/

namespace Sys2Proof.Machine

/-! ## The wire rows (R251, R255) -/

/-- A stream instruction that brings its data (R255; log 28). -/
theorem plays_pdiStreamIn (c : Params) {n : Nat} {d : List Byte} (hd : d.length = n) : Plays .pdi c (do
    send .pdi [c.pdi.opLdInc]
    let d ← recvN n
    pure (Res.read d)) (outs [c.pdi.opLdInc] ++ ins d) (Res.read d) :=
  plays_bind (plays_send .pdi c _) (plays_bind_nil (hd ▸ plays_recvN .pdi c d) plays_pure)

/-- Settles O44: each row is its exchange: its own bytes out (`primOp_sends`), and what the reads bring. -/
theorem pdiWire : Obligations.PdiWire := by
  intro s rest ha hu
  have sends {m : M Res} {r : Res} {bs : List Byte} (h : Plays .pdi s.cfg m (outs bs) r) :=
    primOp_sends (e := .pdi) (by decide) bs ha hu h
  refine ⟨fun r v => sends (plays_done (plays_stcs _ _ r v)), sends (plays_done (plays_sendSyncKey _ _)),
    fun a v => sends (plays_done (plays_pdiSts8 _ a v)), fun a => sends (plays_done (plays_pdiSetPtr _ a)),
    fun n => sends (plays_done (plays_pdiRepeat _ n)), fun d => sends (plays_bind_nil (plays_send _ _ _) plays_pure),
    fun r v hh => ?_, fun a v hh => ?_, fun n d hd hh => ?_⟩
  · exact primOp_plays ha hu hh (plays_oneByte (plays_ldcs _ _ r v))
  · exact primOp_plays ha hu hh (plays_oneByte (plays_pdiLds8 _ a v))
  · exact primOp_plays ha hu hh (plays_pdiStreamIn _ hd)

section
variable {k : Bool} {n : Nat} {s : State} {q : MemKind} {mt et sc cmd : Byte} {a : Addr} {d : List Byte}
  {m1 m2 : List Move} {rest : List LineEvent}

/-! ## The fixed NVM sequencing (R258, R325) -/

/-- A memory kind without a sequence is refused before anything is sent (R258, R325; log 26). -/
theorem pdiNvmWrite_unsupported (hp : pdiPageCmds s.cfg.pdi q = none) (hb : pdiByteCmd s.cfg.pdi q = none) :
    pdiNvmWrite q a d s = .error (.raise .unsupported) s := by
  unfold pdiNvmWrite
  rw [m_bind, m_get]
  simp only [hp, hb]
  exact m_raise _ s

/-- The row of a memory type that names a kind (R258). -/
theorem exec_pdiNvmSequence (hk : memKind s.cfg mt = some q) :
    exec (.pdiNvmSequence mt a d) s = primOp (pdiNvmWrite q a d) s := by
  show execPdiNvmSequence mt a d s = _
  unfold execPdiNvmSequence
  rw [hk]

/-- The row of an unknown memory type (R258, R325). -/
theorem exec_pdiNvmSequence_unknown (hk : memKind s.cfg mt = none) :
    exec (.pdiNvmSequence mt a d) s = primOp (raise .unsupported) s := by
  show execPdiNvmSequence mt a d s = _
  unfold execPdiNvmSequence
  rw [hk]

/-- Settles O46: the two paths (`plays_pdiNvmWrite`); an unknown type, and the kinds with no command of either path. -/
theorem pdiNvmSequence : Obligations.PdiNvmSequence := by
  intro s mt a d rest ha
  refine ⟨fun q ms hu hb hk hm hh => ?_, fun h => ?_⟩
  · rw [exec_pdiNvmSequence hk]
    exact primOp_plays ha hu hh (plays_pdiNvmWrite hb hm)
  · have none_of {q : MemKind} (hk : memKind s.cfg mt = some q) (hp : pdiPageCmds s.cfg.pdi q = none)
        (hb : pdiByteCmd s.cfg.pdi q = none) :=
      (exec_pdiNvmSequence (a := a) (d := d) hk).trans (primOp_raises (pdiNvmWrite_unsupported hp hb))
    rcases h with hk | hk | hk | hk | hk
    · rw [exec_pdiNvmSequence_unknown hk]
      exact primOp_raises (m_raise _ s)
    all_goals exact none_of hk rfl rfl

/-! ## ENTER_PROGMODE (R253) -/

/-- Already granted there is nothing to do (R253). -/
theorem goes_pdiEnter_granted (hl : s.sess.link = true) (hp : s.sess.prog = true) :
    Goes k n pdiEnter s (Res.ok 1) s := by
  refine goes_get (goes_require hl ?_)
  rw [if_pos hp]
  exact goes_pure

/-- Settles O48: granted (`goes_pdiEnter_granted`), and not (`pdiEnter_answers`). -/
theorem pdiEnterProgmode : Obligations.PdiEnterProgmode := by
  intro s hr harch hl u
  refine ⟨fun hp => ?_, fun m1 r m3 rest hp hu h1 h3 hh => pdiEnter_answers hr harch hl hp hu h1 h3 hh⟩
  exact avrRun_answers (op := .pdiEnterProgmode) harch hr (fun _ => goes_pdiEnter_granted hl hp) (.inl (by decide))
    nofun

/-! ## READ_MEMORY and WRITE_MEMORY (R254 to R258) -/

/-- Settles O49: `goes_pdiRead` and `goes_pdiWrite`, each as a run. -/
theorem pdiMemory : Obligations.PdiMemory := by
  intro s mt q a a' n d rest hr harch hp hu hb hn hi hd hk hx hi'
  have h0 := count_ne_zero hn
  refine ⟨fun ms hq hm hh => ?_, fun ms hq hm hh => ?_⟩
  · exact avrRun_answers (op := .pdiRead) harch hr
      (fun _ => goes_pdiRead rfl hu hp hb hn hi hd hk hx hi' hq hm hh) (.inl (hd.trans_ne h0)) nofun
  · exact avrRun_answers (op := .pdiWrite) harch hr
      (fun _ => goes_pdiWrite rfl hu hp hb hn hi hd hk hx hi' hq hm hh) (.inl h0) nofun

/-! ## ERASE_MEMORY (R259) -/

/-- The chip erase sets `ERASE_DONE` (R259). -/
theorem goes_pdiErase_chip (hb : s.cb.body = .request sc cmd (.erase s.cfg.etChip a)) (hp : s.sess.prog = true)
    (hu : s.umode = .pdi) (h1 : pdiWaitRuns s.cfg m1) (h2 : pdiWaitRuns s.cfg m2)
    (hh : s.hears .pdi (m1 ++ (pdiCmdMoves s.cfg s.cfg.pdi.cChipErase ++
      (pdiStoreMoves s.cfg s.cfg.pdi.nvmCtrlA s.cfg.pdi.cmdex ++ m2))) rest) :
    Goes k n pdiErase s (Res.ok 1) (s.moved .pdi (m1 ++ (pdiCmdMoves s.cfg s.cfg.pdi.cChipErase ++
      (pdiStoreMoves s.cfg s.cfg.pdi.nvmCtrlA s.cfg.pdi.cmdex ++ m2))) rest).setErased := by
  refine goes_cbErase hb (goes_get (goes_require hp ?_))
  rw [if_pos rfl]
  exact acts_pdiErase_chip h1 h2 k n s rest hu rfl hh

/-- The page erase at the operand, in any space (R259; log 52). -/
theorem goes_pdiErase_page (hb : s.cb.body = .request sc cmd (.erase s.cfg.etPage a))
    (hc : s.cfg.etPage ≠ s.cfg.etChip) (hp : s.sess.prog = true) (hu : s.umode = .pdi)
    (h1 : pdiWaitRuns s.cfg m1) (h2 : pdiWaitRuns s.cfg m2)
    (hh : s.hears .pdi (m1 ++ (pdiCmdMoves s.cfg s.cfg.pdi.cErasePage ++ (pdiStoreMoves s.cfg a 0 ++ m2))) rest) :
    Goes k n pdiErase s (Res.ok 1)
      (s.moved .pdi (m1 ++ (pdiCmdMoves s.cfg s.cfg.pdi.cErasePage ++ (pdiStoreMoves s.cfg a 0 ++ m2))) rest) := by
  refine goes_cbErase hb (goes_get (goes_require hp ?_))
  rw [if_neg hc, if_pos rfl]
  exact plays_pdiErase_page h1 h2 k n s rest hu rfl hh

/-- Any other erase type does nothing (R259; log 43). -/
theorem goes_pdiErase_unhonored (hb : s.cb.body = .request sc cmd (.erase et a)) (hc : et ≠ s.cfg.etChip)
    (he : et ≠ s.cfg.etPage) (hp : s.sess.prog = true) :
    Goes k n pdiErase s ⟨s.cfg.eraseUnhonored, [], none⟩ s := by
  refine goes_cbErase hb (goes_get (goes_require hp ?_))
  rw [if_neg hc, if_neg he]
  exact goes_pure

end

/-- Settles O50: the two erases with their exchanges, and a type that is not honored. -/
theorem pdiEraseMemory : Obligations.PdiEraseMemory := by
  intro s et a m1 m2 rest hr harch hp u
  refine ⟨fun hu h1 h2 => ⟨fun ms he hm hh => ?_, fun ms hc he hm hh => ?_⟩, fun hc he hf => ?_⟩
  · subst he hm
    exact avrRun_answers (op := .pdiErase) harch hr (fun _ => goes_pdiErase_chip rfl hp hu h1 h2 hh)
      (.inl (by decide)) nofun
  · subst he hm
    exact avrRun_answers (op := .pdiErase) harch hr (fun _ => goes_pdiErase_page rfl hc hp hu h1 h2 hh)
      (.inl (by decide)) nofun
  · exact avrRun_answers (op := .pdiErase) harch hr (fun _ => goes_pdiErase_unhonored rfl hc he hp) (.inr hf) nofun

end Sys2Proof.Machine
end

section
/-! SUPPORT. The NVM controller rows: the helpers and the page tracker, the write methods, the variants' functions, and
the variants without a record (R270 to R273, R275 to R283, R285). -/

namespace Sys2Proof.Machine

section
variable {s : State} {r : VariantRec} {v : Variant} {mt : Byte} {k : MemKind} {a : Addr} {d : List Byte}

/-- A primitive that only answers leaves the state and the time tape as they were (R11). -/
theorem primOp_returns {m : M Res} {x : Res} (h : m s = .ok x s) : primOp m s = .next (s.ended x s.env.delays) := by
  unfold primOp outcome
  rw [h]
  rfl

/-! ## Controller helpers and the page tracker (R270, R272, R273) -/

/-- The piece of each controller helper. -/
def ctlPiece (r : VariantRec) (w : PtrWidth) : NvmCtl → M Unit
  | .cmd x => nvmCmd r w x
  | .wait => nvmWait r w

/-- The row, of a bound variant with a record, is its helper's piece (R270; log 28). -/
theorem exec_nvmCtl {q : NvmCtl} (hr : variantRec s.cfg s.ct = some r) :
    exec (.nvmCtl q) s = primOp (done (ctlPiece r (boundWidth s) q)) s := by
  show execNvmCtl q s = _
  unfold execNvmCtl
  rw [hr]
  cases q <;> rfl

theorem exec_nvmCtl_stub {q : NvmCtl} (hr : variantRec s.cfg s.ct = none) :
    exec (.nvmCtl q) s = primOp (pure stubResult) s := by
  show execNvmCtl q s = _
  unfold execNvmCtl
  rw [hr]

theorem goes_pageNote {b : Bool} {n : Nat} : Goes b n (pageNote a) s () { s with beforePage := some a } := by
  have h := goes_upd (k := b) (n := n) (s := s) (effect_setTracker .updi (some a)).plain
  rwa [State.write_quiet rfl] at h

/-- The count `page_check` answers is 0 exactly on the tracker's page (R273). -/
theorem pageCheck_count (a page : Addr) (s : State) : (if (pageCheck a page s).1 then 1 else 0) =
    if s.beforePage = some (pageAlign a page) then 0 else 1 := by
  by_cases h : s.beforePage = some (pageAlign a page) <;> simp [pageCheck, h]

theorem exec_pageCheck {page : Addr} : exec (.nvmPage (.check a page)) s = .next (s.ended
    ⟨if s.beforePage = some (pageAlign a page) then 0 else 1, le32 (pageAlign a page), none⟩ s.env.delays) := by
  rw [← pageCheck_count]
  exact primOp_returns (m := pure _) rfl

/-! ## The write methods (R285) -/

/-- The piece of each write method. -/
def methodWrite (r : VariantRec) (w : PtrWidth) (k : MemKind) (a : Addr) (d : List Byte) : WriteMethod → M Res
  | .plain => writePlain w a d
  | .explicit page => writeExplicit r w k a d page
  | .atomic => writeAtomic r w k a d
  | .bytewise => writeBytewise r w k a d
  | .burst2 => writeBurst2 r w k a d

/-- The row, of a bound variant with a record and a known memory type, is its method's piece (R285; log 28). -/
theorem exec_writeMethod {m : WriteMethod} (hr : variantRec s.cfg s.ct = some r) (hk : memKind s.cfg mt = some k) :
    exec (.nvmWriteMethod m mt a d) s = primOp (methodWrite r (boundWidth s) k a d m) s := by
  show execNvmWriteMethod m mt a d s = _
  unfold execNvmWriteMethod
  rw [hr, hk]
  cases m <;> rfl

/-! ## The variants' write functions (R275, R278, R279) -/

/-- The write function of a variant with a record writes a known memory type with the variant's method. -/
theorem variantFn_write (hv : variantRec s.cfg v = some r) (hk : memKind s.cfg mt = some k) :
    variantFn v (.writeMemory mt a d) s = ctWrite v k a d s := by
  simp only [variantFn, m_bind, m_get, hv, hk]

theorem variantFn_write_unknown (hv : variantRec s.cfg v = some r) (hk : memKind s.cfg mt = none) :
    variantFn v (.writeMemory mt a d) s = .error (.raise .unsupported) s := by
  simp only [variantFn, m_bind, m_get, hv, hk]
  exact m_raise _ s

/-- No variant with a record writes a read-only memory type (R106, R275, R278, R279). -/
theorem ctWrite_readOnly (hv : variantRec s.cfg v = some r) (hk : memClass k = .readOnly) :
    ctWrite v k a d s = .error (.raise .unsupported) s := by
  cases v with
  | stub | v1 | v2 | v5 => cases hv
  | v0 | v3 | v4 =>
    simp only [ctWrite, v0Write, v3Write, v4Write, m_bind, m_get, hk]
    rfl

theorem primOp_variantWrite {ms : List Move} {tracker : Option Addr} {rest : List LineEvent} (ha : s.wdArmed = false)
    (hu : s.umode = .updi) (hv : variantRec s.cfg v = some r) (hk : memKind s.cfg mt = some k)
    (hh : s.hears .updi ms rest) (hm : writeRuns s v r k a d ms tracker) :
    ∃ ds, primOp (variantFn v (.writeMemory mt a d)) s =
      .next (((s.moved .updi ms rest).setTracker tracker).ended (Res.ok d.length) ds) :=
  primOp_goes ha (fun _ => goes_congr (variantFn_write hv hk) (goes_ctWrite hv hm hu hh)) rfl

/-- A memory type that is unknown or read-only (R106, R325). -/
theorem primOp_variantWrite_unsupported (hv : variantRec s.cfg v = some r)
    (hk : ∀ k, memKind s.cfg mt = some k → memClass k = .readOnly) :
    primOp (variantFn v (.writeMemory mt a d)) s = .next (s.ended (Res.fail .unsupported) s.env.delays) := by
  refine primOp_raises ?_
  cases hm : memKind s.cfg mt with
  | none => exact variantFn_write_unknown hv hm
  | some k => exact (variantFn_write hv hm).trans (ctWrite_readOnly hv (hk k hm))

/-- A single piece reaches no further than its own address (R71). -/
theorem reaches_one {w : PtrWidth} {unit : Nat} (h : ptrFits w a = true) : reaches w a 1 unit :=
  ⟨Nat.le_refl 1, h, by simpa [addrAt] using h⟩

/-! ## The variants without a record (R272, R277, R280) -/

theorem ctRead_stub {n : Nat} (hv : variantRec s.cfg v = none) : ctRead v a n s = .ok stubResult s := by
  simp only [ctRead, m_bind, m_get, hv]
  rfl

theorem ctErase_stub (hv : variantRec s.cfg v = none) : ctErase v a s = .ok stubResult s := by
  cases v with
  | v0 | v3 | v4 => cases hv
  | stub | v1 | v2 | v5 => rfl

theorem progInit_stub (hv : variantRec s.cfg v = none) : progInit v s = .ok 0 s := by
  unfold progInit
  rw [hv]

/-- A variant without a record answers 0 in all its functions, and does nothing (R272). -/
theorem variantFn_stub {f : VariantFn} (hv : variantRec s.cfg v = none) : variantFn v f s = .ok stubResult s := by
  cases f with
  | progInit =>
    simp only [variantFn, m_bind, progInit_stub hv]
    rfl
  | readMemory mt a n => exact ctRead_stub hv
  | eraseMemory et a => exact ctErase_stub hv
  | writeMemory mt a d =>
    simp only [variantFn, m_bind, m_get, hv]
    rfl

theorem primOp_variantFn_stub {f : VariantFn} (hv : variantRec s.cfg v = none) :
    primOp (variantFn v f) s = .next (s.ended stubResult s.env.delays) := primOp_returns (variantFn_stub hv)

end

/-! ## The obligations -/

/-- Settles O32: a store, a poll that ends well or on the error bit (`breaks_nvmWait`), the tracker read and set. -/
theorem nvmHelpers : Obligations.NvmHelpers := by
  intro s
  refine ⟨fun r x ms rest ha hu hr hm hh => ?_, fun r busy v rest ha hu hr hb hy h0 hh => ?_, fun q hr => ?_,
    fun a page => exec_pageCheck, fun a ha => primOp_goes ha (fun n => goes_done goes_pageNote) rfl⟩
  · rw [exec_nvmCtl hr]
    exact primOp_plays ha hu hh (plays_done (plays_store hm))
  · rw [exec_nvmCtl hr]
    by_cases he : v &&& r.errMask = 0
    · rw [if_pos he]
      exact primOp_plays ha hu hh (plays_done (plays_nvmWait ⟨hb, busy, v, hy, h0, he, rfl⟩))
    · rw [if_neg he]
      exact primOp_fails ha (fun n => fails_done (breaks_nvmWait hb hy h0 he true n s rest hu ⟨rfl, rfl⟩ hh)) rfl
  · rw [exec_nvmCtl_stub hr]
    exact primOp_returns rfl

/-- Settles O33: each method's exchange. -/
theorem writeMethods : Obligations.WriteMethods := by
  intro s r mt k a d ms rest ha hu hr hk hh w t
  simp only [exec_writeMethod hr hk]
  exact ⟨fun ht he => primOp_plays ha hu hh (he ▸ plays_writePlain ht),
    fun ht hm => primOp_plays ha hu hh (plays_writeAtomic ht hm),
    fun hc hm => primOp_plays ha hu hh (plays_writeBytewise hc hm),
    fun hc hm => primOp_plays ha hu hh (plays_writeBurst2 hc hm)⟩

/-- Settles O35: each variant's write (`primOp_variantWrite`), the types it refuses, and the fuse write as a bytewise
write of one byte. -/
theorem variantWrites : Obligations.VariantWrites := by
  intro s mt k a d ms tracker rest ha
  refine ⟨fun hu hk hh => ⟨primOp_variantWrite ha hu rfl hk hh, primOp_variantWrite ha hu rfl hk hh,
    primOp_variantWrite ha hu rfl hk hh⟩, fun hk => ?_, fun b m r2 hu hp hm hh => ?_⟩
  · have hr : ∀ q, memKind s.cfg mt = some q → memClass q = .readOnly := by
      intro q hq
      rw [hq] at hk
      rcases hk with h | h | h | h <;> cases h <;> rfl
    exact ⟨primOp_variantWrite_unsupported rfl hr, primOp_variantWrite_unsupported rfl hr,
      primOp_variantWrite_unsupported rfl hr⟩
  · exact primOp_plays ha hu hh (plays_writeBytewise (k := .fuse) (d := [b]) (reaches_one hp) hm)

/-- Settles O37: the three functions' exchanges. -/
theorem variantReadEraseInit : Obligations.VariantReadEraseInit := by
  intro s r rest ha hu hr
  refine ⟨fun mt a n d hd ht hh => ?_, fun et a ms hm hh => primOp_goes ha (fun n => goes_ctErase hr hm hu hh) rfl,
    fun ms hm hh => primOp_plays ha hu hh (plays_bind_nil (plays_progInit hr hm) plays_pure)⟩
  show ∃ ds, primOp (ctRead s.ct a n.toNat) s = _
  rw [← hd] at ht ⊢
  exact primOp_plays ha hu hh (plays_ctRead hr ht)

/-- Settles O36: none of these variants has a record (`variantFn_stub`). -/
theorem stubsDoNothing : Obligations.StubsDoNothing := by
  intro s
  refine ⟨fun f => primOp_variantFn_stub (v := .stub) rfl, fun v f => ?_,
    fun mt a d => primOp_variantFn_stub (v := .v1) (f := .writeMemory mt a d) rfl,
    fun hv => ⟨fun mt a n => primOp_variantFn_stub hv, fun et a => primOp_variantFn_stub hv, primOp_variantFn_stub hv⟩⟩
  cases v with
  | v2 => exact primOp_variantFn_stub (v := .v2) rfl
  | v5 => exact primOp_variantFn_stub (v := .v5) rfl

end Sys2Proof.Machine
end

section
/-! SUPPORT. The button: the next state of a consumed edge and of a sample, with the reset request each leaves (R301 to
R306). -/

namespace Sys2Proof.Machine

/-- With no press edge there is nothing to consume; with one, a session that holds the link keeps the request as it was
(R303, R305). -/
theorem takePress_eq_request (s : State) : s.takePress = { s with
    ui := { s.ui with swPress := false }
    trstBtn := if s.ui.swPress = true ∧ s.sess.link = false then true else s.trstBtn } := by
  unfold State.takePress
  split
  · next h => cases s.sess.link <;> simp [h]
  · next h => rw [if_neg fun hc => h hc.1, ← Bool.eq_false_iff.2 h]

/-- With no release edge there is nothing to consume; with one, a session that holds the link keeps the request as it
was (R304, R305). -/
theorem takeRelease_eq_request (s : State) : s.takeRelease = { s with
    ui := { s.ui with swRelease := false }
    trstBtn := if s.ui.swRelease = true ∧ s.sess.link = false then false else s.trstBtn } := by
  unfold State.takeRelease
  split
  · next h => cases s.sess.link <;> simp [h]
  · next h => rw [if_neg fun hc => h hc.1, ← Bool.eq_false_iff.2 h]

/-- With no edge flag set before, a sample's level and the level before it are its edges: a press from released to
pressed, a release from pressed to released, none at the first sample (R301). -/
theorem latchEdges_of_clear {s : State} (hp : s.ui.swPress = false) (hr : s.ui.swRelease = false) (v : Bool) :
    s.latchEdges v = { s with
      ui := { s.ui with
        swPress := v && s.swPrev == some false
        swRelease := !v && s.swPrev == some true }
      swPrev := some v } := by
  simp only [State.latchEdges, hp, hr, Bool.false_or]

/-- A sample with no edge flag set before consumes in the same step the edge it latches (R301, R302). -/
theorem sample_eq_request {s : State} (hp : s.ui.swPress = false) (hr : s.ui.swRelease = false) (v : Bool) :
    s.sample v = { s with
      swPrev := some v
      trstBtn := if s.sess.link = true then s.trstBtn
        else if v = true ∧ s.swPrev = some false then true
        else if v = false ∧ s.swPrev = some true then false
        else s.trstBtn } := by
  have hui : { s.ui with swPress := false, swRelease := false } = s.ui :=
    congrArg₂ (fun p r => { s.ui with swPress := p, swRelease := r }) hp.symm hr.symm
  rw [State.sample, takeRelease_eq_request, takePress_eq_request, latchEdges_of_clear hp hr]
  simp only [hui]
  cases s.sess.link
  · cases v <;> simp
  · simp

/-- A register write as its own change, with the change of `TRST` it makes recorded after it (R306). -/
theorem write_eq_noted {f : State → State} {s t : State} (h : f s = t) :
    s.write f = { t with hist := if t.trst = s.trst then t.hist else .trst t.trst :: t.hist } := by
  rw [State.write, State.noteTrst_eq, h]

/-- Settles O51: each step is one write of the button's registers, with the change of `TRST` it makes. -/
theorem button : Obligations.Button := by
  intro s
  refine ⟨congrArg Host.Outcome.next (write_eq_noted (takePress_eq_request s)),
    congrArg Host.Outcome.next (write_eq_noted (takeRelease_eq_request s)), fun v hp hr => ?_⟩
  have sampled := write_eq_noted (sample_eq_request hp hr v)
  exact ⟨congrArg Host.Outcome.next sampled, congrArg Host.Outcome.next sampled⟩

end Sys2Proof.Machine
end
